-- ==== Sys2Proof/Word.lean ====
section
/-! DEFINITION. The words of the machine and their plainest arithmetic (R2, R42, R90): bytes, 16-, 32-, 64- and 96-bit words, and the sparse tables that hold registers, memory and records. -/

namespace Sys2Proof

abbrev Byte := BitVec 8
abbrev Word := BitVec 32
abbrev DWord := BitVec 64
/-- One bit for each lane of a wave; bit i is lane i (R35). -/
abbrev Mask := BitVec 96
/-- An instruction word (R42). -/
abbrev IWord := BitVec 96
/-- One 128-byte line (R181), byte i in bits 8i+7:8i. -/
abbrev Line := BitVec 1024

/-- A sparse table: keys and values, kept in ascending key order by the operations of Machine/Tbl.lean. -/
abbrev Tbl (α : Type) := List (Nat × α)

end Sys2Proof
end

