-- ==== Sys2Proof/Config.lean ====
section
/-! DEFINITION. What the manual leaves free (opaque constants with no body) and what it leaves to standards it does not give. Nothing can evaluate them, so a claim about them holds for every value. -/

namespace Sys2Proof.Config

/-- R53, R54: whether a source read before its producer's result is ready gives the new value.
Arguments: the free-value counter of the state, the operand field, the register code, the lane. -/
opaque earlyNew : Nat → Nat → Nat → Nat → Bool

/-- R350: whether four or more bytes in error in a sector are detected. Arguments: the free-value counter and the sector. -/
opaque manyErrorsDetected : Nat → Nat → Bool

/-- R240: which allowed value an overlapped destination word of a copy takes: true for the word that the command wrote. -/
opaque overlapNew : Nat → Nat → Bool

/-- R249: the stamp that a message from the far end of a link carries. Argument: the free-value counter. -/
opaque linkStamp : Nat → BitVec 48

/-- R378: what a lane of `vshfl` reads whose source is a visible lane past the last of a protected wave. Arguments: the free-value counter and the visible lane. -/
opaque absentLane : Nat → Nat → BitVec 32

/-- SM3 (R124, R332): the manual names the standard and does not define it. -/
opaque sm3 : List Bool → BitVec 256

/-- SM2 signature verification of a digest against a key (R332). -/
opaque sm2Verify : BitVec 256 → BitVec 512 → BitVec 512 → Bool

/-- R332: the SM3 digest of the public key that is fused, and the least security version that is fused. -/
opaque fusedKeyDigest : BitVec 256
opaque fusedVersion : Nat

/-- R333: the digests of the boot ROM and of the firmware configuration, measurements 1 and 3. -/
opaque romDigest : BitVec 256
opaque fwConfigDigest : BitVec 256

/-- R138: the value of a special function where the model's enclosures do not separate two neighbouring results.
Arguments: the function's number and the operand. -/
opaque specialTie : Nat → BitVec 32 → BitVec 32

end Sys2Proof.Config
end

