-- ==== Sys2Proof/Machine/Tbl.lean ====
section
/-! DEFINITION. Operations on the sparse tables that hold every numbered thing of the machine, and on byte memories in canonical form. -/

namespace Sys2Proof.Tbl

variable {α β : Type}

/-- The value at a key, if the table has one. -/
def get? : Tbl α → Nat → Option α
  | [], _ => none
  | (j, x) :: t, k => if j = k then some x else get? t k

/-- The value at a key, or a default. -/
def getD (t : Tbl α) (k : Nat) (d : α) : α := (get? t k).getD d

/-- Set the value at a key, keeping ascending order. -/
def set : Tbl α → Nat → α → Tbl α
  | [], k, v => [(k, v)]
  | (j, x) :: t, k, v =>
    if k < j then (k, v) :: (j, x) :: t
    else if j = k then (k, v) :: t
    else (j, x) :: set t k v

/-- Remove a key. -/
def erase (t : Tbl α) (k : Nat) : Tbl α := t.filter (fun e => e.1 != k)

/-- Change the value at a key, if there is one. -/
def modify (t : Tbl α) (k : Nat) (f : α → α) : Tbl α :=
  t.map (fun e => if e.1 = k then (e.1, f e.2) else e)

/-- Change every value. -/
def mapVal (f : Nat → α → β) (t : Tbl α) : Tbl β := t.map (fun e => (e.1, f e.1 e.2))

def keys (t : Tbl α) : List Nat := t.map (·.1)

def has (t : Tbl α) (k : Nat) : Bool := (get? t k).isSome

/-- The first entry whose value meets a test, in ascending key order. -/
def find? (t : Tbl α) (f : Nat → α → Bool) : Option (Nat × α) := List.find? (fun e => f e.1 e.2) t

def any (t : Tbl α) (f : Nat → α → Bool) : Bool := List.any t (fun e => f e.1 e.2)

def filterVal (t : Tbl α) (f : Nat → α → Bool) : Tbl α := t.filter (fun e => f e.1 e.2)

/-- Keys strictly rise. -/
def Sorted (t : Tbl α) : Prop := t.Pairwise (fun a b => a.1 < b.1)

end Sys2Proof.Tbl

namespace Sys2Proof

/-- Numbered words of one width where an absent key reads zero; zero is never listed. -/
abbrev Words (n : Nat) := Tbl (BitVec n)

namespace Words

variable {n : Nat}

def get (m : Words n) (k : Nat) : BitVec n := Tbl.getD m k 0

def put (m : Words n) (k : Nat) (x : BitVec n) : Words n :=
  if x = 0 then Tbl.erase m k else Tbl.set m k x

/-- Write a list of words at consecutive keys. -/
def putAll (m : Words n) (k : Nat) : List (BitVec n) → Words n
  | [] => m
  | x :: xs => putAll (put m k x) (k + 1) xs

/-- Read a number of words at consecutive keys. -/
def getAll (m : Words n) (k : Nat) : Nat → List (BitVec n)
  | 0 => []
  | c + 1 => get m k :: getAll m (k + 1) c

/-- Canonical form: keys strictly rise and no entry is zero. -/
abbrev Wf (m : Words n) : Prop := m.Pairwise (fun a b => a.1 < b.1) ∧ ∀ e ∈ m, e.2 ≠ 0

end Words

/-- A byte memory: a list of cells in canonical form. A byte that is not listed reads 0 (DESIGN CHOICE, log 4). -/
abbrev Memory := List Host.Cell

namespace Memory

/-- The byte at an address. -/
def read (m : Memory) (a : Nat) : Byte := Words.get m a

/-- Write one byte, keeping the canonical form. -/
def write (m : Memory) (a : Nat) (b : Byte) : Memory := Words.put m a b

/-- Read n bytes from ascending addresses. -/
def readBytes (m : Memory) (a : Nat) (n : Nat) : List Byte := Words.getAll m a n

/-- Write bytes at ascending addresses. -/
def writeBytes (m : Memory) (a : Nat) (bs : List Byte) : Memory := Words.putAll m a bs

/-- The canonical form: addresses strictly rise and no cell holds what an unlisted address reads as. -/
abbrev wf (m : Memory) : Prop := m.Pairwise (fun a b => a.1 < b.1) ∧ ∀ c ∈ m, c.2 ≠ (0 : BitVec 8)

end Memory

/-- Little-endian value of bytes (R189). -/
def leNat : List Byte → Nat
  | [] => 0
  | b :: bs => b.toNat + 256 * leNat bs

/-- The low n bytes of a number, least significant first. -/
def leBytes : Nat → Nat → List Byte
  | 0, _ => []
  | n + 1, x => BitVec.ofNat 8 x :: leBytes n (x / 256)

/-- Bits hi down to lo of a number (R2). -/
def bitsOf (x hi lo : Nat) : Nat := (x >>> lo) % 2 ^ (hi + 1 - lo)

def bitOf (x i : Nat) : Bool := x.testBit i

/-- Sign extension of an n-bit number to an integer. -/
def sextNat (n x : Nat) : Int := if x.testBit (n - 1) then (x : Int) - 2 ^ n else x

/-- The members of a mask, ascending (R121). -/
def lanesOf (m : Mask) : List Nat := (List.range 96).filter (fun i => m.getLsbD i)

/-- The mask of the lanes that meet a test. -/
def maskOf (f : Nat → Bool) : Mask :=
  BitVec.ofNat 96 ((List.range 96).foldl (fun a i => if f i then a + 2 ^ i else a) 0)

def allLanes : Mask := BitVec.allOnes 96

end Sys2Proof
end

