-- ==== Sys2Proof/Syntax.lean ====
section
/-! DEFINITION. The instructions of Dennutos (R57) and the whole steps of the device (spec/95_what_each_step_holds.md), one constructor for each row of the opcode table, with the types of their fields. -/

namespace Sys2Proof

/-- What an operand code selects (R46). A constant `int n` is n + 1; `fp k` is the k-th FP32 constant of R47. -/
inductive Opd where
  | v (n : Fin 512)
  | s (n : Fin 128)
  | lane | wid | cid | clid | did | pid | cyc0 | cyc1 | lc0 | lc1 | plive | fst
  | int (n : Fin 16)
  | fp (k : Fin 8)
  | zero
  deriving DecidableEq, Repr

/-- Type codes (R50). -/
inductive Ty where
  | i32 | n32 | i64 | n64 | i16 | n16 | i8 | n8 | b32 | f32 | f16 | bf16 | e4m3 | e5m2 | e2m1 | l6
  deriving DecidableEq, Repr

/-- The fields every word carries beside its operation (R43). -/
structure Hints where
  fh : BitVec 2
  lut : BitVec 8
  ga : BitVec 4
  gb : BitVec 4
  gc : BitVec 4
  stall : BitVec 3
  yld : Bool
  wait : BitVec 12
  set : BitVec 4
  deriving DecidableEq, Repr

/-- The pair field of a compare (R76). -/
structure PairF where
  pt : BitVec 4
  pf : BitVec 4
  acc : BitVec 2
  deriving DecidableEq, Repr

/-- The float control field (R129). -/
structure FCtl where
  ma : BitVec 2
  mb : BitVec 2
  rm : BitVec 3
  deriving DecidableEq, Repr

/-- The engine order field (R154). -/
structure EngOrd where
  scope : BitVec 3
  acq : Bool
  rel : Bool
  deriving DecidableEq, Repr

/-- A barrier operand (R280): class 0 b, 1 c, 2 g. -/
structure BarF where
  cls : BitVec 2
  num : BitVec 6
  deriving DecidableEq, Repr

/-- Scopes (R51). -/
inductive Scope where
  | wave | block | cluster | die | dev | sys
  deriving DecidableEq, Repr

/-- Spaces (R174). -/
inductive Space where
  | g | s | c | k
  deriving DecidableEq, Repr

/-- Access sizes (R189). -/
inductive MSize where
  | i8 | n8 | i16 | n16 | b32 | n64 | b128
  deriving DecidableEq, Repr

/-- Atomic operations (R217). -/
inductive AOp where
  | add | minI | maxI | minN | maxN | and | or | xor | exch | cas | inc | dec | addF | minF | maxF
  deriving DecidableEq, Repr

/-- Fence kinds (R207). -/
inductive FenceK where
  | acq | rel | ar
  deriving DecidableEq, Repr

/-- Shuffle modes (R119). -/
inductive ShflMode where
  | up | down | xor | rot
  deriving DecidableEq, Repr

/-- Why an access waits for a page (R317): read, write, fetch. -/
inductive PKind where
  | read | write | fetch
  deriving DecidableEq, Repr

/-- A start-up of a noise source (R124): the core and the raw samples. -/
structure StartUp where
  cid : Nat
  raw : BitVec 1024
  deriving DecidableEq, Repr

/-- Whose a deferred fault is (R185, R342, R349): the wave, the operation that caused it, SEQ of the record written with it, all ones for none. -/
structure FaultFrom where
  wave : Nat
  op : Nat
  seq : Word
  deriving DecidableEq, Repr

/-- A 64 KiB page of an address space at the host (R314, R328): the PASID and the I/O page. -/
structure IoPage where
  pasid : Nat
  page : Nat
  deriving DecidableEq, Repr

/-- Who receives a translation of the host (R328): the base die, and the partition as the requester. -/
structure AtsFor where
  die : Nat
  pid : Nat
  deriving DecidableEq, Repr

/-- Who accesses a register (R329, R373): the driver of a partition through BAR0, firmware of a base die, the operator through the physical function; to write it, or to read it (log 25). -/
inductive RegSpace where
  | bar0 (pid : Nat)
  | firmware (die : Nat)
  | operator
  | bar0Read (pid : Nat)
  | firmwareRead (die : Nat)
  | operatorRead
  deriving DecidableEq, Repr

/-- An access that a peer device sends (R18, R330, R395): a read of a length, a write, an atomic with its data and compare value. -/
inductive PeerAcc where
  | read (n : Nat)
  | write (bytes : List Byte)
  | atomic (op : AOp) (wide : Bool) (data cmp : Nat)
  deriving DecidableEq, Repr

/-- SPDM requests that the leader answers (R333). -/
inductive SpdmReq where
  | getVersion | getAlgorithms
  | openSession (session : Nat) | endSession (session : Nat) | getCertificate | getMeasurement (index : Nat)
  /-- key the selective stream of a VF through IDE_KM in a session (R328) -/
  | keyStream (session vf : Nat)
  deriving DecidableEq, Repr

/-- One constructor per row of the opcode table. -/
inductive Instr where
  -- control and scalar integer (R78 to R89)
  | nop (h : Hints)
  | sadd (h : Hints) (t : Ty) (d a b : Opd)
  | saddc (h : Hints) (d a b : Opd) (k : BitVec 4)
  | ssub (h : Hints) (t : Ty) (d a b : Opd)
  | smul (h : Hints) (t : Ty) (d a b : Opd)
  | smulh (h : Hints) (t : Ty) (d a b : Opd)
  | sdiv (h : Hints) (t : Ty) (d a b : Opd)
  | srem (h : Hints) (t : Ty) (d a b : Opd)
  | sand (h : Hints) (t : Ty) (d a b : Opd)
  | sor (h : Hints) (t : Ty) (d a b : Opd)
  | sxor (h : Hints) (t : Ty) (d a b : Opd)
  | sandn (h : Hints) (t : Ty) (d a b : Opd)
  | sshl (h : Hints) (t : Ty) (d a b : Opd)
  | sshr (h : Hints) (t : Ty) (d a b : Opd)
  | ssra (h : Hints) (t : Ty) (d a b : Opd)
  | smin (h : Hints) (t : Ty) (d a b : Opd)
  | smax (h : Hints) (t : Ty) (d a b : Opd)
  | sabs (h : Hints) (t : Ty) (d a : Opd)
  | sbfe (h : Hints) (t : Ty) (d a b : Opd)
  | sbfi (h : Hints) (d a b c : Opd)
  | spopc (h : Hints) (t : Ty) (d a : Opd)
  | sclz (h : Hints) (t : Ty) (d a : Opd)
  | sffs (h : Hints) (t : Ty) (d a : Opd)
  | smov (h : Hints) (t : Ty) (d a : Opd)
  | smovil (h : Hints) (d : Opd) (imm : BitVec 20)
  | smovih (h : Hints) (d : Opd) (imm : BitVec 20)
  | ssel (h : Hints) (t : Ty) (d a b : Opd) (k : BitVec 4)
  | scmp (h : Hints) (ty : BitVec 2) (cond : BitVec 3) (pr : PairF) (a b : Opd)
  -- predicates and mask (R85)
  | pgetP (h : Hints) (d : Opd) (k : BitVec 4)
  | pgetQ (h : Hints) (d : Opd)
  | pputP (h : Hints) (k : BitVec 4) (a : Opd)
  | pputQ (h : Hints) (a : Opd)
  | qany (h : Hints) (d k : BitVec 4)
  | qall (h : Hints) (d k : BitVec 4)
  | pcnt (h : Hints) (d : Opd) (k : BitVec 4)
  | elect (h : Hints) (d : BitVec 4)
  | setpl (h : Hints) (a : Opd)
  | getpl (h : Hints) (d : Opd)
  | plop (h : Hints) (t : BitVec 8) (d a b c : BitVec 4)
  | qlop (h : Hints) (t : BitVec 8) (d a b c : BitVec 4)
  -- control flow (R87), traps and control registers (R344 to R346)
  | br (h : Hints) (imm : BitVec 20)
  | brx (h : Hints) (a : Opd)
  | call (h : Hints) (d : Opd) (imm : BitVec 20)
  | ret (h : Hints) (a : Opd)
  | bexz (h : Hints) (imm : BitVec 20)
  | exit (h : Hints)
  | yield (h : Hints)
  | sleep (h : Hints) (a : Opd)
  | trap (h : Hints) (imm : BitVec 20)
  | brk (h : Hints) (imm : BitVec 20)
  | rte (h : Hints) (a : Opd)
  | csrr (h : Hints) (d : Opd) (n : BitVec 20)
  | csrw (h : Hints) (n : BitVec 20) (a : Opd)
  -- vector integer and bits (R107 to R114)
  | vadd (h : Hints) (t : Ty) (sat : Bool) (d a b : Opd)
  | vsub (h : Hints) (t : Ty) (sat : Bool) (d a b : Opd)
  | vaddc (h : Hints) (d a b : Opd) (k : BitVec 4)
  | vsubb (h : Hints) (d a b : Opd) (k : BitVec 4)
  | vmul (h : Hints) (t : Ty) (d a b : Opd)
  | vmulh (h : Hints) (t : Ty) (d a b : Opd)
  | vmad (h : Hints) (t : Ty) (d a b c : Opd)
  | vdot4 (h : Hints) (t : Ty) (sat : Bool) (d a b c : Opd)
  | vmin (h : Hints) (t : Ty) (d a b : Opd)
  | vmax (h : Hints) (t : Ty) (d a b : Opd)
  | vabs (h : Hints) (t : Ty) (sat : Bool) (d a : Opd)
  | vshl (h : Hints) (t : Ty) (d a b : Opd)
  | vshr (h : Hints) (t : Ty) (d a b : Opd)
  | vsra (h : Hints) (t : Ty) (d a b : Opd)
  | vfunnelR (h : Hints) (d a b c : Opd)
  | vfunnelL (h : Hints) (d a b c : Opd)
  | vbfe (h : Hints) (t : Ty) (d a b : Opd)
  | vbfi (h : Hints) (d a b c : Opd)
  | vpopc (h : Hints) (t : Ty) (d a : Opd)
  | vclz (h : Hints) (t : Ty) (d a : Opd)
  | vbrev (h : Hints) (d a : Opd)
  | vcmp (h : Hints) (t : Ty) (clr : Bool) (pr : PairF) (a b : Opd) (cond : BitVec 3)
  | vsel (h : Hints) (t : Ty) (d a b : Opd) (k : BitVec 4)
  | vmov (h : Hints) (t : Ty) (d a : Opd)
  | vmovil (h : Hints) (d : Opd) (imm : BitVec 20)
  | vmovih (h : Hints) (d : Opd) (imm : BitVec 20)
  | vlop3 (h : Hints) (t : BitVec 8) (d a b c : Opd)
  -- index splitting, cross-lane, indirect access, noise (R115 to R128)
  | vidx (h : Hints) (d a : Opd) (k j : BitVec 4)
  | vperm (h : Hints) (d a b : Opd)
  | vbcast (h : Hints) (d a b : Opd)
  | vgetl (h : Hints) (d a b : Opd)
  | vsetl (h : Hints) (d a b : Opd)
  | vshfl (h : Hints) (m : ShflMode) (w : BitVec 3) (d a b : Opd)
  | vred (h : Hints) (t : Ty) (op : BitVec 3) (d a : Opd)
  | vscan (h : Hints) (t : Ty) (ex : Bool) (op : BitVec 3) (d a : Opd)
  | vmovi (h : Hints) (d a b : Opd)
  | vmovo (h : Hints) (d a b : Opd)
  | vrand (h : Hints) (d : Opd)
  -- floating point and conversion (R129 to R147)
  | vaddF (h : Hints) (t : Ty) (c : FCtl) (d a b : Opd)
  | vsubF (h : Hints) (t : Ty) (c : FCtl) (d a b : Opd)
  | vmulF (h : Hints) (t : Ty) (c : FCtl) (d a b : Opd)
  | vfma (h : Hints) (t : Ty) (neg : Bool) (d a b c : Opd)
  | vminF (h : Hints) (nan : Bool) (c : FCtl) (d a b : Opd)
  | vmaxF (h : Hints) (nan : Bool) (c : FCtl) (d a b : Opd)
  | vcmpF (h : Hints) (clr : Bool) (c : FCtl) (pr : PairF) (a b : Opd)
  | vclass (h : Hints) (clr : Bool) (pr : PairF) (a : Opd) (m : BitVec 10)
  | vrnd (h : Hints) (c : FCtl) (d a : Opd)
  | vrcp (h : Hints) (c : FCtl) (d a : Opd)
  | vrsq (h : Hints) (c : FCtl) (d a : Opd)
  | vexp2 (h : Hints) (c : FCtl) (d a : Opd)
  | vlog2 (h : Hints) (c : FCtl) (d a : Opd)
  | vsqrt (h : Hints) (c : FCtl) (d a : Opd)
  | vdiv (h : Hints) (c : FCtl) (d a b : Opd)
  | vsinpi (h : Hints) (c : FCtl) (d a : Opd)
  | vcospi (h : Hints) (c : FCtl) (d a : Opd)
  | vtanh (h : Hints) (c : FCtl) (d a : Opd)
  | vlgt (h : Hints) (c : FCtl) (d a : Opd)
  | vcvt (h : Hints) (t : Ty) (src : BitVec 3) (rm : BitVec 3) (e : BitVec 4) (d a r : Opd)
  | vcvti (h : Hints) (t : Ty) (src : BitVec 4) (rm : BitVec 3) (e : BitVec 3) (d a r : Opd)
  | vqz (h : Hints) (t : Ty) (sr : Bool) (d a sc r : Opd)
  | vdq (h : Hints) (t : Ty) (d a sc : Opd)
  -- memory (R174 to R195), fences (R207 to R214), atomics (R217 to R221)
  | vld (h : Hints) (sp : Space) (sz : MSize) (d a : Opd) (off : BitVec 20)
  | vst (h : Hints) (sp : Space) (sz : MSize) (d a : Opd) (off : BitVec 20)
  | sld (h : Hints) (sp : Space) (sz : MSize) (d a : Opd) (off : BitVec 20)
  | sst (h : Hints) (sp : Space) (sz : MSize) (d a : Opd) (off : BitVec 20)
  | vpf (h : Hints) (l2 : Bool) (a : Opd) (off : BitVec 20)
  | lwb (h : Hints) (a : Opd) (off : BitVec 20)
  | linv (h : Hints) (a : Opd) (off : BitVec 20)
  | fence (h : Hints) (k : FenceK) (sc : Scope)
  | dfence (h : Hints)
  | ifence (h : Hints) (sc : Scope)
  | vatom (h : Hints) (op : AOp) (wide : Bool) (sc : Scope) (d a b c : Opd)
  | satom (h : Hints) (op : AOp) (wide : Bool) (sc : Scope) (d a b c : Opd)
  -- combining (R224, R231)
  | cmb (h : Hints) (d a b : Opd) (k : BitVec 6)
  | ccommit (h : Hints) (k : BitVec 6)
  | ccommitNw (h : Hints)
  | creply (h : Hints) (a : Opd)
  | cend (h : Hints)
  -- barriers and flags (R277 to R281)
  | barArr (h : Hints) (x : BarF)
  | barWait (h : Hints) (x : BarF)
  | barSync (h : Hints) (x : BarF)
  | barExp (h : Hints) (x : BarF) (a : Opd)
  | barTx (h : Hints) (x : BarF) (a : Opd)
  | barTest (h : Hints) (pr : PairF) (x : BarF)
  | waitf (h : Hints) (k : BitVec 4) (n : BitVec 6)
  -- copy engine (R237 to R245), spawn (R271)
  | cpy (h : Hints) (dsp ssp : Space) (d a b : Opd) (o : EngOrd)
  | cpytLd (h : Hints) (sp : Space) (d a b : Opd) (o : EngOrd)
  | cpytSt (h : Hints) (sp : Space) (d a b : Opd) (o : EngOrd)
  | cpyg (h : Hints) (sp : Space) (d a b : Opd) (o : EngOrd)
  | cpys (h : Hints) (sp : Space) (d a b : Opd) (o : EngOrd)
  | cred (h : Hints) (op ty : BitVec 2) (d a b : Opd) (o : EngOrd)
  | spawn (h : Hints) (pr : PairF) (a : Opd) (n : BitVec 2)
  -- matrix engine (R160 to R168)
  | mlds (h : Hints) (t : Ty) (g : Bool) (a : Opd) (sp : BitVec 2) (sc : Bool) (o : EngOrd)
  | mms (h : Hints) (t : Ty) (g : Bool) (slot : BitVec 3) (swap done z sc : Bool) (a b : Opd) (o : EngOrd)
  | mzero (h : Hints) (slot : BitVec 3)
  | mdrain (h : Hints) (t : Ty) (g : Bool) (slot : BitVec 3) (add : Bool) (rm : BitVec 2) (a b : Opd) (o : EngOrd)
  | mldacc (h : Hints) (t : Ty) (g : Bool) (slot : BitVec 3) (a b : Opd) (o : EngOrd)
  | aalloc (h : Hints) (pr : PairF) (k : BitVec 3)
  | afree (h : Hints) (k : BitVec 3)
  -- trace (R255), regions (R380)
  | tmark (h : Hints) (a : Opd)
  | capst (h : Hints) (c : BitVec 2)
  | capsp (h : Hints) (c : BitVec 2)
  | rgn (h : Hints)
  -- clocks, power, fabric, noise (R10, R13, R15, R124, R125)
  | noiseStartupPass (start : StartUp)
  -- issue and completion (R53, R55, R88, R273, R274, R30, R31)
  | issueSelect (cid quad : Nat)
  | waveOverdue (wave : Nat)
  | fixedResultReady (wave op : Nat)
  | longOpComplete (wave op : Nat)
  | yieldEnd (wave : Nat)
  | sleepEnd (wave : Nat)
  | waveRetire (wave : Nat)
  | blockRetire (block : Nat)
  -- memory path (R181, R182, R190, R191, R201, R219, R353, R354, R315, R185)
  | loadDataReturn (wave op : Nat)
  | storeVisible (wave op : Nat)
  | homeSliceAccess (req : Nat)
  | atomicGroup (req : Nat)
  | l1Eviction (cid line : Nat)
  | l1DirtyTimeout (cid line : Nat)
  | l1CleanTimeout (cid line : Nat)
  | l2Writeback (line : Nat)
  | checkDeltaDrain (stripe : Nat) (q : Bool)
  | stripeDecode (stripe : Nat)
  | pageWalk (cid pasid va : Nat) (k : PKind)
  | deferredFaultArrive (src : FaultFrom) (cls reason : Nat) (pc : DWord) (mask : Mask) (addr : DWord)
  -- traps, dumps, regions (R342, R385, R382), barriers (R279)
  | trapDeliver (wave : Nat)
  | coreDump (block : Nat)
  | regionRestart (wave : Nat)
  | barrierWake (wave : Nat)
  -- engines (R236, R239, R150, R152, R153)
  | copyCmdStart (cid : Nat)
  | copyBytesVisible (cid cmd units : Nat)
  | copyCmdComplete (cid cmd : Nat)
  | matrixCmdStart (cid : Nat)
  | planeRelease (cid : Nat)
  | matrixCmdComplete (cid cmd : Nat)
  -- combining (R223 to R233)
  | cmbRequestArrive (req : Nat)
  | batchWindowExpire (batch : Nat)
  | batchDispatch (pid : Nat)
  | batchTimeout (batch : Nat)
  | cmbStatusArrive (wave op : Nat)
  | chuMtloadDone (pid : Nat)
  -- launches (R260 to R269)
  | launchStart (pid queue : Nat)
  | blockPlace (pid : Nat)
  | launchComplete (launch : Nat)
  -- graphs (R286 to R290)
  | graphGo (pid slot : Nat)
  | nodeLaunch (pid slot node : Nat)
  | nodeCopy (pid slot node : Nat)
  | nodeSignal (pid slot node : Nat)
  | nodeWait (pid slot node : Nat)
  | waitPoll (pid slot node : Nat)
  | nodeCond (pid slot node : Nat)
  | nodeWhile (pid slot node : Nat)
  | nodeSolve (pid slot node : Nat)
  | nodeEnd (pid slot node : Nat)
  | nodeComplete (pid slot node : Nat)
  | graphEnd (pid slot : Nat)
  -- solver sequencer (R293 to R300); cp is the command processor 0 to 2
  | sqsTloadDone (pid : Nat)
  | sqsStageLaunch (cp : Nat)
  | sqsModelRun (cp : Nat)
  | sqsErrorLaunch (cp : Nat)
  | sqsStepDecide (cp : Nat)
  | solveComplete (cp : Nat)
  -- pre-emption (R301 to R310)
  | preemptDeadline (pid : Nat)
  | blockSave (block : Nat)
  | blockRestore (pid : Nat)
  | quantumExpire (group : Nat)
  -- invalidation queue (R319 to R322), host answers (R315, R328)
  | invpg (pid pasid va count : Nat)
  | invpasid (pid pasid : Nat)
  | invall (pid : Nat)
  | replay (pid pasid va : Nat) (k : PKind)
  | replayAll (pid : Nat)
  | failCmd (pid pasid va : Nat) (k : PKind)
  | syncCmd (pid rec : Nat)
  | teardown (pid pasid rec : Nat)
  | invalidationComplete (pid : Nat)
  | teardownDrainDone (pid pasid : Nat)
  -- host link, peers, firmware, TDISP (R328 to R337)
  | leaseRenew (die : Nat)
  | leaseLoss (die : Nat)
  | followerPoll (die : Nat)
  -- trace unit (R251, R254, R257, R258)
  | traceSyncPeriod (cid : Nat)
  | seriesTick
  -- resilience (R355 to R375)
  | raspRow (chan : Nat)
  | rowRepair (chan row : Nat)
  | stackFail (stack : Nat)
  | recasterUnit (die : Nat)
  | lineHandoff (die line : Nat)
  | movedResend (req : Nat)
  | atsInvalidation (pid ioPage count : Nat)
  | registerWrite (sp : RegSpace) (off : Nat) (val : DWord)
  | peerRequestArrive (link pid : Nat) (addr : Nat) (acc : PeerAcc) (stamp : BitVec 48)
  | hostBar2Access (pid : Nat) (write : Bool) (addr : Nat) (bytes : List Byte)
  | spnUpdDone
  -- what comes from outside the device: operator, host, drivers, firmware policy, physical events
  | deviceReset
  | powerBudgetSet (die : Nat) (limitW : Option Nat)
  | governorPeriod (die : Nat) (dieMilliW moduleMilliW : Nat)
  | fabricConnectionFail (conn : Nat)
  | noiseGroupConditioned (cid : Nat) (raw : BitVec 512)
  | noiseTestFailure (cid : Nat) (adaptive : Bool)
  | retest (cid : Nat)
  | subKick (pid queue : Nat) (k : BitVec 32)
  | iqKick (pid : Nat) (k : BitVec 32)
  | preemptReq (pid : Nat)
  | resume (pid : Nat)
  | priResponse (pid : Nat) (io : IoPage) (ok : Bool)
  | atsCompletion (dest : AtsFor) (io : IoPage) (present : Bool)
  | peerLinkFail (link : Nat)
  | secureBoot (die : Nat) (image : List Bool) (version : Nat) (key sig : BitVec 512)
  | spdmRequest (r : SpdmReq)
  | lockInterfaceRequest (vf : Nat) (nonce : BitVec 256)
  | startInterfaceRequest (vf : Nat) (nonce : BitVec 256)
  | stopInterfaceRequest (vf : Nat)
  | getDeviceInterfaceReport (vf : Nat)
  | lockedRegisterWrite (vf reg : Nat) (val : DWord)
  | flr (vf : Nat)
  | ideStreamFailure (vf : Nat)
  | partitionReset (pid : Nat)
  | trcCtlWrite (cid : Nat) (val : BitVec 32)
  | trcRptrWrite (cid : Nat) (val : BitVec 32)
  | frameRemap (chan frame tchan tframe : Nat)
  | channelInterfaceFail (chan : Nat)
  | spnUpd (span : Nat)
  | rcsMigrate (die : Nat)
  | graphAbort (pid slot : Nat)
  | chuMtloadEntry (pid idx : Nat)
  | fetchAhead (wave : Nat) (va : Nat)
  | sqsTloadAll (pid : Nat)
  | sqsTloadTable (pid idx : Nat)
  | chuMtloadAll (pid : Nat)
  deriving DecidableEq, Repr

end Sys2Proof
end

