-- ==== Sys2Proof/Machine/WaveState.lean ====
section
/-! DEFINITION. The state of waves, blocks, cluster groups and launches (R23 to R38, R53 to R56, R74, R255, R262, R278): plain data. -/

namespace Sys2Proof.Machine

/-- Where a byte lies once its address is translated (R174, R196, R314): device memory by device physical address,
host memory by I/O address, memory of a peer device, or a core's scratchpad. -/
inductive Place where
  | dev (dpa : Nat)
  | host (io : Nat)
  | peer (dev dpa : Nat)
  | scr (cid off : Nat)
  deriving DecidableEq, Repr

/-- One register write that a result makes when it is ready (R53). -/
inductive RegW where
  | v (n : Nat) (xs : List (Nat × Word))
  | s (n : Nat) (x : Word)
  | p (n : Nat) (lanes vals : Mask)
  | q (n : Nat) (b : Bool)
  | plive (x : Word)
  | fst (x : Word)
  deriving DecidableEq, Repr

/-- One lane's access to memory: its place, size, the bytes seen so far (loads) or sent (stores), and how it ended. -/
structure LaneAcc where
  lane : Nat
  addr : Nat
  place : Place
  n : Nat
  got : List (Option Byte) := []
  poison : Bool := false
  refused : Bool := false
  deriving DecidableEq, Repr

/-- A status on its way to a lane of a `cmb` (R226): the reply word, if one was given, and the CHU's stamp. -/
structure CmbRet where
  lane : Nat
  status : Nat
  reply : Option Word
  stamp : BitVec 48
  deriving DecidableEq, Repr

/-- What an outstanding operation of a wave is (R30, R53). -/
inductive PendKind where
  /-- a result computed at issue -/
  | alu
  /-- a load of a size into register number `d` (none: literal zero), lane-level or not -/
  | load (sz : MSize) (lane : Bool) (d : Option Nat) (accs : List LaneAcc)
  | store (accs : List LaneAcc)
  /-- an atomic: destination, the lanes' old values as they return, lanes poisoned, lanes refused with their addresses -/
  | atomic (wide lane : Bool) (d : Option Nat) (rets : List (Nat × Nat)) (bad : Mask) (refused : List (Nat × Nat))
  /-- combine requests: destination, lanes still without a status, statuses on their way -/
  | cmb (d : Nat) (wait : Mask) (rets : List CmbRet)
  /-- a fence and the operations it waits for -/
  | fence (k : FenceK) (sc : Scope) (needs : List Nat)
  | dfence (needs : List Nat)
  | ifence (sc : Scope)
  /-- cache control and prefetch -/
  | cache
  /-- an engine command -/
  | engine (matrix : Bool) (cmd : Nat) (rel : Option Scope)
  /-- an operation on a barrier that waits for its turn: 0 arrive, 1 set E, 2 raise T; the value; the operations it waits for; the stamp of an arrival -/
  | bar (key kind val : Nat) (needs : List Nat) (stamp : BitVec 48)
  | commit (needs : List Nat)
  | reply
  /-- `spawn`: its q pair, the record's address, the queue, the reads, the stamp of its send -/
  | spawn (pr : PairF) (va : Nat) (n : Nat) (accs : List LaneAcc) (stamp : BitVec 48)
  deriving DecidableEq, Repr

/-- A result that is pending, or a long-latency operation that is outstanding (R53 to R55). -/
structure Pend where
  id : Nat
  kind : PendKind
  /-- the cycle from which it may complete -/
  ready : Nat
  long : Bool
  /-- the flag that its completion lowers; 0 for none -/
  flag : Nat
  writes : List RegW
  /-- `fst` bits it raises -/
  fst : Word := 0
  pc : DWord := 0
  /-- forward hint (R56) -/
  fh : Nat := 0
  deriving DecidableEq, Repr

/-- A deferred fault held for a wave (R185, R339). -/
structure DFault where
  cls : Nat
  reason : Nat
  pc : DWord
  mask : Mask
  addr : DWord
  /-- SEQ of the error record written with it, all ones for none (R342) -/
  seq : Word := 0xFFFFFFFF
  /-- the operation that caused it and the cycle of its arrival: of two that arrive in one cycle the earlier-issued goes first (R349) -/
  op : Nat := 0
  when_ : Nat := 0
  deriving DecidableEq, Repr

/-- A trap being delivered (R342). -/
structure TrapRec where
  cls : Nat
  reason : Nat
  mask : Mask
  addr : DWord := 0
  code : Word := 0
  ipc : DWord
  epc : DWord
  deferred : Bool := false
  /-- SEQ of the error record written with it, all ones for none (R342) -/
  seq : Word := 0xFFFFFFFF
  deriving DecidableEq, Repr

/-- The state of a wave (R29). -/
inductive WStat where
  | ready
  /-- blocked in `bar.wait` on a barrier -/
  | barWait (key : Nat)
  | sleeping (til : Nat)
  /-- blocked on missing pages of a PASID and kind: those of replayable faults (R317), and those of page requests to the host with their I/O pages (R315) -/
  | faulted (pasid : Nat) (pages : List Nat) (hosts : List (Nat × Nat)) (k : PKind)
  /-- blocked on the frame page of a trap -/
  | trapWait
  /-- stopped by a fatal trap whose core dump is being written (R385): its state and barrier as R307 records them -/
  | dumping (state bar : Nat)
  /-- a combiner wave whose batch ends once its commit has been performed (R233) -/
  | ending
  | exiting
  deriving DecidableEq, Repr

/-- An open capture (R255, R256). -/
structure Capture where
  instr : Nat := 0
  beats : Nat := 0
  held : Nat := 0
  memreq : Nat := 0
  resident : Nat := 0
  absent : Nat := 0
  interrupted : Bool := false
  deriving DecidableEq, Repr

/-- An open region of a protected wave (R380). -/
structure Region where
  entry : DWord
  restarts : Nat
  n : Word
  deriving DecidableEq, Repr

/-- The forward latch (R56): the operand codes it serves, two for a 64-bit result, and the issues left. -/
structure Latch where
  codes : List Nat
  left : Nat
  deriving DecidableEq, Repr

/-- A value of a wave's register files: a lane of a vector register, a scalar register, a lane of a p register, a q register. -/
inductive RegAt where
  | v (n lane : Nat)
  | s (n : Nat)
  | p (n lane : Nat)
  | q (n : Nat)
  deriving DecidableEq, Repr

/-- A wave (R33). Vector registers are keyed 96·n + lane; p0, q0 and the fixed bits of plive are not stored. -/
structure Wave where
  pidN : Nat
  pasid : Nat
  prio : Nat := 0
  block : Nat := 0
  /-- the batch of a combiner wave (R229) -/
  batch : Option Nat := none
  wid : Nat := 0
  vregs : Nat := 32
  sregs : Nat := 16
  pc : DWord := 0
  v : Words 32 := []
  s : Words 32 := []
  p : Words 96 := []
  q : BitVec 16 := 0
  f : Words 6 := []
  plive : Word := 0x10001
  fst : BitVec 6 := 0
  /-- the execution mask as it governs the next issue (R35, R53) -/
  emask : Mask := allLanes
  /-- the holding word of R38 -/
  hold : Option Word := none
  poisonV : Words 96 := []
  poisonP : Words 96 := []
  poisonS : BitVec 128 := 0
  poisonQ : BitVec 16 := 0
  /-- values of the register files that hold an uncorrectable error not yet found (R74), with the bytes in error; put there from outside (log 10) -/
  errs : List (RegAt × BitVec 4) := []
  stat : WStat := .ready
  inHandler : Bool := false
  lclass : Nat := 0
  pend : List Pend := []
  /-- arrival records (R278): barrier key to the phase ap; present when V = 1 -/
  arr : Tbl (BitVec 16) := []
  caps : Tbl Capture := []
  draws : Word := 0
  gwave : Nat := 0
  nmode : Nat := 0
  nlog : Nat := 0
  nstride : Nat := 0
  logged : Nat := 0
  deferred : List DFault := []
  prot : Bool := false
  region : Option Region := none
  /-- a region restart waits for the outstanding operations (R382) -/
  restart : Bool := false
  traced : Bool := false
  /-- it issues nothing more: its block is to be saved (R304) -/
  saving : Bool := false
  lastIssue : Option Nat := none
  yld : Bool := false
  yieldTil : Option Nat := none
  /-- `waitf` holds the wave until the flag is at most n (R277) -/
  waitFlag : Option (Nat × Nat) := none
  /-- flags that have fallen for commands with REL, whose release comes when the wave observes the fall (R202) -/
  relOn : List (Nat × Scope) := []
  /-- the acquire of a barrier wait or a `bar.exp` still holds later issue -/
  holdFor : List Nat := []
  /-- start cycle and N of the run of R274 -/
  run : Option (Nat × Nat) := none
  overdue : Bool := false
  latch : Option Latch := none
  ahead : Tbl IWord := []
  trapPend : Option TrapRec := none
  /-- pages refused by FAIL or by a failed page request, for the instruction that waits (R319) -/
  refusedPages : List (Nat × PKind) := []
  /-- the same of an instruction whose turn a deferred fault took, with its address: they hold again once the handler returns there (R319, R339) -/
  refusedHeld : Option (DWord × List (Nat × PKind)) := none
  deriving DecidableEq, Repr

/-- A named barrier (R278). -/
structure Barrier where
  e : Nat
  a : Nat := 0
  t : BitVec 32 := 0
  phc : BitVec 16 := 0
  /-- the greatest stamp of the present phase's arrivals, and those of the completed phases by phase number (R249) -/
  lcArr : Option (BitVec 48) := none
  lcPast : Tbl (BitVec 48) := []
  deriving DecidableEq, Repr

/-- The binding of an accumulator-slot name (R151, R167). -/
structure SlotBind where
  phys : Nat
  placed : Bool
  deriving DecidableEq, Repr

/-- A resident block (R23 to R31). -/
structure Block where
  launch : Nat
  lin : Nat
  cid : Nat
  rank : Nat := 0
  group : Option Nat := none
  waves : List Nat := []
  scrBase : Nat := 0
  scrSize : Nat := 0
  nbar : Nat := 0
  bars : Tbl Barrier := []
  slots : Tbl SlotBind := []
  store : Option Nat := none
  /-- killed by an escalation in mode 1 (R303) -/
  discarded : Bool := false
  /-- removed from the cluster directories: its allocation is freed once the accesses admitted against it have completed (R179) -/
  leaving : Bool := false
  deriving DecidableEq, Repr

/-- A cluster group (R24). -/
structure Group where
  launch : Nat
  clid : Nat
  blocks : List Nat := []
  ncb : Nat := 0
  bars : Tbl Barrier := []
  /-- the physical cluster barriers behind its names, ascending (R278, R305) -/
  cphys : List Nat := []
  deriving DecidableEq, Repr

/-- A launch record (R262). -/
structure LRec where
  desc : Nat := 0
  text : Nat := 0
  x : Nat := 0
  y : Nat := 0
  z : Nat := 0
  next : Nat := 0
  args : Nat := 0
  kbase : Nat := 0
  ksize : Nat := 0
  flags : Nat := 0
  nstride : Nat := 0
  nlog : Nat := 0
  done : Nat := 0
  doneval : Nat := 0
  /-- every reserved byte is zero -/
  reservedZero : Bool := true
  deriving DecidableEq, Repr

/-- One extent of a shape entry (R66, R68). -/
structure Extent where
  d : Nat
  l : Nat
  m : Nat
  deriving DecidableEq, Repr

/-- A kernel descriptor (R68). -/
structure KDesc where
  entry : Nat := 0
  size : Nat := 0
  vregs : Nat := 32
  sregs : Nat := 16
  w : Nat := 1
  scratch : Nat := 0
  barriers : Nat := 0
  acc : Nat := 0
  g : Nat := 1
  ncb : Nat := 0
  plive : Word := 0x10001
  shapeMask : Nat := 0
  shapes : Tbl (List Extent) := []
  deriving DecidableEq, Repr

/-- Where a launch came from. -/
inductive LSrc where
  | sub (queue idx : Nat)
  | dev (queue entry : Nat)
  | graph (slot node : Nat)
  | sqs (cp : Nat)
  deriving DecidableEq, Repr

/-- A started launch (R262 to R269). -/
structure Launch where
  pidN : Nat
  pasid : Nat
  src : LSrc
  prio : Nat
  seq : Nat
  /-- where its record lies, for the write-back of NEXT -/
  recVa : Option Nat := none
  rc : LRec
  desc : KDesc
  next : Nat := 0
  live : Nat := 0
  /-- blocks placed and blocks retired by cluster (R268) -/
  placedAt : Tbl Nat := []
  retiredAt : Tbl Nat := []
  status : Nat := 0
  /-- completed, and kept for the graph or solver that waits on it -/
  fin : Bool := false
  /-- COR launches place all blocks at once -/
  corPlaced : Bool := false
  gbars : Tbl Barrier := []
  prot : Bool := false
  stamp : BitVec 48 := 0
  deriving DecidableEq, Repr

end Sys2Proof.Machine
end

