-- ==== Sys2Proof/Machine/CoreState.lean ====
section
/-! DEFINITION. The state of a core's own units (R8): scratchpad, caches, TLB, engines, noise source, trace unit, quads. Plain data. -/

namespace Sys2Proof.Machine

/-- One byte of the L1 data cache (R182, R201): its value, whether it is dirty or poisoned, and the cycle of its store or fill. -/
structure L1Byte where
  val : Byte
  dirty : Bool
  poison : Bool := false
  stamp : Nat
  deriving DecidableEq, Repr

/-- A translation as a TLB holds it (R313 to R316). -/
structure TlbE where
  pasid : Nat
  /-- virtual address of the page's first byte and log2 of its size -/
  va : Nat
  log : Nat
  /-- LOC of R314, the peer device for LOC 2, and the address of the page's first byte there -/
  loc : Nat
  peer : Nat
  base : Nat
  w : Bool
  x : Bool
  deriving DecidableEq, Repr

/-- A line of the constant cache, tagged by launch (R180). -/
structure KLine where
  launch : Nat
  va : Nat
  bytes : List Byte
  deriving DecidableEq, Repr

/-- A record of the descriptor cache (R242), most recently used first in its list. -/
structure DescE where
  pasid : Nat
  va : Nat
  bytes : List Byte
  deriving DecidableEq, Repr

/-- A shape store (R115): its kernel and the entries. -/
structure ShapeStore where
  descVa : Nat
  pasid : Nat
  shapes : Tbl (List Extent)
  deriving DecidableEq, Repr

/-- A command of the copy or the matrix engine, from issue to completion (R152, R236). -/
structure EngCmd where
  id : Nat
  wave : Nat
  /-- the pending operation of the wave that it completes -/
  op : Nat
  block : Nat
  prio : Nat
  pidN : Nat
  pasid : Nat
  pc : DWord
  instr : Instr
  /-- operand values read at issue (R54) -/
  args : List Nat
  /-- physical slot (R151) -/
  slot : Option Nat := none
  /-- raises of a pending-byte counter that come before its start (R281), and the acquire of its ACQ, which comes before its reads (R210) -/
  before : List Nat := []
  needs : List Nat := []
  /-- SEQ of the error record written with its refusal, all ones for none (R342) -/
  seq : Word := 0xFFFFFFFF
  started : Bool := false
  /-- the cycle of its start; the acquire of its ACQ is complete and the L1 has been written back (R210, R211) -/
  began : Nat := 0
  clear : Bool := false
  /-- units (bytes, rows or elements) done -/
  done : Nat := 0
  /-- the layout record read at start (R242) -/
  recBytes : List Byte := []
  /-- the words that an overlapping copy writes, as far as its source could be read (R240) -/
  list : List Nat := []
  /-- every effect has taken place; only the completion is outstanding -/
  finished : Bool := false
  /-- refused with this reason (R155, R246) -/
  fault : Option Nat := none
  /-- waits for the page of a replayable fault (R170, R246), or for a page request to the host of this I/O page (R315) -/
  waiting : Option (Nat × PKind) := none
  hostWait : Option Nat := none
  /-- what must be read at the start has been read, and the checks of the start are made -/
  ready : Bool := false
  /-- blocks against which it was admitted (R179) -/
  targets : List Nat := []
  /-- the plane has been released (R150) -/
  released : Bool := false
  stamp : BitVec 48 := 0
  deriving DecidableEq, Repr

/-- A plane (R148, R157): its tags, and for each stored row the 192 bytes of data, the positions and the scales. -/
structure Plane where
  valid : Bool := false
  ty : Ty := .bf16
  sp : Nat := 0
  sc : Bool := false
  data : Words 1536 := []
  pos : Words 1920 := []
  scales : Words 1536 := []
  deriving DecidableEq, Repr

/-- A matrix engine (R148). Accumulators are keyed 9216·slot + 96·row + column. -/
structure MatEng where
  cmds : List EngCmd := []
  active : Plane := {}
  shadow : Plane := {}
  holder : Option Nat := none
  acc : Words 32 := []
  /-- the slot shadow (R148, R169): the command that uses it, the slot and its copy -/
  slotCopy : Option (Nat × Nat × Words 32) := none
  /-- physical slots in use and the block that each is bound to (R151) -/
  bound : Tbl Nat := []
  deriving DecidableEq, Repr

/-- A noise source (R124, R125). -/
structure Noise where
  /-- STATE: 0 start-up, 1 running, 2 retest, 3 failed -/
  st : Nat := 0
  rctf : Bool := false
  aptf : Bool := false
  fcnt : Nat := 0
  buf : List Word := []
  /-- failures in the present start-up -/
  fails : Nat := 0
  en : Bool := true
  /-- the health tests: the latest sample and its run, the first sample of the window, its samples so far and those equal to the first (R124) -/
  lastBit : Bool := false
  runLen : Nat := 0
  winBit : Bool := false
  winSeen : Nat := 0
  winSame : Nat := 0
  deriving DecidableEq, Repr

/-- A packet of the present cycle (R251, R252): its quad, the bytes before its delta and after it; a SYNC carries no delta. -/
structure TracePkt where
  quad : Nat
  head : List Byte
  rest : List Byte
  sync : Bool := false
  deriving DecidableEq, Repr

/-- A trace unit and its registers (R251 to R258). -/
structure TraceU where
  en : Bool := false
  syncp : Nat := 4
  tsk : Nat := 0
  pasid : Nat := 0
  base : Nat := 0
  size : Nat := 0x1000
  wptr : Nat := 0
  rptr : Nat := 0
  lost : Nat := 0
  syncoff : Nat := 0
  tsbase : Nat := 0
  tssize : Nat := 0x1000
  tswptr : Nat := 0
  tsrptr : Nat := 0
  tslost : Nat := 0
  /-- packets are being dropped, and how many have been -/
  dropping : Bool := false
  dropped : Nat := 0
  /-- the cycle of the last delta or cycle count -/
  last : Nat := 0
  /-- the packets of the present cycle, written at its end by quad (R251) -/
  queued : List TracePkt := []
  deriving DecidableEq, Repr

/-- What a member of a time-slice group keeps of a core while another holds it (R324, R327): its trace registers and its counts. -/
structure KeptCore where
  trc : TraceU := {}
  series : List Nat := [0, 0, 0, 0, 0, 0, 0, 0]
  marks : Tbl (List Nat) := []
  deriving DecidableEq, Repr

/-- The issue state of a quad (R272, R273): its rotation lists by priority with their pointers, and the cycle from which its datapath is free. -/
structure Quad where
  rot : Tbl (List Nat) := []
  ptr : Tbl Nat := []
  busy : Nat := 0
  deriving DecidableEq, Repr

/-- A core (R8). -/
structure Core where
  scr : Memory := []
  /-- bytes of the scratchpad with an uncorrectable error (R187), put there from outside (log 10) -/
  scrErr : List Nat := []
  l1 : Tbl L1Byte := []
  /-- instruction cache: whole instruction words by PASID and virtual address (R214) -/
  icache : List (Nat × Nat × IWord) := []
  tlb : List TlbE := []
  kcache : List KLine := []
  dcache : List DescE := []
  shapes : Tbl ShapeStore := []
  copy : List EngCmd := []
  mat : MatEng := {}
  noise : Noise := {}
  trc : TraceU := {}
  quads : Tbl Quad := []
  /-- counts since reset: busy cycles of quads 0 to 3, held, blocked, matrix busy, copy busy; and those of the latest end of a period of 2^k, by k (R257) -/
  series : List Nat := [0, 0, 0, 0, 0, 0, 0, 0]
  marks : Tbl (List Nat) := []
  deriving DecidableEq, Repr

end Sys2Proof.Machine
end

