-- ==== Sys2Proof/Machine/DevState.lean ====
section
/-! DEFINITION. The state of everything that serves the cores in common: requests in flight, combining, partitions, graphs, solver, host link, firmware, memory resilience (R7, R8). Plain data. -/

namespace Sys2Proof.Machine

/-- An error record before its SEQ and clock are filled in (R348). -/
structure ErrRec where
  src : Nat
  kind : Nat
  cls : Nat := 0
  reason : Nat := 0
  wb : Nat := 0xFF
  flags : Nat := 0
  aux : Nat := 0
  addr : Nat := 0
  deriving DecidableEq, Repr

/-- What a request in flight to a home slice asks for (R181, R219, R224, R231). -/
inductive ReqKind where
  /-- fill these bytes of the line for a load (byte offsets in the line) -/
  | load (offs : List Nat)
  /-- write back these dirty bytes of the requester's L1 -/
  | store (offs : List Nat)
  /-- a group of atomics on one address (its place and virtual address): lane, data, compare -/
  | atomic (op : AOp) (wide : Bool) (place : Place) (va : Nat) (lanes : List (Nat × Nat × Nat))
  /-- combine requests to one object: address, method, PASID, lane and argument words -/
  | combine (dpa va method pasid : Nat) (lanes : List (Nat × Word × Word))
  /-- prefetch the line, into the L1 or only to the home -/
  | prefetch (l1 : Bool)
  /-- cache control: write back dirty bytes; drop the line -/
  | control (drop : Bool)
  deriving DecidableEq, Repr

/-- A request on its way to a home slice. -/
structure Req where
  kind : ReqKind
  cid : Nat
  wave : Nat
  op : Nat
  pidN : Nat
  /-- DPA of the line divided by 128 -/
  line : Nat
  /-- the slice it was routed to -/
  home : Nat
  /-- answered moved (R371) -/
  moved : Bool := false
  /-- answered moved and sent again, and not yet served (R371) -/
  resent : Bool := false
  stamp : BitVec 48 := 0
  /-- the address space and the 64 KiB pages of the accesses that it serves (R321, R322) -/
  pasid : Nat := 0
  pages : List Nat := []
  deriving DecidableEq, Repr

/-- A write of a unit of the device that waits at the home of a held line (R228, R368): its place in that line, its bytes, the partition, PASID
and page under which it was made (R321), none for a write by device address, and an identifier. -/
structure Late where
  addr : Nat
  bytes : List Byte
  under : Option (Nat × Nat × Nat) := none
  id : Nat := 0
  deriving DecidableEq, Repr

/-- A method entry (R222). -/
structure Method where
  code : Nat := 0
  valid : Bool := false
  args : Nat := 0
  repl : Bool := false
  size : Nat := 0
  batch : Nat := 1
  window : Nat := 0
  pasid : Nat := 0
  deriving DecidableEq, Repr

/-- One request of a batch: where its status goes and its argument words. -/
structure BReq where
  cid : Nat
  wave : Nat
  op : Nat
  lane : Nat
  a0 : Word
  a1 : Word
  /-- the request that brought it (R215, R321) -/
  req : Nat := 0
  /-- the answer already given -/
  reply : Option Word := none
  answered : Bool := false
  stamp : BitVec 48 := 0
  deriving DecidableEq, Repr

/-- Where a batch stands (R227, R228, R233). -/
inductive BStat where
  | forming | formed | running
  deriving DecidableEq, Repr

/-- A batch of combine requests (R227 to R233). -/
structure Batch where
  pidN : Nat
  slice : Nat
  dpa : Nat
  va : Nat
  method : Nat
  ent : Method
  reqs : List BReq := []
  stat : BStat := .forming
  opened : Nat := 0
  formSeq : Nat := 0
  wave : Option Nat := none
  started : Nat := 0
  /-- `ccommit` has issued; the object words it will write, none for the form with no write; it has taken effect -/
  commitIssued : Bool := false
  commitWords : Option (List Word) := none
  committed : Bool := false
  deriving DecidableEq, Repr

/-- A submission queue (R259, R322). -/
structure SubQ where
  base : Nat := 0
  en : Bool := false
  prio : Nat := 0
  ord : Bool := false
  log2n : Nat := 4
  stat : Nat := 0
  kick : BitVec 32 := 0
  head : BitVec 32 := 0
  done : BitVec 32 := 0
  ovf : Bool := false
  back : Bool := false
  pasid : Nat := 0
  deriving DecidableEq, Repr

/-- A node that runs (R286, R288). -/
structure NodeRun where
  /-- it belongs to a run of a model subgraph (R291) -/
  model : Bool := false
  /-- its record as it was read at its start -/
  bytes : List Byte := []
  /-- the launch that it waits for -/
  launch : Option Nat := none
  /-- its effect has taken place; the successors that still receive a token -/
  ended : Bool := false
  succ : List Nat := []
  /-- bytes copied by a `COPY`, and the words that an overlapping one writes (R240) -/
  prog : Nat := 0
  old : List Nat := []
  /-- nanosecond of the latest poll of a `WAIT` -/
  polled : Nat := 0
  deriving DecidableEq, Repr

/-- A graph slot's registers and the graph it runs (R287 to R290). -/
structure GraphSlot where
  base : Nat := 0
  prio : Nat := 0
  /-- STATE: 0 idle, 1 running, 2 ending -/
  stat : Nat := 0
  pasid : Nat := 0
  reason : Nat := 0
  node : BitVec 32 := 0
  ndone : BitVec 32 := 0
  nnode : Nat := 0
  done : Nat := 0
  doneval : Nat := 0
  /-- reason of this run, its node, and whether a WHILE ended by its limit with w nonzero -/
  fail : Nat := 0
  failNode : BitVec 32 := 0xFFFFFFFF
  limit : Bool := false
  /-- the work of GO that is left: 0 the header, n + 1 the NSTATE of node n -/
  init : Option Nat := none
  entry : Nat := 0
  /-- nodes that hold tokens, and those among them with a token of a model run -/
  cand : List Nat := []
  mtok : List Nat := []
  /-- cycle of the latest start of a node -/
  lastStart : Option Nat := none
  running : Tbl NodeRun := []
  deriving DecidableEq, Repr

/-- Where a solve stands (R296). -/
inductive SqsStat where
  /-- in the queue of the SQS (R300): its descriptor not yet read; read, its samples to be prepared at its turn -/
  | queued
  | waiting
  /-- at the start of a step -/
  | ready
  | stage (j : Nat) (launch : Nat)
  | model (j : Nat)
  | error (launch : Nat)
  /-- the step has been decided; its writes are under way -/
  | deciding
  /-- no sample is active -/
  | finished
  deriving DecidableEq, Repr

/-- A SOLVE node in an SQS (R293 to R300). -/
structure Solve where
  pidN : Nat
  slot : Nat
  node : Nat
  /-- the descriptor and the table, as they were at the start of the node -/
  desc : List Byte
  table : List Byte
  n : Nat := 0
  active : List Nat := []
  stat : SqsStat := .ready
  /-- the model run of the present stage has seen its END -/
  modelEnd : Bool := false
  /-- T and H of the active samples at the start of the step (R299) -/
  start : Tbl (Nat × Nat) := []
  /-- writes of the decided step not yet made -/
  writes : List (Nat × List Byte) := []
  deriving DecidableEq, Repr

/-- A key of the fault unit (R317). -/
structure FaultKey where
  pasid : Nat
  page : Nat
  kind : PKind
  deriving DecidableEq, Repr

/-- A 64 KiB page of host memory as a request to the host names it (R314, R328): the requester, its PASID and the I/O page. -/
structure HostPage where
  pid : Nat
  pasid : Nat
  page : Nat
  deriving DecidableEq, Repr

/-- An entry of a device queue whose launch has not started (R270, R271). -/
structure DevEnt where
  queue : Nat
  bytes : List Byte
  /-- the record's address -/
  va : Nat := 0
  pasid : Nat
  /-- the spawning wave is protected (R376), and the stamp of its send (R249) -/
  prot : Bool
  stamp : BitVec 48
  deriving DecidableEq, Repr

/-- What a save keeps of a wave beside its record in memory (log 20): its key, the class of its latest trap, the deferred
faults that it holds, the absent time of its captures, the entries of its noise log, the releases that wait for it to observe a flag. -/
structure SavedWave where
  key : Nat
  wid : Nat
  lclass : Nat := 0
  deferred : List DFault := []
  absent : Tbl Nat := []
  logged : Nat := 0
  relOn : List (Nat × Scope) := []
  deriving DecidableEq, Repr

/-- A saved block (R304 to R308): where its record lies, and what must be free again. -/
structure Saved where
  cid : Nat
  addr : Nat
  launch : Nat
  lin : Nat
  rank : Nat
  /-- its group, as the group stood before the save -/
  group : Option Nat
  old : Option Group
  /-- its block barriers, for their stamps (R249) -/
  bars : Tbl Barrier := []
  waves : List SavedWave := []
  scrBase : Nat := 0
  /-- slot names with those of placement marked -/
  slots : Tbl Bool := []
  deriving DecidableEq, Repr

/-- A command of an invalidation queue that has been taken (R320, R321): its index, OP and REC, and the requests and the held writes that an invalidation waits for. -/
structure IqCmd where
  idx : Nat
  op : Nat
  rc : Nat := 0
  waits : List Nat := []
  lates : List Nat := []
  deriving DecidableEq, Repr

/-- A partition: its registers (R326, R301, R341, R376, R384, R259, R287, R223, R293) and what the command processor holds for it. -/
structure Part where
  clmask : BitVec 36 := 0
  ptbase : Nat := 0
  ptlen : Nat := 0
  iqbase : Nat := 0
  iqen : Bool := false
  iqlog2n : Nat := 4
  iqkick : BitVec 32 := 0
  iqhead : BitVec 32 := 0
  fbbase : Nat := 0
  fbput : Nat := 0
  fbget : Nat := 0
  fbdrop : Nat := 0
  ovaddr : Nat := 0
  ovcnt : Nat := 0
  mode : Nat := 0
  /-- PRT_PCTL.STATE: 0 running, 1 draining, 2 saving, 3 stopped -/
  pstate : Nat := 0
  perr : Bool := false
  pdl : Nat := 100
  csbase : Nat := 0
  /-- its save regions begin with what has not been restored (R305): false from an escalation until that is done -/
  packed : Bool := true
  ndrain : Nat := 0
  nsave : Nat := 0
  group : Nat := 0
  quant : Nat := 10
  tvec : Nat := 0
  tfbase : Nat := 0
  elbase : Nat := 0
  elen : Bool := false
  ellog2n : Nat := 8
  elput : BitVec 32 := 0
  elget : BitVec 32 := 0
  eldrop : Nat := 0
  plmSq : BitVec 16 := 0
  plmGs : BitVec 4 := 0
  plmSpw : Bool := false
  plrst : Nat := 0
  dmbase : Nat := 0
  dmsize : Nat := 0x1000
  dmen : Bool := false
  dmstat : Nat := 0
  dmbusy : Bool := false
  dmoff : Nat := 0
  subs : Tbl SubQ := []
  graphs : Tbl GraphSlot := []
  /-- entries of the device queues that have not started, oldest first; a started launch still holds its entry (R270) -/
  devq : List DevEnt := []
  mtb : Nat := 0
  mtbusy : Option (Option Nat) := none
  chuEn : Bool := false
  tmo : Nat := 0x0100
  nbatch : BitVec 32 := 0
  nrefuse : BitVec 32 := 0
  ngone : BitVec 32 := 0
  methods : Tbl Method := []
  tbase : Nat := 0
  tbusy : Option (Option Nat) := none
  tvalid : BitVec 16 := 0
  nstep : BitVec 32 := 0
  nsolve : BitVec 32 := 0
  tables : Tbl (List Byte) := []
  keys : List FaultKey := []
  /-- pages for which a walker of the command processor waits, by a replayable fault or by a page request of an I/O page, and pages refused to a walker (R317, R319) -/
  cpWait : List (Nat × FaultKey) := []
  cpHost : List (Nat × Nat × FaultKey) := []
  cpRefused : List (Nat × FaultKey) := []
  /-- translations that a REPLAY has walked for a walker that waited (R319) -/
  cpMade : List (Nat × FaultKey × TlbE) := []
  /-- what it keeps of the cores of its group while another member holds them (R324, R327) -/
  kept : Tbl KeptCore := []
  fbseq : BitVec 32 := 0
  /-- core after which placement starts its search, and the cycle of the latest placement (R265) -/
  lastCid : Nat := 143
  lastPlace : Option Nat := none
  /-- deadline of a drain and end of a quantum, in half nanoseconds -/
  deadline : Option Nat := none
  /-- started launches whose NEXT is still to be written to their ring slots (R302) -/
  nextPend : List Nat := []
  quantEnd : Option Nat := none
  /-- when it last gave up the clusters of its group (R310) -/
  heldAt : Nat := 0
  saved : List Saved := []
  /-- PASIDs in teardown: REC, the command's index, and the requests still to drain -/
  teardown : Tbl (Nat × Nat × List Nat) := []
  /-- the command of the invalidation queue that has been taken and not completed -/
  iqbusy : Option IqCmd := none
  deriving DecidableEq, Repr

/-- A compute die with its governor (R11 to R15). -/
structure Die where
  mhz : Nat := 1200
  phase : Nat := 0
  cyc : Nat := 0
  budget : Option Nat := none
  pending : Option Nat := none
  /-- start of the present governor period, in half nanoseconds -/
  since : Nat := 0
  negative : Bool := false
  deriving DecidableEq, Repr

/-- A channel: its Rasp and registers (R360, R374). -/
structure Chan where
  en : Bool := true
  outer : Bool := false
  slots : Nat := 2
  period : Nat := 1000
  pos : Nat := 0
  pass : BitVec 32 := 0
  ce : Nat := 0
  ue : Nat := 0
  rowth : Nat := 4
  bankth : Nat := 256
  deadth : Nat := 128
  ppr : Nat := 0
  /-- the frame remap table: for each SFRM that is remapped its TCH and TFRM -/
  remap : Tbl (Nat × Nat) := []
  /-- the entry of the table, 0 to 4,095, in which each of those stands, and the fields SFRM, TCH and TFRM of the entries, also with V = 0 -/
  ridx : Tbl Nat := []
  rent : Tbl (Nat × Nat × Nat) := []
  dead : Bool := false
  bsel : Nat := 0
  bank : Tbl Nat := []
  /-- corrected sectors of each row in this pass -/
  rows : Tbl Nat := []
  /-- sectors corrected once in this pass -/
  seen : List Nat := []
  /-- rows due for repair (R365) -/
  due : List Nat := []
  /-- frames due for remapping, and the banks that have been retired (R365) -/
  moves : List Nat := []
  retired : List Nat := []
  deriving DecidableEq, Repr

/-- The home slice's copy of a line's state against HBM (R183, R353): dirty sectors and the old line. -/
structure L2Line where
  dirty : BitVec 4 := 0
  old : List Byte
  deriving DecidableEq, Repr

/-- A Recaster (R368, R375). -/
structure Recaster where
  busy : Bool := false
  span : Nat := 0
  layout : Nat := 0
  unit : Nat := 0
  err : Bool := false
  done : BitVec 32 := 0
  lost : Nat := 0
  /-- the lines of the present unit are held; those handed off -/
  hold : Bool := false
  handed : List Nat := []
  lostSpan : Bool := false
  deriving DecidableEq, Repr

/-- A span entry as the Armature caches hold it (R355). -/
structure SpanE where
  layout : Nat
  stat : Nat
  owner : Nat
  cursor : Nat := 0
  deriving DecidableEq, Repr

/-- The Armature: SPN registers (R373) and what its caches hold of the tables (R355 to R361). -/
structure Armature where
  stbase : Nat := 0
  ltbase : Nat := 0
  sftbase : Nat := 0
  updBusy : Option Nat := none
  /-- two bits for each stack: 0 healthy, 1 failed, 2 retired -/
  stk : BitVec 24 := 0
  release : Nat := 0
  /-- channel maps, keyed 32·stack + logical channel; absent means the identity -/
  chmap : Tbl Nat := []
  spans : Tbl SpanE := []
  layouts : Tbl (List Nat) := []
  /-- frames keyed 72,089·stack + span -/
  frames : Tbl Nat := []
  deriving DecidableEq, Repr

/-- A firmware core (R331, R332). -/
structure FwCore where
  /-- in its boot ROM until it has accepted an image -/
  booted : Bool := false
  rejected : Bool := false
  image : BitVec 256 := 0
  version : Nat := 0
  /-- time of its latest successful renewal, in half nanoseconds, while it believes it leads, and the word that it then wrote -/
  renewed : Option Nat := none
  word : BitVec 64 := 0
  /-- time of its latest poll or renewal attempt, in half nanoseconds -/
  polled : Nat := 0
  deriving DecidableEq, Repr

/-- TDISP states (R334). -/
inductive Tdi where
  | unlocked | locked | run | error
  deriving DecidableEq, Repr

/-- A virtual function (R328, R329, R334). -/
structure Vf where
  tdi : Tdi := .unlocked
  nonce : BitVec 256 := 0
  keyed : Bool := false
  bar0 : Nat := 0
  bar2 : Nat := 0
  mse : Bool := false
  /-- the MSI-X table location, and the message control: 64 vectors, masked, enabled (R328) -/
  msix : Nat := 0
  msixCtl : Nat := 63
  /-- the VF's SR-IOV fields in the PF -/
  sriov : Nat := 0
  /-- BAR0, BAR2 and the MSI-X message control as they were at lock (R336) -/
  atLock : Nat × Nat × Nat := (0, 0, 0)
  deriving DecidableEq, Repr

/-- A Relidal link and the peer table (R330). -/
structure PeerE where
  present : Bool := false
  link : Nat := 0
  /-- device at the far end serves the access -/
  mem : Memory := []
  /-- what its ownership check refuses: partition and span -/
  deny : List (Nat × Nat) := []
  deriving DecidableEq, Repr

/-- A message to the outside: completions of host and peer requests, SPDM and TDISP responses, notices (R325, R328 to R336). -/
inductive HostMsg where
  /-- completion of a request to a function: served or unsupported, its data poisoned or not, its bytes -/
  | completion (fn : Nat) (ok poison : Bool) (bytes : List Byte)
  | peerDone (link : Nat) (ok poison : Bool) (bytes : List Byte)
  | atsDone (fn ioPage count : Nat)
  /-- what firmware or the operator reads from a register (log 25) -/
  | register (val : Nat)
  /-- an SPDM response: fields and a digest -/
  | spdm (ok : Bool) (fields : List Nat) (digest : BitVec 256)
  | tdisp (vf : Nat) (ok : Bool) (nonce : BitVec 256)
  | report (vf : Nat) (ok : Bool) (fields : List Nat)
  | recovery
  deriving DecidableEq, Repr

end Sys2Proof.Machine
end

