-- ==== Sys2Proof/Machine/State.lean ====
section
/-! DEFINITION. The whole state of the device and what the model itself adds, the reasons a step can stop, and the state after reset. Plain data. -/

namespace Sys2Proof.Machine

/-- The state of the device. -/
structure State where
  /-- time since reset in half nanoseconds; the 1 GHz timebase of R257 is its half -/
  time : Nat := 0
  dies : Tbl Die := []
  /-- the board (R19, R20): ordering code WX-RLD3-M or not, and the module power limit in watts -/
  orderM : Bool := true
  moduleW : Nat := 1800
  /-- the start of the earliest of the governor periods in a row in which the module was over its limit (R15) -/
  overFrom : Option Nat := none
  /-- failed fabric connections 0 to 2 (R10) -/
  fabricDown : List Nat := []
  /-- waves keyed 128·cid + 16·quad + slot; a combiner wave has 128·cid + 64 -/
  waves : Tbl Wave := []
  blocks : Tbl Block := []
  groups : Tbl Group := []
  launches : Tbl Launch := []
  /-- cores that differ from their reset state -/
  cores : Tbl Core := []
  /-- L2 TLBs by cluster (R316) -/
  tlb2 : Tbl (List TlbE) := []
  /-- device memory as the home slices serve it, by DPA (R181) -/
  mem : Memory := []
  /-- lines resident in L2 slices -/
  l2 : Tbl L2Line := []
  /-- lines served poisoned (R187, R354) -/
  badLines : List Nat := []
  /-- HBM contents by 2^31·global channel + channel byte address (R359), and what is wrong in them: byte i of a sector of 36 (R350) at 36·(its address/32) + i, XORed to what was written -/
  hbm : Memory := []
  hbmErr : Memory := []
  /-- check-delta buffers: pending XOR of the P line of stripe n (DPA/1024) at 2n, of its Q line at 2n + 1 (R353) -/
  deltas : Tbl (List Byte) := []
  reqs : Tbl Req := []
  batches : Tbl Batch := []
  /-- writes of the device's units that wait at the home of a held line (R228, R368), in order; error records that their writer has still to write -/
  later : List Late := []
  toLog : List (Nat × ErrRec) := []
  hostMem : Memory := []
  /-- host pages absent at the host, and page requests outstanding -/
  hostAbsent : List HostPage := []
  priWait : List HostPage := []
  /-- ATS translations that the base dies hold (R328) -/
  ats : List (Nat × HostPage) := []
  peers : Tbl PeerE := []
  linksDown : List Nat := []
  parts : Tbl Part := []
  arm : Armature := {}
  chans : Tbl Chan := []
  recasters : Tbl Recaster := []
  /-- SQS of each command processor: the solves in order of start, the first one running (R300) -/
  sqs : Tbl (List Solve) := []
  fw : Tbl FwCore := []
  /-- SPDM sessions that are open (R333) -/
  spdm : List Nat := []
  vfs : Tbl Vf := []
  /-- the platform operator's log (R348) -/
  oplog : List (List Byte) := []
  /-- its records that wait for a leader (R331) -/
  opWait : List (List Byte) := []
  /-- error sequence counters, keyed 16·SRC + log; log 0 to 11 a partition, 12 the operator (R348) -/
  seqs : Words 32 := []
  /-- logical clocks by unit (R248) -/
  lclk : Words 48 := []
  /-- the stamp of the latest graph `SIGNAL` on a 64-bit word (R249, R286), by its place -/
  signals : List (Place × BitVec 48) := []
  /-- what the device has sent to the host -/
  sent : List HostMsg := []
  /-- the model's own: the wave chosen to issue, the quads still to choose in this cycle and the dies whose quads are still to be listed, the steps to take next, the next fresh identifier, the counter of free values -/
  cur : Option Nat := none
  todo : List (Nat × Nat) := []
  fresh : List Nat := []
  inbox : List Instr := []
  /-- accesses of the host and of peers that wait behind a held line (R228, R368), in order -/
  heldIn : List Instr := []
  nextId : Nat := 1
  /-- the model's own: the next name of a write that waits at a held line -/
  lateSeq : Nat := 0
  freeCtr : Nat := 0
  deriving DecidableEq, Repr

/-- Reasons for a fault of the model. Every one is safe: the machine stops where the hardware would go on with other work. -/
inductive Fault where
  /-- raised by the meaning of an instruction word when no wave has been chosen to issue it; only `exec` applied outside a step meets it; safe -/
  | noWave
  deriving DecidableEq, Repr

/-- Reasons for a refusal. -/
inductive Refusal where
  /-- raised by an arm of `exec` whose instruction has no meaning yet; safe -/
  | notModelled (mnemonic : String)
  deriving DecidableEq, Repr

/-- The machine right after reset (R3, R15 and the Reset columns of the registers). Every table is empty: no wave, block, launch, request or record exists, and every core, die, partition, channel and link is in the reset state of its structure's defaults. Registers to which the manual gives no reset value have those of log 5 and 6. -/
def State.reset : State := {}

end Sys2Proof.Machine
end

