-- ==== Sys2Proof/Machine/Base.lean ====
section
/-! DEFINITION. The named operations over the tables of the state: reading and changing a wave, a core, a partition and the like; cycles; logical clocks (R248, R249); fresh identifiers. -/

namespace Sys2Proof.Machine

/-- The core of a wave key. -/
def cidOf (k : Nat) : Nat := k / 128
/-- The wave slot of a wave key, 0 to 63, or 64 for the combiner slot. -/
def slotOf (k : Nat) : Nat := k % 128
/-- The wave byte of R252. -/
def wbOf (k : Nat) : Nat := k % 128 % 64
/-- The quad of a wave key; the combiner slot is quad 3's (R27). -/
def quadOf (k : Nat) : Nat := if slotOf k = 64 then 3 else slotOf k / 16
/-- R7: the cluster and the die of a core. -/
def clidOf (cid : Nat) : Nat := cid / 4
def didOf (cid : Nat) : Nat := cid / 48

namespace State

def wave (s : State) (k : Nat) : Option Wave := Tbl.get? s.waves k
def setWave (s : State) (k : Nat) (w : Wave) : State := { s with waves := Tbl.set s.waves k w }
/-- Change a wave, if it is resident. -/
def modWave (s : State) (k : Nat) (f : Wave → Wave) : State := { s with waves := Tbl.modify s.waves k f }

def core (s : State) (cid : Nat) : Core := Tbl.getD s.cores cid {}
def modCore (s : State) (cid : Nat) (f : Core → Core) : State := { s with cores := Tbl.set s.cores cid (f (s.core cid)) }

def die (s : State) (d : Nat) : Die := Tbl.getD s.dies d {}
def modDie (s : State) (d : Nat) (f : Die → Die) : State := { s with dies := Tbl.set s.dies d (f (s.die d)) }

def part (s : State) (p : Nat) : Part := Tbl.getD s.parts p {}
def modPart (s : State) (p : Nat) (f : Part → Part) : State := { s with parts := Tbl.set s.parts p (f (s.part p)) }

def chan (s : State) (c : Nat) : Chan := Tbl.getD s.chans c {}
def modChan (s : State) (c : Nat) (f : Chan → Chan) : State := { s with chans := Tbl.set s.chans c (f (s.chan c)) }

def block (s : State) (b : Nat) : Option Block := Tbl.get? s.blocks b
def modBlock (s : State) (b : Nat) (f : Block → Block) : State := { s with blocks := Tbl.modify s.blocks b f }

def modGroup (s : State) (g : Nat) (f : Group → Group) : State := { s with groups := Tbl.modify s.groups g f }

def launch (s : State) (l : Nat) : Option Launch := Tbl.get? s.launches l
def modLaunch (s : State) (l : Nat) (f : Launch → Launch) : State := { s with launches := Tbl.modify s.launches l f }

def modReq (s : State) (r : Nat) (f : Req → Req) : State := { s with reqs := Tbl.modify s.reqs r f }
def modBatch (s : State) (b : Nat) (f : Batch → Batch) : State := { s with batches := Tbl.modify s.batches b f }

/-- The arithmetic-clock cycle of a core (R11, R38). -/
def cyc (s : State) (cid : Nat) : Nat := (s.die (didOf cid)).cyc

/-- The timebase (R257): nanoseconds since reset. -/
def ns (s : State) : Nat := s.time / 2

/-- The launch of a block, and of the block of a wave. -/
def launchOf (s : State) (b : Nat) : Option Launch := (s.block b).bind (fun x => s.launch x.launch)

/-- The wave of a pending operation. -/
def pend (s : State) (k op : Nat) : Option Pend := (s.wave k).bind (fun w => w.pend.find? (fun p => p.id = op))

/-- Change one pending operation of a wave. -/
def modPend (s : State) (k op : Nat) (f : Pend → Pend) : State :=
  s.modWave k (fun w => { w with pend := w.pend.map (fun p => if p.id = op then f p else p) })

/-- Requests in flight of one operation of a wave. -/
def reqsOf (s : State) (k op : Nat) : List (Nat × Req) := s.reqs.filter (fun e => e.2.wave = k && e.2.op = op)

/-- A request put on its way. -/
def addReq (s : State) (r : Req) : State := { s with reqs := Tbl.set s.reqs s.nextId r, nextId := s.nextId + 1 }

/-- Put steps of the device at the end of those still to come. -/
def post (s : State) (is : List Instr) : State := { s with inbox := s.inbox ++ is }

/-- Put steps of the device before those still to come: they belong to the present one. -/
def soon (s : State) (is : List Instr) : State := { s with inbox := is ++ s.inbox }

end State

/-! Logical clocks (R248, R249): one key for each unit that keeps one. -/

def lcCore (cid : Nat) : Nat := cid
def lcCopy (cid : Nat) : Nat := 256 + cid
def lcMatrix (cid : Nat) : Nat := 512 + cid
def lcChu (slice : Nat) : Nat := 1024 + slice
def lcDispatcher (cp : Nat) : Nat := 2048 + cp
def lcWalker (cp : Nat) : Nat := 2064 + cp
def lcSqs (cp : Nat) : Nat := 2080 + cp
def lcRecaster (k : Nat) : Nat := 2096 + k
def lcFirmware (k : Nat) : Nat := 2112 + k
def lcLink (l : Nat) : Nat := 2128 + l

/-- R248: the later of two stamps in serial order. -/
def lcMax (a b : BitVec 48) : BitVec 48 := if a ≠ b ∧ (b - a).toNat < 2 ^ 47 then b else a

namespace State

def lc (s : State) (u : Nat) : BitVec 48 := Words.get s.lclk u

/-- A local event or a send: L = L + 1 (R249). -/
def lcTick (s : State) (u : Nat) : State := { s with lclk := Words.put s.lclk u (s.lc u + 1) }

/-- Receiving a message: L = max(L, stamp) + 1 (R249). -/
def lcRecv (s : State) (u : Nat) (stamp : BitVec 48) : State :=
  { s with lclk := Words.put s.lclk u (lcMax (s.lc u) stamp + 1) }

end State

/-! The leading firmware core (R331). -/

/-- R331: how long a renewal keeps a leader's duties valid, in half nanoseconds. -/
def leaseSpan : Nat := 1500000

/-- R331: a firmware core that leads. -/
def leads (s : State) (d : Nat) : Bool :=
  let f := Tbl.getD s.fw d {}
  f.booted && (match f.renewed with | some t => decide (s.time < t + leaseSpan) | none => false)

/-- The leader, if there is one. -/
def leader (s : State) : Option Nat := (List.range 3).find? (leads s)

/-- The clusters of a partition (R323), as the group's lowest member has them (R324). -/
def State.clusters (s : State) (p : Nat) : BitVec 36 :=
  let g := (s.part p).group
  if g = 0 then (s.part p).clmask
  else match (List.range 12).find? (fun q => (s.part q).group = g) with
    | some q => (s.part q).clmask
    | none => (s.part p).clmask

/-- R324: a partition holds its clusters: in a time-slice group, as the lowest member that runs. -/
def State.holds (s : State) (p : Nat) : Bool :=
  let g := (s.part p).group
  g = 0 || (List.range 12).find? (fun q => (s.part q).group = g && (s.part q).pstate ≠ 3) = some p

/-- The cores of a partition, ascending. -/
def State.coresOf (s : State) (p : Nat) : List Nat :=
  (List.range 144).filter (fun c => (s.clusters p).getLsbD (clidOf c))

/-- R305: the rank of a core among its partition's cores. -/
def State.rankOf (s : State) (p cid : Nat) : Nat := ((s.coresOf p).filter (fun c => c < cid)).length

/-- R287: the command processor on which a partition's graphs run. -/
def State.cpOf (s : State) (p : Nat) : Nat :=
  match (List.range 36).find? (fun c => (s.clusters p).getLsbD c) with
  | some c => c / 12
  | none => 0

/-- Names of kinds of page fault as R318 numbers them. -/
def pkindCode : PKind → Nat
  | .read => 0 | .write => 1 | .fetch => 2

/-- Flags f1 to f12 (R33). -/
def Wave.flag (w : Wave) (k : Nat) : Nat := (Words.get w.f k).toNat
def Wave.flagUp (w : Wave) (k : Nat) : Wave := if k = 0 then w else { w with f := Words.put w.f k (Words.get w.f k + 1) }
def Wave.flagDown (w : Wave) (k : Nat) : Wave := if k = 0 then w else { w with f := Words.put w.f k (Words.get w.f k - 1) }

/-- p registers; p0 reads all ones and its writes are discarded (R33). A write clears the poison of every lane that it writes, also of
lanes that do not act, which `.clr` and `elect` write (DEDUCED, log 31: R74 names the acting lanes only). -/
def Wave.pget (w : Wave) (n : Nat) : Mask := if n = 0 then allLanes else Words.get w.p n
def Wave.pput (w : Wave) (n : Nat) (lanes vals : Mask) : Wave :=
  if n = 0 then w
  else { w with p := Words.put w.p n ((Words.get w.p n &&& ~~~lanes) ||| (vals &&& lanes))
                poisonP := Words.put w.poisonP n (Words.get w.poisonP n &&& ~~~lanes) }

/-- q registers; q0 reads 1 and its writes are discarded (R33). -/
def Wave.qget (w : Wave) (n : Nat) : Bool := n = 0 || w.q.getLsbD n
def Wave.qput (w : Wave) (n : Nat) (b : Bool) : Wave :=
  if n = 0 then w
  else { w with q := (w.q &&& ~~~(1#16 <<< n)) ||| (if b then 1#16 <<< n else 0)
                poisonQ := w.poisonQ &&& ~~~(1#16 <<< n) }

/-- Scalar registers. -/
def Wave.sget (w : Wave) (n : Nat) : Word := Words.get w.s n
def Wave.sput (w : Wave) (n : Nat) (x : Word) : Wave :=
  { w with s := Words.put w.s n x, poisonS := w.poisonS &&& ~~~(1#128 <<< n) }

/-- Vector registers by lane. -/
def Wave.vget (w : Wave) (n lane : Nat) : Word := Words.get w.v (96 * n + lane)
def Wave.vput (w : Wave) (n : Nat) (xs : List (Nat × Word)) : Wave :=
  { w with v := xs.foldl (fun v e => Words.put v (96 * n + e.1) e.2) w.v
           poisonV := Words.put w.poisonV n (Words.get w.poisonV n &&& ~~~maskOf (fun i => xs.any (fun e => e.1 = i))) }

/-- The fixed bits of plive (R36). -/
def pliveFix (x : Word) : Word := x ||| 0x00010001

/-- The execution mask that s0 to s2 hold (R70). -/
def maskOfScalars (s0 s1 s2 : Word) : Mask := (s2 ++ s1 ++ s0).cast (by decide)

def Wave.execMask (w : Wave) : Mask := maskOfScalars (w.sget 0) (w.sget 1) (w.sget 2)

/-- Replace the part of a mask that scalar n holds. -/
def maskPart (m : Mask) (n : Nat) (x : Word) : Mask :=
  if n < 3 then (m &&& ~~~((0xFFFFFFFF : Mask) <<< (32 * n))) ||| ((x.setWidth 96) <<< (32 * n)) else m

/-- R74: the lanes of a vector register that are poisoned, or whose bytes `used` hold an uncorrectable error. -/
def Wave.badV (w : Wave) (n : Nat) (used : BitVec 4 := 15) : Mask :=
  w.errs.foldl (fun m e => match e.1 with
    | .v j l => if j = n && e.2 &&& used ≠ 0 then m ||| (1#96 <<< l) else m
    | _ => m) (Words.get w.poisonV n)

/-- The same of a scalar register, a p register and a q register; p0 and q0 hold nothing. -/
def Wave.badS (w : Wave) (n : Nat) (used : BitVec 4 := 15) : Bool :=
  w.poisonS.getLsbD n || w.errs.any (fun e => e.1 = .s n && e.2 &&& used ≠ 0)
def Wave.badP (w : Wave) (n : Nat) : Mask :=
  if n = 0 then 0
  else w.errs.foldl (fun m e => match e.1 with | .p j l => if j = n then m ||| (1#96 <<< l) else m | _ => m) (Words.get w.poisonP n)
def Wave.badQ (w : Wave) (n : Nat) : Bool := n ≠ 0 && (w.poisonQ.getLsbD n || w.errs.any (fun e => e.1 = .q n))

/-- The poison bit of a value is set (R74). -/
def Wave.poison (w : Wave) : RegAt → Wave
  | .v n l => { w with poisonV := Words.put w.poisonV n (Words.get w.poisonV n ||| (1#96 <<< l)) }
  | .s n => { w with poisonS := w.poisonS ||| (1#128 <<< n) }
  | .p n l => { w with poisonP := Words.put w.poisonP n (Words.get w.poisonP n ||| (1#96 <<< l)) }
  | .q n => { w with poisonQ := w.poisonQ ||| (1#16 <<< n) }

/-- R74: every error of the register files is found, as a read of all of them finds it. -/
def Wave.found (w : Wave) : Wave := { w.errs.foldl (fun w e => w.poison e.1) w with errs := [] }

/-- A write makes a value anew. -/
def RegW.covers (r : RegW) (a : RegAt) : Bool :=
  match r, a with
  | .v n xs, .v m l => n = m && xs.any (fun e => e.1 = l)
  | .s n _, .s m => n = m
  | .p n lanes _, .p m l => n = m && lanes.getLsbD l
  | .q n _, .q m => n = m
  | _, _ => false

/-- One register write takes effect (R53, R74). -/
def Wave.apply (w : Wave) : RegW → Wave
  | .v n xs => w.vput n xs
  | .s n x => w.sput n x
  | .p n lanes vals => w.pput n lanes vals
  | .q n b => w.qput n b
  | .plive x => { w with plive := pliveFix x }
  | .fst x => { w with fst := x.setWidth 6 }

/-- Register writes take effect in order, then the `fst` bits they raise (R37). -/
def Wave.applyAll (w : Wave) (ws : List RegW) (fst : Word) : Wave :=
  let w := ws.foldl Wave.apply w
  { w with fst := w.fst ||| fst.setWidth 6, errs := w.errs.filter (fun e => !ws.any (fun r => r.covers e.1)) }

/-- A write to s0 to s2 governs the mask from the moment it is made (R35, R53). -/
def Wave.govern (w : Wave) (ws : List RegW) : Wave :=
  { w with emask := ws.foldl (fun m r => match r with | .s n x => maskPart m n x | _ => m) w.emask }

end Sys2Proof.Machine
end

