-- ==== Sys2Proof/Machine/Home.lean ====
section
/-! DEFINITION. Device memory below the caches: the Armature (R352, R355 to R361), the inner and outer codes (R350, R351, R354), the home slices (R181, R183, R353) and the ownership check (R325). -/

namespace Sys2Proof.Machine

/-- Arithmetic of GF(2^8) with polynomial 0x11D (R351). -/
def gfX2 (x : Nat) : Nat := if x < 128 then 2 * x else (2 * x) ^^^ 0x11D

def gfMulAux : Nat → Nat → Nat → Nat
  | 0, _, _ => 0
  | n + 1, x, y => (if y.testBit 0 then x else 0) ^^^ gfMulAux n (gfX2 x) (y / 2)

def gfMul (x y : Nat) : Nat := gfMulAux 8 x y

/-- g^j. -/
def gfPow : Nat → Nat
  | 0 => 1
  | j + 1 => gfX2 (gfPow j)

def gfPowOf (x : Nat) : Nat → Nat
  | 0 => 1
  | n + 1 => gfMul x (gfPowOf x n)

/-- The inverse, x^254. -/
def gfInv (x : Nat) : Nat := gfPowOf x 254

/-- R352: span, stripe and data line of a device physical address. -/
def spanOf (dpa : Nat) : Nat := dpa / 2 ^ 23
def stripeOf (dpa : Nat) : Nat := dpa / 1024 % 8192
def dataOf (dpa : Nat) : Nat := dpa / 128 % 8

def nSpan : Nat := 72089

/-- R357: ten different stacks from 0 to 11. -/
def layoutValid (l : List Nat) : Bool := l.length = 10 && l.all (· < 12) && decide l.Nodup

namespace State

/-- The layout with a number, as the Armature caches hold it. -/
def layout (s : State) (n : Nat) : List Nat := Tbl.getD s.arm.layouts n []

/-- The span entry of a span with storage (R325, R356, R357); none where every access is refused. -/
def spanE (s : State) (sp : Nat) : Option SpanE :=
  if nSpan ≤ sp then none
  else match Tbl.get? s.arm.spans sp with
    | none => none
    | some e => if e.stat = 0 || 5 < e.stat || !layoutValid (s.layout e.layout) then none else some e

/-- R325: the owner of the span of an address. -/
def owner (s : State) (dpa : Nat) : Option Nat := (s.spanE (spanOf dpa)).map (·.owner)

/-- The layout that a stripe uses now (R369). -/
def stripeLayout (s : State) (sp st : Nat) : List Nat :=
  match s.spanE sp with
  | none => []
  | some e =>
    if e.stat = 4 && st / 8 < e.cursor then
      match Tbl.find? s.recasters (fun _ r => r.busy && r.span = sp) with
      | some (_, r) => s.layout r.layout
      | none => s.layout e.layout
    else s.layout e.layout

/-- R358: the global channel of position p of a stripe under a layout. -/
def channelAt (s : State) (lay : List Nat) (sp st p : Nat) : Nat :=
  let t := lay.getD p 0
  let x := (st + sp) % 32
  32 * t + Tbl.getD s.arm.chmap (32 * t + x) x

/-- The home slice of the line of a device address (R181, R358). -/
def homeSlice (s : State) (dpa : Nat) : Nat :=
  let sp := spanOf dpa
  let st := stripeOf dpa
  s.channelAt (s.stripeLayout sp st) sp st ((st + dataOf dpa) % 10)

/-- SPN_STK of a stack is healthy (R373). -/
def stackOk (s : State) (t : Nat) : Bool := (s.arm.stk.extractLsb' (2 * t) 2) == 0

/-- R359, R360: where a line lies in HBM under a layout: its address in `hbm`; none where it cannot be read (no frame, failed stack, dead channel not remapped). -/
def physAt (s : State) (lay : List Nat) (sp st p : Nat) : Option Nat :=
  let t := lay.getD p 0
  let ch := s.channelAt lay sp st p
  match Tbl.get? s.arm.frames (nSpan * t + sp) with
  | none => none
  | some f =>
    if f = 0xFFFF || !s.stackOk t then none
    else match Tbl.get? (s.chan ch).remap f with
      | some (tch, tf) =>
        if (s.chan (32 * t + tch)).dead then none else some ((32 * t + tch) * 2 ^ 31 + tf * 32768 + 128 * (st / 32))
      | none => if (s.chan ch).dead then none else some (ch * 2 ^ 31 + f * 32768 + 128 * (st / 32))

def phys (s : State) (sp st p : Nat) : Option Nat := s.physAt (s.stripeLayout sp st) sp st p

/-- The key in `hbmErr` of byte i of the sector at an address: 32 data bytes, then 4 check bytes. -/
def errKey (a i : Nat) : Nat := 36 * (a / 32) + i

/-- R350: a sector as its channel reads it: its bytes, and how many were corrected; none where it is an erasure. -/
def sectorRead (s : State) (a : Nat) : Option (List Byte × Nat) :=
  let raw := Memory.readBytes s.hbm a 32
  if s.hbmErr.isEmpty then some (raw, 0)
  else
    let err := (List.range 36).map (fun i => Memory.read s.hbmErr (errKey a i))
    match (err.filter (· ≠ 0)).length with
    | 0 => some (raw, 0)
    | 1 => some (raw, 1)
    | 2 => none
    | 3 => none
    | _ => if Config.manyErrorsDetected s.freeCtr a then none else some (List.zipWith (· ^^^ ·) raw err, 0)

/-- The 128 symbols of a line as its channel reads them; none for an erased byte. -/
def rawLine (s : State) (a : Option Nat) : List (Option Nat) :=
  match a with
  | none => List.replicate 128 none
  | some a => (List.range 4).flatMap (fun k =>
      match s.sectorRead (a + 32 * k) with
      | some (bs, _) => bs.map (fun b => some b.toNat)
      | none => List.replicate 32 none)

end State

/-- XOR two symbol lists of a line. -/
def xorSyms (a b : List Nat) : List Nat := List.zipWith (· ^^^ ·) a b

/-- R354 at one byte position: the data symbols with P and Q, erased ones none; the corrected ten symbols, or none where uncorrectable. -/
def decodeSyms (d : List (Option Nat)) (p q : Option Nat) : Option (List Nat × Nat × Nat) :=
  let d0 := d.map (·.getD 0)
  let pSum := d0.foldl (· ^^^ ·) 0
  let qSum := (d0.zipIdx.map (fun e => gfMul (gfPow e.2) e.1)).foldl (· ^^^ ·) 0
  let er := (d.zipIdx.filter (fun e => e.1.isNone)).map (·.2)
  match er, p, q with
  | [], some p, some q =>
    let sp := p ^^^ pSum
    let sq := q ^^^ qSum
    if sp = 0 then some (d0, p, qSum)
    else if sq = 0 then some (d0, pSum, q)
    else match (List.range 8).find? (fun j => gfMul (gfPow j) sp = sq) with
      | some j => some (d0.set j (d0.getD j 0 ^^^ sp), p, q)
      | none => none
  | [], some p, none => some (d0, p, qSum)
  | [], none, some q => some (d0, pSum, q)
  | [], none, none => some (d0, pSum, qSum)
  | [j], some p, some q => some (d0.set j (p ^^^ pSum), p, q)
  | [j], some p, none =>
    let x := p ^^^ pSum
    some (d0.set j x, p, qSum ^^^ gfMul (gfPow j) x)
  | [j], none, some q =>
    let x := gfMul (q ^^^ qSum) (gfInv (gfPow j))
    some (d0.set j x, pSum ^^^ x, q)
  | [j, k], some p, some q =>
    let p' := p ^^^ pSum
    let q' := q ^^^ qSum
    let dk := gfMul (q' ^^^ gfMul (gfPow j) p') (gfInv (gfPow j ^^^ gfPow k))
    some ((d0.set k dk).set j (p' ^^^ dk), p, q)
  | _, _, _ => none

/-- The syndromes of a stripe show no error at a byte position (R354, no erasure). -/
def symsClean (d : List (Option Nat)) (p q : Option Nat) : Bool :=
  match decodeSyms d p q with
  | some (ds, p', q') => d = ds.map some && p = some p' && q = some q'
  | none => false

namespace State

/-- The key in `deltas` of the P line (0) or the Q line (1) of a stripe. -/
def deltaKey (sp st q : Nat) : Nat := 2 * (8192 * sp + st) + q

/-- The ten lines of a stripe as they are read for a decode, with the buffered deltas applied to P and Q. -/
def stripeRead (s : State) (sp st : Nat) : List (List (Option Nat)) × List (Option Nat) × List (Option Nat) :=
  let line := fun p => s.rawLine (s.phys sp st p)
  let check := fun p => match s.phys sp st p with
    | none => List.replicate 128 none
    | some a => match Tbl.get? s.deltas (deltaKey sp st (if p = (st + 9) % 10 then 1 else 0)) with
      | none => s.rawLine (some a)
      | some δ => List.zipWith (fun o b => o.map (fun x => x ^^^ b.toNat)) (s.rawLine (some a)) δ
  ((List.range 8).map (fun j => line ((st + j) % 10)), check ((st + 8) % 10), check ((st + 9) % 10))

/-- R354: decode a whole stripe. For each byte position the ten symbols, or none. -/
def stripeSyms (s : State) (sp st : Nat) : List (Option (List Nat × Nat × Nat)) :=
  let r := s.stripeRead sp st
  (List.range 128).map (fun b =>
    decodeSyms (r.1.map (fun l => (l.getD b none))) (r.2.1.getD b none) (r.2.2.getD b none))

/-- The 128 bytes of a data line as HBM and its codes give them; none where uncorrectable (R187, R354). -/
def hbmLine (s : State) (dpa : Nat) : Option (List Byte) :=
  let sp := spanOf dpa
  let st := stripeOf dpa
  let j := dataOf dpa
  let raw := s.rawLine (s.phys sp st ((st + j) % 10))
  if raw.all (·.isSome) then some (raw.map (fun o => BitVec.ofNat 8 (o.getD 0)))
  else (s.stripeSyms sp st).mapM (fun o => o.map (fun e => BitVec.ofNat 8 (e.1.getD j 0)))

end State

/-- The unit whose logical clock stamps a source's records. -/
def lcOfSrc (src : Nat) : Nat :=
  if src < 0x100 then lcCore src
  else if src < 0x300 then lcChu (src - 0x100)
  else if src < 0x500 then lcChu (src - 0x300)
  else if src < 0x510 then lcDispatcher (src - 0x500)
  else lcFirmware (src - 0x510)

/-- The 32 bytes of a record (R348). -/
def ErrRec.bytes (r : ErrRec) (seq : Nat) (lc : Nat) : List Byte :=
  leBytes 4 seq ++ leBytes 2 r.src ++ leBytes 1 r.kind ++ leBytes 1 r.cls ++ leBytes 2 r.reason ++ leBytes 1 r.wb
    ++ leBytes 1 r.flags ++ leBytes 4 r.aux ++ leBytes 8 r.addr ++ leBytes 8 lc

namespace State

/-- The next SEQ of a source for a log (R348). -/
def seqOf (s : State) (src log : Nat) : Nat := (Words.get s.seqs (16 * src + log)).toNat

def bumpSeq (s : State) (src log : Nat) : State :=
  { s with seqs := Words.put s.seqs (16 * src + log) (Words.get s.seqs (16 * src + log) + 1) }

/-- A record for the platform operator's log: the leader keeps it; while there is none it waits (R331). -/
def logOperator (s : State) (r : ErrRec) : State :=
  let bs := r.bytes (s.seqOf r.src 12) (s.lc (lcOfSrc r.src)).toNat
  if (leader s).isSome then { s.bumpSeq r.src 12 with oplog := s.oplog ++ [bs] }
  else { s.bumpSeq r.src 12 with opWait := s.opWait ++ [bs] }

/-- A leader that begins takes the records that have waited. -/
def keepLog (s : State) : State := { s with oplog := s.oplog ++ s.opWait, opWait := [] }

/-! What the controllers note of errors (R350, R362, R365, R367). -/

/-- The channel of an address in `hbm`, the row and the bank within it (R359, R364). -/
def chanOf (a : Nat) : Nat := a / 2 ^ 31
def rowOf (a : Nat) : Nat := a % 2 ^ 31 / 1024
def bankOf (a : Nat) : Nat := a % 2 ^ 31 / 32768 % 64

/-- R362: a channel is marked dead; with four dead channels its stack has failed. -/
def markDead (s : State) (ch : Nat) : State :=
  if (s.chan ch).dead then s
  else
    let s := (s.modChan ch (fun c => { c with dead := true })).logOperator { src := 0x100 + ch, kind := 14 }
    let t := ch / 32
    if 4 ≤ ((List.range 32).filter (fun i => (s.chan (32 * t + i)).dead)).length then s.post [.stackFail t] else s

/-- A sector is written anew: its bytes, and no byte in error. -/
def sectorWrite (s : State) (a : Nat) (bs : List Byte) : State :=
  { s with hbm := Memory.writeBytes s.hbm a bs
           hbmErr := if s.hbmErr.isEmpty then s.hbmErr else Memory.writeBytes s.hbmErr (errKey a 0) (List.replicate 36 0) }

/-- R359, R360: what lies in the frames of a channel that meet a test: each as the channel and the frame from which the remap tables lead there. -/
def framesIn (s : State) (ch : Nat) (test : Nat → Bool) : List (Nat × Nat) :=
  let t := ch / 32
  let own := (s.arm.frames.filter (fun e => e.1 / nSpan = t && test e.2 && !Tbl.has (s.chan ch).remap e.2)).map (fun e => (ch, e.2))
  let moved := (List.range 32).flatMap (fun i =>
    ((s.chan (32 * t + i)).remap.filter (fun (e : Nat × Nat × Nat) => e.2.1 = ch % 32 && test e.2.2)).map (fun e => (32 * t + i, e.1)))
  own ++ moved

/-- R365: every frame that lies in the places of a channel that meet a test is due for remapping. -/
def retireFrames (s : State) (ch : Nat) (test : Nat → Bool) : State :=
  (s.framesIn ch test).foldl (fun (s : State) e =>
    s.modChan e.1 (fun c => { c with moves := if c.moves.contains e.2 then c.moves else c.moves ++ [e.2] })) s

/-- R350, R365, R367: an inner correction of the sector at an address is counted and, unless its frame is free (R372), written back. A row or a bank that
has reached its threshold is due. -/
def noteCorrected (s : State) (a dpa : Nat) (used : Bool := true) : State :=
  let ch := chanOf a
  let c := s.chan ch
  let row := rowOf a
  let n := Tbl.getD c.rows row 0 + 1
  let m := min (Tbl.getD c.bank (bankOf a) 0 + 1) 65535
  let again := a ∈ c.seen
  let s := if used then s.sectorWrite a (Memory.readBytes s.hbm a 32) else s
  let s := s.modChan ch (fun c =>
    { c with ce := min (c.ce + 1) (2 ^ 32 - 1), rows := Tbl.set c.rows row n, bank := Tbl.set c.bank (bankOf a) m
             seen := if again then c.seen else a :: c.seen
             due := if c.rowth ≤ n && !c.due.contains row then row :: c.due else c.due })
  let s := if again then s.logOperator { src := 0x100 + ch, kind := 9, addr := dpa } else s
  if c.bankth ≤ m && !c.retired.contains (bankOf a) then
    ((s.modChan ch (fun c => { c with retired := bankOf a :: c.retired })).logOperator
      { src := 0x100 + ch, kind := 13, addr := a % 2 ^ 31 / 32768 * 32768 }).retireFrames ch (fun f => f % 64 = bankOf a)
  else s

/-- R350, R362, R365: an inner detection of the sector at an address is counted; its row is due for repair. -/
def noteDetected (s : State) (a : Nat) : State :=
  let ch := chanOf a
  let s := s.modChan ch (fun c =>
    { c with ue := min (c.ue + 1) (2 ^ 32 - 1), due := if c.due.contains (rowOf a) then c.due else rowOf a :: c.due })
  if (s.chan ch).deadth < (s.chan ch).ue then s.markDead ch else s

/-- What reading a line at an address shows to its controller. -/
def noteLine (s : State) (a dpa : Nat) : State :=
  if s.hbmErr.isEmpty then s
  else (List.range 4).foldl (fun (s : State) k =>
    match s.sectorRead (a + 32 * k) with
    | some (_, 1) => s.noteCorrected (a + 32 * k) (dpa + 32 * k)
    | some _ => s
    | none => s.noteDetected (a + 32 * k)) s

/-- A line is written: sectors of known symbols anew; a sector with an unknown one is left as an erasure. -/
def lineWrite (s : State) (a : Nat) (syms : List (Option Nat)) : State :=
  (List.range 4).foldl (fun (s : State) k =>
    let x := (syms.drop (32 * k)).take 32
    if x.all (·.isSome) then s.sectorWrite (a + 32 * k) (x.map (fun o => BitVec.ofNat 8 (o.getD 0)))
    else { s with hbmErr := Memory.writeBytes s.hbmErr (errKey (a + 32 * k) 0) ([1, 1] ++ List.replicate 34 0) }) s

/-- The ten lines of a stripe by position, as a decode gives them. -/
def symsAt (syms : List (Option (List Nat × Nat × Nat))) (st p : Nat) : List (Option Nat) :=
  let j := (p + 10 - st % 10) % 10
  syms.map (fun o => o.map (fun e => if j < 8 then e.1.getD j 0 else if j = 8 then e.2.1 else e.2.2))

/-- What reading the lines of a stripe at some layout positions shows to their controllers (R350). -/
def noteStripe (s : State) (sp st : Nat) (ps : List Nat) : State :=
  ps.foldl (fun (s : State) p => match s.phys sp st p with
    | some a => s.noteLine a (2 ^ 23 * sp + 1024 * st + (let j := (p + 10 - st % 10) % 10; if j < 8 then 128 * j else 0))
    | none => s) s

/-- R354: a stripe is decoded; lines that differ from what was decoded are written back where their storage serves. -/
def decodeStripe (s : State) (sp st : Nat) : State :=
  let syms := s.stripeSyms sp st
  let read := s.stripeRead sp st
  let now := fun (p : Nat) =>
    let j := (p + 10 - st % 10) % 10
    if j < 8 then read.1.getD j [] else if j = 8 then read.2.1 else read.2.2
  let todo := (List.range 10).filterMap (fun p => match s.phys sp st p with
    | some a =>
      let want := symsAt syms st p
      if want.all (·.isSome) && decide (now p ≠ want) then some (p, a, want) else none
    | none => none)
  let s := s.noteStripe sp st (List.range 10)
  let s := todo.foldl (fun (s : State) (e : Nat × Nat × List (Option Nat)) =>
    let j := (e.1 + 10 - st % 10) % 10
    let s := s.lineWrite e.2.1 e.2.2
    if j < 8 then s else { s with deltas := Tbl.erase s.deltas (deltaKey sp st (j - 8)) }) s
  if todo.isEmpty then s
  else s.logOperator { src := 0x100 + s.channelAt (s.stripeLayout sp st) sp st ((st + 8) % 10), kind := 10, addr := 2 ^ 23 * sp + 1024 * st }

/-! Write-backs (R353). -/
/-- The home slice of the check line with a key in `deltas`. -/
def checkSlice (s : State) (k : Nat) : Nat :=
  let sp := k / 2 / 8192
  let st := k / 2 % 8192
  s.channelAt (s.stripeLayout sp st) sp st ((st + 8 + k % 2) % 10)

/-- Check deltas buffered at a slice: those of the check lines whose home it is. -/
def deltasAt (s : State) (slice : Nat) : Nat := (s.deltas.filter (fun e => s.checkSlice e.1 = slice)).length

/-- A delta is merged into the buffer of its check line; one for a check line without storage is discarded. -/
def mergeDelta (s : State) (sp st q : Nat) (δ : List Byte) : State :=
  match s.phys sp st ((st + 8 + q) % 10) with
  | none => s
  | some _ =>
    let k := deltaKey sp st q
    let old := Tbl.getD s.deltas k (List.replicate 128 0)
    { s with deltas := Tbl.set s.deltas k (List.zipWith (· ^^^ ·) old δ) }

/-- The buffer of a check line takes its delta: it merges, or has room, or the delta is discarded. -/
def deltaRoom (s : State) (sp st q : Nat) : Bool :=
  let p := (st + 8 + q) % 10
  (s.phys sp st p).isNone || Tbl.has s.deltas (deltaKey sp st q) || decide (s.deltasAt (s.channelAt (s.stripeLayout sp st) sp st p) < 512)

/-- The deltas that a new value of a data line sends to the check lines. -/
def sendDeltas (s : State) (sp st j : Nat) (old new : List Byte) : State :=
  let δ := List.zipWith (· ^^^ ·) old new
  let δq := δ.map (fun (b : Byte) => BitVec.ofNat 8 (gfMul (gfPow j) b.toNat))
  (s.mergeDelta sp st 0 δ).mergeDelta sp st 1 δq

/-- The sectors of a mask. -/
def sectorsOf (m : BitVec 4) : List Nat := (List.range 4).filter (fun k => m.getLsbD k)

/-- R353: a dirty line goes to HBM, its deltas first. -/
def writeBackL2 (s : State) (line : Nat) (e : L2Line) : State :=
  let dpa := 128 * line
  let sp := spanOf dpa
  let st := stripeOf dpa
  let j := dataOf dpa
  let new := Memory.readBytes s.mem dpa 128
  let s := s.sendDeltas sp st j e.old new
  let s := match s.phys sp st ((st + j) % 10) with
    | none => s
    | some a => (sectorsOf e.dirty).foldl (fun (s : State) k => s.sectorWrite (a + 32 * k) ((new.drop (32 * k)).take 32)) s
  { s with l2 := Tbl.set s.l2 line { old := new } }

/-- R354, R362: more than two of the ten lines of a stripe are erased at some byte position. -/
def thirdErasure (s : State) (sp st : Nat) : Bool :=
  let r := s.stripeRead sp st
  (List.range 128).any (fun b =>
    2 < ((r.1.map (fun l => l.getD b none)) ++ [r.2.1.getD b none, r.2.2.getD b none]).countP (·.isNone))

/-- A stripe is decoded; one with a third erasure is decoded once more, by a step in which its span becomes LOST (R362). -/
def decodeNoted (s : State) (sp st : Nat) : State :=
  let lost := s.thirdErasure sp st && !(match s.spanE sp with | some e => e.stat = 5 | none => true)
  let t := s.decodeStripe sp st
  if lost then t.post [.stripeDecode (8192 * sp + st)] else t

/-- R353: a buffered delta drains by read, XOR and write; a check line that does not read is decoded for it, with the deltas applied (R354). -/
def drainDelta (s : State) (k : Nat) : State :=
  let sp := k / 2 / 8192
  let st := k / 2 % 8192
  let p := (st + 8 + k % 2) % 10
  if (Tbl.get? s.deltas k).isNone then s
  else match s.phys sp st p with
    | none => { s with deltas := Tbl.erase s.deltas k }
    | some a =>
      let read := s.stripeRead sp st
      let whole := if k % 2 = 1 then read.2.2 else read.2.1
      if whole.all (·.isSome) then { (s.noteLine a (2 ^ 23 * sp + 1024 * st)).lineWrite a whole with deltas := Tbl.erase s.deltas k }
      else
        let want := symsAt (s.stripeSyms sp st) st p
        { (s.decodeNoted sp st).lineWrite a want with deltas := Tbl.erase s.deltas k }

/-- R353: room in the buffer of a check line for its delta: while it is full, its first delta drains. -/
def makeDeltaRoom (s : State) (sp st q : Nat) : State :=
  if s.deltaRoom sp st q then s
  else
    let slice := s.channelAt (s.stripeLayout sp st) sp st ((st + 8 + q) % 10)
    match Tbl.find? s.deltas (fun k _ => s.checkSlice k = slice) with
    | some e => s.drainDelta e.1
    | none => s

/-- Lines that a slice holds (R16): 512 KiB. -/
def sliceLines : Nat := 4096

/-- The Recaster that moves a line now: the line lies in its present unit, at a position whose stack differs between the layouts (R368). -/
def mover (s : State) (line : Nat) : Option (Nat × Recaster) :=
  let sp := spanOf (128 * line)
  let st := stripeOf (128 * line)
  let p := (st + dataOf (128 * line)) % 10
  match Tbl.find? s.recasters (fun _ r => r.busy && r.span = sp && st / 8 = r.unit) with
  | none => none
  | some (k, r) =>
    let old := s.layout ((s.spanE sp).elim 0 (·.layout))
    if (s.layout r.layout).getD p 0 = old.getD p 0 then none else some (k, r)

/-- The slice to which a moving line goes (R370). -/
def newHome (s : State) (r : Recaster) (line : Nat) : Nat :=
  let sp := spanOf (128 * line)
  let st := stripeOf (128 * line)
  s.channelAt (s.layout r.layout) sp st ((st + dataOf (128 * line)) % 10)

/-- The slice that is the line's home now: after its handoff the new one (R370). -/
def homeNow (s : State) (line : Nat) : Nat :=
  match s.mover line with
  | some (_, r) => if line ∈ r.handed then s.newHome r line else s.homeSlice (128 * line)
  | none => s.homeSlice (128 * line)

/-- Slice `home` has room for a line: with none it drops a clean line, or writes back a dirty one, whose check buffers drain where they are full
(R16, R353; which one, DESIGN CHOICE, log 30): the first that lies away from the line to come. -/
def roomAt (s : State) (home line : Nat) : State :=
  if s.l2.length < sliceLines then s
  else
    let mine := s.l2.filter (fun e => s.homeNow e.1 = home)
    let far := mine.filter (fun e => e.1 + 512 < line || line + 512 < e.1)
    if mine.length < sliceLines then s
    else match far.find? (fun e => e.2.dirty = 0) with
      | some e => { s with l2 := Tbl.erase s.l2 e.1 }
      | none =>
        let room := fun (e : Nat × L2Line) => s.deltaRoom (spanOf (128 * e.1)) (stripeOf (128 * e.1)) 0 && s.deltaRoom (spanOf (128 * e.1)) (stripeOf (128 * e.1)) 1
        match (far.find? room).or far.head? with
        | some e =>
          let sp := spanOf (128 * e.1)
          let st := stripeOf (128 * e.1)
          let s := ((s.makeDeltaRoom sp st 0).makeDeltaRoom sp st 1).writeBackL2 e.1 e.2
          { s with l2 := Tbl.erase s.l2 e.1 }
        | none => s

/-- The home slice of a line has room for it (R16). -/
def l2Room (s : State) (line : Nat) : State := s.roomAt (s.homeNow line) line

/-- A line is brought into its home slice if it is not resident (R183): its bytes come from HBM through the codes (R350, R354).
An uncorrectable line is served poisoned, with a record for the operator and for the partition that owns the span (R187, R327, R348, R367);
a stripe with a third erasure is decoded once more, by a step in which its span becomes LOST (R362). -/
def fill (s : State) (line : Nat) : State :=
  if Tbl.has s.l2 line then s
  else
    let s := s.l2Room line
    let dpa := 128 * line
    let sp := spanOf dpa
    let st := stripeOf dpa
    let a := s.phys sp st ((st + dataOf dpa) % 10)
    let bytes := s.hbmLine dpa
    let clean := match a with | some x => (s.rawLine (some x)).all (·.isSome) | none => false
    let t := if clean then (match a with | some x => s.noteLine x dpa | none => s) else s.decodeNoted sp st
    let t := { t with freeCtr := t.freeCtr + 1 }
    match bytes with
    | some bs => { t with l2 := Tbl.set t.l2 line { old := bs }, mem := Memory.writeBytes t.mem dpa bs
                          badLines := t.badLines.filter (· ≠ line) }
    | none =>
      let r : ErrRec := { src := 0x100 + s.homeSlice dpa, kind := 11, addr := dpa }
      { t.logOperator r with
          badLines := if line ∈ t.badLines then t.badLines else line :: t.badLines
          toLog := t.toLog ++ (match s.owner dpa with | some p => if p < 12 then [(p, r)] else [] | none => []) }

/-- Lines that a range of bytes touches. -/
def linesOf (a n : Nat) : List Nat := if n = 0 then [] else (List.range ((a + n - 1) / 128 - a / 128 + 1)).map (· + a / 128)

/-- The home admits an access of a partition (15: firmware) to a range: every byte in a span that it owns, 12 to 14 owning nothing (R325), and for a write not in a LOST span (R356). -/
def admits (s : State) (who : Nat) (a n : Nat) (write : Bool) : Bool :=
  (who < 12 || who = 15) && (linesOf a n).all (fun l => match s.spanE (spanOf (128 * l)) with
    | some e => e.owner = who && !(write && e.stat = 5)
    | none => false)

/-- A line is served poisoned: uncorrectable, or in a LOST span (R354, R356). -/
def poisoned (s : State) (line : Nat) : Bool :=
  line ∈ s.badLines || (match s.spanE (spanOf (128 * line)) with | some e => e.stat = 5 | none => false)

/-- Read at the home slices: the bytes, and whether any line is poisoned. -/
def homeRead (s : State) (a n : Nat) : State × List Byte × Bool :=
  let s := (linesOf a n).foldl State.fill s
  (s, Memory.readBytes s.mem a n, (linesOf a n).any s.poisoned)

/-- Write at the home slices: each line is filled first, then the bytes are merged and their sectors are dirty (R183). -/
def homeWrite (s : State) (a : Nat) (bs : List Byte) : State :=
  let s := (linesOf a bs.length).foldl State.fill s
  { s with mem := Memory.writeBytes s.mem a bs
           l2 := (linesOf a bs.length).foldl (fun t l =>
             let secs := (List.range 4).filter (fun k => 128 * l + 32 * k < a + bs.length && a < 128 * l + 32 * k + 32)
             Tbl.modify t l (fun e => { e with dirty := secs.foldl (fun m k => m ||| (1#4 <<< k)) e.dirty })) s.l2 }

/-- The new accesses to a line are held while its unit moves (R368). -/
def recHeld (s : State) (line : Nat) : Bool :=
  match s.mover line with
  | some (_, r) => r.hold
  | none => false

/-- A wave combines on the object of a line: its batch runs there (R228). -/
def combinesOn (s : State) (line wave : Nat) : Bool := Tbl.any s.batches (fun _ b => b.stat = .running && b.dpa / 128 = line && b.wave = some wave)

/-- A running batch or a moving unit holds accesses to a line (R228, R368). The combiner wave's own accesses to its object pass, also in a unit that waits for its
batch (R368, step 2). -/
def lineHeld (s : State) (line wave : Nat) : Bool :=
  Tbl.any s.batches (fun _ b => b.stat = .running && !b.committed && b.dpa / 128 = line && b.wave ≠ some wave)
    || (s.recHeld line && !s.combinesOn line wave)

/-- A wave may not yet use some line of a range. -/
def rangeHeld (s : State) (a n : Nat) (wave : Nat := 0xFFFFFFFF) : Bool := (linesOf a n).any (fun l => s.lineHeld l wave)

/-- The parts of a range of bytes by line. -/
def lineParts (a : Nat) (bs : List Byte) : List (Nat × List Byte) :=
  (linesOf a bs.length).map (fun l =>
    let lo := max a (128 * l)
    (lo, (bs.drop (lo - a)).take (128 * l + 128 - lo)))

/-- A write by a unit of the device that waits for no answer: the bytes in a held line take their place once the hold ends (R228, R368), the others now. -/
def homePut (s : State) (a : Nat) (bs : List Byte) (under : Option (Nat × Nat × Nat) := none) : State :=
  if s.rangeHeld a bs.length then
    (lineParts a bs).foldl (fun (s : State) e =>
      if s.lineHeld (e.1 / 128) 0xFFFFFFFF then
        { s with later := s.later ++ [{ addr := e.1, bytes := e.2, under := under, id := s.lateSeq }], lateSeq := s.lateSeq + 1 }
      else s.homeWrite e.1 e.2) s
  else s.homeWrite a bs

/-- The writes behind lines that are held no more take their places, in order. -/
def putLater (s : State) : State :=
  if s.later.isEmpty then s
  else
    let held := fun (e : Late) => s.lineHeld (e.addr / 128) 0xFFFFFFFF
    (s.later.filter (fun e => !held e)).foldl (fun (s : State) e => s.homeWrite e.addr e.bytes) { s with later := s.later.filter held }

/-- A write of a partition still waits behind a held line: one under an address space that meets a test, or one into a span that the partition owns. -/
def laterOf (s : State) (p : Nat) : Bool := s.later.any (fun e => e.under.elim false (fun u => u.1 = p) || s.owner e.addr = some p)

/-- R325, R326: a refused access is counted and its address kept; the operator's log receives a record (see `refuse`). -/
def countRefusal (s : State) (p dpa : Nat) : State :=
  s.modPart p (fun x => { x with ovaddr := dpa, ovcnt := min (x.ovcnt + 1) (2 ^ 32 - 1) })

end State

namespace State

/-- An access to a range that is refused at the home. Where a span of it is not the partition's own (R325): PRT_OVADDR, PRT_OVCNT and a record
in the operator's log; a store to its own LOST span (R356) is no such access. -/
def refuse (s : State) (p dpa : Nat) (n : Nat := 1) : State :=
  match (linesOf dpa n).find? (fun l => !(decide (p < 12 ∨ p = 15) && s.owner (128 * l) = some p)) with
  | none => s
  | some l =>
    let x := max dpa (128 * l)
    (s.countRefusal p x).logOperator { src := 0x300 + s.homeSlice x, kind := 8, addr := x }

/-- A unit of a partition may write at an address of a ring whose base is given: both lie in spans that it owns (R326, R341). -/
def ringOk (s : State) (p base a n : Nat) : Bool := s.admits p base 1 true && s.admits p a n true

/-- The refused write of a ring. -/
def refuseRing (s : State) (p base a n : Nat) : State := if s.admits p base 1 true then s.refuse p a n else s.refuse p base

/-- A record for the error ring of a partition (R341, R348): written at PUT, or counted in PRT_ELDROP.
Answers the state and the record's SEQ. -/
def logPart (s : State) (p : Nat) (r : ErrRec) : State × Nat :=
  let seq := s.seqOf r.src p
  let bs := r.bytes seq (s.lc (lcOfSrc r.src)).toNat
  let s := s.bumpSeq r.src p
  let q := s.part p
  let n := 2 ^ q.ellog2n
  let a := q.elbase + 32 * (q.elput.toNat % n)
  let drop := fun (s : State) => s.modPart p (fun x => { x with eldrop := min (x.eldrop + 1) (2 ^ 32 - 1) })
  if !q.elen || (q.elput - q.elget).toNat ≥ n then (drop s, seq)
  else if !s.ringOk p q.elbase a 32 then (drop (s.refuseRing p q.elbase a 32), seq)
  else ((s.homePut a bs).modPart p (fun x => { x with elput := x.elput + 1 }), seq)

/-- A device-wide error: the operator's log and the ring of each partition affected (R327, R348). -/
def logDevice (s : State) (ps : List Nat) (r : ErrRec) : State :=
  ps.foldl (fun s p => (s.logPart p r).1) (s.logOperator r)

/-- Records that were still to be written are written. -/
def flushLog (s : State) : State :=
  s.toLog.foldl (fun s e => (s.logPart e.1 e.2).1) { s with toLog := [] }

end State

end Sys2Proof.Machine
end

