-- ==== Sys2Proof/Machine/Translate.lean ====
section
/-! DEFINITION. Translation (R312 to R319): page walks, TLBs, permissions, replayable faults and the fault buffer. -/

namespace Sys2Proof.Machine

/-- How a walk or a look-up ends (R315). -/
inductive Walk where
  | ok (e : TlbE)
  /-- a valid leaf that does not permit the access -/
  | denied (e : TlbE)
  /-- an entry with V = 0 at this level: a replayable fault -/
  | notValid (level : Nat)
  /-- malformed, or no address space, or a table that the partition does not own: unresolvable -/
  | bad
  /-- a host page absent at the host -/
  | hostAbsent (io : Nat)
  deriving DecidableEq, Repr

/-- R175: bits 63:57 all equal bit 56. -/
def canonical (va : Nat) : Bool := va / 2 ^ 56 % 256 = 0 || va / 2 ^ 56 % 256 = 255

/-- R313: log2 of the page size of a leaf at a level, and the index of an address there. -/
def pageLog : Nat → Nat
  | 0 => 16 | 1 => 21 | 2 => 30 | 3 => 39 | _ => 48

def levelIndex (va level : Nat) : Nat := va / 2 ^ pageLog level % (if level = 0 then 32 else 512)

/-- R314: an entry with V = 1 that breaks a rule of the table. -/
def malformed (e level : Nat) : Bool :=
  let leaf := level = 0 || e.testBit 1
  (3 ≤ level && e.testBit 1) || bitsOf e 11 6 ≠ 0 || bitsOf e 59 57 ≠ 0 || bitsOf e 5 4 = 3
    || (bitsOf e 5 4 = 2 && 11 < bitsOf e 63 60) || (bitsOf e 5 4 ≠ 2 && bitsOf e 63 60 ≠ 0)
    || (leaf && bitsOf e 56 12 * 4096 % 2 ^ pageLog level ≠ 0)

/-- The TLB entry of a leaf. -/
def leafEntry (pasid va e level : Nat) : TlbE :=
  { pasid := pasid, va := va / 2 ^ pageLog level * 2 ^ pageLog level, log := pageLog level, loc := bitsOf e 5 4
    peer := bitsOf e 63 60, base := bitsOf e 56 12 * 4096, w := e.testBit 2, x := e.testBit 3 }

/-- The place of an address under an entry (R313, R314). -/
def TlbE.place (e : TlbE) (va : Nat) : Place :=
  let a := e.base + (va - e.va)
  if e.loc = 0 then .dev a else if e.loc = 1 then .host a else .peer e.peer a

/-- R315: what the leaf permits. -/
def TlbE.permits (e : TlbE) : PKind → Bool
  | .read => true
  | .write => e.w
  | .fetch => e.x && e.loc = 0

/-- What tags an address space in the caches of a core that serves several partitions in turn (R324). -/
def asid (p pasid : Nat) : Nat := 2 ^ 20 * p + pasid

def TlbE.covers (e : TlbE) (pasid va : Nat) : Bool := e.pasid = pasid && va / 2 ^ e.log = e.va / 2 ^ e.log

namespace State

/-- A page table or PASID table read by the walker at the home slice (R314), in a span the partition owns. -/
def tableRead (s : State) (p a n : Nat) : State × Option Nat :=
  if s.admits p a n false then
    let r := s.homeRead a n
    (r.1, some (leNat r.2.1))
  else (s.refuse p a n, none)

/-- The walk from a table down the levels (R313). -/
def walkFrom (s : State) (p pasid va : Nat) : List Nat → Nat → State × Walk
  | [], _ => (s, .bad)
  | level :: rest, table =>
    match s.tableRead p (table + 8 * levelIndex va level) 8 with
    | (s, none) => (s, .bad)
    | (s, some e) =>
      if !e.testBit 0 then (s, .notValid level)
      else if malformed e level then (s, .bad)
      else if level = 0 || e.testBit 1 then (s, .ok (leafEntry (asid p pasid) va e level))
      else walkFrom s p pasid va rest (bitsOf e 56 12 * 4096)

/-- R312, R313: the whole walk of a canonical address. -/
def walk (s : State) (p pasid va : Nat) : State × Walk :=
  let q := s.part p
  if q.ptlen ≤ pasid then (s, .bad)
  else match s.tableRead p (q.ptbase + 16 * pasid) 16 with
    | (s, none) => (s, .bad)
    | (s, some e) =>
      if !e.testBit 0 || bitsOf e 11 1 ≠ 0 || bitsOf e 127 57 ≠ 0 then (s, .bad)
      else walkFrom s p pasid (va % 2 ^ 57) [4, 3, 2, 1, 0] (bitsOf e 56 12 * 4096)

/-- A page request to the host (R315), if the page has none; at most 512 of a partition are outstanding (R328). -/
def pageRequest (s : State) (h : HostPage) : State :=
  if h ∈ s.priWait || 512 ≤ (s.priWait.filter (fun x => x.pid = h.pid)).length then s else { s with priWait := s.priWait ++ [h] }

/-- A base die keeps a translation of the host; of more than 4,096 the oldest goes (R328). -/
def atsKeep (s : State) (d : Nat) (h : HostPage) : State :=
  { s with ats := (d, h) :: ((s.ats.filter (fun e => e.1 = d)).take 4095 ++ s.ats.filter (fun e => e.1 ≠ d)) }

/-- R315, R328: a page of host memory through ATS on a base die; an absent page is requested through PRI. -/
def atsLook (s : State) (d : Nat) (h : HostPage) : State × Bool :=
  if (d, h) ∈ s.ats then (s, true)
  else if h ∈ s.hostAbsent then (s.pageRequest h, false)
  else (s.atsKeep d h, true)

/-- Permission, then the host's own translation (R315), for a requester on base die `d`. -/
def permit (s : State) (d p va : Nat) (k : PKind) (e : TlbE) : State × Walk :=
  if !e.permits k then (s, .denied e)
  else if e.loc = 1 then
    let io := e.base + (va % 2 ^ 57 - e.va)
    match s.atsLook d { pid := p, pasid := e.pasid % 2 ^ 20, page := io / 65536 } with
    | (s, true) => (s, .ok e)
    | (s, false) => (s, .hostAbsent (io / 65536))
  else (s, .ok e)

/-- Translation by a command processor, without a TLB. -/
def translateCp (s : State) (p pasid va : Nat) (k : PKind) : State × Walk :=
  match s.walk p pasid va with
  | (s, .ok e) => s.permit (s.cpOf p) p va k e
  | r => r

/-- Keep a permitted leaf in both TLBs (R316). -/
def tlbInsert (s : State) (cid : Nat) (e : TlbE) : State :=
  let s := s.modCore cid (fun c => { c with tlb := (e :: c.tlb).take 512 })
  { s with tlb2 := Tbl.set s.tlb2 (clidOf cid) ((e :: Tbl.getD s.tlb2 (clidOf cid) []).take 8192) }

/-- R316: translation for a core: its L1 TLB, the cluster's L2 TLB, then a walk. -/
def translate (s : State) (cid p pasid va : Nat) (k : PKind) : State × Walk :=
  let v := va % 2 ^ 57
  match (s.core cid).tlb.find? (fun e => e.covers (asid p pasid) v) with
  | some e => s.permit (didOf cid) p va k e
  | none =>
    match (Tbl.getD s.tlb2 (clidOf cid) []).find? (fun e => e.covers (asid p pasid) v) with
    | some e =>
      let s := s.modCore cid (fun c => { c with tlb := (e :: c.tlb).take 512 })
      s.permit (didOf cid) p va k e
    | none =>
      match s.walk p pasid va with
      | (s, .ok e) =>
        match s.permit (didOf cid) p va k e with
        | (s, .ok e) => (s.tlbInsert cid e, .ok e)
        | r => r
      | r => r

/-- R317, R318: a replayable fault takes its key and writes one record, or is counted in PRT_FBDROP.
`agent` as R318 numbers it, `cid` 0xFFFF for a command processor, `u` the unit whose clock stamps it. -/
def faultRecord (s : State) (p pasid va : Nat) (k : PKind) (level cid agent u : Nat) : State :=
  let q := s.part p
  let key : FaultKey := { pasid := pasid, page := va / 65536, kind := k }
  if key ∈ q.keys then s
  else
    let a := q.fbbase + 32 * q.fbput
    let drop := fun (s : State) => s.modPart p (fun x => { x with fbdrop := min (x.fbdrop + 1) (2 ^ 32 - 1) })
    if (q.fbput + 1) % 4096 = q.fbget then drop s
    else if !s.ringOk p q.fbbase a 32 then drop (s.refuseRing p q.fbbase a 32)
    else
      let bs := leBytes 8 (va / 65536 * 65536) ++ leBytes 4 (pasid + 2 ^ 20 * pkindCode k + 2 ^ 22 * level)
        ++ leBytes 2 cid ++ leBytes 1 agent ++ leBytes 1 0 ++ leBytes 8 (s.lc u).toNat ++ leBytes 4 q.fbseq.toNat ++ leBytes 4 0
      (s.homePut a bs).modPart p (fun x =>
        { x with keys := key :: x.keys, fbput := (x.fbput + 1) % 4096, fbseq := x.fbseq + 1 })

end State

end Sys2Proof.Machine
end

