-- ==== Sys2Proof/Machine/Access.lean ====
section
/-! DEFINITION. Access to memory (R174 to R195, R200, R201, R211): scratchpads, the L1 data cache, host and peer memory, requests to home slices. -/

namespace Sys2Proof.Machine

/-- The places of a pending operation's lanes. -/
def PendKind.accs : PendKind → List LaneAcc
  | .load _ _ _ accs => accs
  | .store accs => accs
  | .spawn _ _ _ accs _ => accs
  | _ => []

def PendKind.setAccs (k : PendKind) (accs : List LaneAcc) : PendKind :=
  match k with
  | .load sz l d _ => .load sz l d accs
  | .store _ => .store accs
  | .spawn pr r n _ l => .spawn pr r n accs l
  | k => k

/-- Lines of which an L1 holds a byte; at most 1,024 (R8, R16). -/
def Core.l1Lines (c : Core) : Nat :=
  (c.l1.foldl (fun (r : Nat × Option Nat) e => if r.2 = some (e.1 / 128) then r else (r.1 + 1, some (e.1 / 128))) (0, none)).1

/-- One more line would not fit. -/
def Core.l1Full (c : Core) (line : Nat) : Bool :=
  1024 ≤ c.l1.length && !Tbl.any c.l1 (fun a _ => a / 128 = line) && 1024 ≤ c.l1Lines

/-- The lowest line of an L1 with no dirty byte. -/
def Core.l1Clean (c : Core) : Option Nat :=
  (Tbl.find? c.l1 (fun a _ => !Tbl.any c.l1 (fun f b => f / 128 = a / 128 && b.dirty))).map (fun e => e.1 / 128)

/-- An operation for which a fence waits (R208). -/
def Pend.fenced (p : Pend) : Bool :=
  match p.kind with
  | .load .. => true
  | .store .. => true
  | .atomic .. => true
  | .cache => true
  | .cmb .. => true
  | _ => false

/-- What a fence that issues now waits for (R208). -/
def fenceNeeds (w : Wave) : List Nat := (w.pend.filter Pend.fenced).map (·.id)

namespace State

/-- The partition whose work a core runs: the one that owns its cluster, in a time-slice group its holder (R323, R324). -/
def partOfCore (s : State) (cid : Nat) : Nat :=
  ((List.range 12).find? (fun p => (s.clusters p).getLsbD (clidOf cid) && ((s.part p).group = 0 || (s.part p).pstate ≠ 3))).getD 0

def scrRead (s : State) (cid off n : Nat) : List Byte := Memory.readBytes (s.core cid).scr off n

def scrWrite (s : State) (cid off : Nat) (bs : List Byte) : State :=
  s.modCore cid (fun c => { c with scr := Memory.writeBytes c.scr off bs, scrErr := c.scrErr.filter (fun o => !(off ≤ o && o < off + bs.length)) })

/-- R328, R335: no access leaves for the host while the interface of the partition is in ERROR. -/
def hostOk (s : State) (p : Nat) : Bool := (Tbl.getD s.vfs (p + 1) {}).tdi ≠ .error

/-- R330: the peer entry is present and its link is up. -/
def peerOk (s : State) (d : Nat) : Bool :=
  let e := Tbl.getD s.peers d {}
  e.present && e.link ∉ s.linksDown

/-- R330: an access of partition `p` to the memory of a peer device is served: its link works, and the ownership check at the far end admits it. -/
def peerServes (s : State) (p d a n : Nat) : Bool :=
  s.peerOk d && (linesOf a n).all (fun l => !(Tbl.getD s.peers d {}).deny.contains (p, spanOf (128 * l)))

/-- A message to a peer, and its answer (R18, R330): the endpoint of the link sends, and receives under the stamp of the far end, which is free (R249). -/
def linkTrip (s : State) (d : Nat) : State :=
  let u := lcLink (Tbl.getD s.peers d {}).link
  { (s.lcTick u).lcRecv u (Config.linkStamp s.freeCtr) with freeCtr := s.freeCtr + 1 }

def peerMem (s : State) (d : Nat) : Memory := (Tbl.getD s.peers d {}).mem

def setPeerMem (s : State) (d : Nat) (m : Memory) : State :=
  { s with peers := Tbl.modify s.peers d (fun e => { e with mem := m }) }

/-- R187: bytes of a scratchpad with an uncorrectable error. -/
def scrBad (s : State) (cid off n : Nat) : Bool := (s.core cid).scrErr.any (fun o => off ≤ o && o < off + n)

/-- A read at the place itself, past any L1 (R211): the bytes and whether they are poisoned; none where refused. -/
def placeRead (s : State) (p : Nat) (pl : Place) (n : Nat) : State × Option (List Byte × Bool) :=
  match pl with
  | .dev a => if s.admits p a n false then (let r := s.homeRead a n; (r.1, some (r.2.1, r.2.2))) else (s.refuse p a n, none)
  | .host a => if s.hostOk p then (s, some (Memory.readBytes s.hostMem a n, false)) else (s, none)
  | .peer d a =>
    if !s.peerOk d then (s, none)
    else if s.peerServes p d a n then (s.linkTrip d, some (Memory.readBytes (s.peerMem d) a n, false)) else (s.linkTrip d, none)
  | .scr c o => (s, some (s.scrRead c o n, s.scrBad c o n))

/-- A write at the place itself, under an address space or by device address; false where refused. -/
def placeWrite (s : State) (p : Nat) (pl : Place) (bs : List Byte) (under : Option (Nat × Nat × Nat) := none) : State × Bool :=
  match pl with
  | .dev a => if s.admits p a bs.length true then (s.homePut a bs under, true) else (s.refuse p a bs.length, false)
  | .host a => if s.hostOk p then ({ s with hostMem := Memory.writeBytes s.hostMem a bs }, true) else (s, false)
  | .peer d a =>
    if !s.peerOk d then (s, false)
    else if s.peerServes p d a bs.length then ((s.linkTrip d).setPeerMem d (Memory.writeBytes (s.peerMem d) a bs), true) else (s.linkTrip d, false)
  | .scr c o => (s.scrWrite c o bs, true)

/-! The L1 data cache (R182, R201). -/

/-- Byte offsets of a line that the L1 of a core holds dirty. -/
def l1Dirty (s : State) (cid line : Nat) : List (Nat × Byte) :=
  (List.range 128).filterMap (fun o => match Tbl.get? (s.core cid).l1 (128 * line + o) with
    | some b => if b.dirty then some (o, b.val) else none
    | none => none)

/-- Drop every byte of a line. -/
def dropLine (s : State) (cid line : Nat) : State :=
  s.modCore cid (fun c => { c with l1 := c.l1.filter (fun e => e.1 / 128 ≠ line) })

/-- The lines of which an L1 holds a dirty byte. -/
def dirtyLines (s : State) (cid : Nat) : List Nat :=
  ((s.core cid).l1.filter (fun e => e.2.dirty)).map (fun e => e.1 / 128) |>.eraseDups

/-- Drop every clean byte of an L1 (R208). -/
def dropClean (s : State) (cid : Nat) : State :=
  s.modCore cid (fun c => { c with l1 := c.l1.filter (fun e => e.2.dirty) })

/-- A store's bytes enter the L1 dirty (R182). -/
def l1Store (s : State) (cid a : Nat) (bs : List Byte) : State :=
  let t := s.cyc cid
  s.modCore cid (fun c => { c with l1 := bs.zipIdx.foldl (fun l e =>
    Tbl.set l (a + e.2) { val := e.1, dirty := true, stamp := t }) c.l1 })

/-- The sectors of a line named by byte offsets are filled from the home: every byte of them that is not dirty takes the value that the home has now.
A full L1 drops a line with no dirty byte for it; with none, the line is not kept (R182; DESIGN CHOICE, log 30). -/
def l1Fill (s : State) (cid line : Nat) (offs : List Nat) (bad : Bool) : State :=
  let t := s.cyc cid
  let secs := (offs.map (· / 32)).eraseDups
  let full := (s.core cid).l1Full line
  let out := if full then (s.core cid).l1Clean else none
  if full && out.isNone then s
  else
    let s := match out with | some l => s.dropLine cid l | none => s
    s.modCore cid (fun c => { c with l1 := secs.foldl (fun l k => (List.range 32).foldl (fun l i =>
      let a := 128 * line + 32 * k + i
      if (Tbl.get? l a).elim false (·.dirty) then l else Tbl.set l a { val := Memory.read s.mem a, dirty := false, poison := bad, stamp := t }) l) c.l1 })

/-! Requests of a wave's loads and stores. -/

/-- Byte offsets, by line, of the device bytes that these lanes still need. -/
def missing (accs : List LaneAcc) : List (Nat × Nat) :=
  accs.flatMap (fun a => match a.place with
    | .dev d => if a.refused then [] else (a.got.zipIdx.filter (fun e => e.1.isNone)).map (fun e => ((d + e.2) / 128, (d + e.2) % 128))
    | _ => [])

/-- A load of a core is on its way to a line. -/
def loadPending (s : State) (cid line : Nat) : Bool :=
  Tbl.any s.reqs (fun _ r => r.cid = cid && r.line = line && (match r.kind with | .load _ => true | _ => false))

/-- One lane of a load at issue (R190): an access to device memory whose bytes the L1 holds, or one that lies in a scratchpad, a host or a peer, is read now.
Of an access that misses, and of every access to a line to which a load of the core is on its way (R204), only the dirty bytes are taken from the L1,
so that the others come from one write (R196). -/
def loadLane (s : State) (cid p : Nat) (a : LaneAcc) : LaneAcc :=
  match a.place with
  | .dev d =>
    let bs := (List.range a.n).map (fun i => Tbl.get? (s.core cid).l1 (d + i))
    let hit := bs.all (·.isSome) && !s.loadPending cid (d / 128)
    let bs := if hit then bs else bs.map (fun o => o.filter (·.dirty))
    { a with got := bs.map (fun o => o.map (·.val)), poison := bs.any (fun o => match o with | some b => b.poison | none => false) }
  | .scr c o => { a with got := (s.scrRead c o a.n).map some, poison := s.scrBad c o a.n }
  | .host x => if s.hostOk p then { a with got := (Memory.readBytes s.hostMem x a.n).map some } else { a with refused := true }
  | .peer e x => if s.peerServes p e x a.n then { a with got := (Memory.readBytes (s.peerMem e) x a.n).map some } else { a with refused := true }

/-- The messages over the links that the lanes of a load cause (R249). -/
def loadTrips (s : State) (accs : List LaneAcc) : State :=
  accs.foldl (fun s a => match a.place with | .peer e _ => if s.peerOk e then s.linkTrip e else s | _ => s) s

/-- A lane that reads or writes bytes of a line. -/
def onLine (a : LaneAcc) (line : Nat) : Bool :=
  match a.place with
  | .dev d => decide (d / 128 ≤ line) && decide (line ≤ (d + a.n - 1) / 128)
  | _ => false

/-- The 64 KiB pages by which lanes reach a line. -/
def pagesOn (accs : List LaneAcc) (line : Nat) : List Nat := ((accs.filter (fun a => onLine a line)).map (fun a => a.addr / 65536)).eraseDups

/-- The address space of a wave. -/
def pasidOf (s : State) (k : Nat) : Nat := ((s.wave k).map (·.pasid)).getD 0

/-- The requests of a load for the bytes it still needs, one for each line. -/
def askLoad (s : State) (k op p : Nat) (accs : List LaneAcc) : State :=
  let m := missing accs
  ((m.map (·.1)).eraseDups).foldl (fun s l =>
    s.addReq { kind := .load ((m.filter (fun e => e.1 = l)).map (·.2)).eraseDups, cid := cidOf k, wave := k, op := op
               pidN := p, line := l, home := s.homeSlice (128 * l), pasid := s.pasidOf k, pages := pagesOn accs l }) s

/-- The write-backs of a store, one for each line of device memory. -/
def askStore (s : State) (k op p : Nat) (accs : List LaneAcc) : State :=
  let m := accs.flatMap (fun a => match a.place with
    | .dev d => (List.range a.n).map (fun i => ((d + i) / 128, (d + i) % 128))
    | _ => [])
  ((m.map (·.1)).eraseDups).foldl (fun s l =>
    s.addReq { kind := .store ((m.filter (fun e => e.1 = l)).map (·.2)).eraseDups, cid := cidOf k, wave := k, op := op
               pidN := p, line := l, home := s.homeSlice (128 * l), pasid := s.pasidOf k, pages := pagesOn accs l }) s

/-- Change the lanes of a pending operation. -/
def modAccs (s : State) (k op : Nat) (f : LaneAcc → LaneAcc) : State :=
  s.modPend k op (fun p => { p with kind := p.kind.setAccs (p.kind.accs.map f) })

/-- The load request of a wave performed at its home slice (R181, R190, R325). -/
def performLoad (s : State) (r : Req) (offs : List Nat) : State :=
  if s.admits r.pidN (128 * r.line) 128 false then
    let s := s.fill r.line
    let bad := s.poisoned r.line
    let s := s.modAccs r.wave r.op (fun a =>
      match a.place with
      | .dev d =>
        if onLine a r.line then
          let got := a.got.zipIdx.map (fun e =>
            if e.1.isNone && decide ((d + e.2) / 128 = r.line) then some (Memory.read s.mem (d + e.2)) else e.1)
          { a with got := got, poison := a.poison || (bad && got ≠ a.got) }
        else a
      | _ => a)
    s.l1Fill r.cid r.line offs bad
  else (s.refuse r.pidN (128 * r.line)).modAccs r.wave r.op (fun a => if onLine a r.line then { a with refused := true } else a)

/-- The load requests of a core that are on their way to a line take their values together (R204), and before the core's own later stores reach it (R192). -/
def takeLoads (s : State) (cid line : Nat) : State :=
  s.reqs.foldl (fun s e =>
    match e.2.kind with
    | .load offs => if e.2.cid = cid && e.2.line = line then { s.performLoad e.2 offs with reqs := Tbl.erase s.reqs e.1 } else s
    | _ => s) s

/-- Byte offsets of a line that stores of other waves on a core are still to write there. -/
def othersOffs (s : State) (cid line wave : Nat) : List Nat :=
  s.reqs.flatMap (fun e => match e.2.kind with
    | .store offs => if e.2.cid = cid && e.2.line = line && e.2.wave ≠ wave then offs else []
    | _ => [])

/-- Write back the dirty bytes of a line at these offsets: they take their place at the home slice and are clean, or are dropped where the home refuses them. -/
def writeBack (s : State) (cid line : Nat) (offs : List Nat) : State :=
  let d := (s.l1Dirty cid line).filter (fun e => e.1 ∈ offs)
  let s := if d.isEmpty then s else s.takeLoads cid line
  if d.isEmpty then s
  else
    let p := s.partOfCore cid
    if s.admits p (128 * line) 128 true then
      let s := d.foldl (fun s e => s.homeWrite (128 * line + e.1) [e.2]) s
      s.modCore cid (fun c => { c with l1 := d.foldl (fun t e => Tbl.modify t (128 * line + e.1) (fun b => { b with dirty := false })) c.l1 })
    else
      (s.refuse p (128 * line)).modCore cid (fun c => { c with l1 := d.foldl (fun t e => Tbl.erase t (128 * line + e.1)) c.l1 })

def writeBackLine (s : State) (cid line : Nat) : State := s.writeBack cid line (List.range 128)

/-- The write-back of a line that a running batch of wave `k` holds, or no one: behind the batch's hold the stores of other waves stay (R228, R235). -/
def writeBackFor (s : State) (cid k line : Nat) : State :=
  if s.lineHeld line 0xFFFFFFFF then
    let out := s.othersOffs cid line k
    s.writeBack cid line ((List.range 128).filter (fun o => !out.contains o))
  else s.writeBackLine cid line

/-- Write back every dirty byte of an L1 of which wave `k` has the right (R208): a line that another party holds stays. -/
def writeBackAll (s : State) (cid k : Nat) : State :=
  (s.dirtyLines cid).foldl (fun s l => if s.lineHeld l k then s else s.writeBackFor cid k l) s

/-- Write back and drop a line (R194, R211, R221). -/
def flushLine (s : State) (cid line : Nat) : State := (s.writeBackLine cid line).dropLine cid line

/-- The same on behalf of wave `k`, while another party may hold the line: what must stay dirty stays. -/
def flushFor (s : State) (cid k line : Nat) : State :=
  if s.lineHeld line 0xFFFFFFFF then
    (s.writeBackFor cid k line).modCore cid (fun c => { c with l1 := c.l1.filter (fun e => e.1 / 128 ≠ line || e.2.dirty) })
  else s.flushLine cid line

/-- An L1 with no room for one more line drops one with no dirty byte, or writes back and drops its lowest (R182; DESIGN CHOICE, log 30). -/
def l1Room (s : State) (cid line : Nat) : State :=
  if !(s.core cid).l1Full line then s
  else match (s.core cid).l1Clean with
    | some l => s.dropLine cid l
    | none => match ((s.dirtyLines cid).filter (fun l => !s.lineHeld l 0xFFFFFFFF)).head? with
      | some l => s.flushLine cid l
      | none => s

/-- One lane of a store at issue (R191): its bytes are written now, into the L1 for device memory. False where refused. -/
def storeLane (s : State) (cid p : Nat) (a : LaneAcc) : State × Bool :=
  match a.place with
  | .dev d => ((s.l1Room cid (d / 128)).l1Store cid d (a.got.filterMap id), true)
  | pl => s.placeWrite p pl (a.got.filterMap id)

/-- R191: of the lanes that name one address, the highest acting lane stores. -/
def winners (accs : List LaneAcc) : List LaneAcc :=
  accs.filter (fun a => !accs.any (fun b => b.place = a.place && a.lane < b.lane))

/-- Every lane of a store is made (R191): answers the lanes with those refused marked. -/
def storeAll (s : State) (cid p : Nat) (accs : List LaneAcc) : State × List LaneAcc :=
  let r := (winners accs).foldl (fun (r : State × List Place) a =>
    match r.1.storeLane cid p a with
    | (s, true) => (s, r.2)
    | (s, false) => (s, a.place :: r.2)) (s, [])
  (r.1, accs.map (fun a => if a.place ∈ r.2 then { a with refused := true } else a))

/-- Drop the dirty bytes of a line at these offsets. -/
def dropDirty (s : State) (cid line : Nat) (offs : List Nat) : State :=
  s.modCore cid (fun c => { c with l1 := c.l1.filter (fun e => !(e.2.dirty && e.1 / 128 == line && offs.contains (e.1 % 128))) })

/-- The store request of a wave performed at its home slice (R181, R191, R356). -/
def performStore (s : State) (r : Req) (offs : List Nat) : State :=
  if s.admits r.pidN (128 * r.line) 128 true then
    let out := if s.lineHeld r.line 0xFFFFFFFF then s.othersOffs r.cid r.line r.wave else []
    s.writeBack r.cid r.line (offs.filter (fun o => !out.contains o))
  else
    let s := (s.refuse r.pidN (128 * r.line)).modAccs r.wave r.op (fun a => if onLine a r.line then { a with refused := true } else a)
    s.dropDirty r.cid r.line offs

/-- A request of the list performed at its home slice (R181, R193, R194); a load takes its value with the others of its core (R204). Atomic groups and combine requests have steps of their own. -/
def performReq (s : State) (r : Req) : State :=
  match r.kind with
  | .load _ => s.takeLoads r.cid r.line
  | .store offs => s.performStore r offs
  | .prefetch l1 =>
    if s.admits r.pidN (128 * r.line) 128 false then
      let s := (s.takeLoads r.cid r.line).fill r.line
      if l1 then s.l1Fill r.cid r.line [0, 32, 64, 96] (s.poisoned r.line) else s
    else s.refuse r.pidN (128 * r.line)
  | .control drop => if drop then s.flushFor r.cid r.wave r.line else s.writeBackFor r.cid r.wave r.line
  | _ => s

/-- Scopes from `.cluster` on, whose point of coherence is the home slice (R200). -/
def scopeWide : Scope → Bool
  | .wave => false
  | .block => false
  | _ => true

/-- The cache effect of a release (R208). -/
def release (s : State) (k : Nat) (sc : Scope) : State := if scopeWide sc then s.writeBackAll (cidOf k) k else s

/-- The cache effect of an acquire (R208): clean bytes leave, dirty bytes stay. -/
def acquire (s : State) (cid : Nat) (sc : Scope) : State := if scopeWide sc then s.dropClean cid else s

/-- An operation of a wave that no flag and no register shows. -/
def addPend (s : State) (k : Nat) (kind : PendKind) (lag : Nat) : State :=
  let p : Pend := { id := s.nextId, kind := kind, ready := s.cyc (cidOf k) + lag, long := true, flag := 0, writes := [] }
  { s.modWave k (fun w => { w with pend := w.pend ++ [p] }) with nextId := s.nextId + 1 }

/-- The acquire of a barrier wait: later memory instructions are held until it is done (R281). -/
def addAcquire (s : State) (k : Nat) (sc : Scope) : State :=
  match s.wave k with
  | some w => s.addPend k (.fence .acq sc (fenceNeeds w)) 4
  | none => s

/-- The acquire that a wave performs when it issues an engine command with ACQ: answers its operation, for which the command's reads wait (R202, R210). -/
def addEngAcquire (s : State) (k : Nat) (sc : Scope) : State × List Nat := (s.addAcquire k sc, [s.nextId])

/-- The release that a wave performs when it observes the fall of a flag (R202, R210). -/
def addRelease (s : State) (k : Nat) (sc : Scope) : State :=
  match s.wave k with
  | some w => s.addPend k (.fence .rel sc (fenceNeeds w)) 4
  | none => s

end State

end Sys2Proof.Machine
end

