-- ==== Sys2Proof/Machine/Legal.lean ====
section
/-! DEFINITION. The checks of R59 on an instruction's own fields (R45, R48 to R50, R55), the field kinds of each row's description and the latency classes of R57. -/

namespace Sys2Proof

/-- The code of a type (R50). -/
def Ty.code : Ty → BitVec 4
  | .i32 => 0 | .n32 => 1 | .i64 => 2 | .n64 => 3 | .i16 => 4 | .n16 => 5 | .i8 => 6 | .n8 => 7
  | .b32 => 8 | .f32 => 9 | .f16 => 10 | .bf16 => 11 | .e4m3 => 12 | .e5m2 => 13 | .e2m1 => 14 | .l6 => 15

/-- 64-bit types. -/
def Ty.wide : Ty → Bool
  | .i64 => true | .n64 => true | _ => false

/-- The width of an element in bits (R90 to R96). -/
def Ty.bits : Ty → Nat
  | .i32 => 32 | .n32 => 32 | .i64 => 64 | .n64 => 64 | .i16 => 16 | .n16 => 16 | .i8 => 8 | .n8 => 8
  | .b32 => 32 | .f32 => 32 | .f16 => 16 | .bf16 => 16 | .e4m3 => 8 | .e5m2 => 8 | .e2m1 => 4 | .l6 => 6

def Ty.isSigned : Ty → Bool
  | .i32 => true | .i64 => true | .i16 => true | .i8 => true | _ => false

def Ty.isInt : Ty → Bool
  | .i32 => true | .n32 => true | .i64 => true | .n64 => true | .i16 => true | .n16 => true | .i8 => true | .n8 => true
  | _ => false

/-- The type with a given code (R50). -/
def Ty.ofCode (c : BitVec 4) : Ty :=
  match c.toNat with
  | 0 => .i32 | 1 => .n32 | 2 => .i64 | 3 => .n64 | 4 => .i16 | 5 => .n16 | 6 => .i8 | 7 => .n8
  | 8 => .b32 | 9 => .f32 | 10 => .f16 | 11 => .bf16 | 12 => .e4m3 | 13 => .e5m2 | 14 => .e2m1 | _ => .l6

/-- What an operand field permits (R48): the kinds of operand, how many registers it names and their alignment. -/
structure Kind where
  v : Bool := false
  s : Bool := false
  lane : Bool := false
  spec : Bool := false
  fst : Bool := false
  cyc : Bool := false
  const : Bool := false
  zero : Bool := false
  /-- registers counted against the declared count (R34) -/
  n : Nat := 1
  /-- alignment of the register number -/
  al : Nat := 1
  deriving DecidableEq, Repr

namespace Kind

/-- A 32-bit source of a wave-level instruction. -/
def wsrc : Kind := { s := true, spec := true, fst := true, cyc := true, const := true, zero := true }
/-- A 64-bit source of a wave-level instruction. -/
def wsrc2 : Kind := { s := true, cyc := true, const := true, zero := true, al := 2 }
/-- A 32-bit destination of a wave-level instruction. -/
def wdst : Kind := { s := true, fst := true, zero := true }
def wdst2 : Kind := { s := true, zero := true, al := 2 }
/-- A 32-bit source of a lane-level instruction. -/
def lsrc : Kind := { v := true, s := true, lane := true, spec := true, fst := true, cyc := true, const := true, zero := true }
def lsrc2 : Kind := { v := true, s := true, cyc := true, const := true, zero := true, al := 2 }
/-- A destination of a lane-level instruction. -/
def ldst : Kind := { v := true, zero := true }
def ldst2 : Kind := { v := true, zero := true, al := 2 }
/-- A scalar register or literal zero. -/
def sdst : Kind := { s := true, zero := true }
def sdst2 : Kind := { s := true, zero := true, al := 2 }
/-- An even scalar pair. -/
def spair : Kind := { s := true, al := 2 }
def sreg : Kind := { s := true }
/-- An even vector or scalar pair holding an address. -/
def apair : Kind := { v := true, s := true, al := 2 }
def areg : Kind := { v := true, s := true }
/-- A group of n vector registers. -/
def vgrp (n : Nat) : Kind := { v := true, n := n }
/-- A field the instruction does not use (R45). -/
def unused : Kind := { zero := true }
/-- Three scalar registers or literal zero (R85). -/
def mask3 : Kind := { s := true, zero := true, n := 3 }

def src (lane wide : Bool) : Kind :=
  match lane, wide with
  | true, true => lsrc2 | true, false => lsrc | false, true => wsrc2 | false, false => wsrc

def dst (lane wide : Bool) : Kind :=
  match lane, wide with
  | true, true => ldst2 | true, false => ldst | false, true => wdst2 | false, false => wdst

/-- Is the operand of a permitted kind (reason 5)? -/
def allows (k : Kind) : Opd → Bool
  | .v _ => k.v | .s _ => k.s | .lane => k.lane
  | .wid => k.spec | .cid => k.spec | .clid => k.spec | .did => k.spec | .pid => k.spec | .plive => k.spec
  | .fst => k.fst
  | .cyc0 => k.cyc | .cyc1 => k.cyc | .lc0 => k.cyc | .lc1 => k.cyc
  | .int _ => k.const | .fp _ => k.const | .zero => k.zero

/-- Do the named registers lie below the declared counts (reason 6, R34)? -/
def countOk (k : Kind) (vregs sregs : Nat) : Opd → Bool
  | .v r => decide (r.val + k.n ≤ vregs)
  | .s r => decide (r.val + k.n ≤ sregs)
  | _ => true

/-- Is the register number aligned as its group asks (reason 7)? -/
def alignOk (k : Kind) : Opd → Bool
  | .v r => r.val % k.al == 0
  | .s r => r.val % k.al == 0
  | _ => true

end Kind

/-- Registers that element e of width w reaches, from the first of its group (R100). -/
def elemRegs (w e : Nat) : Nat := (w * e + w - 1) / 32 + 1

/-- The type with code 0x09 + n (R141). -/
def Ty.ofFloatCode (n : BitVec 3) : Ty := Ty.ofCode (BitVec.ofNat 4 (9 + n.toNat))

/-- Elements in a group (R100). -/
def Ty.groupElems : Ty → Nat
  | .i8 => 4 | .n8 => 4 | .e4m3 => 4 | .e5m2 => 4 | .i16 => 2 | .n16 => 2 | .f16 => 2 | .bf16 => 2
  | .e2m1 => 8 | .l6 => 16 | _ => 1

/-- The kind of a field that holds element e of a group of type t (R141 to R143): a pair for a 64-bit type, three vector registers
for an L6 group, one register for a 32-bit type whatever e is. Where the slot of a narrow element lies past the first register, the
operand must be a register (DEDUCED, log 31: no other operand has a register after it). -/
def Kind.elem (t : Ty) (e : Nat) (dest : Bool) : Kind :=
  if t.wide then (if dest then .ldst2 else .lsrc2)
  else if t = .l6 then { v := true, n := 3 }
  else if t.bits = 32 || elemRegs t.bits e = 1 then (if dest then .ldst else .lsrc)
  else if dest then .vgrp (elemRegs t.bits e)
  else { v := true, s := true, n := elemRegs t.bits e }

/-- The elements that an index of a conversion between two types may name: those of a group of the narrower (R141, R143). -/
def elemLimit (t u : Ty) : Nat := (if u.bits < t.bits then u else t).groupElems

/-- The element that names registers: an index past the limit names none beyond the operand itself, so that R59 finds reason 9 (R141). -/
def elemNamed (t u : Ty) (e : Nat) : Nat := if e < elemLimit t u then e else 0

/-- The kind of a source field of `vcvti` whose type code is S: a code that R143 does not list names no element, so that R59 finds reason 9. -/
def Kind.intSrc (u : Ty) (e : Nat) : Kind := if u.isInt || u ∈ [.f32, .f16, .bf16] then .elem u e false else .lsrc

/-- The data or destination field of a load or store (R188, R189). The data of a `.n64` store are an even pair: R188 is taken to leave out the
patterns that R48 extends to 64 bits (DEDUCED, log 28). -/
def MSize.kind (lane store : Bool) : MSize → Kind
  | .n64 => if store then (if lane then .apair else .spair) else if lane then .ldst2 else .sdst2
  | .b128 =>
    if store then { v := lane, s := true, n := 4, al := 4 }
    else { v := lane, s := !lane, zero := true, n := 4, al := 4 }
  | _ => if store then .src lane false else if lane then .ldst else .sdst

/-- The base field of a load or store (R188). -/
def Space.baseKind (lane : Bool) : Space → Kind
  | .g => if lane then .apair else .spair
  | _ => if lane then .areg else .sreg

/-- The address field of an engine command (R237). -/
def Space.engKind : Space → Kind
  | .g => .spair
  | _ => .sreg

namespace Instr

/-- The operand fields of a word, each with what it permits. The pairs of R87 (`brx`, `call`, `ret`) and the vector register of R120 (`vscan`) are taken to leave
out literal zero and the constants, and an odd scalar register as d of a 64-bit `vred` has reason 7 of R59 and not reason 5 (DEDUCED, log 28). -/
def operands : Instr → List (Kind × Opd)
  | nop _ => []
  | sadd _ t d a b | ssub _ t d a b | smul _ t d a b | sdiv _ t d a b | srem _ t d a b
  | smin _ t d a b | smax _ t d a b | sand _ t d a b | sor _ t d a b | sxor _ t d a b | sandn _ t d a b =>
    [(.dst false t.wide, d), (.src false t.wide, a), (.src false t.wide, b)]
  | saddc _ d a b _ => [(.wdst, d), (.wsrc, a), (.wsrc, b)]
  | smulh _ _ d a b | sbfe _ _ d a b => [(.wdst, d), (.wsrc, a), (.wsrc, b)]
  | sshl _ t d a b | sshr _ t d a b | ssra _ t d a b =>
    [(.dst false t.wide, d), (.src false t.wide, a), (.wsrc, b)]
  | sabs _ t d a | smov _ t d a => [(.dst false t.wide, d), (.src false t.wide, a)]
  | sbfi _ d a b c => [(.wdst, d), (.wsrc, a), (.wsrc, b), (.wsrc, c)]
  | spopc _ t d a | sclz _ t d a | sffs _ t d a => [(.wdst, d), (.src false t.wide, a)]
  | smovil _ d _ | smovih _ d _ => [(.wdst, d)]
  | ssel _ t d a b _ => [(.dst false t.wide, d), (.src false t.wide, a), (.src false t.wide, b)]
  | scmp _ ty _ _ a b => [(.src false (ty.getLsbD 1), a), (.src false (ty.getLsbD 1), b)]
  | pgetP _ d _ => [(.mask3, d)]
  | pgetQ _ d => [(.wdst, d)]
  | pputP _ _ a => [(.mask3, a)]
  | pputQ _ a => [(.wsrc, a)]
  | qany .. | qall .. | elect .. | plop .. | qlop .. => []
  | pcnt _ d _ => [(.sdst, d)]
  | setpl _ a => [(.wsrc, a)]
  | getpl _ d => [(.wdst, d)]
  | br .. | bexz .. | exit .. | yield .. | trap .. | brk .. => []
  | brx _ a | ret _ a | rte _ a => [(.spair, a)]
  | call _ d _ => [(.spair, d)]
  | sleep _ a => [(.wsrc, a)]
  | csrr _ d _ => [(.sdst, d)]
  | csrw _ _ a => [(.wsrc, a)]
  | vadd _ t _ d a b | vsub _ t _ d a b => [(.dst true t.wide, d), (.src true t.wide, a), (.src true t.wide, b)]
  | vmul _ t d a b | vmulh _ t d a b | vmin _ t d a b | vmax _ t d a b =>
    [(.dst true t.wide, d), (.src true t.wide, a), (.src true t.wide, b)]
  | vaddc _ d a b _ | vsubb _ d a b _ => [(.ldst, d), (.lsrc, a), (.lsrc, b)]
  | vmad _ _ d a b c => [(.ldst, d), (.lsrc, a), (.lsrc, b), (.lsrc, c)]
  | vdot4 _ _ _ d a b c => [(.ldst, d), (.lsrc, a), (.lsrc, b), (.lsrc, c)]
  | vabs _ t _ d a => [(.dst true t.wide, d), (.src true t.wide, a)]
  | vshl _ t d a b | vshr _ t d a b | vsra _ t d a b =>
    [(.dst true t.wide, d), (.src true t.wide, a), (.lsrc, b)]
  | vfunnelR _ d a b c | vfunnelL _ d a b c | vbfi _ d a b c => [(.ldst, d), (.lsrc, a), (.lsrc, b), (.lsrc, c)]
  | vbfe _ _ d a b => [(.ldst, d), (.lsrc, a), (.lsrc, b)]
  | vpopc _ t d a | vclz _ t d a => [(.ldst, d), (.src true t.wide, a)]
  | vbrev _ d a => [(.ldst, d), (.lsrc, a)]
  | vcmp _ t _ _ a b _ => [(.src true t.wide, a), (.src true t.wide, b)]
  | vsel _ t d a b _ => [(.dst true t.wide, d), (.src true t.wide, a), (.src true t.wide, b)]
  | vmov _ t d a => [(.dst true t.wide, d), (.src true t.wide, a)]
  | vmovil _ d _ | vmovih _ d _ => [(.ldst, d)]
  | vlop3 _ _ d a b c => [(.ldst, d), (.lsrc, a), (.lsrc, b), (.lsrc, c)]
  | vidx _ d a _ _ => [(.vgrp 1, d), (.lsrc, a)]
  | vperm _ d a b => [(.ldst, d), (.lsrc, a), (.lsrc, b)]
  | vbcast _ d a b | vsetl _ d a b => [(.ldst, d), (.lsrc, a), (.wsrc, b)]
  | vgetl _ d a b => [(.sdst, d), (.lsrc, a), (.wsrc, b)]
  | vshfl _ _ _ d a b => [(.ldst, d), (.lsrc, a), (.lsrc, b)]
  | vred _ t _ d a => [(if t.wide then .sdst2 else .sdst, d), (.src true t.wide, a)]
  | vscan _ t _ _ d a => [({ v := true, al := if t.wide then 2 else 1 }, d), (.src true t.wide, a)]
  | vmovi _ d a b => [(.ldst, d), (.vgrp 1, a), (.lsrc, b)]
  | vmovo _ d a b => [(.vgrp 1, d), (.lsrc, a), (.lsrc, b)]
  | vrand _ d => [(.ldst, d)]
  | vaddF _ _ _ d a b | vsubF _ _ _ d a b | vmulF _ _ _ d a b => [(.ldst, d), (.lsrc, a), (.lsrc, b)]
  | vfma _ _ _ d a b c => [(.ldst, d), (.lsrc, a), (.lsrc, b), (.lsrc, c)]
  | vminF _ _ _ d a b | vmaxF _ _ _ d a b => [(.ldst, d), (.lsrc, a), (.lsrc, b)]
  | vcmpF _ _ _ _ a b => [(.lsrc, a), (.lsrc, b)]
  | vclass _ _ _ a _ => [(.lsrc, a)]
  | vrnd _ _ d a | vrcp _ _ d a | vrsq _ _ d a | vexp2 _ _ d a | vlog2 _ _ d a | vsqrt _ _ d a
  | vsinpi _ _ d a | vcospi _ _ d a | vtanh _ _ d a | vlgt _ _ d a => [(.ldst, d), (.lsrc, a)]
  | vdiv _ _ d a b => [(.ldst, d), (.lsrc, a), (.lsrc, b)]
  | vcvt _ t src rm e d a r =>
    let n := elemNamed t (.ofFloatCode src) e.toNat
    [(.elem t n true, d), (.elem (.ofFloatCode src) n false, a), (if rm = 4 then .lsrc else .unused, r)]
  | vcvti _ t src rm e d a r =>
    let n := elemNamed t (.ofCode src) e.toNat
    [(.elem t n true, d), (.intSrc (.ofCode src) n, a), (if rm = 4 then .lsrc else .unused, r)]
  | vqz _ t sr d a sc r =>
    [(.vgrp (if t = .e2m1 then 1 else 2), d), (.vgrp 8, a), (.vgrp 1, sc),
     (if sr then { v := true, s := true, n := 4 } else .unused, r)]
  -- R147 names a vector register and a wave-wide scalar as sc; every source that R48 lets supply a 32-bit pattern is taken (DEDUCED, log 31)
  | vdq _ t d a sc => [(.vgrp 8, d), (.vgrp (if t = .e2m1 then 1 else 2), a), (.lsrc, sc)]
  | vld _ sp sz d a _ => [(sz.kind true false, d), (sp.baseKind true, a)]
  | vst _ sp sz d a _ => [(sz.kind true true, d), (sp.baseKind true, a)]
  | sld _ sp sz d a _ => [(sz.kind false false, d), (sp.baseKind false, a)]
  | sst _ sp sz d a _ => [(sz.kind false true, d), (sp.baseKind false, a)]
  | vpf _ _ a _ | lwb _ a _ | linv _ a _ => [(.apair, a)]
  | fence .. | dfence .. | ifence .. => []
  | vatom _ op wide _ d a b c =>
    [(.dst true wide, d), (.apair, a), (.src true wide, b), (if op = .cas then .src true wide else .unused, c)]
  | satom _ op wide _ d a b c =>
    [(if wide then .sdst2 else .sdst, d), (.spair, a), (.src false wide, b),
     (if op = .cas then .src false wide else .unused, c)]
  | cmb _ d a b _ => [(.vgrp 2, d), (.apair, a), ({ v := true, s := true, zero := true, n := 2 }, b)]
  | ccommit .. | ccommitNw .. | cend .. => []
  | creply _ a => [(.lsrc, a)]
  | barArr .. | barWait .. | barSync .. | barTest .. | waitf .. => []
  | barExp _ _ a | barTx _ _ a => [(.wsrc, a)]
  | cpy _ dsp ssp d a b _ => [(dsp.engKind, d), (ssp.engKind, a), (.spair, b)]
  | cpytLd _ _ d a b _ | cpytSt _ _ d a b _ => [(.sreg, d), (.spair, a), ({ s := true, n := 6 }, b)]
  | cpyg _ _ d a b _ | cpys _ _ d a b _ => [(.sreg, d), (.spair, a), ({ s := true, n := 3 }, b)]
  | cred _ _ _ d a b _ => [(.sreg, d), (.sreg, a), (.spair, b)]
  | spawn _ _ a _ => [(.spair, a)]
  | mlds _ _ g a _ _ _ => [(if g then .spair else .sreg, a)]
  | mms _ _ g _ _ _ _ _ a b _ => [(if g then .spair else .sreg, a), (.spair, b)]
  | mdrain _ _ g _ _ _ a b _ | mldacc _ _ g _ a b _ => [(if g then .spair else .sreg, a), (.sreg, b)]
  | mzero .. | aalloc .. | afree .. => []
  | tmark _ a => [(.wsrc, a)]
  | capst .. | capsp .. | rgn .. => []
  | _ => []

/-- Types accepted (R50, reason 3). -/
def modOk : Instr → Bool
  | sadd _ t .. | ssub _ t .. | smul _ t .. | sdiv _ t .. | srem _ t .. | smin _ t .. | smax _ t .. =>
    t ∈ [.i32, .n32, .i64, .n64]
  | smulh _ t .. | sbfe _ t .. | vmulh _ t .. | vmad _ t .. | vbfe _ t .. => t ∈ [.i32, .n32]
  | sand _ t .. | sor _ t .. | sxor _ t .. | sandn _ t .. | sshl _ t .. | sshr _ t .. | spopc _ t .. | sclz _ t ..
  | sffs _ t .. | smov _ t .. | ssel _ t .. | vshl _ t .. | vshr _ t .. | vpopc _ t .. | vclz _ t .. | vsel _ t ..
  | vmov _ t .. => t ∈ [.b32, .n64]
  | ssra _ t .. | sabs _ t .. | vsra _ t .. => t ∈ [.i32, .i64]
  | scmp _ _ c .. => c.toNat < 6
  | vadd _ t .. | vsub _ t .. | vmin _ t .. | vmax _ t .. => t.isInt
  | vmul _ t .. => t ∈ [.i32, .n32, .i16, .n16]
  | vdot4 _ t .. => t ∈ [.i8, .n8]
  | vabs _ t .. => t ∈ [.i32, .i64, .i16, .i8]
  | vcmp _ t .. => t ∈ [.i32, .n32, .i64, .n64]
  | vshfl _ m w .. => w.toNat < 6 && !(m == .xor && w.toNat == 5)
  | vred _ t op .. | vscan _ t _ op .. =>
    if op.toNat < 3 then decide (t ∈ [.i32, .n32, .i64, .n64, .f32]) else if op.toNat < 6 then t == .b32
    else decide (t ∈ [.i32, .n32, .i64, .n64, .f32, .b32])
  | vaddF _ t c .. | vsubF _ t c .. | vmulF _ t c .. => decide (t ∈ [.f32, .f16, .bf16]) && decide (c.rm.toNat < 5)
  | vfma _ t .. => t ∈ [.f32, .f16, .bf16]
  | vminF _ _ c .. | vmaxF _ _ c .. | vrnd _ c .. | vrcp _ c .. | vrsq _ c .. | vexp2 _ c .. | vlog2 _ c ..
  | vsqrt _ c .. | vdiv _ c .. | vsinpi _ c .. | vcospi _ c .. | vtanh _ c .. | vlgt _ c .. => c.rm.toNat < 5
  | vcvt _ t _ rm .. => decide (t ∈ [.f32, .f16, .bf16, .e4m3, .e5m2, .e2m1, .l6]) && decide (rm.toNat < 5)
  | vcvti _ t _ rm .. => (t.isInt || decide (t ∈ [.f32, .f16, .bf16])) && decide (rm.toNat < 5)
  | vqz _ t .. | vdq _ t .. => t ∈ [.e4m3, .e5m2, .e2m1, .l6]
  | vst _ sp sz .. | sst _ sp sz .. => sp ≠ .k && sz ≠ .i8 && sz ≠ .i16
  | vatom _ op w .. | satom _ op w .. => !w || op ∈ [.add, .exch, .cas]
  | cpy _ dsp ssp .. => dsp ≠ .k && ssp ≠ .k
  | cpytLd _ sp .. | cpytSt _ sp .. | cpyg _ sp .. | cpys _ sp .. => sp ∈ [.s, .c]
  | cred _ op ty .. => op.toNat < 3 && ty.toNat < 3
  | mlds _ t .. | mms _ t .. => t ∈ [.bf16, .f16, .i8, .n8, .e4m3, .e5m2, .e2m1, .l6]
  | mdrain _ t .. | mldacc _ t .. => t ∈ [.i32, .f32, .f16, .bf16]
  | _ => true

/-- Does the type permit block scales in the matrix engine (R149)? -/
def scalable (t : Ty) : Bool := t ∈ [.e4m3, .e5m2, .e2m1, .l6]

/-- The engine order field (R154, reason 9). -/
def ordOk (o : EngOrd) : Bool := if o.acq || o.rel then o.scope.toNat < 6 else o.scope == 0

/-- Raw fields and instruction-specific limits that the word alone decides (R49, reason 9). -/
def rawOk : Instr → Bool
  | scmp _ _ _ pr .. => pr.acc.toNat < 3
  | vcmp _ _ _ pr _ _ c => pr.acc.toNat < 3 && c.toNat < 6
  | vcmpF _ _ _ pr .. | vclass _ _ pr .. => pr.acc.toNat < 3
  | csrr _ _ n | csrw _ n _ => n.toNat < 0x1000
  | vred _ _ op .. | vscan _ _ _ op .. => op.toNat < 6
  | vaddF _ _ c .. | vsubF _ _ c .. | vmulF _ _ c .. => c.rm.toNat ≠ 4
  | vminF _ _ c .. | vmaxF _ _ c .. | vdiv _ c .. => c.rm == 0
  | vrnd _ c .. => c.mb == 0 && c.rm.toNat ≠ 4
  | vrcp _ c .. | vrsq _ c .. | vexp2 _ c .. | vlog2 _ c .. | vsqrt _ c .. | vsinpi _ c .. | vcospi _ c ..
  | vtanh _ c .. | vlgt _ c .. => c.mb == 0 && c.rm == 0
  | vcvt _ t src _ e .. =>
    src.toNat < 7 && decide (e.toNat < elemLimit t (.ofFloatCode src))
  | vcvti _ t src _ e .. =>
    ((t.isInt && decide (Ty.ofCode src ∈ [.f32, .f16, .bf16])) ||
      ((Ty.ofCode src).isInt && decide (t ∈ [.f32, .f16, .bf16]))) &&
    decide (e.toNat < elemLimit t (.ofCode src))
  | barArr _ x | barWait _ x | barSync _ x | barExp _ x _ => x.cls.toNat < 3
  | barTx _ x _ => x.cls.toNat < 2
  | barTest _ pr x => x.cls.toNat < 3 && pr.acc == 0
  | waitf _ k _ => 1 ≤ k.toNat && k.toNat ≤ 12
  | cpy _ _ _ _ _ _ o | cpytLd _ _ _ _ _ o | cpytSt _ _ _ _ _ o | cpyg _ _ _ _ _ o | cpys _ _ _ _ _ o
  | cred _ _ _ _ _ _ o => ordOk o
  | spawn _ pr .. => pr.acc == 0
  | mlds _ t _ _ sp sc o =>
    ordOk o && sp.toNat < 3 && (t ≠ .l6 || sp == 0) && (!sc || scalable t)
  | mms _ t _ _ _ _ _ sc _ _ o => ordOk o && (!sc || scalable t)
  | mdrain _ _ _ _ _ _ _ _ o | mldacc _ _ _ _ _ _ o => ordOk o
  | aalloc _ pr _ => pr.acc == 0
  | _ => true

/-- The latency classes (R53). -/
inductive Lat where
  | none | fixed4 | fixed8 | long
  deriving DecidableEq, Repr

/-- The latency class of an instruction (R57). -/
def lat : Instr → Lat
  | nop .. | br .. | brx .. | ret .. | bexz .. | exit .. | yield .. | sleep .. | trap .. | brk .. | rte .. => .none
  | sdiv .. | srem .. | csrr .. | csrw .. => .long
  | sadd .. | saddc .. | ssub .. | smul .. | smulh .. | sand .. | sor .. | sxor .. | sandn .. | sshl .. | sshr ..
  | ssra .. | smin .. | smax .. | sabs .. | sbfe .. | sbfi .. | spopc .. | sclz .. | sffs .. | smov .. | smovil ..
  | smovih .. | ssel .. | scmp .. | pgetP .. | pgetQ .. | pputP .. | pputQ .. | setpl .. | getpl .. | qlop ..
  | call .. | barTest .. | aalloc .. | afree .. => .fixed4
  | vred .. | vscan .. | vrand .. | vsqrt .. | vdiv .. | vsinpi .. | vcospi .. | vtanh .. | vlgt .. | vqz .. => .long
  | vld .. | vst .. | sld .. | sst .. | vpf .. | lwb .. | linv .. | fence .. | dfence .. | ifence .. | vatom .. | satom ..
  | cmb .. | ccommit .. | ccommitNw .. | creply .. | cpy .. | cpytLd .. | cpytSt .. | cpyg .. | cpys .. | cred ..
  | spawn .. | mlds .. | mms .. | mzero .. | mdrain .. | mldacc .. => .long
  | cend .. | barArr .. | barWait .. | barSync .. | barExp .. | barTx .. | waitf .. | tmark .. | capst .. | capsp ..
  | rgn .. => .none
  | qany .. | qall .. | pcnt .. | elect .. | plop .. | vadd .. | vsub .. | vaddc .. | vsubb .. | vmul .. | vmulh ..
  | vmad .. | vdot4 .. | vmin .. | vmax .. | vabs .. | vshl .. | vshr .. | vsra .. | vfunnelR .. | vfunnelL ..
  | vbfe .. | vbfi .. | vpopc .. | vclz .. | vbrev .. | vcmp .. | vsel .. | vmov .. | vmovil .. | vmovih .. | vlop3 ..
  | vidx .. | vperm .. | vbcast .. | vgetl .. | vsetl .. | vshfl .. | vmovi .. | vmovo .. | vaddF .. | vsubF ..
  | vmulF .. | vfma .. | vminF .. | vmaxF .. | vcmpF .. | vclass .. | vrnd .. | vrcp .. | vrsq .. | vexp2 .. | vlog2 ..
  | vcvt .. | vcvti .. | vdq .. => .fixed8
  | _ => .none

/-- Long-latency instructions that write a register and so need SET (R55, R188, R218, R346). -/
def needsSet : Instr → Bool
  | sdiv .. | srem .. | csrr .. | vred .. | vscan .. | vrand .. | vsqrt .. | vdiv .. | vsinpi .. | vcospi .. | vtanh ..
  | vlgt .. | vqz .. | cmb .. | spawn .. => true
  | vld _ _ _ d .. | sld _ _ _ d .. => d ≠ .zero
  | vatom _ _ _ _ d .. | satom _ _ _ _ d .. => d ≠ .zero
  | _ => false

/-- The hints of a word; the steps of the device carry none. -/
def hints : Instr → Option Hints
  | nop h | sadd h .. | saddc h .. | ssub h .. | smul h .. | smulh h .. | sdiv h .. | srem h .. | sand h .. | sor h ..
  | sxor h .. | sandn h .. | sshl h .. | sshr h .. | ssra h .. | smin h .. | smax h .. | sabs h .. | sbfe h .. | sbfi h ..
  | spopc h .. | sclz h .. | sffs h .. | smov h .. | smovil h .. | smovih h .. | ssel h .. | scmp h .. | pgetP h ..
  | pgetQ h .. | pputP h .. | pputQ h .. | qany h .. | qall h .. | pcnt h .. | elect h .. | setpl h .. | getpl h ..
  | plop h .. | qlop h .. | br h .. | brx h .. | call h .. | ret h .. | bexz h .. | exit h | yield h | sleep h ..
  | trap h .. | brk h .. | rte h .. | csrr h .. | csrw h .. | vadd h .. | vsub h .. | vaddc h .. | vsubb h .. | vmul h ..
  | vmulh h .. | vmad h .. | vdot4 h .. | vmin h .. | vmax h .. | vabs h .. | vshl h .. | vshr h .. | vsra h ..
  | vfunnelR h .. | vfunnelL h .. | vbfe h .. | vbfi h .. | vpopc h .. | vclz h .. | vbrev h .. | vcmp h .. | vsel h ..
  | vmov h .. | vmovil h .. | vmovih h .. | vlop3 h .. | vidx h .. | vperm h .. | vbcast h .. | vgetl h .. | vsetl h ..
  | vshfl h .. | vred h .. | vscan h .. | vmovi h .. | vmovo h .. | vrand h .. | vaddF h .. | vsubF h .. | vmulF h ..
  | vfma h .. | vminF h .. | vmaxF h .. | vcmpF h .. | vclass h .. | vrnd h .. | vrcp h .. | vrsq h .. | vexp2 h ..
  | vlog2 h .. | vsqrt h .. | vdiv h .. | vsinpi h .. | vcospi h .. | vtanh h .. | vlgt h .. | vcvt h .. | vcvti h ..
  | vqz h .. | vdq h .. | vld h .. | vst h .. | sld h .. | sst h .. | vpf h .. | lwb h .. | linv h .. | fence h ..
  | dfence h | ifence h .. | vatom h .. | satom h .. | cmb h .. | ccommit h .. | ccommitNw h | creply h .. | cend h
  | barArr h .. | barWait h .. | barSync h .. | barExp h .. | barTx h .. | barTest h .. | waitf h .. | cpy h .. | cpytLd h ..
  | cpytSt h .. | cpyg h .. | cpys h .. | cred h .. | spawn h .. | mlds h .. | mms h .. | mzero h .. | mdrain h ..
  | mldacc h .. | aalloc h .. | afree h .. | tmark h .. | capst h .. | capsp h .. | rgn h => some h
  | _ => none

/-- The first check of R59, from reason 2 on, that an instruction fails in a wave with these declared counts. -/
def illegal (vregs sregs : Nat) (i : Instr) : Option Nat :=
  match i.hints with
  | none => some 1
  | some h =>
    if 12 < h.set.toNat then some 2
    else if !i.modOk then some 3
    else if !i.operands.all (fun o => o.1.allows o.2) then some 5
    else if !i.operands.all (fun o => o.1.countOk vregs sregs o.2) then some 6
    else if !i.operands.all (fun o => o.1.alignOk o.2) then some 7
    else if i.needsSet && h.set == 0 then some 8
    else if !i.rawOk then some 9
    else none

end Instr
/-- The lane-level words (R70); the other instruction words are wave-level. -/
def Instr.isLane : Instr → Bool
  | .qany .. | .qall .. | .pcnt .. | .elect .. | .plop .. | .vadd .. | .vsub .. | .vaddc .. | .vsubb .. | .vmul .. | .vmulh ..
  | .vmad .. | .vdot4 .. | .vmin .. | .vmax .. | .vabs .. | .vshl .. | .vshr .. | .vsra .. | .vfunnelR .. | .vfunnelL ..
  | .vbfe .. | .vbfi .. | .vpopc .. | .vclz .. | .vbrev .. | .vcmp .. | .vsel .. | .vmov .. | .vmovil .. | .vmovih .. | .vlop3 ..
  | .vidx .. | .vperm .. | .vbcast .. | .vgetl .. | .vsetl .. | .vshfl .. | .vred .. | .vscan .. | .vmovi .. | .vmovo .. | .vrand ..
  | .vaddF .. | .vsubF .. | .vmulF .. | .vfma .. | .vminF .. | .vmaxF .. | .vcmpF .. | .vclass .. | .vrnd .. | .vrcp .. | .vrsq ..
  | .vexp2 .. | .vlog2 .. | .vsqrt .. | .vdiv .. | .vsinpi .. | .vcospi .. | .vtanh .. | .vlgt .. | .vcvt .. | .vcvti .. | .vqz ..
  | .vdq .. | .vld .. | .vst .. | .vpf .. | .lwb .. | .linv .. | .vatom .. | .cmb .. | .creply .. => true
  | _ => false

end Sys2Proof
end

