-- ==== Sys2Proof/Machine/Operands.lean ====
section
/-! DEFINITION. Operand forms (R38, R46 to R48, R53, R54, R74): what each source of an instruction reads, early reads included, and which sources are poisoned. -/

namespace Sys2Proof.Machine

/-- What the meaning of an instruction sees: the state, the wave that issues it, its key, the hints, the acting lanes, and the identifier of the operation that it may leave pending. -/
structure Ctx where
  s : State
  k : Nat
  w : Wave
  h : Hints
  /-- the acting lanes; all of them for a wave-level instruction that executes -/
  act : Mask
  lane : Bool := false
  id : Nat

namespace Ctx

def cid (c : Ctx) : Nat := cidOf c.k
def now (c : Ctx) : Nat := c.s.cyc c.cid
def p (c : Ctx) : Nat := c.w.pidN

end Ctx

/-! What a load's data write (R189, R190). -/

/-- Extend the bytes of a load to the words of its registers, lowest first (R189). -/
def extend (sz : MSize) (bs : List Byte) : List Word :=
  let x := leNat bs
  match sz with
  | .i8 => [BitVec.ofInt 32 (sextNat 8 x)]
  | .n8 => [BitVec.ofNat 32 x]
  | .i16 => [BitVec.ofInt 32 (sextNat 16 x)]
  | .n16 => [BitVec.ofNat 32 x]
  | .b32 => [BitVec.ofNat 32 x]
  | .n64 => [BitVec.ofNat 32 x, BitVec.ofNat 32 (x / 2 ^ 32)]
  | .b128 => [BitVec.ofNat 32 x, BitVec.ofNat 32 (x / 2 ^ 32), BitVec.ofNat 32 (x / 2 ^ 64), BitVec.ofNat 32 (x / 2 ^ 96)]

/-- Registers of an access size (R189). -/
def sizeRegs : MSize → Nat
  | .n64 => 2 | .b128 => 4 | _ => 1

/-- Bytes of an access size (R189). -/
def sizeBytes : MSize → Nat
  | .i8 => 1 | .n8 => 1 | .i16 => 2 | .n16 => 2 | .b32 => 4 | .n64 => 8 | .b128 => 16

/-- A lane of a load has all its bytes. -/
def LaneAcc.whole (a : LaneAcc) : Bool := a.got.all (·.isSome)

/-- The register writes of a load's lanes that have all their bytes and were not refused (R185, R190). -/
def loadWrites (sz : MSize) (lane : Bool) (d : Option Nat) (accs : List LaneAcc) : List RegW :=
  match d with
  | none => []
  | some d =>
    let ok := accs.filter (fun a => a.whole && !a.refused)
    (List.range (sizeRegs sz)).flatMap (fun j =>
      let xs := ok.map (fun a => (a.lane, (extend sz (a.got.filterMap id)).getD j 0))
      if xs.isEmpty then []
      else if lane then [RegW.v (d + j) xs]
      else xs.map (fun e => RegW.s (d + j) e.2))

/-- Everything a pending operation will write, as far as it is known. What a load, an atomic or a combine request will write is not
known before its data have arrived: a read before that gives the old value, one of the two that R53 allows (DESIGN CHOICE, log 7). -/
def Pend.known (p : Pend) : List RegW :=
  match p.kind with
  | .load sz lane d accs => loadWrites sz lane d accs
  | _ => p.writes

/-! Reads of registers, early reads included (R53, R54): for each pending write, old or new, as a free value says. -/

/-- Choose among the old value and those that pending writes give. -/
def early {α : Type} (ctr field reg lane : Nat) (old : α) (news : List α) : α :=
  (news.zipIdx).foldl (fun v e => if Config.earlyNew ctr (field + 16 * e.2) reg lane then e.1 else v) old

namespace Ctx

/-- The writes that are pending in the wave, in issue order. -/
def pending (c : Ctx) : List RegW := c.w.pend.flatMap Pend.known

def rdS (c : Ctx) (field n : Nat) : Word :=
  early c.s.freeCtr field (0x200 + n) 0 (c.w.sget n)
    (c.pending.filterMap (fun r => match r with | .s m x => if m = n then some x else none | _ => none))

def rdV (c : Ctx) (field n lane : Nat) : Word :=
  early c.s.freeCtr field n lane (c.w.vget n lane)
    (c.pending.filterMap (fun r => match r with
      | .v m xs => if m = n then (xs.find? (fun e => e.1 = lane)).map (·.2) else none
      | _ => none))

/-- One lane of a p register. -/
def rdP (c : Ctx) (field n lane : Nat) : Bool :=
  if n = 0 then true
  else early c.s.freeCtr field (0x400 + n) lane ((c.w.pget n).getLsbD lane)
    (c.pending.filterMap (fun r => match r with
      | .p m lanes vals => if m = n && lanes.getLsbD lane then some (vals.getLsbD lane) else none
      | _ => none))

def rdQ (c : Ctx) (field n : Nat) : Bool :=
  if n = 0 then true
  else early c.s.freeCtr field (0x500 + n) 0 (c.w.qget n)
    (c.pending.filterMap (fun r => match r with | .q m b => if m = n then some b else none | _ => none))

def rdPlive (c : Ctx) (field : Nat) : Word :=
  early c.s.freeCtr field 0x28A 0 (pliveFix c.w.plive)
    (c.pending.filterMap (fun r => match r with | .plive x => some (pliveFix x) | _ => none))

def rdFst (c : Ctx) (field : Nat) : Word :=
  early c.s.freeCtr field 0x28B 0 (c.w.fst.setWidth 32)
    ((c.pending.filterMap (fun r => match r with | .fst x => some ((x.setWidth 6).setWidth 32) | _ => none))
      ++ (c.w.pend.filter (fun p => p.fst ≠ 0)).map (fun p => (c.w.fst.setWidth 32) ||| p.fst))

/-- R38: the 64-bit samples of the clocks. -/
def cycSample (c : Ctx) : DWord := BitVec.ofNat 64 c.now
def lcSample (c : Ctx) : DWord := (c.s.lc (lcCore c.cid)).setWidth 64

end Ctx

/-- The FP32 pattern of a constant code (R47). -/
def fpConst (k : Fin 8) : Word :=
  match k.val with
  | 0 => 0x3F000000 | 1 => 0x3F800000 | 2 => 0x40000000 | 3 => 0x40800000
  | 4 => 0xBF000000 | 5 => 0xBF800000 | 6 => 0xC0000000 | _ => 0xC0800000

/-- The FP16 half of a constant (R47). -/
def fpHalf (k : Fin 8) : BitVec 16 :=
  match k.val with
  | 0 => 0x3800 | 1 => 0x3C00 | 2 => 0x4000 | 3 => 0x4400 | 4 => 0xB800 | 5 => 0xBC00 | 6 => 0xC000 | _ => 0xC400

/-- The pattern of a constant in an operand of a type (R47): packed types have the value in each half. -/
def fpPattern (t : Ty) (k : Fin 8) : Word :=
  match t with
  | .f16 => (fpHalf k ++ fpHalf k).cast (by decide)
  | .bf16 => let b := (fpConst k).extractLsb' 16 16; (b ++ b).cast (by decide)
  | _ => fpConst k

/-- R38: the high half that an instruction's own reads of `cyc0` and `lc0` store. An instruction that reads both keeps that of the
last in field order (DEDUCED, log 28). -/
def Ctx.lowHalf (c : Ctx) (os : List Opd) : Option Word :=
  os.foldl (fun (r : Option Word) o =>
    if o = .cyc0 then some (c.cycSample.extractLsb' 32 32) else if o = .lc0 then some (c.lcSample.extractLsb' 32 32) else r) none

/-- The 32-bit value of an operand in a lane, read as type `t` (R46 to R48). `field` tells the reads of one instruction apart;
`half` is the high half that the same instruction's reads of `cyc0` and `lc0` store: they come before its reads of `cyc1` and `lc1`; where it reads both of
those, both take the stored half (R38; DEDUCED, log 28). -/
def opdVal (c : Ctx) (t : Ty) (field : Nat) (o : Opd) (lane : Nat) (half : Option Word := none) : Word :=
  match o with
  | .v n => c.rdV field n.val lane
  | .s n => c.rdS field n.val
  | .lane => BitVec.ofNat 32 (if c.w.prot then lane / 2 else lane)
  | .wid => BitVec.ofNat 32 c.w.wid
  | .cid => BitVec.ofNat 32 c.cid
  | .clid => BitVec.ofNat 32 (clidOf c.cid)
  | .did => BitVec.ofNat 32 (didOf c.cid)
  | .pid => BitVec.ofNat 32 c.w.pidN
  | .cyc0 => c.cycSample.extractLsb' 0 32
  | .cyc1 => half.getD (c.w.hold.getD (c.cycSample.extractLsb' 32 32))
  | .lc0 => c.lcSample.extractLsb' 0 32
  | .lc1 => half.getD (c.w.hold.getD (c.lcSample.extractLsb' 32 32))
  | .plive => c.rdPlive field
  | .fst => c.rdFst field
  | .int n => BitVec.ofNat 32 (n.val + 1)
  | .fp k => fpPattern t k
  | .zero => 0

/-- A 32-bit operand of an instruction, all of whose sources are `os` (R38). -/
def Ctx.val (c : Ctx) (field : Nat) (o : Opd) (lane : Nat := 0) (os : List Opd := []) (t : Ty := .b32) : Word :=
  opdVal c t field o lane (c.lowHalf os)

/-- A 64-bit operand: an even register and the next; any other pattern zero-extended (R48). -/
def Ctx.val64 (c : Ctx) (field : Nat) (o : Opd) (lane : Nat := 0) (os : List Opd := []) : DWord :=
  match o with
  | .v n => c.rdV (field + 4) (n.val + 1) lane ++ c.rdV field n.val lane
  | .s n => c.rdS (field + 4) (n.val + 1) ++ c.rdS field n.val
  | o => (c.val field o lane os).setWidth 64

/-- An operand of a type's width, as a 64-bit pattern. -/
def Ctx.valT (c : Ctx) (t : Ty) (field : Nat) (o : Opd) (lane : Nat := 0) (os : List Opd := []) : DWord :=
  if t.wide then c.val64 field o lane os else (c.val field o lane os t).setWidth 64

/-- Consecutive registers from an operand on (R188, R224, R243). -/
def Ctx.valN (c : Ctx) (field : Nat) (o : Opd) (j : Nat) (lane : Nat := 0) : Word :=
  match o with
  | .v n => c.rdV (field + j) (n.val + j) lane
  | .s n => c.rdS (field + j) (n.val + j)
  | o => if j = 0 then opdVal c .b32 field o lane else 0

/-! Which operands of an instruction are sources. -/

end Sys2Proof.Machine

namespace Sys2Proof.Instr

/-- The first operand of `operands` is a destination that is not read. -/
def hasDst : Instr → Bool
  | .scmp .. | .pputP .. | .pputQ .. | .setpl .. | .brx .. | .ret .. | .rte .. | .sleep .. | .csrw .. | .vcmp .. | .vcmpF ..
  | .vclass .. | .vst .. | .sst .. | .vpf .. | .lwb .. | .linv .. | .creply .. | .barExp .. | .barTx .. | .cpy .. | .cpytLd ..
  | .cpytSt .. | .cpyg .. | .cpys .. | .cred .. | .spawn .. | .mlds .. | .mms .. | .mdrain .. | .mldacc .. | .tmark ..
  | .smovih .. | .vmovih .. => false
  | _ => true

/-- Registers that an operand of a kind names. -/
def regsOf (k : Kind) : Nat := if k.n = 1 then k.al else k.n

/-- The operand some registers after a vector or scalar register. -/
def shift (o : Opd) (j : Nat) : Opd :=
  match o with
  | .v n => .v (Fin.ofNat 512 (n.val + j))
  | .s n => .s (Fin.ofNat 128 (n.val + j))
  | o => o

/-- The registers that hold element e of width w in the group at an operand (R100): the whole pair of a 64-bit type, one of a 32-bit type. -/
def elemSrc (t : Ty) (e : Nat) (o : Opd) : Opd × Nat :=
  if t.wide then (o, 2) else if t.bits = 32 then (o, 1)
  else (shift o (t.bits * e / 32), elemRegs t.bits e - t.bits * e / 32)

/-- The sources of an instruction that each acting lane reads in its own lane, with the registers they name.
Cross-lane sources and indexed registers are listed by the meanings that read them. The mask that s0 to s2 hold is no source here:
whether `bexz` or a lane-level word reads a poisoned one is not said, and the model does not trap (DEDUCED, log 31). -/
def srcs (i : Instr) : List (Opd × Nat) :=
  match i with
  | .vqz _ _ sr _ a _ r => (a, 8) :: (if sr then [(r, 4)] else [])
  | .vperm _ _ _ b | .vbcast _ _ _ b | .vgetl _ _ _ b | .vsetl _ _ _ b | .vshfl _ _ _ _ _ b | .vmovi _ _ _ b => [(b, 1)]
  | .vcvt _ t src _ e d a r => (if t = .f32 then [] else [elemSrc t e.toNat d]) ++ [elemSrc (.ofFloatCode src) e.toNat a, (r, 1)]
  | .vcvti _ t src _ e d a r => (if t.bits < 32 then [elemSrc t e.toNat d] else []) ++ [elemSrc (.ofCode src) e.toNat a, (r, 1)]
  | i => ((if i.hasDst then i.operands.drop 1 else i.operands)).map (fun o => (o.2, regsOf o.1))

/-- The sources that cross-lane instructions read in other lanes than their own, as their meanings say which (R117 to R119). -/
def crossSrcs : Instr → List (Opd × Nat)
  | .vperm _ _ a _ | .vbcast _ _ a _ | .vgetl _ _ a _ | .vsetl _ _ a _ | .vshfl _ _ _ _ a _ => [(a, 1)]
  | _ => []

/-- The sources of which a cross-lane instruction reads every lane (R40, R117). -/
def allLaneSrcs (i : Instr) : List (Opd × Nat) :=
  match i with
  | .vperm .. | .vshfl .. | .vbcast .. | .vgetl .. | .vsetl .. | .vred .. | .vscan .. | .vidx .. => i.srcs ++ i.crossSrcs
  | _ => []

/-- The bytes of a register that hold a part of element e of width w, counted from the element's first register (R100). -/
def elemBytes (w e j : Nat) : BitVec 4 :=
  let lo := w * e % 32
  BitVec.ofNat 4 ((List.range 4).foldl (fun m b => if lo < 32 * j + 8 * b + 8 && 32 * j + 8 * b < lo + w then m + 2 ^ b else m) 0)

/-- The bytes of register j of a source that an instruction uses (R74): a conversion uses those of its element, every other instruction all four. -/
def usedBytes (i : Instr) (o : Opd) (j : Nat) : BitVec 4 :=
  match i with
  | .vcvt _ t src _ e d a _ =>
    let u := Ty.ofFloatCode src
    if u.bits < 32 && o = (elemSrc u e.toNat a).1 && (t = .f32 || o ≠ (elemSrc t e.toNat d).1) then elemBytes u.bits e.toNat j else 15
  | .vcvti _ t src _ e d a _ =>
    let u := Ty.ofCode src
    if u.bits < 32 && o = (elemSrc u e.toNat a).1 && (32 ≤ t.bits || o ≠ (elemSrc t e.toNat d).1) then elemBytes u.bits e.toNat j else 15
  | _ => 15

/-- The p and q registers that an instruction reads beside its guard. -/
def preds : Instr → List Nat × List Nat
  | .saddc _ _ _ _ k => ([], [k.toNat])
  | .ssel _ _ _ _ _ k => ([], [k.toNat])
  | .scmp _ _ _ pr _ _ => ([], if pr.acc = 0 then [] else [pr.pt.toNat, pr.pf.toNat])
  | .pgetP _ _ k => ([k.toNat], [])
  | .pgetQ _ _ => ([], List.range 16)
  | .qany _ _ k | .qall _ _ k | .pcnt _ _ k => ([k.toNat], [])
  | .plop _ _ _ a b c => ([a.toNat, b.toNat, c.toNat], [])
  | .qlop _ _ _ a b c => ([], [a.toNat, b.toNat, c.toNat])
  | .vaddc _ _ _ _ k | .vsubb _ _ _ _ k | .vsel _ _ _ _ _ k => ([k.toNat], [])
  | .vcmp _ _ _ pr _ _ _ | .vcmpF _ _ _ pr _ _ | .vclass _ _ pr _ _ =>
    (if pr.acc = 0 then [] else [pr.pt.toNat, pr.pf.toNat], [])
  | _ => ([], [])

end Sys2Proof.Instr

namespace Sys2Proof.Machine

/-- Lanes among `act` that read a source of an instruction which is poisoned or in error (R74). -/
def srcPoison (w : Wave) (act : Mask) (i : Instr) (e : Opd × Nat) : Mask :=
  match e.1 with
  | .v r => (List.range e.2).foldl (fun m j => m ||| (w.badV (r.val + j) (i.usedBytes e.1 j) &&& act)) 0
  | .s r => if (List.range e.2).any (fun j => w.badS (r.val + j) (i.usedBytes e.1 j)) then act else 0
  | _ => 0

/-- Lanes among `act` that read a poisoned source of an instruction, or one with an uncorrectable error (R74). For a wave-level instruction that executes these
are all 96 lanes, as R74 has it for its guard (DEDUCED, log 31). -/
def poisonOf (w : Wave) (act : Mask) (i : Instr) : Mask :=
  let m := i.srcs.foldl (fun m e => m ||| srcPoison w act i e) 0
  let m := i.preds.1.foldl (fun m k => m ||| (w.badP k &&& act)) m
  if i.preds.2.any w.badQ then act else m

/-- A value is among the registers that a source names. -/
def RegAt.among (x : RegAt) (e : Opd × Nat) : Bool :=
  match x, e.1 with
  | .v n _, .v r => r.val ≤ n && n < r.val + e.2
  | .s n, .s r => r.val ≤ n && n < r.val + e.2
  | _, _ => false

/-- R74: the uncorrectable errors that an executing instruction finds without using them: in a lane that does not act, of a beat that
runs (R39, R40; DEDUCED, log 31), or in bytes of a source that it does not use. A cross-lane instruction reads every lane of its vector sources (R117). -/
def quietErrs (w : Wave) (act : Mask) (i : Instr) : List RegAt :=
  let beat := fun (l : Nat) => act.extractLsb' (l / 32 * 32) 32 ≠ 0
  let srcs := i.srcs ++ i.crossSrcs
  (w.errs.filter (fun e => match e.1 with
    | .v _ l => (decide (beat l) && srcs.any (fun o => e.1.among o)) || i.allLaneSrcs.any (fun o => e.1.among o)
    | .s _ => srcs.any (fun o => e.1.among o)
    | .p n l => decide (beat l) && i.preds.1.contains n
    | .q _ => false)).map (·.1)

/-- The holding word after an instruction that reads these sources (R38). -/
def holdAfter (c : Ctx) (os : List Opd) : Option Word :=
  let lo := c.lowHalf os
  if os.contains .cyc1 || os.contains .lc1 then none else if lo.isSome then lo else c.w.hold

end Sys2Proof.Machine
end

