-- ==== Sys2Proof/Machine/Flags.lean ====
section
/-! DEFINITION. Guards and acting lanes (R70 to R74), predicate pairs of compares (R75, R76), the bits of `fst` (R37), beats (R39, R40). -/

namespace Sys2Proof.Machine

/-! Bits of `fst` (R37). -/
def fstIV : Word := 1
def fstDZ : Word := 2
def fstOF : Word := 4
def fstUF : Word := 8
def fstNX : Word := 16
def fstST : Word := 32

/-- The truth table depends on the guard field with weight 4, 2 or 1 (R74). -/
def lutDepends (lut : BitVec 8) (weight : Nat) : Bool :=
  (List.range 8).any (fun j => lut.getLsbD j != lut.getLsbD (j ^^^ weight))

/-- The table's entry for three predicate values (R70). -/
def lutAt {n : Nat} (lut : BitVec n) (a b c : Bool) : Bool :=
  lut.getLsbD (4 * a.toNat + 2 * b.toNat + c.toNat)

/-- A guard field as it is read: false where the table does not depend on it. -/
def guardP (c : Ctx) (field n weight lane : Nat) : Bool := lutDepends c.h.lut weight && c.rdP field n lane
def guardQ (c : Ctx) (field n weight : Nat) : Bool := lutDepends c.h.lut weight && c.rdQ field n

/-- R71: whether a wave-level instruction executes. -/
def guardWave (c : Ctx) : Bool :=
  lutAt c.h.lut (guardQ c 12 c.h.ga.toNat 4) (guardQ c 13 c.h.gb.toNat 2) (guardQ c 14 c.h.gc.toNat 1)

/-- R70: the acting lanes of a lane-level instruction. -/
def guardLanes (c : Ctx) : Mask :=
  if c.h.lut = 0xFF then c.w.emask
  else if c.h.lut = 0 then 0
  else maskOf (fun i => c.w.emask.getLsbD i &&
    lutAt c.h.lut (guardP c 12 c.h.ga.toNat 4 i) (guardP c 13 c.h.gb.toNat 2 i) (guardP c 14 c.h.gc.toNat 1 i))

/-- R74: the guard fields that are read. -/
def guardFields (h : Hints) : List Nat :=
  (if lutDepends h.lut 4 then [h.ga.toNat] else []) ++ (if lutDepends h.lut 2 then [h.gb.toNat] else [])
    ++ (if lutDepends h.lut 1 then [h.gc.toNat] else [])

/-- R74: the lanes that a guard predicate which is poisoned or in error stops; for a wave-level instruction all of them. -/
def guardPoison (w : Wave) (h : Hints) (lane : Bool) : Mask :=
  if lane then
    (guardFields h).foldl (fun m k => m ||| (w.badP k &&& w.emask)) 0
  else if (guardFields h).any w.badQ then allLanes else 0

/-- R75 on one pair of values: the new pt and pf. -/
def pairStep (acc : BitVec 2) (c oldT oldF : Bool) : Bool × Bool :=
  match acc.toNat with
  | 1 => (oldT && c, oldF || !c)
  | 2 => (oldT || c, oldF && !c)
  | _ => (c, !c)

/-- R75, lane-level: the writes of a compare whose condition is `cond` in the acting lanes. -/
def pairLanes (c : Ctx) (pr : PairF) (clr : Bool) (cond : Nat → Bool) : List RegW :=
  let pt := pr.pt.toNat
  let pf := pr.pf.toNat
  if pt = 0 || pf = 0 then []
  else
    let new := fun i => pairStep pr.acc (cond i) (c.rdP 8 pt i) (c.rdP 9 pf i)
    let lanes := if clr then allLanes else c.act
    let t := maskOf (fun i => c.act.getLsbD i && (new i).1)
    let f := maskOf (fun i => c.act.getLsbD i && (new i).2)
    RegW.p pt lanes t :: (if pf = pt then [] else [RegW.p pf lanes f])

/-- R75, wave-level. -/
def pairWave (c : Ctx) (pr : PairF) (cond : Bool) : List RegW :=
  let pt := pr.pt.toNat
  let pf := pr.pf.toNat
  if pt = 0 || pf = 0 then []
  else
    let new := pairStep pr.acc cond (c.rdQ 8 pt) (c.rdQ 9 pf)
    RegW.q pt new.1 :: (if pf = pt then [] else [RegW.q pf new.2])

/-- Which beats an instruction of the datapath runs (R40): 1 those with an acting lane, 2 all three. -/
def beatKind : Instr → Nat
  | .vperm .. | .vshfl .. | .vbcast .. | .vred .. | .vscan .. | .vgetl .. | .vsetl .. | .vidx .. => 2
  | _ => 1

/-- Instructions that use the quad's datapath (R40, R272). `qany`, `qall`, `pcnt`, `elect` and `plop` stand in no row of R40; they are of
fixed latency 8 as the vector instructions are, and run beats like them (DEDUCED, log 31). -/
def runsBeats (i : Instr) : Bool :=
  i.lat == .fixed8 || (match i with
    | .vred .. | .vscan .. | .vsqrt .. | .vdiv .. | .vsinpi .. | .vcospi .. | .vtanh .. | .vlgt .. | .vqz .. => true
    | _ => false)

/-- The number of beats of a lane-level instruction (R39, R40). -/
def beatsOf (i : Instr) (act : Mask) : Nat :=
  if act = 0 || !runsBeats i then 0
  else match beatKind i with
    | 2 => 3
    | _ => ((List.range 3).filter (fun k => act.extractLsb' (32 * k) 32 ≠ 0)).length

/-- Set bits of a mask. -/
def maskCount (m : Mask) : Nat := (lanesOf m).length

end Sys2Proof.Machine
end

