-- ==== Sys2Proof/Machine/TraceUnit.lean ====
section
/-! DEFINITION. The trace unit (R251 to R258, R389): packets, the ring with its losses, the captures, the series records. -/

namespace Sys2Proof.Machine

/-- An unsigned LEB128 varint (R252), of at most `fuel` groups. -/
def varint : Nat → Nat → List Byte
  | 0, _ => []
  | f + 1, n => if n < 128 then [BitVec.ofNat 8 n] else BitVec.ofNat 8 (n % 128 + 128) :: varint f (n / 128)

/-- The value that a varint's bytes hold. -/
def varintValue : List Byte → Nat
  | [] => 0
  | b :: bs => b.toNat % 128 + (if b.toNat < 128 then 0 else 128 * varintValue bs)

namespace State

/-- A translation for a ring of the trace unit: no fault is recorded (R254). None where it is missing or not permitted. -/
def ringPlace (s : State) (cid va : Nat) : State × Option Place :=
  let pasid := (s.core cid).trc.pasid
  if !canonical va then (s, none)
  else match s.translate cid (s.partOfCore cid) pasid va .write with
    | (s, .ok e) => (s, some (e.place (va % 2 ^ 57)))
    | (s, _) => (s, none)

/-- The places of consecutive offsets of a ring, and whether all of them can be written. -/
def ringPlaces (s : State) (cid base size off n : Nat) : State × List Place × Bool :=
  let p := s.partOfCore cid
  (List.range n).foldl (fun (r : State × List Place × Bool) i =>
    match r.1.ringPlace cid ((base + (off + i) % size) % 2 ^ 64) with
    | (s, some pl) =>
      let ok := match pl with
        | .dev a => s.admits p a 1 true
        | .host _ => s.hostOk p
        | .peer d a => s.peerServes p d a 1
        | .scr .. => true
      (s, r.2.1 ++ [pl], r.2.2 && ok)
    | (s, none) => (s, r.2.1, false)) (s, [], true)

/-- Bytes written at consecutive offsets of a ring; false, with nothing written by this call, where any of them cannot be. -/
def ringWrite (s : State) (cid base size off : Nat) (bs : List Byte) : State × Bool :=
  let p := s.partOfCore cid
  let r := s.ringPlaces cid base size off bs.length
  if r.2.2 then ((r.2.1.zip bs).foldl (fun s e => (s.placeWrite p e.1 [e.2]).1) r.1, true) else (r.1, false)

def modTrc (s : State) (cid : Nat) (f : TraceU → TraceU) : State := s.modCore cid (fun c => { c with trc := f c.trc })

/-- R254: free bytes of a ring. -/
def ringFree (size wptr rptr : Nat) : Nat := size - (wptr + size - rptr % size) % size

/-- One packet, if it fits and can be written; else it and later ones are dropped and counted (R254). -/
def packetRaw (s : State) (cid : Nat) (bs : List Byte) (timed sync : Bool) : State :=
  let t := (s.core cid).trc
  let lose := fun (s : State) => s.modTrc cid (fun t =>
    { t with dropping := true, dropped := t.dropped + 1, lost := min (t.lost + 1) (2 ^ 32 - 1) })
  if t.dropping || ringFree t.size t.wptr t.rptr ≤ bs.length then lose s
  else match s.ringWrite cid t.base t.size t.wptr bs with
    | (s, true) =>
      let now := s.cyc cid
      s.modTrc cid (fun t => { t with wptr := (t.wptr + bs.length) % t.size
                                      last := if timed then now else t.last
                                      syncoff := if sync then t.wptr else t.syncoff })
    | (s, false) => lose s

/-- The bytes of a SYNC packet of a wave (R252). -/
def syncBytes (s : State) (k : Nat) (w : Wave) : List Byte :=
  [0x10, BitVec.ofNat 8 (wbOf k)] ++ leBytes 8 w.pc.toNat ++ leBytes 8 (s.cyc (cidOf k)) ++ leBytes 6 (s.lc (lcCore (cidOf k))).toNat

/-- A SYNC packet of a wave. -/
def syncRaw (s : State) (k : Nat) : State :=
  match s.wave k with
  | none => s
  | some w => s.packetRaw (cidOf k) (s.syncBytes k w) true true

/-- The traced waves of a core, in ascending wave byte (R251). -/
def tracedWaves (s : State) (cid : Nat) : List Nat :=
  (s.waves.filter (fun e => cidOf e.1 = cid && e.2.traced)).map (·.1)

def syncAll (s : State) (cid : Nat) : State := (s.tracedWaves cid).foldl syncRaw s

/-- R254, R389: once 256 bytes are free and writable, LOSS with the count and a SYNC for each traced wave still resident. -/
def traceResume (s : State) (cid : Nat) : State :=
  let t := (s.core cid).trc
  if !t.dropping || !t.en || ringFree t.size t.wptr t.rptr < 256 then s
  else
    let bs := (0x70 : Byte) :: varint 10 t.dropped
    match s.ringPlaces cid t.base t.size t.wptr 256 with
    | (s, _, true) =>
      ((s.ringWrite cid t.base t.size t.wptr bs).1.modTrc cid (fun t =>
        { t with wptr := (t.wptr + bs.length) % t.size, dropping := false, dropped := 0 })).syncAll cid
    | (s, _, false) => s

/-- The packets of the cycle that ends are written, quad by quad (R251); a unit that drops packets drops them (R254). -/
def flushTrace (s : State) (cid : Nat) : State :=
  let q := (s.core cid).trc.queued
  if q.isEmpty then s
  else
    let s := s.modTrc cid (fun t => { t with queued := [] })
    ((List.range 4).flatMap (fun i => q.filter (fun x => x.quad = i))).foldl (fun (s : State) x =>
      if x.sync then s.packetRaw cid x.head true true
      else s.packetRaw cid (x.head ++ varint 10 (s.cyc cid - (s.core cid).trc.last) ++ x.rest) true false) s

/-- A packet of a wave whose launch is traced (R251, R252): header, wave byte, an identifier byte, the delta, the rest. It is written with those of its cycle. -/
def packet (s : State) (k : Nat) (hdr : Nat) (ident : List Byte) (rest : List Byte) : State :=
  match s.wave k with
  | none => s
  | some w =>
    let cid := cidOf k
    if !w.traced || !(s.core cid).trc.en then s
    else s.modTrc cid (fun t => { t with queued := t.queued ++ [{ quad := quadOf k, head := [BitVec.ofNat 8 hdr, BitVec.ofNat 8 (wbOf k)] ++ ident, rest := rest }] })

/-- SYNC of a wave that starts or is restored (R252). -/
def syncPacket (s : State) (k : Nat) : State :=
  match s.wave k with
  | none => s
  | some w =>
    if w.traced && (s.core (cidOf k)).trc.en then
      s.modTrc (cidOf k) (fun t => { t with queued := t.queued ++ [{ quad := quadOf k, head := s.syncBytes k w, rest := [], sync := true }] })
    else s

/-- BR (R252). -/
def brPacket (s : State) (k : Nat) (taken : Bool) (target : Option DWord) : State :=
  s.packet k (0x20 + taken.toNat + (if target.isSome then 2 else 0)) [] ((target.map (fun t => leBytes 8 t.toNat)).getD [])

/-- MASK for the writes to s0, s1 or s2 among these (R252). -/
def maskPacket (s : State) (k : Nat) (ws : List RegW) : State :=
  let vals := (List.range 3).filterMap (fun n =>
    (ws.filterMap (fun r => match r with | .s m x => if m = n then some x else none | _ => none)).getLast?.map (fun x => (n, x)))
  if vals.isEmpty then s
  else s.packet k (0x30 + (vals.map (fun e => 2 ^ e.1)).sum) [] (vals.flatMap (fun e => leBytes 4 e.2.toNat))

/-- A 4-byte saturating counter field. -/
def count32 (n : Nat) : List Byte := leBytes 4 (min n (2 ^ 32 - 1))

/-- A capture closes (R249, R255, R256): the core's clock advances and a CAPSP is written. -/
def closeCapture (s : State) (k c : Nat) (byExit : Bool) : State :=
  match (s.wave k).bind (fun w => Tbl.get? w.caps c) with
  | none => s
  | some cap =>
    let s := s.lcTick (lcCore (cidOf k))
    let s := s.packet k (0x60 + cap.interrupted.toNat + (if byExit then 2 else 0)) [BitVec.ofNat 8 c]
      (leBytes 8 cap.resident ++ leBytes 8 cap.absent ++ leBytes 6 (s.lc (lcCore (cidOf k))).toNat
        ++ count32 cap.instr ++ count32 cap.beats ++ count32 cap.held ++ count32 cap.memreq)
    s.modWave k (fun w => { w with caps := Tbl.erase w.caps c })

end State

/-- What a core has counted in the period of 2^k that ends (R257). -/
def Core.counts (c : Core) (k : Nat) : List Nat := List.zipWith (· - ·) c.series (Tbl.getD c.marks k [0, 0, 0, 0, 0, 0, 0, 0])

namespace State

/-- One record of the series ring (R257). -/
def seriesRecord (s : State) (cid k tick : Nat) : State :=
  let c := s.core cid
  let t := c.trc
  let bs := leBytes 8 tick ++ leBytes 2 cid ++ [1, 8] ++ leBytes 4 0 ++ (c.counts k).flatMap count32
  let lose := fun (s : State) => s.modTrc cid (fun t => { t with tslost := min (t.tslost + 1) (2 ^ 32 - 1) })
  if ringFree t.tssize t.tswptr t.tsrptr ≤ bs.length then lose s
  else match s.ringWrite cid t.tsbase t.tssize t.tswptr bs with
    | (s, true) => s.modTrc cid (fun t => { t with tswptr := (t.tswptr + bs.length) % t.tssize })
    | (s, false) => lose s

end State

end Sys2Proof.Machine
end

