-- ==== Sys2Proof/Machine/Ops.lean ====
section
/-! DEFINITION. The shared operations of issue and completion: results that become ready (R53 to R56), the end of waves, blocks and batches (R31, R32, R233), taking an exception and returning from one (R339, R342, R343, R345), and the path that every instruction word takes when it issues (R55, R59, R71 to R74). -/

namespace Sys2Proof.Machine

/-! Results (R53, R54). -/

/-- What is left of a pending write once another write has been made (R54). -/
def RegW.minus (a b : RegW) : Option RegW :=
  match a, b with
  | .v n xs, .v m ys =>
    if n = m then
      let xs := xs.filter (fun e => !ys.any (fun f => f.1 = e.1))
      if xs.isEmpty then none else some (.v n xs)
    else some a
  | .s n _, .s m _ => if n = m then none else some a
  | .p n l x, .p m l' _ => if n = m then (if l &&& ~~~l' = 0 then none else some (.p n (l &&& ~~~l') x)) else some a
  | .q n _, .q m _ => if n = m then none else some a
  | .plive _, .plive _ => none
  | .fst _, .fst _ => none
  | _, _ => some a

/-- A fixed-latency pending result without what other writes have made (R54). -/
def Pend.strip (ws : List RegW) (p : Pend) : Pend :=
  if p.long then p else { p with writes := ws.foldl (fun l b => l.filterMap (fun a => a.minus b)) p.writes }

/-- The operand code of a register write, for the forward latch (R56). -/
def RegW.code : RegW → Option Nat
  | .v n _ => some n
  | .s n _ => some (0x200 + n)
  | .fst _ => some 0x28B
  | _ => none

namespace Wave

/-- A pending result is written and leaves the list; its flag falls (R53, R55). Fixed results issued before it
lose the writes that it overrides; a long one overrides every fixed one still pending (R54): a write of fixed latency that issued before
the completion and is ready only after it counts as a write before the completion (DEDUCED, log 28). -/
def finishPend (w : Wave) (p : Pend) : Wave :=
  let ws := p.known
  let before := w.pend.takeWhile (fun x => x.id ≠ p.id)
  let after := (w.pend.dropWhile (fun x => x.id ≠ p.id)).filter (fun x => x.id ≠ p.id)
  let w := w.applyAll ws p.fst
  let codes := ws.filterMap RegW.code
  let w := { w with pend := before.map (Pend.strip ws) ++ (if p.long then after.map (Pend.strip ws) else after)
                    holdFor := w.holdFor.filter (· ≠ p.id)
                    latch := if p.fh ≠ 0 && !p.long && !codes.isEmpty then some { codes := codes, left := p.fh }
                             else w.latch.filter (fun l => l.codes.all (fun x => x ∉ codes)) }
  let w := if p.long then w.govern ws else w
  w.flagDown p.flag

/-- Every fixed-latency result is written (R55). -/
def settle (w : Wave) : Wave :=
  { (w.pend.filter (fun p => !p.long)).foldl (fun w p =>
      match w.pend.find? (fun x => x.id = p.id) with
      | some p => w.finishPend p
      | none => w) w with latch := none }

end Wave

/-- R307: the state of a wave: 0 ready, 2 blocked at a barrier, 3 at a translation fault. -/
def Wave.stateCode (w : Wave) : Nat :=
  match w.stat with
  | .barWait _ => 2
  | .faulted .. => 3
  | .trapWait => 3
  | .dumping st _ => st
  | _ => 0

/-- R307: the barrier on which a wave is blocked, as A[7:0] of R280; 0xFF for none. -/
def Wave.barCode (w : Wave) : Nat :=
  match w.stat with
  | .barWait key => key
  | .dumping _ b => b
  | _ => 0xFF

namespace State

/-- An operation of a wave ends (R53, R55). -/
def opDone (s : State) (k op : Nat) : State :=
  match s.wave k, s.pend k op with
  | some w, some p =>
    let s := if p.long then s.maskPacket k p.known else s
    s.setWave k (w.finishPend p)
  | _, _ => s

/-! The end of waves and blocks (R30 to R32). -/

/-- A wave leaves the device: its slot, its registers, its place in the rotation list (R30, R273). -/
def removeWave (s : State) (k : Nat) : State :=
  match s.wave k with
  | none => s
  | some w =>
    let s := { s with waves := Tbl.erase s.waves k, cur := if s.cur = some k then none else s.cur }
    let s := s.modBlock w.block (fun b => { b with waves := b.waves.filter (· ≠ k) })
    s.modCore (cidOf k) (fun c =>
      let q := Tbl.getD c.quads (quadOf k) {}
      let l := Tbl.getD q.rot w.prio []
      let i := (l.takeWhile (· ≠ k)).length
      let ptr := Tbl.getD q.ptr w.prio 0
      { c with quads := Tbl.set c.quads (quadOf k)
                { q with rot := Tbl.set q.rot w.prio (l.filter (· ≠ k))
                         ptr := Tbl.set q.ptr w.prio (if i < ptr then ptr - 1 else ptr) } })

/-- A wave joins the end of the rotation list of its priority (R273). -/
def enterRotation (s : State) (k prio : Nat) : State :=
  s.modCore (cidOf k) (fun c =>
    let q := Tbl.getD c.quads (quadOf k) {}
    { c with quads := Tbl.set c.quads (quadOf k) { q with rot := Tbl.set q.rot prio (Tbl.getD q.rot prio [] ++ [k]) } })

/-- R32, R226: a wave is killed: it retires at once; statuses on their way to it are dropped with status 2 and counted, and what arrives later finds no operation. -/
def killWave (s : State) (k : Nat) : State :=
  match s.wave k with
  | none => s
  | some w =>
    let n := (w.pend.map (fun p => match p.kind with | .cmb _ _ rets => rets.length | _ => 0)).sum
    (if n = 0 then s else s.modPart w.pidN (fun q => { q with ngone := q.ngone + BitVec.ofNat 32 n })).removeWave k

/-- Every wave of a block is killed (R343). -/
def killBlockWaves (s : State) (b : Nat) : State :=
  match s.block b with
  | none => s
  | some x => x.waves.foldl killWave s

/-! Batches (R226, R231, R233). -/

/-- A request's status leaves for its requester (R226), with the stamp of its `creply` where it had one, else of the CHU (R249): it is on its way to a live
wave; else it is dropped with status 2 and counted. -/
def giveStatus (s : State) (p : Nat) (slice : Nat) (r : BReq) (status : Nat) (reply : Option Word) : State :=
  match s.pend r.wave r.op with
  | some x =>
    match x.kind with
    | .cmb d wait rets =>
      let s := s.modPend r.wave r.op (fun x =>
        { x with kind := .cmb d wait (rets ++ [{ lane := r.lane, status := status, reply := reply, stamp := if r.reply.isSome then r.stamp else s.lc (lcChu slice) }]) })
      if status = 1 then s.modPart p (fun q => { q with nrefuse := q.nrefuse + 1 }) else s
    | _ => s
  | none => s.modPart p (fun q => { q with ngone := q.ngone + 1 })

/-- The object is written and the hold ends (R231); the writes behind it follow (R235). -/
def commitBatch (s : State) (b : Nat) : State :=
  match Tbl.get? s.batches b with
  | none => s
  | some x =>
    if x.committed then s
    else
      let s := match x.commitWords with
        | some ws => if s.admits x.pidN x.dpa (4 * ws.length) true then s.homeWrite x.dpa (ws.flatMap (fun (w : Word) => leBytes 4 w.toNat)) else s
        | none => s
      (s.modBatch b (fun x => { x with committed := true })).putLater

/-- A batch is over (R233): each request without a reply receives 3 after a commit, else 1; the combiner wave and its slot are freed. -/
def closeBatch (s : State) (b : Nat) : State :=
  match Tbl.get? s.batches b with
  | none => s
  | some x =>
    let s := x.reqs.foldl (fun s r =>
      if r.answered then s
      else match r.reply with
        | some v => if x.committed then s.giveStatus x.pidN x.slice r (if x.ent.repl then 0 else 3) (if x.ent.repl then some v else none)
                    else s.giveStatus x.pidN x.slice r 1 none
        | none => s.giveStatus x.pidN x.slice r (if x.committed then 3 else 1) none) s
    let s := match x.wave with | some k => s.removeWave k | none => s
    let s := s.modPart x.pidN (fun q => { q with nbatch := q.nbatch + 1 })
    ({ s with batches := Tbl.erase s.batches b } : State).putLater

/-- A batch ends (R233): an error record of KIND 6 is written where the table marks it (class, reason, PC). Behind a `ccommit` that has issued and has not yet
been performed, it ends once that has: such an end counts as one after the `ccommit` (DESIGN CHOICE, log 19). -/
def endBatch (s : State) (b : Nat) (err : Option (Nat × Nat × Nat)) : State :=
  match Tbl.get? s.batches b with
  | none => s
  | some x =>
    let s := match err with
      | some (cls, reason, pc) =>
        (s.logPart x.pidN { src := 0x300 + x.slice, kind := 6, cls := cls, reason := reason, wb := x.method
                            aux := (pc + 2 ^ 64 - x.ent.code) % 2 ^ 32, addr := x.va }).1
      | none => s
    match x.commitIssued && !x.committed, x.wave with
    | true, some k => s.modWave k (fun w => { w with stat := .ending })
    | _, _ => s.closeBatch b

/-! Exceptions (R338 to R345). -/

/-- R342: the frame of a wave. -/
def frameVa (s : State) (k pidN : Nat) : Nat :=
  ((s.part pidN).tfbase + 64 * (64 * s.rankOf pidN (cidOf k) + wbOf k)) % 2 ^ 64

/-- R342: the 64 bytes of a frame. -/
def frameBytes (t : TrapRec) : List Byte :=
  leBytes 8 t.epc.toNat ++ leBytes 8 t.ipc.toNat ++ leBytes 1 t.cls ++ leBytes 1 t.deferred.toNat ++ leBytes 2 t.reason
    ++ leBytes 4 t.code.toNat ++ leBytes 12 t.mask.toNat ++ leBytes 4 0 ++ leBytes 8 (if t.cls = 6 then t.addr.toNat else 0)
    ++ leBytes 4 t.seq.toNat ++ leBytes 12 0

/-- R342, steps 3 and 4: the wave enters its handler. A trap ends a sleep (R88), a region (R381) and the latch (R56); the wave leaves state ready, which ends its
run of R274. Pages refused to the instruction whose turn a deferred fault takes stay refused to it (R319). -/
def enterHandler (s : State) (k : Nat) (t : TrapRec) : State :=
  s.modWave k (fun w =>
    { w with refusedHeld := if t.deferred && !w.refusedPages.isEmpty then some (w.pc, w.refusedPages) else none
             inHandler := true, pc := BitVec.ofNat 64 (s.part w.pidN).tvec, lclass := t.cls, stat := .ready, trapPend := none
             latch := none, region := none, restart := false, refusedPages := [], run := none, overdue := false })

/-- R343: a fatal trap: the record, the launch's status, and the end of the block's waves, after a dump where one is enabled (R385). -/
def fatalTrap (s : State) (k : Nat) (t : TrapRec) : State :=
  match s.wave k with
  | none => s
  | some w =>
    let s := (s.logPart w.pidN { src := cidOf k, kind := 1, cls := t.cls, reason := t.reason, wb := wbOf k, flags := 1
                                 aux := t.code.toNat, addr := t.ipc.toNat }).1
    let s := match s.block w.block with
      | some b => s.modLaunch b.launch (fun l => { l with status := 32 })
      | none => s
    let q := s.part w.pidN
    if q.dmen && !q.dmbusy && (s.block w.block).isSome then
      let ks := ((s.block w.block).map (·.waves)).getD []
      let s := s.modPart w.pidN (fun q => { q with dmbusy := true })
      let s := ks.foldl (fun s j => s.modWave j (fun x => { x.settle with stat := .dumping x.stateCode x.barCode, trapPend := none })) s
      s.modWave k (fun x => { x with trapPend := some t })
    else if (s.block w.block).isSome then s.killBlockWaves w.block
    else s.killWave k

/-- The store of the frame, as a `.g` store of the wave (R342): false where it is refused at the home. -/
def storeFrame (s : State) (k : Nat) (w : Wave) (t : TrapRec) (pl : Place) : State × Bool :=
  let acc : LaneAcc := { lane := 0, addr := s.frameVa k w.pidN, place := pl, n := 64, got := (frameBytes t).map some }
  match pl with
  | .dev a =>
    if s.admits w.pidN a 64 true then
      let op := s.nextId
      let s := { s with nextId := s.nextId + 1 }
      let s := (s.storeAll (cidOf k) w.pidN [acc]).1.askStore k op w.pidN [acc]
      (s.modWave k (fun w =>
        { w with pend := w.pend ++ [{ id := op, kind := .store [acc], ready := 0, long := true, flag := 0, writes := [], pc := t.ipc }] }), true)
    else (s.refuse w.pidN a, false)
  | pl => s.placeWrite w.pidN pl (frameBytes t)

/-- R342, R343: a trap is taken. In a combiner wave the batch ends (R233). A missing translation of the frame page
blocks the wave, and delivery goes on once the fault is resolved. -/
def deliverTrap (s : State) (k : Nat) (t : TrapRec) : State :=
  match s.wave k with
  | none => s
  | some w =>
    match w.batch with
    | some b => s.endBatch b (some (t.cls, t.reason, t.ipc.toNat))
    | none =>
      let s := s.setWave k w.settle
      let va := s.frameVa k w.pidN
      if (s.part w.pidN).tvec = 0 || w.inHandler || !canonical va || w.refusedPages.contains (va / 65536, PKind.write) then
        s.fatalTrap k t
      else match s.translate (cidOf k) w.pidN w.pasid va .write with
        | (s, .ok e) =>
          match s.storeFrame k w t (e.place (va % 2 ^ 57)) with
          | (s, true) => s.enterHandler k t
          | (s, false) => s.fatalTrap k t
        | (s, .notValid lvl) =>
          (s.faultRecord w.pidN w.pasid va .write lvl (cidOf k) 0 (lcCore (cidOf k))).modWave k
            (fun w => { w with stat := .trapWait, trapPend := some t })
        | (s, .hostAbsent _) => s.modWave k (fun w => { w with stat := .trapWait, trapPend := some t })
        | (s, _) => s.fatalTrap k t

end State

/-! Issue. -/

/-- What the effect of an instruction is. -/
structure Eff where
  st : State
  /-- register writes, made when the result is ready -/
  ws : List RegW := []
  /-- `fst` bits it raises -/
  fst : Word := 0
  kind : PendKind := .alu
  jump : Option DWord := none
  /-- nominal cycles until a long-latency operation may complete -/
  nominal : Nat := 1

/-- What the meaning of an executing instruction answers: an effect, a trap with nothing done but what its walks have left (R325), a wait with nothing done
(the state says what is waited for), or a mismatch of a protected wave (R379). -/
inductive Act where
  | ok (e : Eff)
  | trap (cls reason : Nat) (mask : Mask) (addr : DWord := 0) (code : Word := 0) (left : Option State := none)
  | wait (s : State)
  | mismatch

/-- Effects of an instruction that only writes registers. -/
def Act.writes (c : Ctx) (ws : List RegW) (fst : Word := 0) : Act := .ok { st := c.s, ws := ws, fst := fst }

/-- The lower of two reasons that fail (R59). -/
def firstReason : Option Nat → Option Nat → Option Nat
  | some a, some b => some (min a b)
  | some a, none => some a
  | none, b => b

/-- Instructions that a combiner wave may not execute (R230). -/
def notInCombiner : Instr → Bool
  | .cmb .. | .spawn .. | .exit .. | .sleep .. | .barArr .. | .barWait .. | .barSync .. | .barExp .. | .barTx .. | .barTest ..
  | .cpy .. | .cpytLd .. | .cpytSt .. | .cpyg .. | .cpys .. | .cred .. | .mlds .. | .mms .. | .mzero .. | .mdrain .. | .mldacc ..
  | .aalloc .. | .afree .. => true
  | _ => false

/-- Instructions of a combiner wave alone (R230). -/
def combinerOnly : Instr → Bool
  | .ccommit .. | .ccommitNw .. | .creply .. | .cend .. => true
  | _ => false

/-- Lane-level instructions that act with no acting lane (R73, R127). -/
def runsEmpty : Instr → Bool
  | .qany .. | .qall .. | .pcnt .. | .elect .. | .vrand .. => true
  | _ => false

/-- The order field of an engine command (R154). -/
def engOrd : Instr → Option EngOrd
  | .cpy _ _ _ _ _ _ o | .cpytLd _ _ _ _ _ o | .cpytSt _ _ _ _ _ o | .cpyg _ _ _ _ _ o | .cpys _ _ _ _ _ o
  | .cred _ _ _ _ _ _ o | .mlds _ _ _ _ _ _ o | .mms _ _ _ _ _ _ _ _ _ _ o | .mdrain _ _ _ _ _ _ _ _ o
  | .mldacc _ _ _ _ _ _ o => some o
  | _ => none

/-- Instructions that end a region (R381); `vrand` does under NMODE 0. -/
def endsRegion (w : Wave) : Instr → Bool
  | .fence _ k _ => k ≠ .acq
  | .barArr .. | .barSync .. | .vatom .. | .satom .. | .cmb .. | .spawn .. => true
  | .vrand .. => w.nmode = 0
  | i => match engOrd i with | some o => o.rel | none => false

/-- Branches that a trace records (R252). -/
def isBranch : Instr → Bool
  | .br .. | .bexz .. | .call .. | .brx .. | .ret .. => true
  | _ => false

/-- The mode in which a wave's next draw runs: an entry that the wave has logged already is read from the log (R127, R382). -/
def drawMode (w : Wave) : Nat := if w.nmode = 1 && w.draws.toNat < w.logged then 2 else w.nmode

/-- Lane accesses counted by a capture (R256): in a protected wave stores, atomics, combine requests and the log stores of `vrand` are made once for each pair
(R378, R379). The log accesses of `vrand` are loads and stores of the wave (R127). -/
def memReqs (w : Wave) (act : Mask) : Instr → Nat
  | .vld .. => maskCount act
  | .vst .. | .vatom .. | .cmb .. => maskCount (if w.prot then act &&& 0x555555555555555555555555 else act)
  | .vrand .. => if drawMode w = 2 then maskCount act else if drawMode w = 1 then maskCount (if w.prot then act &&& 0x555555555555555555555555 else act) else 0
  | .sld .. | .sst .. | .satom .. => 1
  | _ => 0

/-- The capture that an instruction opens (R255). -/
def opensCapture : Instr → Option Nat
  | .capst _ n => some n.toNat
  | _ => none

/-- R230, R233: what ends a batch at the issue of an instruction of its wave: class and reason of the record. A second `ccommit` is illegal;
for every other word of the list the table gives class 0 (DEDUCED, log 19). -/
def batchGate (s : State) (w : Wave) (i : Instr) : Option (Nat × Nat) :=
  match w.batch.bind (fun b => Tbl.get? s.batches b) with
  | none => none
  | some b =>
    match i with
    | .creply .. => if b.commitIssued then none else some (0, 1)
    | .cend .. => none
    | .ccommit .. => if b.commitIssued then some (2, 9) else none
    | .ccommitNw .. => if b.commitIssued then some (2, 9) else none
    | _ => if b.commitIssued then some (0, 2) else none

/-- The trap record of a precise trap of the wave's present instruction (R342). -/
def preciseTrap (w : Wave) (cls reason : Nat) (mask : Mask) (addr : DWord := 0) (code : Word := 0) : TrapRec :=
  { cls := cls, reason := reason, mask := mask, addr := addr, code := code, ipc := w.pc
    epc := if cls = 10 then w.pc + 12 else w.pc }

/-- The pages that stay refused to the instruction at an address, once the handler that came before it has returned (R319). -/
def Wave.heldPages (w : Wave) (pc : DWord) : List (Nat × PKind) :=
  match w.refusedHeld with
  | some (a, l) => if !w.inHandler && a = pc then l else []
  | none => []

namespace State

/-- Counters of the captures that were open when a word issued (R256); a `capst` that executes does not count in the capture that it opens. -/
def countCaptures (s : State) (k : Nat) (w : Wave) (opened : Option Nat) (beats reqs : Nat) : State :=
  s.modWave k (fun x => { x with caps := x.caps.map (fun e =>
    if Tbl.has w.caps e.1 && opened ≠ some e.1 then
      (e.1, { e.2 with instr := e.2.instr + 1, beats := e.2.beats + beats, memreq := e.2.memreq + reqs })
    else e) })

/-- A word that issues and does nothing else: its captures count it (R256), and the times of R52 and R274 run from it. -/
def issueAlone (s : State) (k : Nat) (w : Wave) : State :=
  let now := s.cyc (cidOf k)
  (s.countCaptures k w none 0 0).modWave k (fun x => { x with lastIssue := some now, yld := false, run := none, overdue := false })

/-- R339: a word issues, and all that it does is to trap. -/
def trapIssue (s : State) (k : Nat) (w : Wave) (t : TrapRec) : State := (s.issueAlone k w).deliverTrap k t

/-- R74: uncorrectable errors that an instruction finds in values it does not use: the poison bits are set and an error record is written. -/
def noteErrs (s : State) (k : Nat) (w : Wave) (xs : List RegAt) : State :=
  if xs.isEmpty then s
  else
    let s := s.modWave k (fun x => { xs.foldl Wave.poison x with errs := x.errs.filter (fun e => !xs.contains e.1) })
    (s.logPart w.pidN { src := cidOf k, kind := 2, wb := wbOf k, addr := w.pc.toNat }).1

/-- R382, R383: a mismatch restarts the region, or escalates. -/
def mismatch (s : State) (k : Nat) (w : Wave) : State :=
  match w.region with
  | none => s.deliverTrap k (preciseTrap w 11 2 allLanes)
  | some r =>
    if r.restarts < 3 then s.modWave k (fun w => { w with restart := true })
    else s.deliverTrap k { preciseTrap w 11 1 allLanes with epc := r.entry }

/-- The target that a BR packet carries (R252). -/
def packetTarget (i : Instr) (e : Eff) : Option DWord :=
  match i with | .brx .. | .ret .. => e.jump | _ => none

/-- Results of fixed latency (R53). -/
def isFixed (i : Instr) : Bool := i.lat == .fixed4 || i.lat == .fixed8

/-- The packets of an issue (R252): BR for a branch, MASK for writes of fixed latency to s0 to s2. -/
def issuePackets (c : Ctx) (i : Instr) (e : Eff) : State :=
  let s := if isBranch i then e.st.brPacket c.k e.jump.isSome (packetTarget i e) else e.st
  if isFixed i then s.maskPacket c.k e.ws else s

/-- R53, R57: the cycles until a result may be written; for a long-latency operation the nominal ones (log 3). -/
def lagOf (i : Instr) (nominal : Nat) : Nat :=
  match i.lat with | .fixed4 => 4 | .fixed8 => 8 | .long => nominal | .none => 1

/-- What an executing word leaves pending (R53, R55). With no acting lane the flag of a lane-level word falls at the next cycle, by an operation of its own. -/
def newPends (c : Ctx) (i : Instr) (e : Eff) (now nid : Nat) : List Pend :=
  let set := c.h.set.toNat
  let alone := c.act = 0
  let p : Pend := { id := c.id, kind := e.kind, ready := now + lagOf i e.nominal, long := i.lat == .long, flag := if alone then 0 else set
                    writes := e.ws, fst := e.fst, pc := c.w.pc, fh := c.h.fh.toNat }
  (if (p.long && !alone) || !e.ws.isEmpty || e.fst ≠ 0 || p.flag ≠ 0 then [p] else [])
    ++ (if alone && set ≠ 0 then [{ id := nid, kind := .alu, ready := now + 1, long := false, flag := set, writes := [] }] else [])

/-- The wave after an issue: the pc, the times of R52 and R56 (of a suppressed wave-level word STALL and WAIT alone count, R71), and for an executing word the mask that its writes govern (R35, R53), its pending result and its flag. -/
def afterIssue (c : Ctx) (i : Instr) (exec : Bool) (e : Eff) (now nid : Nat) (w : Wave) : Wave :=
  { w with pc := e.jump.getD (w.pc + 12), lastIssue := some now, yld := c.h.yld && (exec || c.lane), run := none, overdue := false
           refusedPages := w.heldPages (e.jump.getD (w.pc + 12)), refusedHeld := if w.inHandler then w.refusedHeld else none
           ahead := w.ahead.filter (fun a => a.1 ≠ w.pc.toNat)
           latch := (if c.h.fh ≠ 0 && isFixed i && !e.ws.isEmpty then none
                     else w.latch.bind (fun l => if l.left ≤ 1 then none else some { l with left := l.left - 1 }))
           emask := if exec && isFixed i then (w.govern e.ws).emask else w.emask
           region := if exec && endsRegion c.w i then none else w.region
           pend := if exec then w.pend ++ newPends c i e now nid else w.pend
           f := if exec then (w.flagUp c.h.set.toNat).f else w.f }

/-- The time until which the quad is busy (R272). -/
def busyUntil (k til : Nat) (x : Core) : Core :=
  let q := Tbl.getD x.quads (quadOf k) {}
  { x with quads := Tbl.set x.quads (quadOf k) { q with busy := til } }

/-- What every instruction that issues does to its wave, beside its effect: the pc, the times of R52 and R56, the
packets of R252, the counters of R256, the datapath of R272, the flag and the pending result of R53 and R55. -/
def finish (c : Ctx) (i : Instr) (exec : Bool) (e : Eff) : State :=
  let now := e.st.cyc (cidOf c.k)
  let beats := if exec then beatsOf i c.act else 0
  let s := issuePackets c i e
  let s := s.countCaptures c.k c.w (if exec then opensCapture i else none) beats (if exec then memReqs c.w c.act i else 0)
  let s := if beats = 0 then s else s.modCore (cidOf c.k) (busyUntil c.k (now + beats))
  ({ s with nextId := s.nextId + 1 } : State).modWave c.k (afterIssue c i exec e now s.nextId)

/-- A lane-level instruction with no acting lane (R55, R73). -/
def finishEmpty (c : Ctx) (i : Instr) : State :=
  let s := State.finish c i false { st := c.s }
  let set := c.h.set.toNat
  if set = 0 then s
  else s.modWave c.k (fun w => { w.flagUp set with pend := w.pend ++
    [{ id := c.id, kind := .alu, ready := s.cyc (cidOf c.k) + 1, long := false, flag := set, writes := [] }] })

/-- The effect of an executing instruction, or the trap of the lowest class (R339). -/
def perform (c : Ctx) (i : Instr) (body : Ctx → Act) : State :=
  let poison := poisonOf c.w c.act i
  let a := body c
  match a with
  | .trap cls reason mask addr code left =>
    if cls < 4 || (poison = 0 && cls ≠ 4) then (left.getD c.s).trapIssue c.k c.w (preciseTrap c.w cls reason mask addr code)
    else c.s.trapIssue c.k c.w (preciseTrap c.w 4 0 (if cls = 4 then poison ||| mask else poison))
  | a =>
    if poison ≠ 0 then c.s.trapIssue c.k c.w (preciseTrap c.w 4 0 poison)
    else match a with
      | .ok e =>
        let hold := holdAfter c (i.operands.map (·.2))
        let st := (e.st.noteErrs c.k c.w (quietErrs c.w c.act i)).modWave c.k (fun w => { w with hold := hold })
        State.finish c i true { e with st := st }
      | .wait s => s
      | .mismatch => (c.s.issueAlone c.k c.w).mismatch c.k c.w
      | .trap .. => c.s

/-- R55: the flag that SET names is full, and the word would raise it: a suppressed wave-level word changes no flag (R71). -/
def setHeld (c : Ctx) : Bool :=
  c.h.set ≠ 0 && c.w.flag c.h.set.toNat = 63 && (c.lane || guardWave c)

/-- The path of an instruction word that issues in a wave (R55, R59, R71 to R74, R233). `dyn` gives the reason of an
instruction-specific limit that depends on the wave and its owner (R59, reason 9). -/
def issue (s : State) (k : Nat) (w : Wave) (i : Instr) (h : Hints) (lane : Bool) (dyn : Ctx → Option Nat) (body : Ctx → Act) : State :=
  let u := s
  let w := { w with waitFlag := none, yieldTil := none }
  let s := { s.setWave k w with nextId := s.nextId + 1, freeCtr := s.freeCtr + 1 }
  let c : Ctx := { s := s, k := k, w := w, h := h, act := 0, lane := lane, id := s.nextId - 1 }
  if setHeld c then u
  else
    let comb := if w.batch.isSome then notInCombiner i else combinerOnly i
    match firstReason (i.illegal w.vregs w.sregs) (if comb then some 9 else dyn c) with
    | some r => s.trapIssue k w (preciseTrap w 2 r allLanes)
    | none =>
      match batchGate s w i with
      | some r => s.endBatch (w.batch.getD 0) (some (r.1, r.2, w.pc.toNat))
      | none =>
        let gp := guardPoison w h lane
        if gp ≠ 0 then s.trapIssue k w (preciseTrap w 4 0 gp)
        else if lane then
          let c := { c with act := guardLanes c }
          if c.act = 0 && !runsEmpty i then State.finishEmpty c i else State.perform c i body
        else if guardWave c then State.perform { c with act := allLanes } i body
        else State.finish c i false { st := s }

end State

/-- The outcome of an instruction word in the wave that has been chosen (R273). -/
def issued (i : Instr) (h : Hints) (lane : Bool) (dyn : Ctx → Option Nat) (body : Ctx → Act) (s : State) :
    Host.Outcome State Fault Refusal :=
  match s.cur with
  | none => .fault .noWave
  | some k =>
    match s.wave k with
    | none => .fault .noWave
    | some w => .next (State.issue { s with cur := none } k w i h lane dyn body)

/-- A wave-level instruction (R71). -/
def waveLevel (i : Instr) (h : Hints) (body : Ctx → Act) (s : State) : Host.Outcome State Fault Refusal :=
  issued i h false (fun _ => none) body s

/-- A lane-level instruction (R70). -/
def laneLevel (i : Instr) (h : Hints) (body : Ctx → Act) (s : State) : Host.Outcome State Fault Refusal :=
  issued i h true (fun _ => none) body s

end Sys2Proof.Machine
end

