-- ==== Sys2Proof/Machine/Scalar.lean ====
section
/-! DEFINITION. Scalar integer instructions (R78 to R84). -/

namespace Sys2Proof.Machine

/-- Write a scalar destination of a type (R48, R78): nothing for literal zero. -/
def dstS (d : Opd) (wide : Bool) (x : Nat) : List RegW :=
  match d with
  | .s n => RegW.s n.val (BitVec.ofNat 32 x) :: (if wide then [RegW.s (n.val + 1) (BitVec.ofNat 32 (x / 2 ^ 32))] else [])
  | .fst => [RegW.fst (BitVec.ofNat 32 x)]
  | _ => []

/-- A value modulo 2^N as an unsigned number (R78). -/
def wrap (n : Nat) (x : Int) : Nat := (x % (2 ^ n : Int)).toNat

/-- The exact value of a pattern under a type's signedness. -/
def asInt (t : Ty) (x : Nat) : Int := if t.isSigned then sextNat t.bits x else x

namespace Ctx

/-- An operand of a wave-level instruction as an unsigned number of its type's width. -/
def wnat (c : Ctx) (t : Ty) (field : Nat) (o : Opd) (os : List Opd) : Nat := (c.valT t field o 0 os).toNat

end Ctx

/-- A two-operand scalar instruction on exact integers (R79). -/
def scalar2 (t : Ty) (d a b : Opd) (f : Int → Int → Int) (c : Ctx) : Act :=
  Act.writes c (dstS d t.wide (wrap t.bits (f (asInt t (c.wnat t 0 a [a, b])) (asInt t (c.wnat t 1 b [a, b])))))

/-- A two-operand scalar instruction on bit patterns (R79). -/
def scalarBits (t : Ty) (d a b : Opd) (f : Nat → Nat → Nat) (c : Ctx) : Act :=
  Act.writes c (dstS d t.wide (f (c.wnat t 0 a [a, b]) (c.wnat t 1 b [a, b]) % 2 ^ t.bits))

/-- Shifts (R79): the amount is 32 bits whatever the type. -/
def scalarShift (t : Ty) (d a b : Opd) (f : Nat → Nat → Nat) (c : Ctx) : Act :=
  Act.writes c (dstS d t.wide (f (c.wnat t 0 a [a, b]) (c.val 1 b 0 [a, b]).toNat % 2 ^ t.bits))

def shlBits (n x m : Nat) : Nat := if n ≤ m then 0 else x * 2 ^ m % 2 ^ n
def shrBits (n x m : Nat) : Nat := if n ≤ m then 0 else x / 2 ^ m
/-- Arithmetic shift right; m ≥ N gives the sign in every bit. -/
def sraBits (n x m : Nat) : Nat := wrap n (sextNat n x / (2 ^ min m n : Int))

/-- Quotient and remainder (R80): both results and whether DZ is raised. -/
def divRem (t : Ty) (a b : Nat) : Nat × Nat × Bool :=
  let n := t.bits
  if b = 0 then (2 ^ n - 1, a, true)
  else
    let q := (asInt t a).tdiv (asInt t b)
    (wrap n q, wrap n (asInt t a - asInt t b * q), false)

/-- Nominal completion of a division (R80). -/
def divNominal (t : Ty) : Nat := if t.wide then 36 else 20

/-- The field of R81: offset o' and width w'. -/
def fieldOf (f : Nat) : Nat × Nat :=
  let o := min (f % 256) 32
  (o, min (f / 256 % 256) (32 - o))

/-- R81. -/
def bfe (signed : Bool) (a f : Nat) : Nat :=
  let (o, w) := fieldOf f
  let x := a / 2 ^ o % 2 ^ w
  if signed && w ≠ 0 then wrap 32 (sextNat w x) else x

def bfi (a b f : Nat) : Nat :=
  let (o, w) := fieldOf f
  let msk := (2 ^ w - 1) * 2 ^ o % 2 ^ 32
  (a &&& (2 ^ 32 - 1 - msk)) ||| (b * 2 ^ o % 2 ^ 32 &&& msk)

/-- Set bits, leading zeros and the lowest set bit of an n-bit number. -/
def popc (n x : Nat) : Nat := ((List.range n).filter (fun i => x.testBit i)).length
def clz (n x : Nat) : Nat := ((List.range n).reverse.takeWhile (fun i => !x.testBit i)).length
def ffs (n x : Nat) : Nat := if x = 0 then 2 ^ 32 - 1 else ((List.range n).takeWhile (fun i => !x.testBit i)).length

/-- A count of a scalar's bits: the destination is 32-bit (R79). -/
def scalarCount (t : Ty) (d a : Opd) (f : Nat → Nat → Nat) (c : Ctx) : Act :=
  Act.writes c (dstS d false (f t.bits (c.wnat t 0 a [a])))

/-- Condition codes of R84 and R112. -/
def condOf (cond : Nat) (a b : Int) : Bool :=
  match cond with
  | 0 => a = b
  | 1 => a ≠ b
  | 2 => a < b
  | 3 => a ≤ b
  | 4 => b < a
  | _ => b ≤ a

/-- The scalar pattern of imm20 sign-extended. -/
def sext20 (imm : BitVec 20) : Word := imm.signExtend 32

/-- The register that `smovih` and `vmovih` read and write (R79). -/
def movih (old : Word) (imm : BitVec 20) : Word := (old &&& 0xFFF) ||| (imm.setWidth 32 <<< 12)

/-! The instructions. -/

def execNop (h : Hints) (s : State) : Host.Outcome State Fault Refusal := waveLevel (.nop h) h (fun c => Act.writes c []) s
def execSadd (h : Hints) (t : Ty) (d a b : Opd) (s : State) : Host.Outcome State Fault Refusal :=
  waveLevel (.sadd h t d a b) h (scalar2 t d a b (· + ·)) s
/-- R79, R82. -/
def execSaddc (h : Hints) (d a b : Opd) (k : BitVec 4) (s : State) : Host.Outcome State Fault Refusal :=
  waveLevel (.saddc h d a b k) h (fun c =>
    let t := c.wnat .n32 0 a [a, b] + c.wnat .n32 1 b [a, b] + (c.rdQ 2 k.toNat).toNat
    Act.writes c (dstS d false (t % 2 ^ 32) ++ [RegW.q k.toNat (decide (2 ^ 32 ≤ t))])) s
def execSsub (h : Hints) (t : Ty) (d a b : Opd) (s : State) : Host.Outcome State Fault Refusal :=
  waveLevel (.ssub h t d a b) h (scalar2 t d a b (· - ·)) s
def execSmul (h : Hints) (t : Ty) (d a b : Opd) (s : State) : Host.Outcome State Fault Refusal :=
  waveLevel (.smul h t d a b) h (scalar2 t d a b (· * ·)) s
def execSmulh (h : Hints) (t : Ty) (d a b : Opd) (s : State) : Host.Outcome State Fault Refusal :=
  waveLevel (.smulh h t d a b) h (scalar2 t d a b (fun x y => x * y / 2 ^ 32)) s
/-- R80. -/
def execSdiv (h : Hints) (t : Ty) (d a b : Opd) (s : State) : Host.Outcome State Fault Refusal :=
  waveLevel (.sdiv h t d a b) h (fun c =>
    let r := divRem t (c.wnat t 0 a [a, b]) (c.wnat t 1 b [a, b])
    .ok { st := c.s, ws := dstS d t.wide r.1, fst := if r.2.2 then fstDZ else 0, nominal := divNominal t }) s
def execSrem (h : Hints) (t : Ty) (d a b : Opd) (s : State) : Host.Outcome State Fault Refusal :=
  waveLevel (.srem h t d a b) h (fun c =>
    let r := divRem t (c.wnat t 0 a [a, b]) (c.wnat t 1 b [a, b])
    .ok { st := c.s, ws := dstS d t.wide r.2.1, fst := if r.2.2 then fstDZ else 0, nominal := divNominal t }) s
def execSand (h : Hints) (t : Ty) (d a b : Opd) (s : State) : Host.Outcome State Fault Refusal :=
  waveLevel (.sand h t d a b) h (scalarBits t d a b (· &&& ·)) s
def execSor (h : Hints) (t : Ty) (d a b : Opd) (s : State) : Host.Outcome State Fault Refusal :=
  waveLevel (.sor h t d a b) h (scalarBits t d a b (· ||| ·)) s
def execSxor (h : Hints) (t : Ty) (d a b : Opd) (s : State) : Host.Outcome State Fault Refusal :=
  waveLevel (.sxor h t d a b) h (scalarBits t d a b (· ^^^ ·)) s
def execSandn (h : Hints) (t : Ty) (d a b : Opd) (s : State) : Host.Outcome State Fault Refusal :=
  waveLevel (.sandn h t d a b) h (scalarBits t d a b (fun x y => x &&& (2 ^ t.bits - 1 - y))) s
def execSshl (h : Hints) (t : Ty) (d a b : Opd) (s : State) : Host.Outcome State Fault Refusal :=
  waveLevel (.sshl h t d a b) h (scalarShift t d a b (shlBits t.bits)) s
def execSshr (h : Hints) (t : Ty) (d a b : Opd) (s : State) : Host.Outcome State Fault Refusal :=
  waveLevel (.sshr h t d a b) h (scalarShift t d a b (shrBits t.bits)) s
def execSsra (h : Hints) (t : Ty) (d a b : Opd) (s : State) : Host.Outcome State Fault Refusal :=
  waveLevel (.ssra h t d a b) h (scalarShift t d a b (sraBits t.bits)) s
def execSmin (h : Hints) (t : Ty) (d a b : Opd) (s : State) : Host.Outcome State Fault Refusal :=
  waveLevel (.smin h t d a b) h (scalar2 t d a b min) s
def execSmax (h : Hints) (t : Ty) (d a b : Opd) (s : State) : Host.Outcome State Fault Refusal :=
  waveLevel (.smax h t d a b) h (scalar2 t d a b max) s
def execSabs (h : Hints) (t : Ty) (d a : Opd) (s : State) : Host.Outcome State Fault Refusal :=
  waveLevel (.sabs h t d a) h (fun c =>
    Act.writes c (dstS d t.wide (wrap t.bits ((asInt t (c.wnat t 0 a [a])).natAbs : Int)))) s
def execSbfe (h : Hints) (t : Ty) (d a b : Opd) (s : State) : Host.Outcome State Fault Refusal :=
  waveLevel (.sbfe h t d a b) h (scalarBits .b32 d a b (bfe t.isSigned)) s
def execSbfi (h : Hints) (d a b f : Opd) (s : State) : Host.Outcome State Fault Refusal :=
  waveLevel (.sbfi h d a b f) h (fun c =>
    let os := [a, b, f]
    Act.writes c (dstS d false (bfi (c.wnat .b32 0 a os) (c.wnat .b32 1 b os) (c.wnat .b32 2 f os)))) s
def execSpopc (h : Hints) (t : Ty) (d a : Opd) (s : State) : Host.Outcome State Fault Refusal :=
  waveLevel (.spopc h t d a) h (scalarCount t d a popc) s
def execSclz (h : Hints) (t : Ty) (d a : Opd) (s : State) : Host.Outcome State Fault Refusal :=
  waveLevel (.sclz h t d a) h (scalarCount t d a clz) s
def execSffs (h : Hints) (t : Ty) (d a : Opd) (s : State) : Host.Outcome State Fault Refusal :=
  waveLevel (.sffs h t d a) h (scalarCount t d a ffs) s
def execSmov (h : Hints) (t : Ty) (d a : Opd) (s : State) : Host.Outcome State Fault Refusal :=
  waveLevel (.smov h t d a) h (fun c => Act.writes c (dstS d t.wide (c.wnat t 0 a [a]))) s
def execSmovil (h : Hints) (d : Opd) (imm : BitVec 20) (s : State) : Host.Outcome State Fault Refusal :=
  waveLevel (.smovil h d imm) h (fun c => Act.writes c (dstS d false (sext20 imm).toNat)) s
def execSmovih (h : Hints) (d : Opd) (imm : BitVec 20) (s : State) : Host.Outcome State Fault Refusal :=
  waveLevel (.smovih h d imm) h (fun c => Act.writes c (dstS d false (movih (c.val 0 d 0 [d]) imm).toNat)) s
def execSsel (h : Hints) (t : Ty) (d a b : Opd) (k : BitVec 4) (s : State) : Host.Outcome State Fault Refusal :=
  waveLevel (.ssel h t d a b k) h (fun c =>
    Act.writes c (dstS d t.wide (if c.rdQ 2 k.toNat then c.wnat t 0 a [a, b] else c.wnat t 1 b [a, b]))) s
/-- R75, R84. -/
def execScmp (h : Hints) (ty : BitVec 2) (cond : BitVec 3) (pr : PairF) (a b : Opd) (s : State) : Host.Outcome State Fault Refusal :=
  waveLevel (.scmp h ty cond pr a b) h (fun c =>
    let t := Ty.ofCode (BitVec.ofNat 4 ty.toNat)
    Act.writes c (pairWave c pr (condOf cond.toNat (asInt t (c.wnat t 0 a [a, b])) (asInt t (c.wnat t 1 b [a, b]))))) s

end Sys2Proof.Machine
end

