-- ==== Sys2Proof/Machine/Pred.lean ====
section
/-! DEFINITION. Predicate and mask instructions (R85, R86). -/

namespace Sys2Proof.Machine

/-- The even and the odd physical lanes (R377). -/
def evenLanes : Mask := maskOf (fun i => i % 2 = 0)
def oddLanes : Mask := maskOf (fun i => i % 2 = 1)

/-- R378: a value gathered over the acting lanes; in a protected wave over the even and the odd lanes, which must agree. -/
def gather {α : Type} [DecidableEq α] (c : Ctx) (f : Mask → α) : Option α :=
  if c.w.prot then
    let e := f (c.act &&& evenLanes)
    if e = f (c.act &&& oddLanes) then some e else none
  else some (f c.act)

/-- A gathered value written, or a mismatch (R379). -/
def gatherWrite {α : Type} [DecidableEq α] (c : Ctx) (f : Mask → α) (ws : α → List RegW) : Act :=
  match gather c f with
  | some x => Act.writes c (ws x)
  | none => .mismatch

/-- Lanes of a mask where a p register is set. -/
def pAnd (c : Ctx) (k : Nat) (m : Mask) : Mask := maskOf (fun i => m.getLsbD i && c.rdP 1 k i)

/-- The word of a mask that scalar d + j takes in `pget.p` (R85). -/
def maskWord (m : Mask) (j : Nat) : Word := m.extractLsb' (32 * j) 32

/-- R85. -/
def execPgetP (h : Hints) (d : Opd) (k : BitVec 4) (s : State) : Host.Outcome State Fault Refusal :=
  waveLevel (.pgetP h d k) h (fun c =>
    let m := pAnd c k.toNat allLanes
    Act.writes c (match d with
      | .s n => (List.range 3).map (fun j => RegW.s (n.val + j) (maskWord m j))
      | _ => [])) s

def execPgetQ (h : Hints) (d : Opd) (s : State) : Host.Outcome State Fault Refusal :=
  waveLevel (.pgetQ h d) h (fun c =>
    Act.writes c (dstS d false ((List.range 16).map (fun j => if c.rdQ 1 j then 2 ^ j else 0)).sum)) s

def execPputP (h : Hints) (k : BitVec 4) (a : Opd) (s : State) : Host.Outcome State Fault Refusal :=
  waveLevel (.pputP h k a) h (fun c =>
    Act.writes c [RegW.p k.toNat allLanes (maskOfScalars (c.valN 0 a 0) (c.valN 0 a 1) (c.valN 0 a 2))]) s

def execPputQ (h : Hints) (a : Opd) (s : State) : Host.Outcome State Fault Refusal :=
  waveLevel (.pputQ h a) h (fun c =>
    let x := c.val 0 a 0 [a]
    Act.writes c ((List.range 15).map (fun j => RegW.q (j + 1) (x.getLsbD (j + 1))))) s

def execQany (h : Hints) (d k : BitVec 4) (s : State) : Host.Outcome State Fault Refusal :=
  laneLevel (.qany h d k) h (fun c => gatherWrite c (fun m => pAnd c k.toNat m != 0) (fun b => [RegW.q d.toNat b])) s

def execQall (h : Hints) (d k : BitVec 4) (s : State) : Host.Outcome State Fault Refusal :=
  laneLevel (.qall h d k) h (fun c => gatherWrite c (fun m => pAnd c k.toNat m == m) (fun b => [RegW.q d.toNat b])) s

def execPcnt (h : Hints) (d : Opd) (k : BitVec 4) (s : State) : Host.Outcome State Fault Refusal :=
  laneLevel (.pcnt h d k) h (fun c => gatherWrite c (fun m => maskCount (pAnd c k.toNat m)) (fun n => dstS d false n)) s

/-- R85; in a protected wave both lanes of the lowest acting pair (R378). -/
def execElect (h : Hints) (d : BitVec 4) (s : State) : Host.Outcome State Fault Refusal :=
  laneLevel (.elect h d) h (fun c =>
    let m := match (lanesOf c.act).head? with
      | some l => maskOf (fun i => if c.w.prot then i / 2 = l / 2 else i = l)
      | none => 0
    Act.writes c [RegW.p d.toNat allLanes m]) s

/-- R85, R86. -/
def execSetpl (h : Hints) (a : Opd) (s : State) : Host.Outcome State Fault Refusal :=
  waveLevel (.setpl h a) h (fun c => Act.writes c [RegW.plive (c.val 0 a 0 [a])]) s

def execGetpl (h : Hints) (d : Opd) (s : State) : Host.Outcome State Fault Refusal :=
  waveLevel (.getpl h d) h (fun c => Act.writes c (dstS d false (c.rdPlive 0).toNat)) s

def execPlop (h : Hints) (t : BitVec 8) (d a b e : BitVec 4) (s : State) : Host.Outcome State Fault Refusal :=
  laneLevel (.plop h t d a b e) h (fun c =>
    Act.writes c [RegW.p d.toNat c.act
      (maskOf (fun i => c.act.getLsbD i && lutAt t (c.rdP 0 a.toNat i) (c.rdP 1 b.toNat i) (c.rdP 2 e.toNat i)))]) s

def execQlop (h : Hints) (t : BitVec 8) (d a b e : BitVec 4) (s : State) : Host.Outcome State Fault Refusal :=
  waveLevel (.qlop h t d a b e) h (fun c =>
    Act.writes c [RegW.q d.toNat (lutAt t (c.rdQ 0 a.toNat) (c.rdQ 1 b.toNat) (c.rdQ 2 e.toNat))]) s

end Sys2Proof.Machine
end

