-- ==== Sys2Proof/Machine/VecInt.lean ====
section
/-! DEFINITION. Vector integer, bit, compare, select and move instructions (R107 to R114). -/

namespace Sys2Proof.Machine

/-- Write a lane-level destination (R48, R72): the acting lanes of a vector register or pair; nothing for literal zero. -/
def dstV (act : Mask) (d : Opd) (wide : Bool) (f : Nat → Nat) : List RegW :=
  match d with
  | .v n =>
    let xs := (lanesOf act).map (fun i => (i, f i))
    RegW.v n.val (xs.map (fun e => (e.1, BitVec.ofNat 32 e.2)))
      :: (if wide then [RegW.v (n.val + 1) (xs.map (fun e => (e.1, BitVec.ofNat 32 (e.2 / 2 ^ 32))))] else [])
  | _ => []

/-- Apply a function to each element of packed values (R100, R107): width n, in words of `bits` bits. -/
def packed2 (bits n : Nat) (f : Nat → Nat → Nat) (a b : Nat) : Nat :=
  ((List.range (bits / n)).map (fun e => f (a / 2 ^ (n * e) % 2 ^ n) (b / 2 ^ (n * e) % 2 ^ n) % 2 ^ n * 2 ^ (n * e))).sum

/-- Least and greatest values of an integer type (R90). -/
def Ty.least (t : Ty) : Int := if t.isSigned then -(2 ^ (t.bits - 1)) else 0
def Ty.greatest (t : Ty) : Int := if t.isSigned then 2 ^ (t.bits - 1) - 1 else 2 ^ t.bits - 1

/-- An exact result narrowed to an element: wrapped or saturated (R107). -/
def narrow (t : Ty) (sat : Bool) (x : Int) : Nat :=
  wrap t.bits (if sat then max (Ty.least t) (min (Ty.greatest t) x) else x)

/-- The bits of an operand of a type: 64 for a pair. -/
def opBits (t : Ty) : Nat := if t.wide then 64 else 32

/-- An operand of a lane as an unsigned number. -/
def Ctx.lnat (c : Ctx) (t : Ty) (field : Nat) (o : Opd) (lane : Nat) (os : List Opd) : Nat := (c.valT t field o lane os).toNat

/-- A two-operand element instruction (R108). -/
def vector2 (t : Ty) (sat : Bool) (d a b : Opd) (f : Int → Int → Int) (c : Ctx) : Act :=
  Act.writes c (dstV c.act d t.wide (fun i =>
    packed2 (opBits t) t.bits (fun x y => narrow t sat (f (asInt t x) (asInt t y))) (c.lnat t 0 a i [a, b]) (c.lnat t 1 b i [a, b])))

/-- A lane-level instruction on three 32-bit patterns. -/
def vector3 (d a b e : Opd) (f : Nat → Nat → Nat → Nat) (c : Ctx) : Act :=
  let os := [a, b, e]
  Act.writes c (dstV c.act d false (fun i => f (c.lnat .b32 0 a i os) (c.lnat .b32 1 b i os) (c.lnat .b32 2 e i os) % 2 ^ 32))

/-- A lane-level shift (R111): the amount is 32-bit. -/
def vectorShift (t : Ty) (d a b : Opd) (f : Nat → Nat → Nat) (c : Ctx) : Act :=
  Act.writes c (dstV c.act d t.wide (fun i => f (c.lnat t 0 a i [a, b]) (c.val 1 b i [a, b]).toNat))

/-- A lane-level instruction of one operand with a 32-bit result. -/
def vector1 (t : Ty) (d a : Opd) (f : Nat → Nat) (c : Ctx) : Act :=
  Act.writes c (dstV c.act d false (fun i => f (c.lnat t 0 a i [a])))

/-- R110: the exact sum of four products and the addend. -/
def dot4 (t : Ty) (a b e : Nat) : Int :=
  (List.range 4).foldl (fun s j => s + asInt t (a / 2 ^ (8 * j) % 256) * asInt t (b / 2 ^ (8 * j) % 256))
    (asInt (if t.isSigned then .i32 else .n32) e)

/-- R111: funnel shifts. -/
def funnelR (a b m : Nat) : Nat := (a * 2 ^ 32 + b) / 2 ^ min m 64 % 2 ^ 32
def funnelL (a b m : Nat) : Nat := (a * 2 ^ 32 + b) * 2 ^ min m 64 / 2 ^ 32 % 2 ^ 32

/-- R111: bits in reverse order. -/
def brev (x : Nat) : Nat := ((List.range 32).map (fun j => if x.testBit (31 - j) then 2 ^ j else 0)).sum

/-- R114. -/
def lop3 (t : BitVec 8) (a b e : Nat) : Nat :=
  ((List.range 32).map (fun j => if lutAt t (a.testBit j) (b.testBit j) (e.testBit j) then 2 ^ j else 0)).sum

/-- R109: sum or difference with a carry, and the carry out. -/
def carryAdd (a b k : Nat) : Nat × Bool := ((a + b + k) % 2 ^ 32, decide (2 ^ 32 ≤ a + b + k))
def borrowSub (a b k : Nat) : Nat × Bool := (wrap 32 ((a : Int) - b - k), decide (a < b + k))

/-- R109: d and the p register are written together. -/
def carried (d a b : Opd) (k : Nat) (f : Nat → Nat → Nat → Nat × Bool) (c : Ctx) : Act :=
  let r := fun i => f (c.lnat .n32 0 a i [a, b]) (c.lnat .n32 1 b i [a, b]) (c.rdP 2 k i).toNat
  Act.writes c (dstV c.act d false (fun i => (r i).1) ++ [RegW.p k c.act (maskOf (fun i => c.act.getLsbD i && (r i).2))])

/-! The instructions. -/

def execVadd (h : Hints) (t : Ty) (sat : Bool) (d a b : Opd) (s : State) : Host.Outcome State Fault Refusal :=
  laneLevel (.vadd h t sat d a b) h (vector2 t sat d a b (· + ·)) s
def execVsub (h : Hints) (t : Ty) (sat : Bool) (d a b : Opd) (s : State) : Host.Outcome State Fault Refusal :=
  laneLevel (.vsub h t sat d a b) h (vector2 t sat d a b (· - ·)) s
def execVaddc (h : Hints) (d a b : Opd) (k : BitVec 4) (s : State) : Host.Outcome State Fault Refusal :=
  laneLevel (.vaddc h d a b k) h (carried d a b k.toNat carryAdd) s
def execVsubb (h : Hints) (d a b : Opd) (k : BitVec 4) (s : State) : Host.Outcome State Fault Refusal :=
  laneLevel (.vsubb h d a b k) h (carried d a b k.toNat borrowSub) s
def execVmul (h : Hints) (t : Ty) (d a b : Opd) (s : State) : Host.Outcome State Fault Refusal :=
  laneLevel (.vmul h t d a b) h (vector2 t false d a b (· * ·)) s
def execVmulh (h : Hints) (t : Ty) (d a b : Opd) (s : State) : Host.Outcome State Fault Refusal :=
  laneLevel (.vmulh h t d a b) h (vector2 t false d a b (fun x y => x * y / 2 ^ 32)) s
def execVmad (h : Hints) (t : Ty) (d a b e : Opd) (s : State) : Host.Outcome State Fault Refusal :=
  laneLevel (.vmad h t d a b e) h (vector3 d a b e (fun x y z => x * y + z)) s
def execVdot4 (h : Hints) (t : Ty) (sat : Bool) (d a b e : Opd) (s : State) : Host.Outcome State Fault Refusal :=
  laneLevel (.vdot4 h t sat d a b e) h
    (vector3 d a b e (fun x y z => narrow (if t.isSigned then .i32 else .n32) sat (dot4 t x y z))) s
def execVmin (h : Hints) (t : Ty) (d a b : Opd) (s : State) : Host.Outcome State Fault Refusal :=
  laneLevel (.vmin h t d a b) h (vector2 t false d a b min) s
def execVmax (h : Hints) (t : Ty) (d a b : Opd) (s : State) : Host.Outcome State Fault Refusal :=
  laneLevel (.vmax h t d a b) h (vector2 t false d a b max) s
def execVabs (h : Hints) (t : Ty) (sat : Bool) (d a : Opd) (s : State) : Host.Outcome State Fault Refusal :=
  laneLevel (.vabs h t sat d a) h (fun c =>
    Act.writes c (dstV c.act d t.wide (fun i =>
      packed2 (opBits t) t.bits (fun x _ => narrow t sat ((asInt t x).natAbs : Int)) (c.lnat t 0 a i [a]) 0))) s
def execVshl (h : Hints) (t : Ty) (d a b : Opd) (s : State) : Host.Outcome State Fault Refusal :=
  laneLevel (.vshl h t d a b) h (vectorShift t d a b (shlBits t.bits)) s
def execVshr (h : Hints) (t : Ty) (d a b : Opd) (s : State) : Host.Outcome State Fault Refusal :=
  laneLevel (.vshr h t d a b) h (vectorShift t d a b (shrBits t.bits)) s
def execVsra (h : Hints) (t : Ty) (d a b : Opd) (s : State) : Host.Outcome State Fault Refusal :=
  laneLevel (.vsra h t d a b) h (vectorShift t d a b (sraBits t.bits)) s
def execVfunnelR (h : Hints) (d a b e : Opd) (s : State) : Host.Outcome State Fault Refusal :=
  laneLevel (.vfunnelR h d a b e) h (vector3 d a b e funnelR) s
def execVfunnelL (h : Hints) (d a b e : Opd) (s : State) : Host.Outcome State Fault Refusal :=
  laneLevel (.vfunnelL h d a b e) h (vector3 d a b e funnelL) s
def execVbfe (h : Hints) (t : Ty) (d a b : Opd) (s : State) : Host.Outcome State Fault Refusal :=
  laneLevel (.vbfe h t d a b) h (vector3 d a b .zero (fun x y _ => bfe t.isSigned x y)) s
def execVbfi (h : Hints) (d a b e : Opd) (s : State) : Host.Outcome State Fault Refusal :=
  laneLevel (.vbfi h d a b e) h (vector3 d a b e bfi) s
def execVpopc (h : Hints) (t : Ty) (d a : Opd) (s : State) : Host.Outcome State Fault Refusal :=
  laneLevel (.vpopc h t d a) h (vector1 t d a (popc t.bits)) s
def execVclz (h : Hints) (t : Ty) (d a : Opd) (s : State) : Host.Outcome State Fault Refusal :=
  laneLevel (.vclz h t d a) h (vector1 t d a (clz t.bits)) s
def execVbrev (h : Hints) (d a : Opd) (s : State) : Host.Outcome State Fault Refusal :=
  laneLevel (.vbrev h d a) h (vector1 .b32 d a brev) s
/-- R112. -/
def execVcmp (h : Hints) (t : Ty) (clr : Bool) (pr : PairF) (a b : Opd) (cond : BitVec 3) (s : State) : Host.Outcome State Fault Refusal :=
  laneLevel (.vcmp h t clr pr a b cond) h (fun c =>
    Act.writes c (pairLanes c pr clr (fun i =>
      condOf cond.toNat (asInt t (c.lnat t 0 a i [a, b])) (asInt t (c.lnat t 1 b i [a, b]))))) s
def execVsel (h : Hints) (t : Ty) (d a b : Opd) (k : BitVec 4) (s : State) : Host.Outcome State Fault Refusal :=
  laneLevel (.vsel h t d a b k) h (fun c =>
    Act.writes c (dstV c.act d t.wide (fun i => if c.rdP 2 k.toNat i then c.lnat t 0 a i [a, b] else c.lnat t 1 b i [a, b]))) s
def execVmov (h : Hints) (t : Ty) (d a : Opd) (s : State) : Host.Outcome State Fault Refusal :=
  laneLevel (.vmov h t d a) h (fun c => Act.writes c (dstV c.act d t.wide (fun i => c.lnat t 0 a i [a]))) s
def execVmovil (h : Hints) (d : Opd) (imm : BitVec 20) (s : State) : Host.Outcome State Fault Refusal :=
  laneLevel (.vmovil h d imm) h (fun c => Act.writes c (dstV c.act d false (fun _ => (sext20 imm).toNat))) s
def execVmovih (h : Hints) (d : Opd) (imm : BitVec 20) (s : State) : Host.Outcome State Fault Refusal :=
  laneLevel (.vmovih h d imm) h (fun c => Act.writes c (dstV c.act d false (fun i => (movih (c.val 0 d i [d]) imm).toNat))) s
def execVlop3 (h : Hints) (t : BitVec 8) (d a b e : Opd) (s : State) : Host.Outcome State Fault Refusal :=
  laneLevel (.vlop3 h t d a b e) h (vector3 d a b e (lop3 t)) s

end Sys2Proof.Machine
end

