-- ==== Sys2Proof/Machine/FloatNum.lean ====
section
/-! DEFINITION. Number formats (R90 to R100), rounding (R101 to R103), conversion (R104 to R106) and exact arithmetic (R133): every value is held exactly as a dyadic and rounded once. -/

namespace Sys2Proof.Machine

/-- The value of a pattern: a NaN (signalling or not), an infinity, or (−1)^neg · m · 2^e. -/
inductive Num where
  | nan (signalling : Bool)
  | inf (neg : Bool)
  | fin (neg : Bool) (m : Nat) (e : Int)
  deriving DecidableEq, Repr

/-- The layout of a floating format (R91, R94): exponent and fraction bits, bias, whether it has infinities and NaNs. -/
structure Fmt where
  eb : Nat
  fb : Nat
  bias : Int
  ieee : Bool

def Ty.fmt : Ty → Fmt
  | .f16 => { eb := 5, fb := 10, bias := 15, ieee := true }
  | .bf16 => { eb := 8, fb := 7, bias := 127, ieee := true }
  | .e4m3 => { eb := 4, fb := 3, bias := 7, ieee := false }
  | .e5m2 => { eb := 5, fb := 2, bias := 15, ieee := false }
  | .e2m1 => { eb := 2, fb := 1, bias := 1, ieee := false }
  | _ => { eb := 8, fb := 23, bias := 127, ieee := true }

/-- T of R96 in units of 1/1024. -/
def l6T (k : Nat) : Nat := match k with | 0 => 1024 | 1 => 1218 | 2 => 1448 | _ => 1722

/-- The magnitude T[(m − 16) mod 4] · 2^floor((m − 16) / 4) of R96 and R98. -/
def l6Mag (m : Int) : Nat × Int := (l6T ((m - 16) % 4).toNat, (m - 16) / 4 - 10)

/-- 2^k for an integer k, as a factor of a magnitude where it is not negative. -/
def pow2 (k : Int) : Nat := 2 ^ k.toNat

/-- The value of a code of a floating format (R91, R94, R96). -/
def decodeNum (t : Ty) (x : Nat) : Num :=
  if t = .l6 then
    let l := x % 32
    if l = 0 then .fin (x.testBit 5) 0 0 else .fin (x.testBit 5) (l6Mag l).1 (l6Mag l).2
  else
    let f := Ty.fmt t
    let neg := x.testBit (f.eb + f.fb)
    let e := x / 2 ^ f.fb % 2 ^ f.eb
    let m := x % 2 ^ f.fb
    if f.ieee && e = 2 ^ f.eb - 1 then (if m = 0 then .inf neg else .nan (!m.testBit (f.fb - 1)))
    else if e = 0 then .fin neg m (1 - f.bias - f.fb)
    else .fin neg (2 ^ f.fb + m) (e - f.bias - f.fb)

/-- The number of bits of a magnitude. -/
def bitLen (n : Nat) : Nat := if n = 0 then 0 else n.log2 + 1

/-- Whether a magnitude rounds away from zero (R101 to R103): `rem` of `unit` remains above the even or odd lower neighbour. -/
def roundUp (mode r : Nat) (neg odd : Bool) (rem unit : Nat) : Bool :=
  match mode with
  | 0 => decide (unit < 2 * rem) || (decide (2 * rem = unit) && odd)
  | 1 => false
  | 2 => rem ≠ 0 && !neg
  | 3 => rem ≠ 0 && neg
  | _ => decide (2 ^ 16 ≤ rem * 2 ^ 16 / unit + r)

/-- m · 2^e in units of 2^q: the whole part, what remains and the size of a unit in the same measure. -/
def splitAt (m : Nat) (e q : Int) : Nat × Nat × Nat :=
  if q ≤ e then (m * pow2 (e - q), 0, 1)
  else let u := pow2 (q - e); (m / u, m % u, u)

/-- The pattern of a format's infinity or largest magnitude, without sign. -/
def infCode (f : Fmt) : Nat := (2 ^ f.eb - 1) * 2 ^ f.fb
def signBit (t : Ty) (neg : Bool) : Nat := if neg then 2 ^ (t.bits - 1) else 0

/-- R92: the canonical NaN. -/
def canonicalNaN (t : Ty) : Nat := let f := Ty.fmt t; infCode f + 2 ^ (f.fb - 1)

/-- R105 for a finite value and a format with an exponent: the magnitude code and the `fst` bits. Beyond the range of a wide destination SR gives infinity, as
R105 has it, also where its random bits are 0 and R144 names the result of RZ (DESIGN CHOICE, log 28: the two rules differ there). -/
def roundFmt (f : Fmt) (mode r : Nat) (neg : Bool) (m : Nat) (e : Int) : Nat × Word :=
  let top : Int := e + bitLen m - 1
  let qmin : Int := 1 - f.bias - f.fb
  let q := max (top - f.fb) qmin
  let (sig, rem, unit) := splitAt m e q
  let up := roundUp mode r neg (sig % 2 = 1) rem unit
  let code := (q - qmin).toNat * 2 ^ f.fb + sig + up.toNat
  let tiny : Word := if rem ≠ 0 && top < 1 - f.bias then fstUF else 0
  let nx : Word := if rem ≠ 0 then fstNX else 0
  if f.ieee then
    if infCode f ≤ code then
      let big := match mode with
        | 1 => false
        | 2 => !neg
        | 3 => neg
        | _ => true
      (if big then infCode f else infCode f - 1, fstOF ||| fstNX)
    else (code, nx ||| tiny)
  else
    let most := 2 ^ (f.eb + f.fb) - 1
    if most < code || (code = most && rem ≠ 0 && !up) then (most, fstST ||| fstNX) else (code, nx ||| tiny)

/-- R97 in units of 2^−14. -/
def l6Unit (l : Nat) : Nat := if l = 0 then 0 else l6T (l % 4) * 2 ^ (l / 4)

/-- R105 for a finite value into L6. -/
def roundL6 (mode r : Nat) (neg : Bool) (m : Nat) (e : Int) : Nat × Word :=
  let x := m * pow2 (e + 14)
  let u := pow2 (-14 - e)
  let a := ((List.range 32).filter (fun l => l6Unit l * u ≤ x)).length - 1
  let rem := x - l6Unit a * u
  if rem = 0 then (a, 0)
  else if a = 31 then (31, fstST ||| fstNX)
  else
    let up := roundUp mode r neg (a % 2 = 1) rem ((l6Unit (a + 1) - l6Unit a) * u)
    (a + up.toNat, fstNX ||| (if a = 0 then fstUF else 0))

/-- R104, R105: a value delivered in a floating format: the code and the `fst` bits. -/
def deliver (t : Ty) (mode r : Nat) (x : Num) : Nat × Word :=
  let f := Ty.fmt t
  let wide := t ≠ .l6 && f.ieee
  let largest := if t = .l6 then 31 else 2 ^ (f.eb + f.fb) - 1
  match x with
  | .nan sig => if wide then (canonicalNaN t, if sig then fstIV else 0) else (0, fstIV)
  | .inf neg => if wide then (infCode f + signBit t neg, 0) else (largest + signBit t neg, fstST ||| fstNX)
  | .fin neg m e =>
    if m = 0 then (signBit t neg, 0)
    else
      let y := if t = .l6 then roundL6 mode r neg m e else roundFmt f mode r neg m e
      (y.1 + signBit t neg, y.2)

/-- R105: a value delivered in an integer type. -/
def deliverInt (t : Ty) (mode r : Nat) (x : Num) : Nat × Word :=
  match x with
  | .nan _ => (0, fstIV)
  | .inf neg => (wrap t.bits (if neg then Ty.least t else Ty.greatest t), fstST ||| fstNX)
  | .fin neg m e =>
    let (w, rem, unit) := splitAt m e 0
    let mag := w + (roundUp mode r neg (w % 2 = 1) rem unit).toNat
    let y : Int := if neg then -(mag : Int) else mag
    if y < Ty.least t then (wrap t.bits (Ty.least t), fstST ||| fstNX)
    else if Ty.greatest t < y then (wrap t.bits (Ty.greatest t), fstST ||| fstNX)
    else (wrap t.bits y, if rem ≠ 0 then fstNX else 0)

/-- An integer as a value. -/
def Num.ofInt (x : Int) : Num := .fin (decide (x < 0)) x.natAbs 0

namespace Num

def isNan : Num → Bool | .nan _ => true | _ => false
def isSignalling : Num → Bool | .nan true => true | _ => false
def isZero : Num → Bool | .fin _ 0 _ => true | _ => false
def isNeg : Num → Bool | .inf n => n | .fin n _ _ => n | .nan _ => false

/-- R129, R130: the modifiers of a source. A NaN stays as it is. -/
def modify (m : Nat) (x : Num) : Num :=
  let s := fun (n : Bool) => match m with | 0 => n | 1 => !n | 2 => false | _ => true
  match x with
  | .nan q => .nan q
  | .inf n => .inf (s n)
  | .fin n a e => .fin (s n) a e

def neg (x : Num) : Num := x.modify 1

/-- The exact product of numbers that are not NaN; none for 0 · ∞. -/
def mulCore (a b : Num) : Option Num :=
  match a, b with
  | .fin s m e, .fin s' m' e' => some (.fin (s != s') (m * m') (e + e'))
  | .inf s, .inf s' => some (.inf (s != s'))
  | .inf s, .fin s' m _ => if m = 0 then none else some (.inf (s != s'))
  | .fin s m _, .inf s' => if m = 0 then none else some (.inf (s != s'))
  | _, _ => some (.nan false)

/-- The exact sum of two finite numbers; an exact zero has the sign that R133 gives under a mode. -/
def addFin (mode : Nat) (s : Bool) (m : Nat) (e : Int) (s' : Bool) (m' : Nat) (e' : Int) : Num :=
  let f := min e e'
  let x : Int := (if s then -1 else 1) * (m * pow2 (e - f) : Nat)
  let y : Int := (if s' then -1 else 1) * (m' * pow2 (e' - f) : Nat)
  let z := x + y
  if z = 0 then (if m = 0 && m' = 0 && s = s' then .fin s 0 0 else .fin (mode = 3) 0 0)
  else .fin (decide (z < 0)) z.natAbs f

/-- The exact sum of numbers that are not NaN; none for ∞ + (−∞). -/
def addCore (mode : Nat) (a b : Num) : Option Num :=
  match a, b with
  | .fin s m e, .fin s' m' e' => some (addFin mode s m e s' m' e')
  | .inf s, .inf s' => if s = s' then some (.inf s) else none
  | .inf s, _ => some (.inf s)
  | _, .inf s => some (.inf s)
  | _, _ => some (.nan false)

/-- A value, with IV where an operation has none (R133). -/
def orInvalid : Option Num → Num × Word
  | some x => (x, 0)
  | none => (.nan false, fstIV)

/-- R133: a NaN among the operands gives a NaN, with IV if any is signalling. -/
def nanOf (xs : List Num) : Option (Num × Word) :=
  if xs.any isNan then some (.nan false, if xs.any isSignalling then fstIV else 0) else none

def add (mode : Nat) (a b : Num) : Num × Word := (nanOf [a, b]).getD (orInvalid (addCore mode a b))
def mul (a b : Num) : Num × Word := (nanOf [a, b]).getD (orInvalid (mulCore a b))

/-- a · b + c with an exact product (R133). -/
def fma (a b c : Num) : Num × Word :=
  if a.isNan || b.isNan then (nanOf [a, b, c]).getD (.nan false, 0)
  else match mulCore a b with
    | none => (.nan false, fstIV)
    | some p => (nanOf [p, c]).getD (orInvalid (addCore 0 p c))

/-- a < b, with −0 < +0 where `signed` (R134). -/
def less (signed : Bool) (a b : Num) : Bool :=
  match a, b with
  | .inf s, .inf s' => s && !s'
  | .inf s, _ => s
  | _, .inf s => !s
  | .fin s m e, .fin s' m' e' =>
    if m = 0 && m' = 0 then signed && s && !s'
    else
      let f := min e e'
      decide ((if s then -1 else 1) * ((m * pow2 (e - f) : Nat) : Int) < (if s' then -1 else 1) * ((m' * pow2 (e' - f) : Nat) : Int))
  | _, _ => false

/-- R134: the lesser or the greater. -/
def pick (max nan : Bool) (a b : Num) : Num × Word :=
  let iv : Word := if a.isSignalling || b.isSignalling then fstIV else 0
  if a.isNan && b.isNan then (.nan false, iv)
  else if a.isNan then (if nan then .nan false else b, iv)
  else if b.isNan then (if nan then .nan false else a, iv)
  else (if less true a b = max then b else a, 0)

/-- R135: the condition and the `fst` bits. -/
def compare (cond : Nat) (a b : Num) : Bool × Word :=
  let un := a.isNan || b.isNan
  let sig := a.isSignalling || b.isSignalling
  let lt := !un && less false a b
  let gt := !un && less false b a
  let c := match cond with
    | 0 => !un && !lt && !gt
    | 1 => un || lt || gt
    | 2 => lt
    | 3 => !un && !gt
    | 4 => gt
    | 5 => !un && !lt
    | 6 => !un
    | _ => un
  (c, if (if 2 ≤ cond && cond ≤ 5 then un else sig) then fstIV else 0)

end Num

end Sys2Proof.Machine
end

