-- ==== Sys2Proof/Machine/Control.lean ====
section
/-! DEFINITION. Control flow (R87 to R89), traps and their return, control registers (R344 to R347). -/

namespace Sys2Proof.Machine

/-- R87: the target of a branch. -/
def branchTarget (pc : DWord) (imm : BitVec 20) : DWord := pc + (imm.signExtend 64 <<< 2)

/-- An effect on the wave itself. -/
def onWave (c : Ctx) (f : Wave → Wave) : Act := .ok { st := c.s.modWave c.k f }

def jumpTo (c : Ctx) (t : DWord) : Act := .ok { st := c.s, jump := some t }

def execBr (h : Hints) (imm : BitVec 20) (s : State) : Host.Outcome State Fault Refusal :=
  waveLevel (.br h imm) h (fun c => jumpTo c (branchTarget c.w.pc imm)) s

def execBrx (h : Hints) (a : Opd) (s : State) : Host.Outcome State Fault Refusal :=
  waveLevel (.brx h a) h (fun c => jumpTo c (c.val64 0 a)) s

/-- R87: the return address is written with fixed latency 4. -/
def execCall (h : Hints) (d : Opd) (imm : BitVec 20) (s : State) : Host.Outcome State Fault Refusal :=
  waveLevel (.call h d imm) h (fun c =>
    .ok { st := c.s, ws := dstS d true (c.w.pc + 12).toNat, jump := some (branchTarget c.w.pc imm) }) s

def execRet (h : Hints) (a : Opd) (s : State) : Host.Outcome State Fault Refusal :=
  waveLevel (.ret h a) h (fun c => jumpTo c (c.val64 0 a)) s

/-- R87: the mask as R35 fixes it at issue. -/
def execBexz (h : Hints) (imm : BitVec 20) (s : State) : Host.Outcome State Fault Refusal :=
  waveLevel (.bexz h imm) h (fun c =>
    if c.w.emask = 0 then jumpTo c (branchTarget c.w.pc imm) else Act.writes c []) s

/-- R30, R255: every open capture closes, then the wave is exiting. -/
def execExit (h : Hints) (s : State) : Host.Outcome State Fault Refusal :=
  waveLevel (.exit h) h (fun c =>
    let s := (Tbl.keys c.w.caps).foldl (fun s n => s.closeCapture c.k n true) c.s
    .ok { st := s.modWave c.k (fun w => { w with stat := .exiting }) }) s

/-- R88. -/
def execYield (h : Hints) (s : State) : Host.Outcome State Fault Refusal :=
  waveLevel (.yield h) h (fun c => onWave c (fun w => { w with yieldTil := some (c.now + 64) })) s

def execSleep (h : Hints) (a : Opd) (s : State) : Host.Outcome State Fault Refusal :=
  waveLevel (.sleep h a) h (fun c =>
    let n := (c.val 0 a 0 [a]).toNat
    if n = 0 then Act.writes c [] else onWave c (fun w => { w with stat := .sleeping (c.now + n) })) s

/-- R344. -/
def execTrap (h : Hints) (imm : BitVec 20) (s : State) : Host.Outcome State Fault Refusal :=
  waveLevel (.trap h imm) h (fun _ => .trap 10 0 allLanes 0 (imm.setWidth 32)) s

def execBrk (h : Hints) (imm : BitVec 20) (s : State) : Host.Outcome State Fault Refusal :=
  waveLevel (.brk h imm) h (fun _ => .trap 9 0 allLanes 0 (imm.setWidth 32)) s

/-- R345: outside a handler the word is illegal whatever its guard; a misaligned target is illegal when it executes. No region is open behind it (R383). -/
def execRte (h : Hints) (a : Opd) (s : State) : Host.Outcome State Fault Refusal :=
  issued (.rte h a) h false (fun c => if c.w.inHandler then none else some 9) (fun c =>
    let t := c.val64 0 a
    if t.toNat % 4 ≠ 0 then .trap 2 9 allLanes
    else .ok { st := c.s.modWave c.k (fun w => { w with inHandler := false, region := none }), jump := some t }) s

/-- R347: the assigned control registers. -/
def csrAssigned (n : Nat) : Bool := n = 0x010 || n = 0x011 || n = 0x012 || n = 0x400 || n = 0x401

/-- R125: NSE_STAT. -/
def Noise.status (n : Noise) : Nat :=
  (if n.en then n.st else 0) + 4 * n.rctf.toNat + 8 * n.aptf.toNat + 256 * n.fcnt + 65536 * n.buf.length

/-- R347: TSTAT. -/
def tstat (w : Wave) : Nat := w.inHandler.toNat + 2 * (!w.deferred.isEmpty).toNat + 256 * w.lclass

/-- The value that `csrr` reads. -/
def csrValue (c : Ctx) (n : Nat) : Nat :=
  match n with
  | 0x010 => c.s.frameVa c.k c.w.pidN % 2 ^ 32
  | 0x011 => c.s.frameVa c.k c.w.pidN / 2 ^ 32
  | 0x012 => tstat c.w
  | _ => (c.s.core c.cid).noise.status

/-- R346: an unassigned number is illegal whatever the guard. -/
def csrIllegal (n : BitVec 20) (_ : Ctx) : Option Nat := if csrAssigned n.toNat then none else some 9

def execCsrr (h : Hints) (d : Opd) (n : BitVec 20) (s : State) : Host.Outcome State Fault Refusal :=
  issued (.csrr h d n) h false (csrIllegal n) (fun c =>
    if n.toNat = 0x401 then .trap 3 2 allLanes
    else .ok { st := c.s, ws := dstS d false (csrValue c n.toNat), nominal := 12 }) s

/-- R346, R347: every register that a kernel wave may name is read-only, or is firmware's alone. -/
def execCsrw (h : Hints) (n : BitVec 20) (a : Opd) (s : State) : Host.Outcome State Fault Refusal :=
  issued (.csrw h n a) h false (csrIllegal n) (fun _ =>
    if n.toNat = 0x401 then .trap 3 2 allLanes else .trap 3 1 allLanes) s

end Sys2Proof.Machine
end

