-- ==== Sys2Proof/Machine/Memory.lean ====
section
/-! DEFINITION. Loads, stores, prefetch and cache control (R174 to R195), and the steps of the memory path that complete them. -/

namespace Sys2Proof.Machine

/-- How the addresses of an instruction's lanes resolve (R185, R186). -/
inductive Resolved where
  | ok (s : State) (accs : List LaneAcc)
  /-- the state holds what the walks have left, as the refusal of a table (R325) -/
  | trap (s : State) (reason : Nat) (mask : Mask) (addr : Nat)
  | wait (s : State)

/-! Addresses (R175, R176, R178, R180). -/

/-- The block that serves offset window m of the cluster for a wave (R178). -/
def windowBlock (s : State) (cid : Nat) (w : Wave) (m : Nat) : Option Block :=
  match s.block w.block with
  | none => none
  | some b =>
    if m = cid % 4 then some b
    else match b.group.bind (fun g => Tbl.get? s.groups g) with
      | none => none
      | some g => (g.blocks.filterMap (fun x => s.block x)).find? (fun x => x.cid = cid / 4 * 4 + m && !x.leaving)

/-- The launch of a wave. -/
def waveLaunch (s : State) (w : Wave) : Option Launch := s.launchOf w.block

/-- Size of a wave's scratchpad allocation; none for a combiner wave (R176). -/
def scrLimit (s : State) (w : Wave) : Nat :=
  if w.batch.isSome then 0 else ((s.block w.block).map (·.scrSize)).getD 0

/-- The virtual address that translation sees (R180). -/
def virtualOf (s : State) (w : Wave) (sp : Space) (a : Nat) : Nat :=
  if sp = .k then (((waveLaunch s w).map (·.rc.kbase)).getD 0 + a) % 2 ^ 64 else a

/-- The reasons of R185 that an access of n bytes at an address has at issue, without translation. A combiner wave belongs to no launch: its constant bank
has no bytes, so that a `.k` access of it has reason 5 (DESIGN CHOICE, log 19: R229 and R230 name only `.s` and `.c`). -/
def addrReasons (s : State) (cid : Nat) (w : Wave) (sp : Space) (n a : Nat) (aligned : Bool) : List Nat :=
  (if aligned && a % n ≠ 0 then [1] else [])
    ++ (match sp with
      | .g => if canonical a then [] else [6]
      | .s => if scrLimit s w < a + n then [2] else []
      | .c =>
        if a / 2 ^ 20 ≠ 0 then [3]
        else match (if w.batch.isSome then none else windowBlock s cid w (a / 2 ^ 18)) with
          | none => [4]
          | some b => if b.scrSize < a % 2 ^ 18 + n then [3] else []
      | .k => (if ((waveLaunch s w).map (·.rc.ksize)).getD 0 < a + n then [5] else []) ++ (if canonical (virtualOf s w .k a) then [] else [6]))

/-- The scratchpad byte of an address (R176, R178). -/
def scrPlace (s : State) (cid : Nat) (w : Wave) (sp : Space) (a : Nat) : Place :=
  let b := if sp = .c then windowBlock s cid w (a / 2 ^ 18) else s.block w.block
  match b with
  | some b => .scr b.cid (b.scrBase + a % 2 ^ 18)
  | none => .scr cid a

/-- One lane's translation: a place, a refusal (reason 7), or what it waits for. -/
inductive LanePlace where
  | at_ (p : Place)
  | refused
  | fault (level page : Nat)
  | host (io page : Nat)
  deriving DecidableEq, Repr

def translateLane (s : State) (cid : Nat) (w : Wave) (k : PKind) (locOk : Nat → Bool) (va : Nat) : State × LanePlace :=
  if !canonical va || w.refusedPages.contains (va / 65536, k) then (s, .refused)
  else match s.translate cid w.pidN w.pasid va k with
    | (s, .ok e) => if locOk e.loc then (s, .at_ (e.place (va % 2 ^ 57))) else (s, .refused)
    | (s, .notValid lvl) => (s, .fault lvl (va / 65536))
    | (s, .hostAbsent io) => if w.refusedPages.contains (va / 65536, k) then (s, .refused) else (s, .host io (va / 65536))
    | (s, _) => (s, .refused)

/-- A wave waits for every page that its lanes lack (R186, R317) and for the host (R315): each missing page takes its key and its record. -/
def blockOn (s : State) (k : Nat) (w : Wave) (kind : PKind) (ls : List LanePlace) : State :=
  let s := ls.eraseDups.foldl (fun s l => match l with
    | .fault lvl page => s.faultRecord w.pidN w.pasid (page * 65536) kind lvl (cidOf k) 0 (lcCore (cidOf k))
    | _ => s) s
  let pages := (ls.filterMap (fun l => match l with | .fault _ page => some page | _ => none)).eraseDups
  let hosts := (ls.filterMap (fun l => match l with | .host io page => some (io, page) | _ => none)).eraseDups
  s.modWave k (fun x => { x with stat := .faulted w.pasid pages hosts kind, run := none, overdue := false })

/-- R192: an atomic or a cache control of the wave is still on its way to a place. -/
def earlierPending (s : State) (k : Nat) (pl : Place) (n : Nat) : Bool :=
  Tbl.any s.reqs (fun _ r => r.wave = k && (match r.kind, pl with
    | .atomic _ _ (.peer e x) _ _, .peer e' x' => e = e' && x / 8 ≤ (x' + n - 1) / 8 && x' / 8 ≤ x / 8
    | .atomic _ _ (.dev _) _ _, .dev d => r.line = d / 128
    | .control _, .dev d => r.line = d / 128
    | _, _ => false))

/-- The acting lanes of an access, checked and translated (R185, R186). Each entry is a lane and its address; one walk serves every lane of a page (R316).
A page that the driver has failed traps at once, whatever other pages are missing (R319). -/
def resolve (c : Ctx) (sp : Space) (n : Nat) (aligned : Bool) (kind : PKind) (locOk : Nat → Bool) (xs : List (Nat × Nat)) : Resolved :=
  let rs := xs.map (fun x => (x.1, x.2, addrReasons c.s c.cid c.w sp n x.2 aligned))
  match (rs.flatMap (·.2.2)).min? with
  | some r =>
    let bad := rs.filter (fun x => x.2.2.contains r)
    .trap c.s r (maskOf (fun i => bad.any (fun x => x.1 = i))) ((bad.head?.map (·.2.1)).getD 0)
  | none =>
    match sp with
    | .s => .ok c.s (xs.map (fun x => { lane := x.1, addr := x.2, place := scrPlace c.s c.cid c.w sp x.2, n := n }))
    | .c => .ok c.s (xs.map (fun x => { lane := x.1, addr := x.2, place := scrPlace c.s c.cid c.w sp x.2, n := n }))
    | _ =>
      let r := xs.foldl (fun (r : State × List (Nat × Nat × LanePlace)) x =>
        let va := virtualOf r.1 c.w sp x.2
        let t := match r.2.find? (fun y => virtualOf c.s c.w sp y.2.1 / 65536 = va / 65536 && (match y.2.2 with | .at_ _ => false | _ => true)) with
          | some y => (r.1, y.2.2)
          | none => translateLane r.1 c.cid c.w kind locOk va
        (t.1, r.2 ++ [(x.1, x.2, t.2)])) (c.s, [])
      let lacking := (r.2.map (·.2.2)).filter (fun x => match x with | .fault .. => true | .host .. => true | _ => false)
      let failed := xs.any (fun x => c.w.refusedPages.contains (virtualOf c.s c.w sp x.2 / 65536, kind))
      if !lacking.isEmpty && !failed then .wait (blockOn r.1 c.k c.w kind lacking)
      else
        let bad := r.2.filter (fun x => x.2.2 = .refused)
        if !bad.isEmpty then .trap r.1 7 (maskOf (fun i => bad.any (fun x => x.1 = i))) ((bad.head?.map (·.2.1)).getD 0)
        else
          let accs : List LaneAcc := r.2.filterMap (fun x => match x.2.2 with
            | .at_ p => some { lane := x.1, addr := x.2.1, place := p, n := n }
            | _ => none)
          if accs.any (fun a => earlierPending r.1 c.k a.place a.n) then .wait c.s
          else .ok r.1 accs

/-- The trap of an access (R185), or what follows. -/
def Resolved.andThen (r : Resolved) (f : State → List LaneAcc → Act) : Act :=
  match r with
  | .ok s accs => f s accs
  | .trap s reason mask addr => .trap 6 reason mask (BitVec.ofNat 64 addr) 0 (some s)
  | .wait s => .wait s

/-- What follows of an access that a protected wave makes once for each pair: a disagreement is a mismatch, behind every class that is lower and once every
translation is there (R186, R339, R379). -/
def Resolved.agreed (r : Resolved) (agree : Bool) (f : State → List LaneAcc → Act) : Act :=
  match r with
  | .ok .. => if agree then r.andThen f else .mismatch
  | _ => r.andThen f

/-- The lanes that make an access: one of each pair in a protected wave (R379). -/
def onePerPair (w : Wave) (accs : List LaneAcc) : List LaneAcc := if w.prot then accs.filter (fun a => a.lane % 2 = 0) else accs

/-- The address of a lane in a space (R175 to R180). -/
def laneAddr (c : Ctx) (sp : Space) (a : Opd) (off : BitVec 20) (lane : Nat) : Nat :=
  let o : Int := off.toInt
  match sp with
  | .g => wrap 64 (((c.val64 0 a lane).toNat : Int) + o)
  | _ => wrap 32 (((c.val 0 a lane [a]).toNat : Int) + o)

/-! The constant bank (R180). -/

/-- A `.k` lane reads its bytes: from the constant cache of its launch, or as a `.g` read that fills it. -/
def constLane (s : State) (cid p launch va : Nat) (a : LaneAcc) : State × LaneAcc :=
  let base := va / 128 * 128
  match (s.core cid).kcache.find? (fun l => l.launch = launch && l.va = base) with
  | some l => (s, { a with got := ((l.bytes.drop (va - base)).take a.n).map some })
  | none =>
    let start := match a.place with
      | .dev d => Place.dev (d / 128 * 128)
      | .host x => .host (x / 128 * 128)
      | .peer e x => .peer e (x / 128 * 128)
      | q => q
    match s.placeRead p start 128 with
    | (s, some (bs, bad)) =>
      let s := if bad then s else s.modCore cid (fun c => { c with kcache := ({ launch := launch, va := base, bytes := bs } :: c.kcache).take 128 })
      (s, { a with got := ((bs.drop (va - base)).take a.n).map some, poison := bad })
    | (s, none) => (s, { a with refused := true })

/-- What the lanes of a load see at issue (R190). -/
def sampleLoads (c : Ctx) (sp : Space) (s : State) (accs : List LaneAcc) : State × List LaneAcc :=
  match sp with
  | .k =>
    let launch := ((s.block c.w.block).map (·.launch)).getD 0
    accs.foldl (fun (r : State × List LaneAcc) a =>
      let x := constLane r.1 c.cid c.p launch (virtualOf r.1 c.w sp a.addr) a
      (x.1, r.2 ++ [x.2])) (s, [])
  | _ => (s.loadTrips accs, accs.map (fun a => s.loadLane c.cid c.p a))

/-- The number of passes of a scratchpad access (R177). -/
def passes (accs : List LaneAcc) : Nat :=
  let ws := (accs.flatMap (fun a => (List.range ((a.n + 3) / 4)).map (fun j => a.addr / 4 + j))).eraseDups
  ((List.range 32).map (fun b => (ws.filter (fun w => w % 32 = b)).length)).max?.getD 0

/-- Nominal completion of an access that needs no request (R184). -/
def accessNominal (c : Ctx) (sp : Space) (accs : List LaneAcc) : Nat :=
  match sp with
  | .s => 17 + passes accs
  | .c => (if accs.all (fun a => match a.place with | .scr x _ => x = c.cid | _ => false) then 17 else 53) + passes accs
  | .k => 24
  | .g => 32

/-- The destination register of a load. -/
def destReg : Opd → Option Nat
  | .v n => some n.val
  | .s n => some n.val
  | _ => none

/-- R190: a load of the lanes in `xs`. -/
def load (c : Ctx) (sp : Space) (sz : MSize) (lane : Bool) (d : Opd) (xs : List (Nat × Nat)) : Act :=
  (resolve c sp (sizeBytes sz) true .read (fun _ => true) xs).andThen (fun s accs =>
    let r := sampleLoads c sp s accs
    .ok { st := if sp = .g then r.1.askLoad c.k c.id c.p r.2 else r.1, kind := .load sz lane (destReg d) r.2
          nominal := accessNominal c sp r.2 })

/-- The bytes that a store sends for a lane (R189). -/
def storeData (c : Ctx) (sz : MSize) (d : Opd) (lane : Nat) : List Byte :=
  match sz with
  | .n64 => leBytes 8 (c.val64 8 d lane).toNat
  | .b128 => (List.range 4).flatMap (fun j => leBytes 4 (c.valN 8 d j lane).toNat)
  | sz => leBytes (sizeBytes sz) (c.val 8 d lane [d]).toNat

/-- R191: a store of the lanes in `xs`, whose pairs agree or not (R379). -/
def store (c : Ctx) (sp : Space) (sz : MSize) (d : Opd) (xs : List (Nat × Nat)) (agree : Bool := true) : Act :=
  (resolve c sp (sizeBytes sz) true .write (fun _ => true) xs).agreed agree (fun s accs =>
    let accs := onePerPair c.w accs
    let r := s.storeAll c.cid c.p (accs.map (fun a => { a with got := (storeData c sz d a.lane).map some }))
    .ok { st := r.1.askStore c.k c.id c.p (r.2.filter (fun a => !a.refused)), kind := .store r.2, nominal := accessNominal c sp accs })

/-- R379: the acting pairs of a protected wave agree on what they compute; the access is then made once per pair. -/
def pairsAgree {α : Type} [DecidableEq α] (act : Mask) (f : Nat → α) : Bool :=
  (List.range 48).all (fun k =>
    act.getLsbD (2 * k) == act.getLsbD (2 * k + 1) && (!act.getLsbD (2 * k) || decide (f (2 * k) = f (2 * k + 1))))

/-- R190. -/
def execVld (h : Hints) (sp : Space) (sz : MSize) (d a : Opd) (off : BitVec 20) (s : State) : Host.Outcome State Fault Refusal :=
  laneLevel (.vld h sp sz d a off) h (fun c =>
    load c sp sz true d ((lanesOf c.act).map (fun i => (i, laneAddr c sp a off i)))) s

/-- R191, R379. -/
def execVst (h : Hints) (sp : Space) (sz : MSize) (d a : Opd) (off : BitVec 20) (s : State) : Host.Outcome State Fault Refusal :=
  laneLevel (.vst h sp sz d a off) h (fun c =>
    store c sp sz d ((lanesOf c.act).map (fun i => (i, laneAddr c sp a off i)))
      (!c.w.prot || pairsAgree c.act (fun i => (laneAddr c sp a off i, storeData c sz d i)))) s

def execSld (h : Hints) (sp : Space) (sz : MSize) (d a : Opd) (off : BitVec 20) (s : State) : Host.Outcome State Fault Refusal :=
  waveLevel (.sld h sp sz d a off) h (fun c => load c sp sz false d [(0, laneAddr c sp a off 0)]) s

def execSst (h : Hints) (sp : Space) (sz : MSize) (d a : Opd) (off : BitVec 20) (s : State) : Host.Outcome State Fault Refusal :=
  waveLevel (.sst h sp sz d a off) h (fun c => store c sp sz d [(0, laneAddr c sp a off 0)]) s

/-- Lines of device memory among lanes. -/
def devLines (accs : List LaneAcc) : List Nat := accs.filterMap (fun a => match a.place with | .dev d => some (d / 128) | _ => none)

/-- A request of a cache instruction for each line of device memory that its lanes name. -/
def askLines (c : Ctx) (s : State) (kind : ReqKind) (accs : List LaneAcc) : State :=
  (devLines accs).eraseDups.foldl (fun s l =>
    s.addReq { kind := kind, cid := c.cid, wave := c.k, op := c.id, pidN := c.p, line := l, home := s.homeSlice (128 * l)
               pasid := c.w.pasid, pages := State.pagesOn accs l }) s

/-- R193: a lane that cannot be prefetched is dropped; one whose page the host lacks leaves a page request behind it, as every look at such a page does (R315; DEDUCED, log 32). -/
def execVpf (h : Hints) (l2 : Bool) (a : Opd) (off : BitVec 20) (s : State) : Host.Outcome State Fault Refusal :=
  laneLevel (.vpf h l2 a off) h (fun c =>
    let r := (lanesOf c.act).foldl (fun (r : State × List LaneAcc) i =>
      let va := laneAddr c .g a off i
      match translateLane r.1 c.cid c.w .read (fun _ => true) va with
      | (s, .at_ p) => (s, r.2 ++ [{ lane := i, addr := va, place := p, n := 1 }])
      | (s, _) => (s, r.2)) (c.s, [])
    .ok { st := askLines c r.1 (.prefetch (!l2)) r.2, kind := .cache }) s

/-- R194. -/
def cacheControl (c : Ctx) (drop : Bool) (a : Opd) (off : BitVec 20) : Act :=
  (resolve c .g 1 false .read (fun _ => true) ((lanesOf c.act).map (fun i => (i, laneAddr c .g a off i)))).andThen (fun s accs =>
    .ok { st := askLines c s (.control drop) accs, kind := .cache })

def execLwb (h : Hints) (a : Opd) (off : BitVec 20) (s : State) : Host.Outcome State Fault Refusal :=
  laneLevel (.lwb h a off) h (fun c => cacheControl c false a off) s

def execLinv (h : Hints) (a : Opd) (off : BitVec 20) (s : State) : Host.Outcome State Fault Refusal :=
  laneLevel (.linv h a off) h (fun c => cacheControl c true a off) s

/-! Steps of the memory path. -/

/-- HOME_SLICE_ACCESS (R181, R228): a request takes its place at the home of its line, unless the line is held, or the
request was sent where the line no longer lives and is answered moved (R371). -/
def execHomeSliceAccess (r : Nat) (s : State) : Host.Outcome State Fault Refusal :=
  match Tbl.get? s.reqs r with
  | none => .next s
  | some q =>
    match q.kind with
    | .atomic .. => .next s
    | .combine .. => .next s
    | _ =>
      if q.moved then .next s
      else if q.home ≠ s.homeNow q.line then .next (s.modReq r (fun x => { x with moved := true }))
      else if s.lineHeld q.line q.wave then .next s
      else .next (performedReq s r q)
where
  /-- The request has been performed and leaves the list. -/
  performedReq (s : State) (r : Nat) (q : Req) : State :=
    let t := s.performReq q
    { t with reqs := Tbl.erase t.reqs r }

/-- R185: the lanes that the home refused: their deferred fault is on its way. -/
def postRefusal (s : State) (k : Nat) (p : Pend) (cls reason : Nat) (accs : List LaneAcc) : State :=
  let bad := accs.filter (·.refused)
  if bad.isEmpty then s
  else s.soon [.deferredFaultArrive ⟨k, p.id, 0xFFFFFFFF⟩ cls reason p.pc (maskOf (fun i => bad.any (fun a => a.lane = i)))
    (BitVec.ofNat 64 ((bad.head?.map (·.addr)).getD 0))]

/-- R187: an error record for data that arrive with an uncorrectable error. -/
def poisonRecord (s : State) (k addr : Nat) : State :=
  match s.wave k with
  | some w => (s.logPart w.pidN { src := cidOf k, kind := 3, wb := wbOf k, addr := addr }).1
  | none => s

/-- The poison bits of a load's destination lanes (R187). -/
def setPoison (w : Wave) (sz : MSize) (lane : Bool) (d : Option Nat) (accs : List LaneAcc) : Wave :=
  match d with
  | none => w
  | some d =>
    let bad := accs.filter (fun a => a.poison && !a.refused)
    let m := maskOf (fun i => bad.any (fun a => a.lane = i))
    if m = 0 then w
    else (List.range (sizeRegs sz)).foldl (fun w j =>
      if lane then { w with poisonV := Words.put w.poisonV (d + j) (Words.get w.poisonV (d + j) ||| m) }
      else { w with poisonS := w.poisonS ||| (1#128 <<< (d + j)) }) w

/-- LOAD_DATA_RETURN (R190): every lane of a load has its data or its refusal: the registers are written and the flag falls. -/
def execLoadDataReturn (k op : Nat) (s : State) : Host.Outcome State Fault Refusal :=
  match s.pend k op with
  | none => .next s
  | some p =>
    match p.kind with
    | .load sz lane d accs =>
      if !(s.reqsOf k op).isEmpty then .next s
      else
        let s := s.opDone k op
        let s := s.modWave k (fun w => setPoison w sz lane d accs)
        let s := match accs.find? (fun a => a.poison && !a.refused) with
          | some a => poisonRecord s k a.addr
          | none => s
        .next (postRefusal s k p 6 8 accs)
    | _ => .next s

/-- STORE_VISIBLE (R191): every write of a store has reached its place of visibility or been refused: the flag falls. -/
def execStoreVisible (k op : Nat) (s : State) : Host.Outcome State Fault Refusal :=
  match s.pend k op with
  | none => .next s
  | some p =>
    match p.kind with
    | .store accs => if !(s.reqsOf k op).isEmpty then .next s else .next (postRefusal (s.opDone k op) k p 6 8 accs)
    | _ => .next s

/-- The faults that a wave holds, with one more: of those that arrive in one cycle the earlier-issued goes first (R349). -/
def insertFault (l : List DFault) (d : DFault) : List DFault :=
  let before := l.takeWhile (fun e => !(e.when_ = d.when_ && d.op < e.op))
  before ++ d :: l.drop before.length

/-- DEFERRED_FAULT_ARRIVE (R185, R349): the fault is held for its wave; after `exit` an error record is written instead. -/
def execDeferredFaultArrive (src : FaultFrom) (cls reason : Nat) (pc : DWord) (mask : Mask) (addr : DWord) (s : State) : Host.Outcome State Fault Refusal :=
  let k := src.wave
  match s.wave k with
  | none => .next s
  | some w =>
    if w.stat = .exiting then
      .next (s.logPart w.pidN { src := cidOf k, kind := 5, cls := cls, reason := reason, wb := wbOf k, addr := pc.toNat }).1
    else
      let d : DFault := { cls := cls, reason := reason, pc := pc, mask := mask, addr := addr, seq := src.seq, op := src.op, when_ := s.cyc (cidOf k) }
      let s := s.modWave k (fun w => { w with deferred := insertFault w.deferred d })
      match w.stat with
      | .sleeping _ => .next (s.modWave k (fun w => if w.inHandler then w else { w with stat := .ready }))
      | _ => .next s

/-- No load or atomic of a core is on its way to a line, and nothing holds the line. -/
def lineFree (s : State) (cid line : Nat) : Bool :=
  !s.lineHeld line 0xFFFFFFFF
    && !Tbl.any s.reqs (fun _ r => r.cid = cid && r.line = line && (match r.kind with | .atomic .. => true | _ => false))

/-- L1_EVICTION (R182): dirty bytes go to the home slice, then the line is dropped. -/
def execL1Eviction (cid line : Nat) (s : State) : Host.Outcome State Fault Refusal :=
  if lineFree s cid line then .next (s.flushLine cid line) else .next s

/-- Bytes of a line that have stood in the L1 for 8,192 cycles. -/
def timedOut (s : State) (cid line : Nat) (dirty : Bool) : List Nat :=
  (List.range 128).filter (fun o => match Tbl.get? (s.core cid).l1 (128 * line + o) with
    | some b => b.dirty == dirty && decide (b.stamp + 8192 ≤ s.cyc cid)
    | none => false)

/-- L1_DIRTY_TIMEOUT (R201): dirty bytes of 8,192 cycles are written back. -/
def execL1DirtyTimeout (cid line : Nat) (s : State) : Host.Outcome State Fault Refusal :=
  if lineFree s cid line then .next (s.writeBack cid line (timedOut s cid line true)) else .next s

/-- L1_CLEAN_TIMEOUT (R201): clean bytes of 8,192 cycles are dropped. -/
def execL1CleanTimeout (cid line : Nat) (s : State) : Host.Outcome State Fault Refusal :=
  let offs := timedOut s cid line false
  .next (s.modCore cid (fun c => { c with l1 := c.l1.filter (fun e => !(e.1 / 128 == line && offs.contains (e.1 % 128))) }))

/-- PAGE_WALK (R315): a TLB miss walks the tables; a missing translation is recorded (R317). -/
def execPageWalk (cid pasid va : Nat) (k : PKind) (s : State) : Host.Outcome State Fault Refusal :=
  let p := s.partOfCore cid
  if !canonical va then .next s
  else match s.translate cid p pasid va k with
    | (s, .notValid lvl) => .next (s.faultRecord p pasid va k lvl cid 0 (lcCore cid))
    | (s, _) => .next s

end Sys2Proof.Machine
end

