-- ==== Sys2Proof/Machine/Atomic.lean ====
section
/-! DEFINITION. Home atomics (R217 to R221, R395). -/

namespace Sys2Proof.Machine

/-- The exact result of a float operation rounded to FP32 (R217): no `fst` bit is raised. -/
def atomFloat (f : Num → Num → Num × Word) (m b : Nat) : Nat :=
  (deliver .f32 0 0 (f (decodeNum .f32 m) (decodeNum .f32 b)).1).1

/-- R217: the new value of a location of n bits. -/
def atomNew (op : AOp) (n m b c : Nat) : Nat :=
  match op with
  | .add => (m + b) % 2 ^ n
  | .minI => if sextNat 32 b < sextNat 32 m then b else m
  | .maxI => if sextNat 32 m < sextNat 32 b then b else m
  | .minN => min m b
  | .maxN => max m b
  | .and => m &&& b
  | .or => m ||| b
  | .xor => m ^^^ b
  | .exch => b
  | .cas => if m = c then b else m
  | .inc => if b ≤ m then 0 else m + 1
  | .dec => if m = 0 || b < m then b else m - 1
  | .addF => atomFloat (Num.add 0) m b
  | .minF => atomFloat (Num.pick false false) m b
  | .maxF => atomFloat (Num.pick true false) m b

/-- R219: the lanes of a group act in order on a value: what each returns and the value left. -/
def atomGroup (op : AOp) (n : Nat) : Nat → List (Nat × Nat × Nat) → List (Nat × Nat) × Nat
  | m, [] => ([], m)
  | m, (lane, b, c) :: rest =>
    let r := atomGroup op n (atomNew op n m b c) rest
    ((lane, m) :: r.1, r.2)

/-- Requests of an atomic: one for each distinct address (R219); lanes whose virtual addresses lead to one place name one address (DEDUCED, log 32). -/
def askAtomic (c : Ctx) (s : State) (op : AOp) (wide : Bool) (accs : List LaneAcc) (data : Nat → Nat × Nat) : State :=
  ((accs.map (·.place)).eraseDups).foldl (fun s pl =>
    let g := accs.filter (fun a => a.place = pl)
    let line := match pl with | .dev d => d / 128 | _ => 0
    s.addReq { kind := .atomic op wide pl ((g.head?.map (·.addr)).getD 0) (g.map (fun a => (a.lane, data a.lane)))
               cid := c.cid, wave := c.k, op := c.id, pidN := c.p, line := line, home := s.homeSlice (128 * line)
               pasid := c.w.pasid, pages := (g.map (fun a => a.addr / 65536)).eraseDups }) s

/-- R184, R219: nominal completion. -/
def atomNominal (accs : List LaneAcc) : Nat :=
  let big := (accs.map (fun a => (accs.filter (fun b => b.place = a.place)).length)).max?.getD 1
  268 + (big - 1)

/-- R218, R219: an atomic of the lanes in `xs`, whose pairs agree or not (R379). -/
def atomic (c : Ctx) (op : AOp) (wide lane : Bool) (d : Opd) (data : Nat → Nat × Nat) (xs : List (Nat × Nat)) (agree : Bool := true) : Act :=
  (resolve c .g (if wide then 8 else 4) true .write (fun loc => loc ≠ 1) xs).agreed agree (fun s accs =>
    let accs := onePerPair c.w accs
    .ok { st := askAtomic c s op wide accs data, kind := .atomic wide lane (destReg d) [] 0 [], nominal := atomNominal accs })

/-- R219, R379. -/
def execVatom (h : Hints) (op : AOp) (wide : Bool) (sc : Scope) (d a b e : Opd) (s : State) : Host.Outcome State Fault Refusal :=
  laneLevel (.vatom h op wide sc d a b e) h (fun c =>
    let t := if wide then Ty.n64 else .b32
    let data := fun i => ((c.valT t 8 b i [b, e]).toNat, (c.valT t 9 e i [b, e]).toNat)
    let addr := fun i => laneAddr c .g a 0 i
    atomic c op wide true d data ((lanesOf c.act).map (fun i => (i, addr i)))
      (!c.w.prot || pairsAgree c.act (fun i => (addr i, data i)))) s

def execSatom (h : Hints) (op : AOp) (wide : Bool) (sc : Scope) (d a b e : Opd) (s : State) : Host.Outcome State Fault Refusal :=
  waveLevel (.satom h op wide sc d a b e) h (fun c =>
    let t := if wide then Ty.n64 else .b32
    atomic c op wide false d (fun _ => ((c.valT t 8 b 0 [b, e]).toNat, (c.valT t 9 e 0 [b, e]).toNat)) [(0, laneAddr c .g a 0 0)]) s

namespace State

/-- What a group gives its operation: old values, poisoned lanes, or refused lanes. -/
def giveAtomic (s : State) (k op : Nat) (rets : List (Nat × Nat)) (bad : Mask) (refused : List (Nat × Nat)) : State :=
  s.modPend k op (fun p => match p.kind with
    | .atomic w l d rs b rf => { p with kind := .atomic w l d (rs ++ rets) (b ||| bad) (rf ++ refused) }
    | _ => p)

/-- A group is one step at its place (R219, R220, R330). -/
def groupStep (s : State) (r : Req) (op : AOp) (wide : Bool) (pl : Place) (va : Nat) (lanes : List (Nat × Nat × Nat)) : State :=
  let n := if wide then 8 else 4
  let refused := lanes.map (fun l => (l.1, va))
  match pl with
  | .dev a =>
    let s := (s.takeLoads r.cid r.line).flushFor r.cid r.wave r.line
    if !s.admits r.pidN a n true then (s.refuse r.pidN a).giveAtomic r.wave r.op [] 0 refused
    else
      let x := s.homeRead a n
      if x.2.2 then
        (poisonRecord x.1 r.wave va).giveAtomic r.wave r.op [] (maskOf (fun i => lanes.any (fun l => l.1 = i))) []
      else
        let g := atomGroup op (8 * n) (leNat x.2.1) lanes
        (x.1.homeWrite a (leBytes n g.2)).giveAtomic r.wave r.op g.1 0 []
  | .peer e a =>
    if !s.peerOk e then s.giveAtomic r.wave r.op [] 0 refused
    else if !s.peerServes r.pidN e a n then (s.linkTrip e).giveAtomic r.wave r.op [] 0 refused
    else
      let s := s.linkTrip e
      let g := atomGroup op (8 * n) (leNat (Memory.readBytes (s.peerMem e) a n)) lanes
      (s.setPeerMem e (Memory.writeBytes (s.peerMem e) a (leBytes n g.2))).giveAtomic r.wave r.op g.1 0 []
  | _ => s.giveAtomic r.wave r.op [] 0 refused

/-- The register writes of an atomic: the old values; in a protected wave both lanes of a pair (R379). -/
def atomWrites (prot wide lane : Bool) (d : Option Nat) (rets : List (Nat × Nat)) : List RegW :=
  match d with
  | none => []
  | some d =>
    if rets.isEmpty then []
    else
      let rets := if prot && lane then rets.flatMap (fun r => [r, (r.1 + 1, r.2)]) else rets
      let part := fun j => rets.map (fun (r : Nat × Nat) => (r.1, BitVec.ofNat 32 (r.2 / 2 ^ (32 * j))))
      (if wide then [0, 1] else [0]).flatMap (fun j =>
        if lane then [RegW.v (d + j) (part j)] else (part j).map (fun e => RegW.s (d + j) e.2))

/-- The atomic has all its answers (R219, R220): registers, poison, the deferred fault of the lanes refused. -/
def atomStep (s : State) (k op : Nat) (p : Pend) (wide lane : Bool) (d : Option Nat) (rets : List (Nat × Nat)) (bad : Mask)
    (refused : List (Nat × Nat)) : State :=
  if !(s.reqsOf k op).isEmpty then s
  else
    let prot := ((s.wave k).map (·.prot)).getD false
    let bad := if prot && lane then bad ||| (bad <<< 1) else bad
    let s := s.modPend k op (fun p => { p with writes := atomWrites prot wide lane d rets })
    let s := s.opDone k op
    let s := match d with
      | some d => if bad = 0 then s else s.modWave k (fun w => (List.range (if wide then 2 else 1)).foldl (fun w j =>
          if lane then { w with poisonV := Words.put w.poisonV (d + j) (Words.get w.poisonV (d + j) ||| bad) }
          else { w with poisonS := w.poisonS ||| (1#128 <<< (d + j)) }) w)
      | none => s
    if refused.isEmpty then s
    else
      let low := refused.foldl (fun (m : Nat × Nat) e => if e.1 < m.1 then e else m) (refused.headD (0, 0))
      s.soon [.deferredFaultArrive ⟨k, p.id, 0xFFFFFFFF⟩ 6 8 p.pc (maskOf (fun i => refused.any (fun e => e.1 = i))) (BitVec.ofNat 64 low.2)]

end State

/-- ATOMIC_GROUP (R219): a group reaches its home and is performed there, unless its line is held (R228) or no longer
lives at the slice it was sent to (R371). -/
def execAtomicGroup (r : Nat) (s : State) : Host.Outcome State Fault Refusal :=
  match Tbl.get? s.reqs r with
  | none => .next s
  | some q =>
    match q.kind with
    | .atomic op wide pl va lanes =>
      let dev := match pl with | .dev _ => true | _ => false
      if q.moved then .next s
      else if dev && q.home ≠ s.homeNow q.line then .next (s.modReq r (fun x => { x with moved := true }))
      else if dev && s.lineHeld q.line q.wave then .next s
      else
        let t := s.groupStep q op wide pl va lanes
        .next { t with reqs := Tbl.erase t.reqs r }
    | _ => .next s

end Sys2Proof.Machine
end

