-- ==== Sys2Proof/Machine/Sync.lean ====
section
/-! DEFINITION. Fences (R207 to R214), named barriers and `waitf` (R277 to R283). -/

namespace Sys2Proof.Machine

/-- Earlier stores (R213). -/
def storeNeeds (w : Wave) : List Nat :=
  (w.pend.filter (fun p => match p.kind with | .store .. => true | _ => false)).map (·.id)

namespace State

/-- The wave holds no deferred fault of an operation that it will still deliver: in a handler that waits for its end (R345; DEDUCED, log 23: there the arrival
counts), and a batch that ends delivers none (R233). -/
def faultless (s : State) (k op : Nat) : Bool :=
  match s.wave k with
  | some w => w.inHandler || w.stat = .ending || w.deferred.all (fun d => d.op ≠ op)
  | none => true

/-- R208: an operation has completed; for a `cmb`, its requests have been accepted. An access that the home refused completes once its deferred
fault is delivered (R209). -/
def needDone (s : State) (k op : Nat) : Bool :=
  match s.pend k op with
  | none => s.faultless k op
  | some p => match p.kind with
    | .cmb .. => (s.reqsOf k op).isEmpty && s.faultless k op
    | _ => false

def needsDone (s : State) (k : Nat) (needs : List Nat) : Bool := needs.all (s.needDone k)

/-- The write-back of a release can be made: no other party holds a dirty line (R228, R368). -/
def releaseReady (s : State) (k : Nat) (sc : Scope) : Bool :=
  !scopeWide sc || (s.dirtyLines (cidOf k)).all (fun l => !s.lineHeld l k)

/-- R208: a fence completes. Behind an acquire too the dirty bytes go home, where they stay in the L1 as clean ones, so that what the wave has read
before stands where every other party reads (R205; R201 lets an L1 write back at any time; DESIGN CHOICE, log 32). -/
def fenceStep (s : State) (k op : Nat) (kind : FenceK) (sc : Scope) (needs : List Nat) : State :=
  if !s.needsDone k needs || !s.releaseReady k sc then s
  else
    let s := if kind ≠ .acq then s.release k sc else s
    let s := if kind ≠ .rel then (s.acquire (cidOf k) sc).release k sc else s
    s.opDone k op

/-- R213: `dfence` empties the descriptor cache. -/
def dfenceStep (s : State) (k op : Nat) (needs : List Nat) : State :=
  if s.needsDone k needs then (s.modCore (cidOf k) (fun c => { c with dcache := [] })).opDone k op else s

/-- Cores whose instruction caches an `ifence` of a scope empties (R214). -/
def fetchScope (cid : Nat) (sc : Scope) (x : Nat) : Bool :=
  match sc with
  | .wave => false
  | .block => x = cid
  | .cluster => clidOf x = clidOf cid
  | .die => didOf x = didOf cid
  | _ => true

/-- R214: `ifence` completes. -/
def ifenceStep (s : State) (k op : Nat) (sc : Scope) : State :=
  let s := s.modWave k (fun w => { w with ahead := [] })
  let empty := fun (x : Nat) (c : Core) => if fetchScope (cidOf k) sc x then { c with icache := [] } else c
  State.opDone { s with cores := Tbl.mapVal empty s.cores } k op

end State

/-- R214. -/
def ifenceNominal : Scope → Nat
  | .wave => 4 | .block => 4 | .cluster => 30 | _ => 400

def execFence (h : Hints) (k : FenceK) (sc : Scope) (s : State) : Host.Outcome State Fault Refusal :=
  waveLevel (.fence h k sc) h (fun c => .ok { st := c.s, kind := .fence k sc (fenceNeeds c.w), nominal := 4 }) s

def execDfence (h : Hints) (s : State) : Host.Outcome State Fault Refusal :=
  waveLevel (.dfence h) h (fun c => .ok { st := c.s, kind := .dfence (storeNeeds c.w), nominal := 8 }) s

def execIfence (h : Hints) (sc : Scope) (s : State) : Host.Outcome State Fault Refusal :=
  waveLevel (.ifence h sc) h (fun c => .ok { st := c.s, kind := .ifence sc, nominal := ifenceNominal sc }) s

/-! Barriers. -/

/-- The key of a barrier: class and number (R280). -/
def BarF.key (x : BarF) : Nat := 64 * x.cls.toNat + x.num.toNat

/-- R202: the scope of a barrier. -/
def barScope (key : Nat) : Scope := if key / 64 = 0 then .block else if key / 64 = 1 then .cluster else .dev

/-- R279: nominal cycles from a completion until the waiting waves are ready. -/
def barNominal (key : Nat) : Nat := if key / 64 = 0 then 6 else if key / 64 = 1 then 30 else 400

/-- R279: a phase completes at the moment when A ≥ E and T = 0. -/
def Barrier.check (b : Barrier) : Barrier :=
  if b.e ≤ b.a && b.t = 0 then { b with a := 0, phc := b.phc + 1, lcPast := Tbl.set b.lcPast b.phc.toNat (b.lcArr.getD 0), lcArr := none } else b

/-- One operation at a barrier (R281): 0 arrive with a stamp, 1 set E, 2 raise T. -/
def Barrier.operate (b : Barrier) (kind val : Nat) (stamp : BitVec 48) : Barrier :=
  match kind with
  | 0 => { b with a := (b.a + 1) % 65536, lcArr := some (match b.lcArr with | some x => lcMax x stamp | none => stamp) }.check
  | 1 => { b with e := val }.check
  | _ => { b with t := b.t + BitVec.ofNat 32 val }.check

/-- R281: a recorded phase has completed. -/
def phasePast (phc ap : BitVec 16) : Bool := 1 ≤ (phc - ap).toNat && (phc - ap).toNat ≤ 2 ^ 15

namespace State

/-- A barrier as a block names it (R278): its own, its group's, its launch's. -/
def barrierOf (s : State) (b key : Nat) : Option Barrier :=
  match s.block b with
  | none => none
  | some x =>
    match key / 64 with
    | 0 => Tbl.get? x.bars key
    | 1 => x.group.bind (fun g => (Tbl.get? s.groups g).bind (fun y => Tbl.get? y.bars key))
    | _ => (s.launch x.launch).bind (fun l => Tbl.get? l.gbars key)

/-- Change a barrier. -/
def modBarrier (s : State) (b key : Nat) (f : Barrier → Barrier) : State :=
  match s.block b with
  | none => s
  | some x =>
    match key / 64 with
    | 0 => s.modBlock b (fun y => { y with bars := Tbl.modify y.bars key f })
    | 1 => match x.group with
      | some g => s.modGroup g (fun y => { y with bars := Tbl.modify y.bars key f })
      | none => s
    | _ => s.modLaunch x.launch (fun l => { l with gbars := Tbl.modify l.gbars key f })

/-- Two blocks name one barrier by a key (R278). -/
def sameOwner (s : State) (b c key : Nat) : Bool :=
  match s.block b, s.block c with
  | some x, some y => if key / 64 = 0 then b = c else if key / 64 = 1 then x.group.isSome && x.group = y.group else x.launch = y.launch
  | _, _ => false

/-- A change of a barrier takes effect. Where a phase completes, the records that lie 2^15 phases behind stay there, and so stay complete (R281). -/
def changeBarrier (s : State) (b key : Nat) (f : Barrier → Barrier) : State :=
  let t := s.modBarrier b key f
  match s.barrierOf b key, t.barrierOf b key with
  | some x, some y =>
    if x.phc = y.phc then t
    else { t with waves := Tbl.mapVal (fun _ (w : Wave) =>
      if s.sameOwner b w.block key then { w with arr := Tbl.modify w.arr key (fun ap => if 2 ^ 15 < (y.phc - ap).toNat then y.phc - 0x8000 else ap) } else w) t.waves }
  | _, _ => t

/-- R281: an operation of a wave takes effect at its barrier; an arrival is recorded with the phase that it joins. -/
def barOperate (s : State) (k key kind val : Nat) (stamp : BitVec 48) : State :=
  match s.wave k with
  | none => s
  | some w =>
    match s.barrierOf w.block key with
    | none => s
    | some b =>
      let s := if kind = 0 then s.modWave k (fun w => { w with arr := Tbl.set w.arr key b.phc }) else s
      s.changeBarrier w.block key (fun b => b.operate kind val stamp)

end State

/-- A wave has an operation on a barrier that has not taken effect. -/
def barPending (w : Wave) (key : Nat) : Bool :=
  w.pend.any (fun p => match p.kind with | .bar j _ _ _ _ => j = key | _ => false)

def arrivalPending (w : Wave) (key : Nat) : Bool :=
  w.pend.any (fun p => match p.kind with | .bar j 0 _ _ _ => j = key | _ => false)

/-- R281: a wave passes a wait on a barrier: no arrival of it is pending, and its record has no phase or one that has completed. -/
def barPasses (s : State) (w : Wave) (key : Nat) : Bool :=
  !arrivalPending w key && (match Tbl.get? w.arr key, s.barrierOf w.block key with
    | some ap, some b => phasePast b.phc ap
    | _, _ => true)

/-- R280: a name that the owner did not declare. -/
def barIllegal (x : BarF) (c : Ctx) : Option Nat :=
  if (c.s.barrierOf c.w.block (BarF.key x)).isSome then none else some 9

namespace State

/-- R249, R281: a completion is observed: the message of the phase that the record names arrives, the record is cleared, the acquire begins. -/
def barObserve (s : State) (k key : Nat) : State :=
  match s.wave k with
  | none => s
  | some w =>
    let s := match Tbl.get? w.arr key, s.barrierOf w.block key with
      | some ap, some b => s.lcRecv (lcCore (cidOf k)) (Tbl.getD b.lcPast ap.toNat 0)
      | _, _ => s
    (s.modWave k (fun w => { w with arr := Tbl.erase w.arr key })).addAcquire k (barScope key)

/-- R281: an arrival sets out: its release comes first. -/
def barArrive (s : State) (k key : Nat) : State :=
  match s.wave k with
  | none => s
  | some w =>
    let s := s.lcTick (lcCore (cidOf k))
    s.addPend k (.bar key 0 0 (fenceNeeds w) (s.lc (lcCore (cidOf k)))) 1

/-- R281: the wait of a wave. -/
def barWaitStep (s : State) (k key : Nat) : State :=
  match s.wave k with
  | none => s
  | some w => if barPasses s w key then s.barObserve k key else s.modWave k (fun w => { w with stat := .barWait key })

/-- R281: an operation with no release: applied at once, or after the wave's pending ones on the same barrier. -/
def barChange (s : State) (k key kind val : Nat) : State :=
  match s.wave k with
  | none => s
  | some w => if barPending w key then s.addPend k (.bar key kind val [] 0) 1 else s.barOperate k key kind val 0

/-- A pending operation of a wave takes effect at its barrier, in program order (R279, R281). -/
def barStep (s : State) (k op key kind val : Nat) (needs : List Nat) (stamp : BitVec 48) : State :=
  match s.wave k with
  | none => s
  | some w =>
    let first := match w.pend.find? (fun p => match p.kind with | .bar j _ _ _ _ => j = key | _ => false) with
      | some p => p.id = op
      | none => false
    if !first || !s.needsDone k needs || (kind = 0 && !s.releaseReady k (barScope key)) then s
    else
      let s := if kind = 0 then s.release k (barScope key) else s
      (s.opDone k op).barOperate k key kind val stamp

end State

def execBarArr (h : Hints) (x : BarF) (s : State) : Host.Outcome State Fault Refusal :=
  issued (.barArr h x) h false (barIllegal x) (fun c => .ok { st := c.s.barArrive c.k (BarF.key x) }) s

def execBarWait (h : Hints) (x : BarF) (s : State) : Host.Outcome State Fault Refusal :=
  issued (.barWait h x) h false (barIllegal x) (fun c => .ok { st := c.s.barWaitStep c.k (BarF.key x) }) s

def execBarSync (h : Hints) (x : BarF) (s : State) : Host.Outcome State Fault Refusal :=
  issued (.barSync h x) h false (barIllegal x) (fun c =>
    .ok { st := (c.s.barArrive c.k (BarF.key x)).barWaitStep c.k (BarF.key x) }) s

def execBarExp (h : Hints) (x : BarF) (a : Opd) (s : State) : Host.Outcome State Fault Refusal :=
  issued (.barExp h x a) h false (barIllegal x) (fun c =>
    let n := (c.val 0 a 0 [a]).toNat
    if n = 0 || 65535 < n then .trap 2 9 allLanes else .ok { st := c.s.barChange c.k (BarF.key x) 1 n }) s

def execBarTx (h : Hints) (x : BarF) (a : Opd) (s : State) : Host.Outcome State Fault Refusal :=
  issued (.barTx h x a) h false (barIllegal x) (fun c =>
    .ok { st := c.s.barChange c.k (BarF.key x) 2 (c.val 0 a 0 [a]).toNat }) s

def execBarTest (h : Hints) (pr : PairF) (x : BarF) (s : State) : Host.Outcome State Fault Refusal :=
  issued (.barTest h pr x) h false (barIllegal x) (fun c =>
    let b := barPasses c.s c.w (BarF.key x)
    .ok { st := if b then c.s.barObserve c.k (BarF.key x) else c.s, ws := pairWave c pr b }) s

/-- R277. -/
def execWaitf (h : Hints) (k : BitVec 4) (n : BitVec 6) (s : State) : Host.Outcome State Fault Refusal :=
  waveLevel (.waitf h k n) h (fun c =>
    .ok { st := c.s.modWave c.k (fun w => { w with waitFlag := some (k.toNat, n.toNat) }) }) s

/-- BARRIER_WAKE (R279, R281): a wave blocked on a phase that has completed becomes ready and acquires. -/
def execBarrierWake (k : Nat) (s : State) : Host.Outcome State Fault Refusal :=
  match s.wave k with
  | some w =>
    match w.stat with
    | .barWait key => if barPasses s w key then .next ((s.modWave k (fun w => { w with stat := .ready })).barObserve k key) else .next s
    | _ => .next s
  | none => .next s

end Sys2Proof.Machine
end

