-- ==== Sys2Proof/Machine/Combine.lean ====
section
/-! DEFINITION. Combining at home (R222 to R235, R395): requests, method tables, batches, combiner waves. -/

namespace Sys2Proof.Machine

/-! Requests (R224, R225). -/

/-- Requests of a `cmb`: one for each object that its lanes name. -/
def askCombine (c : Ctx) (s : State) (method : Nat) (accs : List LaneAcc) (data : Nat → Word × Word) : State :=
  ((accs.map (·.place)).eraseDups).foldl (fun s pl =>
    match pl with
    | .dev a =>
      let g := accs.filter (fun x => x.place = pl)
      s.addReq { kind := .combine a ((g.head?.map (·.addr)).getD 0) method c.w.pasid (g.map (fun x => (x.lane, data x.lane)))
                 cid := c.cid, wave := c.k, op := c.id, pidN := c.p, line := a / 128, home := s.homeSlice (a / 128 * 128)
                 stamp := s.lc (lcCore c.cid), pasid := c.w.pasid, pages := (g.map (fun x => x.addr / 65536)).eraseDups }
    | _ => s) s

/-- R224, R225, R379: the object's line leaves the L1 before the requests do (R221). -/
def execCmb (h : Hints) (d a b : Opd) (k : BitVec 6) (s : State) : Host.Outcome State Fault Refusal :=
  laneLevel (.cmb h d a b k) h (fun c =>
    let data := fun i => (c.valN 8 b 0 i, c.valN 8 b 1 i)
    let addr := fun i => laneAddr c .g a 0 i
    let agree := !c.w.prot || pairsAgree c.act (fun i => (addr i, data i))
    (resolve c .g 4 true .write (fun loc => loc = 0) ((lanesOf c.act).map (fun i => (i, addr i)))).agreed agree (fun s accs =>
      let accs := onePerPair c.w accs
      let lines := (devLines accs).eraseDups
      if lines.any (fun l => s.lineHeld l c.k && !(s.l1Dirty c.cid l).isEmpty) then .wait c.s
      else
        let s := lines.foldl (fun s l => s.flushLine c.cid l) s
        let s := s.lcTick (lcCore c.cid)
        .ok { st := askCombine c s k.toNat accs data
              kind := .cmb ((destReg d).getD 0) (maskOf (fun i => accs.any (fun x => x.lane = i))) [], nominal := 260 })) s

/-! Method tables (R222, R223). -/

/-- A table entry: invalid where ARGS is 3 or BATCH is not 1 to 96. -/
def methodOf (x : Nat) : Method :=
  let args := bitsOf x 66 65
  let batch := bitsOf x 79 73
  { code := bitsOf x 63 0, valid := bitOf x 64 && args ≠ 3 && 1 ≤ batch && batch ≤ 96, args := args, repl := bitOf x 67
    size := bitsOf x 72 68, batch := batch, window := bitsOf x 91 80, pasid := bitsOf x 115 96 }

/-- One entry as a load finds it: invalid where the partition does not own the span. -/
def State.readMethod (s : State) (p idx : Nat) : State × Method :=
  let a := (s.part p).mtb / 1024 * 1024 + 16 * idx
  if s.admits p a 16 false then
    let r := s.homeRead a 16
    (r.1, methodOf (leNat r.2.1))
  else (s.refuse p a, {})

/-- CHU_MTLOAD_ENTRY (R223): the write of CHU_MTLOAD.IDX begins a load; while BUSY = 1 the write has no effect (DESIGN CHOICE, log 19: the manual gives none). -/
def execChuMtloadEntry (p idx : Nat) (s : State) : Host.Outcome State Fault Refusal :=
  .next (s.modPart p (fun q => if q.mtbusy.isSome then q else { q with mtbusy := some (some (idx % 64)) }))

/-- CHU_MTLOAD_ALL (R223); while BUSY = 1 as the entry form. -/
def execChuMtloadAll (p : Nat) (s : State) : Host.Outcome State Fault Refusal :=
  .next (s.modPart p (fun q => if q.mtbusy.isSome then q else { q with mtbusy := some none }))

/-- CHU_MTLOAD_DONE (R223): every CHU holds the copy and BUSY clears. -/
def execChuMtloadDone (p : Nat) (s : State) : Host.Outcome State Fault Refusal :=
  match (s.part p).mtbusy with
  | none => .next s
  | some which =>
    let idxs := match which with | some i => [i] | none => List.range 64
    let s := idxs.foldl (fun s i =>
      match s.readMethod p i with
      | (s, m) => s.modPart p (fun q => { q with methods := Tbl.set q.methods i m })) s
    .next (s.modPart p (fun q => { q with mtbusy := none }))

/-! Batches (R227). -/

/-- The cycle count in which a batch's times run: that of the core of its first request (R11). -/
def batchNow (s : State) (x : Batch) : Nat :=
  match x.reqs.head? with
  | some r => s.cyc r.cid
  | none => 0

/-- Requests pending at a CHU (R227). -/
def chuPending (s : State) (slice : Nat) : Nat :=
  (s.batches.map (fun e => if e.2.slice = slice && e.2.stat ≠ .running then e.2.reqs.length else 0)).sum

/-- The batch still forming for a key: a partition, the object by its device address, whatever the virtual addresses that name it (DEDUCED, log 19), and a method.
The object address that the method finds is the first request's. -/
def formingFor (s : State) (p dpa method : Nat) : Option (Nat × Batch) :=
  Tbl.find? s.batches (fun _ b => b.pidN = p && b.dpa = dpa && b.method = method && b.stat = .forming)

/-- R225: the reason for which a request of an object at an address is refused. -/
def chuRefusal (q : Part) (m : Method) (pasid va : Nat) : Option Nat :=
  if !q.chuEn then some 1
  else if !m.valid then some 2
  else if m.pasid ≠ pasid then some 3
  else if va / 128 ≠ (va + 4 * (m.size + 1) - 1) / 128 then some 4
  else none

namespace State

/-- A batch is formed: no request joins it any more. -/
def formBatch (s : State) (b : Nat) : State :=
  { s.modBatch b (fun x => { x with stat := .formed, formSeq := s.nextId }) with nextId := s.nextId + 1 }

/-- One request joins the batch of its key, or opens one (R227). -/
def joinBatch (s : State) (p slice dpa va method : Nat) (r : BReq) : State :=
  match formingFor s p dpa method with
  | some (b, x) =>
    let s := s.modBatch b (fun x => { x with reqs := x.reqs ++ [r] })
    if x.ent.batch ≤ x.reqs.length + 1 then s.formBatch b else s
  | none =>
    let m := Tbl.getD (s.part p).methods method {}
    let b := s.nextId
    let x : Batch := { pidN := p, slice := slice, dpa := dpa, va := va, method := method, ent := m, reqs := [r], opened := s.cyc r.cid }
    let s := { s with batches := Tbl.set s.batches b x, nextId := s.nextId + 1 }
    if m.batch ≤ 1 then s.formBatch b else s

/-- What a `cmb` has received includes the status 0 or 3 (R226). -/
def sawCommit (d : Nat) (ws : List RegW) : Bool :=
  ws.any (fun r => match r with | .v n xs => n = d + 1 && xs.any (fun e => e.2 = 0 || e.2 = 3) | _ => false)

/-- Every lane of a `cmb` has its status or its fault: the registers are written and the flag falls (R53, R226). A committed status acquires (R202). -/
def cmbFinish (s : State) (k op : Nat) : State :=
  match s.pend k op with
  | some p => match p.kind with
    | .cmb d wait rets =>
      if wait = 0 && rets.isEmpty && (s.reqsOf k op).isEmpty then
        (if sawCommit d p.writes then s.acquire (cidOf k) .dev else s).opDone k op
      else s
    | _ => s
  | none => s

/-- Lanes that the home refuses for their span get no status, but the deferred fault of R185 (R225). -/
def refuseCombine (s : State) (r : Req) (va : Nat) (lanes : List Nat) : State :=
  let m := maskOf (fun i => i ∈ lanes)
  let pc := ((s.pend r.wave r.op).map (·.pc)).getD 0
  let s := s.modPend r.wave r.op (fun p => match p.kind with
    | .cmb d wait rets => { p with kind := .cmb d (wait &&& ~~~m) rets }
    | _ => p)
  s.soon [.deferredFaultArrive ⟨r.wave, r.op, 0xFFFFFFFF⟩ 6 8 pc m (BitVec.ofNat 64 va)]

/-- The requests of one `cmb` for one object at their CHU (R225, R227); `n` names the request. -/
def combineArrive (s : State) (n : Nat) (r : Req) (dpa va method pasid : Nat) (lanes : List (Nat × Word × Word)) : State :=
  if !s.admits r.pidN (128 * r.line) 128 true then
    (s.refuse r.pidN dpa).refuseCombine r va (lanes.map (·.1))
  else
    let s := s.lcRecv (lcChu r.home) r.stamp
    let s := lanes.foldl (fun s l =>
      let ent := match formingFor s r.pidN dpa method with
        | some (_, x) => x.ent
        | none => Tbl.getD (s.part r.pidN).methods method {}
      let q : BReq := { cid := r.cid, wave := r.wave, op := r.op, lane := l.1, a0 := l.2.1, a1 := l.2.2, req := n, stamp := r.stamp }
      match chuRefusal (s.part r.pidN) ent pasid va with
      | some reason =>
        let s := (s.logPart r.pidN { src := 0x300 + r.home, kind := 7, reason := reason, wb := method, addr := va }).1
        s.giveStatus r.pidN r.home q 1 none
      | none => s.joinBatch r.pidN r.home dpa va method q) s
    match formingFor s r.pidN dpa method with
    | some (b, x) => if x.ent.window = 0 then s.formBatch b else s
    | none => s

end State

/-- CMB_REQUEST_ARRIVE (R225, R227, R371): the requests of a wave arrive in its issue order, while the CHU has room. -/
def execCmbRequestArrive (r : Nat) (s : State) : Host.Outcome State Fault Refusal :=
  match Tbl.get? s.reqs r with
  | none => .next s
  | some q =>
    match q.kind with
    | .combine dpa va method pasid lanes =>
      let earlier := Tbl.any s.reqs (fun _ x => x.wave = q.wave && x.op < q.op && (match x.kind with | .combine .. => true | _ => false))
      if q.moved || earlier || (q.home = s.homeNow q.line && (s.recHeld q.line || 1536 < chuPending s q.home + lanes.length)) then .next s
      else if q.home ≠ s.homeNow q.line then .next (s.modReq r (fun x => { x with moved := true }))
      else .next (State.cmbFinish { s.combineArrive r q dpa va method pasid lanes with reqs := Tbl.erase s.reqs r } q.wave q.op)
    | _ => .next s

/-- BATCH_WINDOW_EXPIRE (R227): WINDOW cycles have passed since the first request. -/
def execBatchWindowExpire (b : Nat) (s : State) : Host.Outcome State Fault Refusal :=
  match Tbl.get? s.batches b with
  | some x => if x.stat = .forming && x.opened + x.ent.window ≤ batchNow s x then .next (s.formBatch b) else .next s
  | none => .next s

/-! Dispatch (R228, R229). -/

/-- The combiner slot of a core. -/
def combinerKey (cid : Nat) : Nat := 128 * cid + 64

/-- R228: the free combiner slot for a batch, in the order of choice. -/
def combinerFor (s : State) (x : Batch) : Option Nat :=
  let cores := s.coresOf x.pidN
  let cands := ((x.reqs.head?.map (·.cid)).toList.filter (· ∈ cores)) ++ cores.filter (fun c => didOf c = x.slice / 128) ++ cores
  cands.find? (fun c => (s.wave (combinerKey c)).isNone)

/-- The formed batches of a partition in the order of their formation. -/
def formedBatches (s : State) (p : Nat) : List (Nat × Batch) :=
  (s.batches.filter (fun e => e.2.pidN = p && e.2.stat = .formed)).mergeSort (fun a b => a.2.formSeq ≤ b.2.formSeq)

/-- R227: a batch runs for the line of this one. -/
def lineRuns (s : State) (x : Batch) : Bool :=
  Tbl.any s.batches (fun _ y => y.stat = .running && y.dpa / 128 = x.dpa / 128) || s.recHeld (x.dpa / 128)

/-- R229: the initial state of a combiner wave of a batch. -/
def combinerWave (b : Nat) (x : Batch) (words : List Word) (bad : Bool) : Wave :=
  let n := x.reqs.length
  let mask := maskOf (· < n)
  let lanes := fun (f : Nat → BReq → Word) => x.reqs.zipIdx.map (fun e => (e.2, f e.2 e.1))
  let w : Wave := { pidN := x.pidN, pasid := x.ent.pasid, prio := 3, batch := some b, vregs := 64, sregs := 32
                    pc := BitVec.ofNat 64 x.ent.code, emask := mask, plive := 0xFFFFFFFF }
  let w := w.vput 0 ((List.range 96).map (fun i => (i, BitVec.ofNat 32 i)))
  let w := if 1 ≤ x.ent.args then w.vput 1 (lanes (fun _ r => r.a0)) else w
  let w := if 2 ≤ x.ent.args then w.vput 2 (lanes (fun _ r => r.a1)) else w
  let w := w.vput 3 (lanes (fun _ r => BitVec.ofNat 32 (r.cid + 256 * wbOf r.wave + 2 ^ 14 * r.lane)))
  let w := w.vput 4 (words.zipIdx.map (fun e => (e.2, e.1)))
  let w := if bad then { w with poisonV := Words.put w.poisonV 4 (maskOf (· < words.length)) } else w
  let w := (List.range 3).foldl (fun w j => w.sput j (mask.extractLsb' (32 * j) 32)) w
  let w := (w.sput 10 (BitVec.ofNat 32 x.va)).sput 11 (BitVec.ofNat 32 (x.va / 2 ^ 32))
  (w.sput 12 (BitVec.ofNat 32 n)).sput 13 (BitVec.ofNat 32 x.method)

/-- A batch starts on a core: its object is read, the stamps of its requests arrive, and its wave begins with an acquire. -/
def State.startBatch (s : State) (b : Nat) (x : Batch) (cid : Nat) : State :=
  let k := combinerKey cid
  let r := s.homeRead x.dpa (4 * (x.ent.size + 1))
  let words := (List.range (x.ent.size + 1)).map (fun j => BitVec.ofNat 32 (leNat ((r.2.1.drop (4 * j)).take 4)))
  let s := x.reqs.foldl (fun s q => s.lcRecv (lcChu x.slice) q.stamp) r.1
  let s := s.lcRecv (lcCore cid) (s.lc (lcChu x.slice))
  let s := s.dropClean cid
  let s := s.modBatch b (fun x => { x with stat := .running, wave := some k, started := s.cyc cid })
  let s := (s.setWave k (combinerWave b x words r.2.2)).enterRotation k 3
  if r.2.2 then poisonRecord s k x.va else s

/-- BATCH_DISPATCH (R228): the first formed batch of a partition whose line is free goes to a free combiner slot; none of a member that does not hold the clusters of its group (R324). -/
def execBatchDispatch (p : Nat) (s : State) : Host.Outcome State Fault Refusal :=
  match if !s.holds p then none else (formedBatches s p).find? (fun e => !lineRuns s e.2) with
  | none => .next s
  | some (b, x) =>
    match combinerFor s x with
    | none => .next s
    | some cid => .next (s.startBatch b x cid)

/-- R233: the time limit of a batch in cycles. -/
def batchLimit (q : Part) : Nat := 256 * max q.tmo 1

/-- BATCH_TIMEOUT (R233): a batch over its time limit is killed. -/
def execBatchTimeout (b : Nat) (s : State) : Host.Outcome State Fault Refusal :=
  match Tbl.get? s.batches b with
  | none => .next s
  | some x =>
    match x.wave with
    | none => .next s
    | some k =>
      if (s.wave k).elim false (fun w => w.stat = .ending) then .next s
      else if x.started + batchLimit (s.part x.pidN) < s.cyc (cidOf k) then
        .next (s.endBatch b (some (0, 3, ((s.wave k).map (·.pc.toNat)).getD 0)))
      else .next s

/-- The register writes that statuses bring to a `cmb` (R226); in a protected wave those of both lanes of a pair (R379). -/
def cmbWrites (prot : Bool) (d : Nat) (rets : List CmbRet) : List RegW :=
  let both := fun (l : Nat) => if prot then [l, l + 1] else [l]
  let status := rets.flatMap (fun r => (both r.lane).map (fun l => (l, BitVec.ofNat 32 r.status)))
  let reply := rets.flatMap (fun r => match r.status, r.reply with
    | 0, some v => (both r.lane).map (fun l => (l, v))
    | _, _ => [])
  (if reply.isEmpty then [] else [RegW.v d reply]) ++ (if status.isEmpty then [] else [RegW.v (d + 1) status])

/-- CMB_STATUS_ARRIVE (R226): the statuses on their way to a `cmb` arrive; with the last the registers are written and the flag falls (R53). -/
def execCmbStatusArrive (k op : Nat) (s : State) : Host.Outcome State Fault Refusal :=
  match s.wave k, s.pend k op with
  | some w, some p =>
    match p.kind with
    | .cmb d wait rets =>
      let got := maskOf (fun i => rets.any (fun r => r.lane = i))
      let s := rets.foldl (fun s r => s.lcRecv (lcCore (cidOf k)) r.stamp) s
      let s := s.modPend k op (fun x => { x with kind := .cmb d (wait &&& ~~~got) [], writes := x.writes ++ cmbWrites w.prot d rets })
      .next (s.cmbFinish k op)
    | _ => .next s
  | _, _ => .next s

/-! The instructions of a combiner wave (R231). -/

/-- The batch of a combiner wave. -/
def batchOf (c : Ctx) : Option (Nat × Batch) := c.w.batch.bind (fun b => (Tbl.get? c.s.batches b).map (fun x => (b, x)))

/-- `ccommit` issues: a release at `.dev`, then the write of the object. -/
def commitAct (c : Ctx) (words : Option (Nat → List Word)) : Act :=
  match batchOf c with
  | none => Act.writes c []
  | some (b, x) =>
    .ok { st := c.s.modBatch b (fun x => { x with commitIssued := true, commitWords := words.map (fun f => f (x.ent.size + 1)) })
          kind := .commit (fenceNeeds c.w), nominal := if didOf c.cid = x.slice / 128 then 260 else 420 }

def execCcommit (h : Hints) (k : BitVec 6) (s : State) : Host.Outcome State Fault Refusal :=
  waveLevel (.ccommit h k) h (fun c =>
    let n := match batchOf c with | some (_, x) => x.ent.size + 1 | none => 0
    let bad := c.w.badV k.toNat &&& maskOf (· < n)
    if bad ≠ 0 then .trap 4 0 bad
    else commitAct c (some (fun n => (List.range n).map (fun i => c.rdV 0 k.toNat i)))) s

def execCcommitNw (h : Hints) (s : State) : Host.Outcome State Fault Refusal :=
  waveLevel (.ccommitNw h) h (fun c => commitAct c none) s

/-- R231: a reply for each acting lane of the batch; the first one stands. -/
def execCreply (h : Hints) (a : Opd) (s : State) : Host.Outcome State Fault Refusal :=
  laneLevel (.creply h a) h (fun c =>
    match batchOf c with
    | none => Act.writes c []
    | some (b, _) =>
      let s := c.s.lcTick (lcCore c.cid)
      .ok { st := s.modBatch b (fun x => { x with reqs := x.reqs.zipIdx.map (fun e =>
              if c.act.getLsbD e.2 && e.1.reply.isNone && !e.1.answered then
                { e.1 with reply := some (c.val 0 a e.2 [a]), stamp := s.lc (lcCore c.cid) }
              else e.1) })
            kind := .reply, nominal := 12 }) s

/-- R231, R233: the batch ends. -/
def execCend (h : Hints) (s : State) : Host.Outcome State Fault Refusal :=
  waveLevel (.cend h) h (fun c => .ok { st := c.s.endBatch (c.w.batch.getD 0) none }) s

namespace State

/-- R231: a commit is performed once its release has been; a batch that was to end behind it is over (R233). -/
def commitStep (s : State) (k op : Nat) (needs : List Nat) : State :=
  if !s.needsDone k needs || !s.releaseReady k .dev then s
  else
    let s := s.release k .dev
    match (s.wave k).bind (·.batch) with
    | some b =>
      let t := (s.commitBatch b).opDone k op
      if (s.wave k).elim false (fun w => w.stat = .ending) then t.closeBatch b else t
    | none => s.opDone k op

/-- R231: replies leave after the commit has taken place. -/
def replyStep (s : State) (k op : Nat) : State :=
  match (s.wave k).bind (·.batch) with
  | none => s.opDone k op
  | some b =>
    match Tbl.get? s.batches b with
    | none => s.opDone k op
    | some x =>
      if !x.committed then s
      else
        let s := x.reqs.foldl (fun s r =>
          match r.reply with
          | some v => if r.answered then s
                      else if x.ent.repl then s.giveStatus x.pidN x.slice r 0 (some v) else s.giveStatus x.pidN x.slice r 3 none
          | none => s) s
        (s.modBatch b (fun x => { x with reqs := x.reqs.map (fun r => if r.reply.isSome then { r with answered := true } else r) })).opDone k op

end State

end Sys2Proof.Machine
end

