-- ==== Sys2Proof/Machine/Cp.lean ====
section
/-! DEFINITION. Memory accesses of the command processors (R263, R269, R317, R319): they wait for pages as waves do, without a wave. -/

namespace Sys2Proof.Machine

/-- How an access of a command processor ends. -/
inductive Cp (α : Type) where
  | ok (a : α)
  /-- it waits for a page -/
  | wait
  /-- unresolvable, or refused -/
  | bad
  deriving DecidableEq, Repr

/-- A walker of a command processor (R317): the clock key of its unit, and what it does: a submission queue (class 0), a device queue (1), the
end of a launch (2), its write of NEXT (3), a node of a graph slot (4), the slot itself (5), a table load (6), a solve (7). -/
def walkerOf (u cls n : Nat) : Nat := u + 4096 * (8 * n + cls)

/-- The 64 KiB pages of a range: addresses and lengths of its parts. -/
def pageParts : Nat → Nat → Nat → List (Nat × Nat)
  | 0, _, _ => []
  | f + 1, va, n =>
    if n = 0 then []
    else
      let m := min n (65536 - va % 65536)
      (va, m) :: pageParts f ((va + m) % 2 ^ 64) (n - m)

namespace State

/-- The place of one part, for the walker `u`; a wait is noted, and the walker does not walk to the page again before R315 or R319 ends it; a walk
that a REPLAY has made for it is used (R319). -/
def cpPlace (s : State) (p pasid u va : Nat) (k : PKind) : State × Cp Place :=
  let key : FaultKey := { pasid := pasid, page := va / 65536, kind := k }
  let q := s.part p
  if !canonical va then (s, .bad)
  else if (u, key) ∈ q.cpRefused then (s.modPart p (fun q => { q with cpRefused := q.cpRefused.filter (· ≠ (u, key)) }), .bad)
  else if (u, key) ∈ q.cpWait || q.cpHost.any (fun x => x.2 = (u, key)) then (s, .wait)
  else match q.cpMade.find? (fun x => x.1 = u && x.2.1 = key) with
  | some x => (s.modPart p (fun q => { q with cpMade := q.cpMade.filter (· ≠ x) }), .ok (x.2.2.place (va % 2 ^ 57)))
  | none => match s.translateCp p pasid va k with
    | (s, .ok e) => (s, .ok (e.place (va % 2 ^ 57)))
    | (s, .notValid lvl) =>
      ((s.faultRecord p pasid va k lvl 0xFFFF 3 (u % 4096)).modPart p (fun q => { q with cpWait := q.cpWait ++ [(u, key)] }), .wait)
    | (s, .hostAbsent io) => (s.modPart p (fun q => { q with cpHost := q.cpHost ++ [(io, u, key)] }), .wait)
    | (s, _) => (s, .bad)

/-- The places of a range, all or none. -/
def cpPlaces (s : State) (p pasid u : Nat) (k : PKind) : List (Nat × Nat) → State × Cp (List (Place × Nat))
  | [] => (s, .ok [])
  | (va, n) :: rest =>
    match s.cpPlace p pasid u va k with
    | (s, .ok pl) =>
      match s.cpPlaces p pasid u k rest with
      | (s, .ok ps) => (s, .ok ((pl, n) :: ps))
      | r => r
    | (s, .wait) => (s, .wait)
    | (s, .bad) => (s, .bad)

/-- Bytes read under an address space, at the home slices (R211), later where a line of them is held (R228, R368). Poisoned data are unresolvable. -/
def cpRead (s : State) (p pasid u va n : Nat) : State × Cp (List Byte) :=
  match s.cpPlaces p pasid u .read (pageParts (n / 65536 + 2) va n) with
  | (s, .ok ps) =>
    if ps.any (fun x => match x.1 with | .dev a => s.rangeHeld a x.2 | _ => false) then (s, .wait)
    else ps.foldl (fun (r : State × Cp (List Byte)) x =>
      match r.2 with
      | .ok bs =>
        match r.1.placeRead p x.1 x.2 with
        | (s, some (b, false)) => (s, .ok (bs ++ b))
        | (s, _) => (s, .bad)
      | _ => r) (s, .ok [])
  | (s, .wait) => (s, .wait)
  | (s, .bad) => (s, .bad)

/-- Bytes written under an address space; behind a held line they wait their turn (`homePut`). -/
def cpWrite (s : State) (p pasid u va : Nat) (bs : List Byte) : State × Cp Unit :=
  match s.cpPlaces p pasid u .write (pageParts (bs.length / 65536 + 2) va bs.length) with
  | (s, .ok ps) =>
    let parts := pageParts (bs.length / 65536 + 2) va bs.length
    let r := (ps.zip parts).foldl (fun (r : State × List Byte × Bool) x =>
      if r.2.2 then
        match r.1.placeWrite p x.1.1 (r.2.1.take x.1.2) (some (p, pasid, x.2.1 / 65536)) with
        | (s, ok) => (s, r.2.1.drop x.1.2, ok)
      else r) (s, bs, true)
    (r.1, if r.2.2 then .ok () else .bad)
  | (s, .wait) => (s, .wait)
  | (s, .bad) => (s, .bad)

/-- R348, KIND 16: an access of a command processor failed. -/
def cpError (s : State) (p va : Nat) : State := (s.logPart p { src := 0x500 + s.cpOf p, kind := 16, addr := va }).1

end State

end Sys2Proof.Machine
end

