-- ==== Sys2Proof/Machine/Launch.lean ====
section
/-! DEFINITION. Queues, launches and dispatch (R23 to R33, R68, R115, R259 to R271): launch records and their checks, the fit of blocks on cores, placement, completion, `spawn`. -/

namespace Sys2Proof.Machine

/-! Records (R262, R68). -/

/-- A little-endian field of a record. -/
def fieldAt (bs : List Byte) (off n : Nat) : Nat := leNat ((bs.drop off).take n)

def zeroAt (bs : List Byte) (off n : Nat) : Bool := ((bs.drop off).take n).all (· = 0)

/-- R262. -/
def lrecOf (bs : List Byte) : LRec :=
  { desc := fieldAt bs 0 8, text := fieldAt bs 8 8, x := fieldAt bs 16 4, y := fieldAt bs 20 4, z := fieldAt bs 24 4
    next := fieldAt bs 28 4, args := fieldAt bs 32 8, kbase := fieldAt bs 40 8, ksize := fieldAt bs 48 4, flags := fieldAt bs 52 4
    nstride := fieldAt bs 56 4, nlog := fieldAt bs 64 8, done := fieldAt bs 72 8, doneval := fieldAt bs 80 8
    reservedZero := zeroAt bs 60 4 && zeroAt bs 88 40 && fieldAt bs 52 4 / 2 ^ 12 = 0 }

namespace LRec

def total (r : LRec) : Nat := r.x * r.y * r.z
def prio (r : LRec) : Nat := bitsOf r.flags 1 0
def energy (r : LRec) : Nat := bitsOf r.flags 3 2
def trace (r : LRec) : Bool := bitOf r.flags 4
def cor (r : LRec) : Bool := bitOf r.flags 5
def nmode (r : LRec) : Nat := bitsOf r.flags 7 6
def gbar (r : LRec) : Nat := bitsOf r.flags 11 8

end LRec

/-- R66: the parameters of an extent. -/
def extentL (d : Nat) : Nat := if d ≤ 1 then 0 else (d - 1).log2 + 1
def extentM (d : Nat) : Nat := (2 ^ (32 + extentL d) + d - 1) / d

/-- R68: one shape entry; none where a check fails. -/
def shapeOfBytes (bs : List Byte) : Option (List Extent) :=
  let n := fieldAt bs 0 4
  let es := (List.range n).map (fun j => ({ d := fieldAt bs (16 + 16 * j) 4, l := fieldAt bs (20 + 16 * j) 4, m := fieldAt bs (24 + 16 * j) 8 } : Extent))
  if n = 0 || 5 < n then none
  else if !zeroAt bs 4 12 || !zeroAt bs (16 + 16 * n) (80 - 16 * n) then none
  else if es.all (fun e => e.d ≠ 0 && e.l = extentL e.d && e.m = extentM e.d) then some es
  else none

/-- Shape entries present in a mask, ascending. -/
def shapeKeys (mask : Nat) : List Nat := (List.range 16).filter (fun k => mask.testBit k)

/-- Length of a descriptor. -/
def descLength (head : List Byte) : Nat := 64 + 96 * (shapeKeys (fieldAt head 28 2)).length

/-- A descriptor (R68), and whether it passes every check of R68 and the limits of R64. -/
def descOf (bs : List Byte) : KDesc × Bool :=
  let mask := fieldAt bs 28 2
  let shapes := (shapeKeys mask).zipIdx.map (fun e => (e.1, shapeOfBytes ((bs.drop (64 + 96 * e.2)).take 96)))
  let d : KDesc :=
    { entry := fieldAt bs 0 8, size := fieldAt bs 8 4, vregs := fieldAt bs 12 2, sregs := fieldAt bs 14 1, w := fieldAt bs 15 1
      scratch := fieldAt bs 16 4, barriers := fieldAt bs 20 1, acc := fieldAt bs 21 1, g := fieldAt bs 22 1, ncb := fieldAt bs 23 1
      plive := BitVec.ofNat 32 (fieldAt bs 24 4), shapeMask := mask, shapes := shapes.map (fun e => (e.1, e.2.getD [])) }
  (d, d.vregs % 32 = 0 && 32 ≤ d.vregs && d.vregs ≤ 512 && d.sregs % 16 = 0 && 16 ≤ d.sregs && d.sregs ≤ 128
      && 1 ≤ d.w && d.w ≤ 16 && d.scratch ≤ 262144 && d.barriers ≤ 64 && d.acc ≤ 8 && 1 ≤ d.g && d.g ≤ 4 && d.ncb ≤ 16
      && zeroAt bs 30 34 && shapes.all (fun e => e.2.isSome))

/-! The fit of a block on a core (R25, R26). -/

/-- Waves of a quad of a core, combiner slots apart. -/
def quadWaves (s : State) (cid quad : Nat) : List (Nat × Wave) :=
  s.waves.filter (fun e => cidOf e.1 = cid && slotOf e.1 ≠ 64 && slotOf e.1 / 16 = quad)

/-- Vector-register units of a wave (R25). -/
def vregUnits (vregs : Nat) : Nat := (vregs + 31) / 32

/-- Free slots (ascending numbers in the quad) and free units of each quad. -/
def quadRoom (s : State) (cid : Nat) : List (List Nat × Nat) :=
  (List.range 4).map (fun q =>
    let ws := quadWaves s cid q
    ((List.range 16).filter (fun i => !ws.any (fun e => slotOf e.1 % 16 = i)), 16 - (ws.map (fun e => vregUnits e.2.vregs)).sum))

/-- R26: each wave goes to the quad with the most free units among those with a free slot; answers the slots of the waves. -/
def assignWaves (units : Nat) : Nat → List (List Nat × Nat) → Option (List Nat)
  | 0, _ => some []
  | n + 1, room =>
    let best := room.zipIdx.foldl (fun (b : Option (Nat × Nat)) e =>
      match e.1.1, b with
      | [], _ => b
      | _ :: _, none => some (e.2, e.1.2)
      | _ :: _, some (_, u) => if u < e.1.2 then some (e.2, e.1.2) else b) none
    match best with
    | none => none
    | some (q, u) =>
      if u < units then none
      else match (room.getD q ([], 0)).1 with
        | [] => none
        | slot :: rest => (assignWaves units n (room.set q (rest, u - units))).map (fun l => (16 * q + slot) :: l)

/-- Blocks resident on a core. -/
def coreBlocks (s : State) (cid : Nat) : List (Nat × Block) := s.blocks.filter (fun e => e.2.cid = cid)

/-- The scratchpad bytes of an allocation (R25). -/
def scratchSize (n : Nat) : Nat := (n + 1023) / 1024 * 1024

/-- The lowest free range of a core's scratchpad. -/
def scratchRoom (s : State) (cid size : Nat) : Option Nat :=
  let used := (coreBlocks s cid).map (fun e => (e.2.scrBase, e.2.scrSize))
  ((List.range 257).map (· * 1024)).find? (fun b =>
    decide (b + size ≤ 262144) && used.all (fun u => decide (u.1 + u.2 ≤ b) || decide (b + size ≤ u.1)))

/-- Physical accumulator slots free on a core. -/
def freeSlots (s : State) (cid : Nat) : List Nat := (List.range 8).filter (fun i => !Tbl.has (s.core cid).mat.bound i)

/-- The shape store for a kernel on a core: the one that it holds, or a free one (R115); outer none: no store. -/
def shapeStoreFor (s : State) (cid pasid descVa : Nat) (d : KDesc) : Option (Option Nat) :=
  if d.shapeMask = 0 then some none
  else match Tbl.find? (s.core cid).shapes (fun _ st => st.descVa = descVa && st.pasid = pasid) with
    | some (n, _) => some (some n)
    | none => ((List.range 4).find? (fun n => !Tbl.has (s.core cid).shapes n)).map some

/-- Where a block goes on a core. -/
structure Fit where
  slots : List Nat
  scr : Nat
  acc : List Nat
  store : Option Nat
  deriving DecidableEq, Repr

/-- R25, R26: the fit of a block on a core, if every resource is free there at once. -/
def fitOn (s : State) (cid pasid descVa : Nat) (d : KDesc) : Option Fit :=
  if 64 < ((coreBlocks s cid).map (fun e => e.2.nbar)).sum + d.barriers || (freeSlots s cid).length < d.acc then none
  else match assignWaves (vregUnits d.vregs) d.w (quadRoom s cid), scratchRoom s cid (scratchSize d.scratch), shapeStoreFor s cid pasid descVa d with
    | some slots, some scr, some store => some { slots := slots, scr := scr, acc := (freeSlots s cid).take d.acc, store := store }
    | _, _, _ => none

/-- The cluster barriers that are free in a cluster, and whether so many are. -/
def freeCbars (s : State) (cl : Nat) : List Nat :=
  (List.range 16).filter (fun i => !Tbl.any s.groups (fun _ g => g.clid = cl && g.cphys.contains i))

def clusterBarsFree (s : State) (cl n : Nat) : Bool := decide (n ≤ (freeCbars s cl).length)

/-! Waves of a block (R33, R229). -/

/-- R23: the coordinates of a block. -/
def blockCoords (r : LRec) (lin : Nat) : Nat × Nat × Nat := (lin % r.x, lin / r.x % r.y, lin / (r.x * r.y))

/-- The state of a wave at its start (R33, R126, R377). -/
def startWave (l : Launch) (b lin wid : Nat) : Wave :=
  let xyz := blockCoords l.rc lin
  let w : Wave := { pidN := l.pidN, pasid := l.pasid, prio := l.rc.prio, block := b, wid := wid, vregs := l.desc.vregs, sregs := l.desc.sregs
                    pc := BitVec.ofNat 64 (l.rc.text + l.desc.entry), plive := pliveFix l.desc.plive, prot := l.prot
                    nmode := l.rc.nmode, nlog := l.rc.nlog, nstride := l.rc.nstride, gwave := lin * l.desc.w + wid, traced := l.rc.trace }
  let w := w.vput 0 ((List.range 96).map (fun i =>
    (i, BitVec.ofNat 32 (if l.prot then 48 * wid + i / 2 else 96 * wid + i))))
  let vals : List Nat := [2 ^ 32 - 1, 2 ^ 32 - 1, 2 ^ 32 - 1, lin, xyz.1, xyz.2.1, xyz.2.2, wid, l.rc.args % 2 ^ 32, l.rc.args / 2 ^ 32]
  vals.zipIdx.foldl (fun w e => w.sput e.2 (BitVec.ofNat 32 e.1)) w

/-- Barriers of an owner at its placement (R278). -/
def newBarriers (base n e : Nat) : Tbl Barrier := (List.range n).map (fun i => (base + i, { e := e % 65536 }))

/-- The shape stores with the one for a kernel: loaded if it is new, else shared as it stands (R115). -/
def shapesFor (t : Tbl ShapeStore) (n : Option Nat) (l : Launch) : Tbl ShapeStore :=
  match n with
  | some n => if Tbl.has t n then t else Tbl.set t n { descVa := l.rc.desc, pasid := l.pasid, shapes := l.desc.shapes }
  | none => t

namespace State

/-- A block takes its place on a core: its resources, its cleared scratchpad (R176), its shape entries, its waves, the acquire of R202. -/
def placeOn (s : State) (lid : Nat) (l : Launch) (lin cid rank : Nat) (group : Option Nat) (f : Fit) : State :=
  let b := s.nextId
  let s := { s with nextId := s.nextId + 1 }
  let ks := f.slots.map (fun i => 128 * cid + i)
  let size := scratchSize l.desc.scratch
  let slots := f.acc.zipIdx.map (fun e => (e.2, ({ phys := e.1, placed := true } : SlotBind)))
  let blk : Block := { launch := lid, lin := lin, cid := cid, rank := rank, group := group, waves := ks, scrBase := f.scr, scrSize := size
                       nbar := l.desc.barriers, bars := newBarriers 0 l.desc.barriers l.desc.w, slots := slots, store := f.store }
  let s := { s with blocks := Tbl.set s.blocks b blk }
  let s := s.modCore cid (fun c =>
    let mat := { c.mat with bound := f.acc.foldl (fun t i => Tbl.set t i b) c.mat.bound
                            acc := c.mat.acc.filter (fun e => !f.acc.contains (e.1 / 9216)) }
    { c with scr := c.scr.filter (fun e => e.1 < f.scr || f.scr + size ≤ e.1), mat := mat
             scrErr := c.scrErr.filter (fun o => o < f.scr || f.scr + size ≤ o)
             shapes := shapesFor c.shapes f.store l })
  let s := (s.lcRecv (lcCore cid) l.stamp).dropClean cid
  let s := ks.zipIdx.foldl (fun s e => (((s.setWave e.1 (startWave l b lin e.2)).enterRotation e.1 l.rc.prio).syncPacket e.1)) s
  s.modLaunch lid (fun l => { l with live := l.live + 1, placedAt := Tbl.set l.placedAt (clidOf cid) (Tbl.getD l.placedAt (clidOf cid) 0 + 1) })

/-- The cores of a partition, starting after its previous placement (R265). -/
def rotation (s : State) (p : Nat) : List Nat :=
  let cs := s.coresOf p
  let last := (s.part p).lastCid
  cs.filter (last < ·) ++ cs.filter (· ≤ last)

/-- The clusters of a partition in the same rotating order. -/
def rotationCl (s : State) (p : Nat) : List Nat :=
  let cs := ((s.coresOf p).map clidOf).eraseDups
  let last := clidOf (s.part p).lastCid
  cs.filter (last < ·) ++ cs.filter (· ≤ last)

/-- Where the next block or group of a launch goes (R24, R265, R266): a core and a fit for each rank. `ok` says which cores may take it.
Of a group that a NEXT inside it has begun, the ranks from NEXT on are left. -/
def spotFor (s : State) (p : Nat) (l : Launch) (ok : Nat → Bool) : Option (List (Nat × Fit)) :=
  let fit := fun cid => if ok cid then fitOn s cid l.pasid l.rc.desc l.desc else none
  if l.desc.g = 1 then
    ((s.rotation p).filterMap (fun cid =>
      if clusterBarsFree s (clidOf cid) l.desc.ncb then (fit cid).map (fun f => [(cid, f)]) else none)).head?
  else
    ((s.rotationCl p).filterMap (fun cl =>
      if clusterBarsFree s cl l.desc.ncb then
        ((List.range l.desc.g).drop (l.next % l.desc.g)).mapM (fun m => (fit (4 * cl + m)).map (fun f => (4 * cl + m, f)))
      else none)).head?

/-- Take the spot for the next block or group of a launch. -/
def takeSpot (s : State) (p lid : Nat) (l : Launch) (spot : List (Nat × Fit)) : State :=
  let g := s.nextId
  let grouped := 1 < l.desc.g || 0 < l.desc.ncb
  let s := if grouped then
      { s with nextId := s.nextId + 1
               groups := Tbl.set s.groups g { launch := lid, clid := clidOf ((spot.head?.map (·.1)).getD 0), ncb := l.desc.ncb
                                              cphys := (freeCbars s (clidOf ((spot.head?.map (·.1)).getD 0))).take l.desc.ncb
                                              bars := newBarriers 64 l.desc.ncb (l.desc.g * l.desc.w) } }
    else s
  let s := spot.zipIdx.foldl (fun (s : State) e =>
    let b := s.nextId
    let s := s.placeOn lid l (l.next + e.2) e.1.1 ((l.next + e.2) % max 1 l.desc.g) (if grouped then some g else none) e.1.2
    if grouped then s.modGroup g (fun x => { x with blocks := x.blocks ++ [b] }) else s) s
  let s := s.modPart p (fun q => { q with lastCid := ((spot.getLast?.map (·.1)).getD q.lastCid), lastPlace := some (s.cyc (12 * 4 * s.cpOf p)) })
  s.modLaunch lid (fun l => { l with next := l.next + spot.length })

/-- Every remaining block of a launch placed, one after the other; none where one finds no place (R265, COR). -/
def placeAll (ok : Nat → Bool) : Nat → State → Nat → Nat → Option State
  | 0, s, _, _ => some s
  | n + 1, s, p, lid =>
    match s.launch lid with
    | none => some s
    | some l =>
      if l.rc.total ≤ l.next then some s
      else match s.spotFor p l ok with
        | none => none
        | some spot => placeAll ok n (s.takeSpot p lid l spot) p lid

/-- The cores of a partition with nothing resident (R263, reasons 7 and 8). -/
def emptied (s : State) (p : Nat) : State :=
  let cs := s.coresOf p
  { s with waves := s.waves.filter (fun e => cidOf e.1 ∉ cs), blocks := s.blocks.filter (fun e => e.2.cid ∉ cs)
           groups := s.groups.filter (fun e => !(cs.map clidOf).contains e.2.clid)
           cores := Tbl.mapVal (fun cid c => if cid ∈ cs then { c with shapes := [], mat := { c.mat with bound := [] } } else c) s.cores }

/-- Blocks that can be resident on the device at once, at most. -/
def maxBlocks : Nat := 144 * 64

/-- R263: the first failing reason that a record and its descriptor show. `d` none: the descriptor was not read; else as `descOf` gives it.
Reason 2 asks for a G of R24, 1 to 4; another one is left to reason 5. -/
def launchReason (s : State) (p pasid : Nat) (r : LRec) (d : Option (KDesc × Bool)) : Option Nat :=
  let e := s.emptied p
  let probe : KDesc → Launch := fun k => { pidN := p, pasid := pasid, src := .sub 0 0, prio := 0, seq := 0, rc := { r with next := 0 }, desc := k }
  let desc := (d.filter (·.2)).map (·.1)
  let on := fun (f : KDesc → Bool) => match desc with | some k => f k | none => false
  if r.x = 0 || r.y = 0 || r.z = 0 || 2 ^ 32 - 1 < r.total then some 1
  else if (match d with | some (k, _) => 1 ≤ k.g && k.g ≤ 4 && r.total % k.g ≠ 0 | none => false) then some 2
  else if r.nmode = 3 || ((r.nmode = 1 || r.nmode = 2) && (r.nlog % 128 ≠ 0 || r.nstride % 384 ≠ 0)) then some 3
  else if 2 ≤ r.energy || !r.reservedZero || r.desc % 64 ≠ 0 || r.text % 4 ≠ 0 || r.done % 16 ≠ 0 then some 4
  else if (d.isSome && desc.isNone) || r.kbase % 256 ≠ 0 || r.ksize % 16 ≠ 0 || 65536 < r.ksize then some 5
  else if 8 < r.gbar || (0 < r.gbar && !r.cor) then some 6
  else if on (fun k => (e.spotFor p (probe k) (fun _ => true)).isNone) then some 7
  else if r.cor && on (fun k => decide (maxBlocks < r.total) || (placeAll (fun _ => true) maxBlocks
      { e with launches := Tbl.set e.launches e.nextId (probe k), nextId := e.nextId + 1 } p e.nextId).isNone) then some 8
  else if r.total < r.next then some 9
  else if desc.isNone then some 10
  else none

/-- The descriptor of a record, read under its PASID (R263). -/
def readDesc (s : State) (p pasid u : Nat) (r : LRec) : State × Cp (Option (KDesc × Bool)) :=
  if r.desc % 64 ≠ 0 then (s, .ok none)
  else match s.cpRead p pasid u r.desc 64 with
    | (s, .wait) => (s, .wait)
    | (s, .bad) => (s, .ok none)
    | (s, .ok head) =>
      match s.cpRead p pasid u r.desc (descLength head) with
      | (s, .wait) => (s, .wait)
      | (s, .bad) => (s, .ok none)
      | (s, .ok bs) => (s, .ok (some (descOf bs)))

/-- A launch starts or is refused (R263): answers its number. A refused launch has no block to place. -/
def startLaunch (s : State) (p pasid : Nat) (src : LSrc) (prio : Nat) (recVa : Option Nat) (r : LRec) (prot : Bool)
    (stamp : Option (BitVec 48)) (d : Option (KDesc × Bool)) : State × Nat :=
  let lid := s.nextId
  let refused := s.launchReason p pasid r d
  let l : Launch :=
    { pidN := p, pasid := pasid, src := src, prio := prio, seq := lid, recVa := recVa, rc := r, desc := ((d.filter (·.2)).map (·.1)).getD {}
      next := if refused.isSome then r.total else r.next, status := refused.getD 0, prot := prot
      stamp := stamp.getD (s.lc (lcDispatcher (s.cpOf p))) }
  ({ s with launches := Tbl.set s.launches lid l, nextId := s.nextId + 1 }, lid)

end State

/-! Submission queues (R259, R260). -/

/-- LOG2N outside its range reads as 4. -/
def ringLog (n hi : Nat) : Nat := if 4 ≤ n && n ≤ hi then n else 4

/-- R260: whether a kick of value k is accepted, and the sticky bits it sets. -/
def kickCheck (k idx head : BitVec 32) (n : Nat) : Bool × Bool × Bool :=
  let ahead := 1 ≤ (k - idx).toNat && (k - idx).toNat ≤ 2 ^ 31 - 1
  let fits := decide ((k - head).toNat ≤ n)
  (ahead && fits, !fits, !ahead)

/-- SUB_KICK (R260). -/
def execSubKick (p q : Nat) (k : BitVec 32) (s : State) : Host.Outcome State Fault Refusal :=
  .next (s.modPart p (fun x =>
    let u := Tbl.getD x.subs q {}
    let r := kickCheck k u.kick u.head (2 ^ ringLog u.log2n 16)
    { x with subs := Tbl.set x.subs q { u with kick := if r.1 then k else u.kick, ovf := u.ovf || r.2.1, back := u.back || r.2.2 } }))

namespace State

def modSub (s : State) (p q : Nat) (f : SubQ → SubQ) : State :=
  s.modPart p (fun x => { x with subs := Tbl.set x.subs q (f (Tbl.getD x.subs q {})) })

/-- A launch of a queue has not completed (R267, ORD). -/
def queueBusy (s : State) (p q : Nat) : Bool :=
  Tbl.any s.launches (fun _ l => l.pidN = p && (match l.src with | .sub j _ => j = q | _ => false))

/-- R263, R324: the next record of a submission queue. -/
def startSub (s : State) (p q : Nat) : State :=
  let x := s.part p
  let u := Tbl.getD x.subs q {}
  if x.pstate ≠ 0 || !s.holds p || !u.en || u.stat = 2 || u.head = u.kick || (u.ord && s.queueBusy p q) then s
  else
    let lc := walkerOf (lcDispatcher (s.cpOf p)) 0 q
    let va := (u.base + 128 * (u.head.toNat % 2 ^ ringLog u.log2n 16)) % 2 ^ 64
    match s.cpRead p u.pasid lc va 128 with
    | (s, .wait) => s
    | (s, .bad) => (s.cpError p va).modSub p q (fun u => { u with head := u.head + 1, done := u.done + 1 })
    | (s, .ok bs) =>
      let r := lrecOf bs
      match s.readDesc p u.pasid lc r with
      | (s, .ok d) =>
        (s.startLaunch p u.pasid (.sub q u.head.toNat) u.prio (some va) r (x.plmSq.getLsbD q) none d).1.modSub p q
          (fun u => { u with head := u.head + 1 })
      | (s, _) => s

/-- R270, R271, R324: the oldest entry of a device queue that has not started. -/
def startDev (s : State) (p n : Nat) : State :=
  let x := s.part p
  if x.pstate ≠ 0 || !s.holds p then s
  else match x.devq.find? (fun e => e.queue = n) with
    | none => s
    | some e =>
      let r := lrecOf e.bytes
      match s.readDesc p e.pasid (walkerOf (lcDispatcher (s.cpOf p)) 1 n) r with
      | (s, .ok d) =>
        (s.startLaunch p e.pasid (.dev n 0) n (some e.va) r (x.plmSpw && e.prot) (some e.stamp) d).1.modPart p
          (fun x => { x with devq := x.devq.erase e })
      | (s, _) => s

end State

/-- LAUNCH_START (R263): queues 0 to 15 are the submission queues, 16 to 19 the device queues. -/
def execLaunchStart (p q : Nat) (s : State) : Host.Outcome State Fault Refusal :=
  .next (if q < 16 then s.startSub p q else s.startDev p (q - 16))

/-! Placement (R264 to R267). -/

/-- Launches of a partition with blocks to place, in the order of R264. -/
def placeOrder (s : State) (p : Nat) : List (Nat × Launch) :=
  (s.launches.filter (fun e => e.2.pidN = p && e.2.next < e.2.rc.total)).mergeSort (fun a b =>
    decide (b.2.prio < a.2.prio) || (a.2.prio = b.2.prio && decide (a.2.seq ≤ b.2.seq)))

/-- R266: the cores that a deferrable launch may use. -/
def energyOk (s : State) (l : Launch) (cid : Nat) : Bool := l.rc.energy ≠ 1 || !(s.die (didOf cid)).negative

namespace State

/-- A placement of a launch's next block or group, or of all its blocks (COR), on the cores allowed. -/
def tryPlace (s : State) (p lid : Nat) (l : Launch) (ok : Nat → Bool) : Option State :=
  if l.rc.cor then
    (placeAll ok maxBlocks (s.modLaunch lid (fun l => { l with corPlaced := true, gbars := newBarriers 128 l.rc.gbar (l.rc.total * l.desc.w) })) p lid)
  else (s.spotFor p l ok).map (s.takeSpot p lid l)

/-- R264, R266: the first launch that is not held for energy is served; no later one while it fits nowhere. -/
def serve (s : State) (p : Nat) : List (Nat × Launch) → State
  | [] => s
  | (lid, l) :: rest =>
    match s.tryPlace p lid l (energyOk s l) with
    | some s' => s'
    | none => if l.rc.energy = 1 && (s.tryPlace p lid l (fun _ => true)).isSome then s.serve p rest else s

end State

/-- BLOCK_PLACE (R264, R265, R308): at most one block or group every 4 cycles; saved blocks are restored first. -/
def execBlockPlace (p : Nat) (s : State) : Host.Outcome State Fault Refusal :=
  let q := s.part p
  let due := match q.lastPlace with | some t => decide (t + 4 ≤ s.cyc (48 * s.cpOf p)) | none => true
  if q.pstate ≠ 0 || !s.holds p || !q.saved.isEmpty || !due then .next s else .next (s.serve p (placeOrder s p))

/-! End of a launch (R268, R269). -/

namespace State

/-- The cores of a partition hold no dirty byte that cannot be written back now. -/
def partReleasable (s : State) (p : Nat) : Bool :=
  (s.coresOf p).all (fun cid => (s.dirtyLines cid).all (fun l => !s.lineHeld l 0xFFFFFFFF))

/-- The release of a completion at `.sys` (R202): every L1 that ran its blocks is written back. -/
def partRelease (s : State) (p : Nat) : State := (s.coresOf p).foldl (fun s cid => s.writeBackAll cid 0xFFFFFFFF) s

/-- R269, step 3: SUB_DONE counts the launch; what waits on it may go on. -/
def endLaunch (s : State) (lid : Nat) (l : Launch) : State :=
  match l.src with
  | .sub q _ => { s.modSub l.pidN q (fun u => { u with done := u.done + 1 }) with launches := Tbl.erase s.launches lid }
  | .dev _ _ => { s with launches := Tbl.erase s.launches lid }
  | _ => s.modLaunch lid (fun l => { l with fin := true })

/-- R269, steps 1 and 2: the release and the record; false while the write waits. -/
def completeLaunch (s : State) (l : Launch) : State × Bool :=
  let u := lcDispatcher (s.cpOf l.pidN)
  if l.rc.done = 0 then ((s.partRelease l.pidN).lcTick u, true)
  else
    let s := s.partRelease l.pidN
    if l.rc.done % 16 ≠ 0 then ((s.lcTick u).cpError l.pidN l.rc.done, true)
    else match s.cpWrite l.pidN l.pasid (walkerOf u 2 l.seq) l.rc.done (leBytes 8 l.rc.doneval ++ leBytes 4 l.status ++ leBytes 4 0) with
      | (s, .ok _) => (s.lcTick u, true)
      | (s, .wait) => (s, false)
      | (s, .bad) => ((s.lcTick u).cpError l.pidN l.rc.done, true)

end State

/-- R268: every block has been placed and every cluster has reported. -/
def launchDrained (s : State) (lid : Nat) (l : Launch) : Bool :=
  l.rc.total ≤ l.next && l.live = 0 && l.placedAt.all (fun e => Tbl.getD l.retiredAt e.1 0 = e.2)
    && !Tbl.any s.parts (fun _ q => q.saved.any (fun b => b.launch = lid))

/-- LAUNCH_COMPLETE (R268, R269). -/
def execLaunchComplete (lid : Nat) (s : State) : Host.Outcome State Fault Refusal :=
  match s.launch lid with
  | none => .next s
  | some l =>
    if l.fin || !launchDrained s lid l || !s.partReleasable l.pidN then .next s
    else match s.completeLaunch l with
      | (s, true) => .next (s.endLaunch lid l)
      | (s, false) => .next s

/-! `spawn` (R271). -/

/-- The record is read as a `.g` load of the wave, in two runs of 64 bytes; a precise fault names the record's address (R342). -/
def execSpawn (h : Hints) (pr : PairF) (a : Opd) (n : BitVec 2) (s : State) : Host.Outcome State Fault Refusal :=
  waveLevel (.spawn h pr a n) h (fun c =>
    let va := (c.val64 0 a).toNat
    match resolve c .g 64 true .read (fun _ => true) [(0, va), (1, (va + 64) % 2 ^ 64)] with
    | .trap s reason _ _ => .trap 6 reason 1 (BitVec.ofNat 64 va) 0 (some s)
    | .wait s => .wait s
    | .ok s accs =>
      let (s, accs) := sampleLoads c .g s accs
      let s := s.lcTick (lcCore c.cid)
      .ok { st := s.askLoad c.k c.id c.p accs, kind := .spawn pr va n.toNat accs (s.lc (lcCore c.cid)), nominal := 32 }) s

namespace State

/-- Entries in use of a device queue (R270). -/
def devUsed (s : State) (p n : Nat) : Nat :=
  ((s.part p).devq.filter (fun e => e.queue = n)).length
    + (s.launches.filter (fun e => e.2.pidN = p && (match e.2.src with | .dev j _ => j = n | _ => false))).length

/-- R271: the record has been read: an entry is taken, or not. -/
def spawnStep (s : State) (k op : Nat) (p : Pend) (pr : PairF) (va n : Nat) (accs : List LaneAcc) (stamp : BitVec 48) : State :=
  match s.wave k with
  | none => s
  | some w =>
    if !(s.reqsOf k op).isEmpty then s
    else
      let refused := accs.any (·.refused)
      let bad := accs.any (·.poison)
      let taken := !refused && !bad && s.devUsed w.pidN n < 4096
      let pt := pr.pt.toNat
      let pf := pr.pf.toNat
      let ws := if pt = 0 || pf = 0 then []
        else RegW.q pt taken :: (if pf = pt then [] else [RegW.q pf (!taken)])
      let s := if taken then
          s.modPart w.pidN (fun q => { q with devq := q.devq ++
            [{ queue := n, bytes := accs.flatMap (fun x => x.got.filterMap id), va := va, pasid := w.pasid, prot := w.prot, stamp := stamp }] })
        else s
      let s := (s.modPend k op (fun p => { p with writes := ws })).opDone k op
      let s := if bad && !refused then poisonRecord s k va else s
      if refused then s.soon [.deferredFaultArrive ⟨k, p.id, 0xFFFFFFFF⟩ 6 8 p.pc 1 (BitVec.ofNat 64 va)] else s

end State

end Sys2Proof.Machine
end

