-- ==== Sys2Proof/Machine/Complete.lean ====
section
/-! DEFINITION. The completion of long-latency operations (R53, R55, R80, R121, R127, R146, R208, R213, R214, R219, R231, R271, R281). -/

namespace Sys2Proof.Machine

/-- LONG_OP_COMPLETE (R53, R55): an operation whose condition holds takes its last effect, writes its result and lowers its
flag. Loads, stores, combine requests and engine commands complete by steps of their own. -/
def execLongOpComplete (k op : Nat) (s : State) : Host.Outcome State Fault Refusal :=
  match s.pend k op with
  | none => .next s
  | some p =>
    match p.kind with
    | .alu => .next (if p.long then s.opDone k op else s)
    | .cache => .next (if (s.reqsOf k op).isEmpty then s.opDone k op else s)
    | .atomic w l d rets bad refused => .next (s.atomStep k op p w l d rets bad refused)
    | .fence kind sc needs => .next (s.fenceStep k op kind sc needs)
    | .dfence needs => .next (s.dfenceStep k op needs)
    | .ifence sc => .next (s.ifenceStep k op sc)
    | .bar key kind val needs stamp => .next (s.barStep k op key kind val needs stamp)
    | .commit needs => .next (s.commitStep k op needs)
    | .reply => .next (s.replyStep k op)
    | .spawn pr va n accs stamp => .next (s.spawnStep k op p pr va n accs stamp)
    | _ => .next s

end Sys2Proof.Machine
end

