-- ==== Sys2Proof/Machine/FloatFun.lean ====
section
/-! DEFINITION. The special functions (R138 to R140): each is enclosed between two exact values of a precision that rises until both round to the same result. -/

namespace Sys2Proof.Machine

/-! Approximations at scale 2^P: whole numbers whose error is below 2^30 units. -/

/-- Σ of the terms of a series: `step n t` gives term n + 1 from term n. -/
def series (step : Nat → Int → Int) : Nat → Nat → Int → Int → Int
  | 0, _, _, acc => acc
  | fuel + 1, n, t, acc => if t = 0 then acc else series step fuel (n + 1) (step n t) (acc + t)

/-- e^y − 1 for y = x / 2^P in [0, 1). -/
def expm1Fix (p : Nat) (x : Nat) : Nat := (series (fun n t => t * x / 2 ^ p / (n + 1 : Int)) (p + 8) 1 x 0).toNat

/-- Σ t / (2k + 1) over powers of a square: the series of the inverse tangents; `z2` is the square, with its sign, times 2^P. -/
def atanSeries (p : Nat) (z z2 : Int) : Nat → Nat → Int → Int
  | 0, _, acc => acc
  | fuel + 1, k, acc => if z = 0 then acc else atanSeries p (z * z2 / 2 ^ p) z2 fuel (k + 1) (acc + z / (2 * k + 1 : Int))

/-- Inverse hyperbolic tangent of z / 2^P for |z| ≤ 2^P / 3. -/
def atanhFix (p : Nat) (z : Int) : Int := atanSeries p z (z * z / 2 ^ p) (p + 8) 0 0

/-- Inverse tangent of 1 / n. -/
def atanInvFix (p n : Nat) : Int := atanSeries p (2 ^ p / n) (-(2 ^ p / (n * n) : Int)) (p + 8) 0 0

def ln2Fix (p : Nat) : Nat := (2 * atanhFix p (2 ^ p / 3)).toNat
def piFix (p : Nat) : Nat := (16 * atanInvFix p 5 - 4 * atanInvFix p 239).toNat

/-- e^(−y) for y = x / 2^P below 512. -/
def expNegFix (p : Nat) (x : Nat) : Nat :=
  let v := 2 ^ (2 * p) / (2 ^ p + expm1Fix p (x / 2 ^ 10))
  (List.range 10).foldl (fun v _ => v * v / 2 ^ p) v

/-- sin and cos of x / 2^P in [0, 0.8]. -/
def sinFix (p : Nat) (x : Nat) : Nat :=
  (series (fun n t => -(t * (x * x / 2 ^ p : Nat) / 2 ^ p / (((2 * n) * (2 * n + 1) : Nat) : Int))) (p + 8) 1 x 0).toNat
def cosFix (p : Nat) (x : Nat) : Nat :=
  (series (fun n t => -(t * (x * x / 2 ^ p : Nat) / 2 ^ p / (((2 * n - 1) * (2 * n) : Nat) : Int))) (p + 8) 1 (2 ^ p) 0).toNat

/-- The result that two ends of an enclosure agree on, for rising precisions; where none does, the free value of log 8's kind. -/
def settleFun (fn : Nat) (x : Word) (f : Nat → Bool × Nat × Int) : List Nat → Nat × Word
  | [] => ((Config.specialTie fn x).toNat, fstNX)
  | p :: ps =>
    let (neg, s, e) := f p
    let lo := deliver .f32 0 0 (.fin neg (s - 2 ^ 30) e)
    let hi := deliver .f32 0 0 (.fin neg (s + 2 ^ 30) e)
    if lo.1 = hi.1 && (lo.2 ||| fstNX) = (hi.2 ||| fstNX) then (lo.1, lo.2 ||| fstNX) else settleFun fn x f ps

def precisions : List Nat := [64, 160, 400, 900]

/-- An irrational result of a special function. -/
def irrational (fn : Nat) (x : Word) (f : Nat → Bool × Nat × Int) : Nat × Word := settleFun fn x f precisions

/-- An exact result, rounded once. -/
def exactly (x : Num) : Nat × Word := deliver .f32 0 0 x

def invalid : Nat × Word := (canonicalNaN .f32, fstIV)
def f32Inf (neg : Bool) : Nat := infCode (Ty.fmt .f32) + signBit .f32 neg

/-- A quotient of magnitudes with one more bit that tells whether it is exact. -/
def quotient (neg : Bool) (m m' : Nat) (e : Int) : Num :=
  let n := m * 2 ^ 100
  .fin neg (2 * (n / m') + (if n % m' = 0 then 0 else 1)) (e - 101)

/-- The integer square root, two bits of the radicand at a time. -/
def isqrtAux : Nat → Nat → Nat → Nat
  | 0, _, r => r
  | b + 1, n, r => let t := r + 2 ^ b; if t * t ≤ n then isqrtAux b n t else isqrtAux b n r

def isqrt (n : Nat) : Nat := isqrtAux (n.log2 / 2 + 1) n 0

/-- √(m · 2^e). -/
def sqrtNum (m : Nat) (e : Int) : Num :=
  let odd := e % 2 ≠ 0
  let n := (if odd then 2 * m else m) * 2 ^ 120
  let r := isqrt n
  .fin false (2 * r + (if r * r = n then 0 else 1)) ((e - (if odd then 1 else 0)) / 2 - 61)

/-- 1 / √(m · 2^e). -/
def rsqrtNum (m : Nat) (e : Int) : Num :=
  let odd := e % 2 ≠ 0
  let n := if odd then 2 * m else m
  let r := isqrt (2 ^ 200 / n)
  .fin false (2 * r + (if r * r * n = 2 ^ 200 then 0 else 1)) (-((e - (if odd then 1 else 0)) / 2) - 101)

/-- R139, R140. -/
def fRcp (x : Num) : Nat × Word :=
  match x with
  | .nan s => (canonicalNaN .f32, if s then fstIV else 0)
  | .inf n => (signBit .f32 n, 0)
  | .fin n m e => if m = 0 then (f32Inf n, fstDZ) else exactly (quotient n 1 m (-e))

def fDiv (x y : Num) : Nat × Word :=
  match x, y with
  | .fin n m e, .fin n' m' e' =>
    if m = 0 && m' = 0 then invalid
    else if m' = 0 then (f32Inf (n != n'), fstDZ)
    else if m = 0 then (signBit .f32 (n != n'), 0)
    else exactly (quotient (n != n') m m' (e - e'))
  | .inf _, .inf _ => invalid
  | .inf n, .fin n' _ _ => (f32Inf (n != n'), 0)
  | .fin n _ _, .inf n' => (signBit .f32 (n != n'), 0)
  | a, b => (canonicalNaN .f32, if a.isSignalling || b.isSignalling then fstIV else 0)

def fRsq (x : Num) : Nat × Word :=
  match x with
  | .nan s => (canonicalNaN .f32, if s then fstIV else 0)
  | .inf n => if n then invalid else (0, 0)
  | .fin n m e => if m = 0 then (f32Inf n, fstDZ) else if n then invalid else exactly (rsqrtNum m e)

def fSqrt (x : Num) : Nat × Word :=
  match x with
  | .nan s => (canonicalNaN .f32, if s then fstIV else 0)
  | .inf n => if n then invalid else (f32Inf false, 0)
  | .fin n m e => if m = 0 then (signBit .f32 n, 0) else if n then invalid else exactly (sqrtNum m e)

/-- The whole and the fractional part of (−1)^n · m · 2^e for e < 0: floor, and the fraction in units of 2^e. -/
def floorFrac (n : Bool) (m : Nat) (e : Int) : Int × Nat :=
  let u := pow2 (-e)
  let x : Int := if n then -(m * pow2 e : Nat) else (m * pow2 e : Nat)
  (x / u, (x % u).toNat)

def fExp2 (bits : Word) (x : Num) : Nat × Word :=
  match x with
  | .nan s => (canonicalNaN .f32, if s then fstIV else 0)
  | .inf n => if n then (0, 0) else (f32Inf false, 0)
  | .fin n m e =>
    if m = 0 then (0x3F800000, 0)
    else if (if n then 9 else 8) ≤ bitLen m + e then exactly (.fin false 1 (if n then -400 else 400))
    else
      let (w, f) := floorFrac n m e
      if f = 0 then exactly (.fin false 1 w)
      else irrational 0 bits (fun prec =>
        let p := prec + 40
        let y := ln2Fix p * f / pow2 (-e)
        (false, 2 ^ p + expm1Fix p y, w - p))

/-- ln of m / d for a ratio in [2/3, 4/3]. -/
def lnRatio (p m d : Nat) : Int := 2 * atanhFix p (((m : Int) - d) * 2 ^ p / (m + d))

def fLog2 (bits : Word) (x : Num) : Nat × Word :=
  match x with
  | .nan s => (canonicalNaN .f32, if s then fstIV else 0)
  | .inf n => if n then invalid else (f32Inf false, 0)
  | .fin n m e =>
    if m = 0 then (f32Inf true, fstDZ)
    else if n then invalid
    else
      let b := bitLen m
      if m = 2 ^ (b - 1) then exactly (Num.ofInt (e + b - 1))
      else
        let high := 4 * 2 ^ (b - 1) < 3 * m
        let d := if high then 2 ^ b else 2 ^ (b - 1)
        let w : Int := e + b - (if high then 0 else 1)
        irrational 1 bits (fun prec =>
          let p := prec + 80
          let y := w * 2 ^ p + lnRatio p m d * 2 ^ p / ln2Fix p
          (decide (y < 0), y.natAbs, -(p : Int)))

/-- sin(π·t) or cos(π·t) for t = f / u in (0, 1/4]. -/
def sinTurn (f u : Nat) (prec : Nat) : Nat × Int :=
  let p := prec + 40 + (bitLen u - bitLen f)
  (sinFix p (piFix p * f / u), -(p : Int))
def cosTurn (f u : Nat) (prec : Nat) : Nat × Int :=
  let p := prec + 40
  (cosFix p (piFix p * f / u), -(p : Int))

/-- sin(π·t) for t = f / u in (0, 1/2). -/
def sinHalf (neg : Bool) (f u : Nat) (prec : Nat) : Bool × Nat × Int :=
  (neg, if 4 * f ≤ u then sinTurn f u prec else cosTurn (u - 2 * f) (2 * u) prec)

def fSinpi (bits : Word) (x : Num) : Nat × Word :=
  match x with
  | .nan s => (canonicalNaN .f32, if s then fstIV else 0)
  | .inf _ => invalid
  | .fin n m e =>
    let u := pow2 (-e)
    let t := m * pow2 e % (2 * u)
    let neg := n != decide (u ≤ t)
    let f := t % u
    if f = 0 then (signBit .f32 n, 0)
    else if 2 * f = u then (0x3F800000 + signBit .f32 neg, 0)
    else irrational 2 bits (sinHalf neg (if u < 2 * f then u - f else f) u)

def fCospi (bits : Word) (x : Num) : Nat × Word :=
  match x with
  | .nan s => (canonicalNaN .f32, if s then fstIV else 0)
  | .inf _ => invalid
  | .fin _ m e =>
    let u := pow2 (-e)
    let t := m * pow2 e % (2 * u)
    let t := if u < t then 2 * u - t else t
    if 2 * t = u then (0, 0)
    else
      let neg := u < 2 * t
      let t := if neg then u - t else t
      if t = 0 then (0x3F800000 + signBit .f32 neg, 0)
      else irrational 3 bits (sinHalf neg (u - 2 * t) (2 * u))

/-- |x| = m · 2^e times 2^(P + k), as a whole number. -/
def scaled (m : Nat) (e : Int) (p k : Nat) : Nat := (splitAt m e (-((p + k : Nat) : Int))).1

def fTanh (bits : Word) (x : Num) : Nat × Word :=
  match x with
  | .nan s => (canonicalNaN .f32, if s then fstIV else 0)
  | .inf n => (0x3F800000 + signBit .f32 n, 0)
  | .fin n m e =>
    if m = 0 then (signBit .f32 n, 0)
    else
      let top := bitLen m + e
      if 7 ≤ top then irrational 4 bits (fun prec => (n, 2 ^ (prec + 40) - 1, -((prec + 40 : Nat) : Int)))
      else if top ≤ -1 then irrational 4 bits (fun prec =>
        let p := prec + 40 + (-top).toNat
        let w := expm1Fix p (scaled m e p 1)
        (n, w * 2 ^ p / (w + 2 ^ (p + 1)), -(p : Int)))
      else irrational 4 bits (fun prec =>
        let p := prec + 60
        let u := expNegFix p (scaled m e p 1)
        (n, (2 ^ p - u) * 2 ^ p / (2 ^ p + u), -(p : Int)))

def fLgt (bits : Word) (x : Num) : Nat × Word :=
  match x with
  | .nan s => (canonicalNaN .f32, if s then fstIV else 0)
  | .inf n => (if n then 0 else 0x3F800000, 0)
  | .fin n m e =>
    if m = 0 then (0x3F000000, 0)
    else if 10 ≤ bitLen m + e then
      (if n then irrational 5 bits (fun _ => (false, 2 ^ 31, -1000))
       else irrational 5 bits (fun prec => (false, 2 ^ (prec + 40) - 1, -((prec + 40 : Nat) : Int))))
    else irrational 5 bits (fun prec =>
      let p := prec + 60 + 2 * ((splitAt m e 0).1 + 1)
      let u := expNegFix p (scaled m e p 0)
      (false, if n then u * 2 ^ p / (2 ^ p + u) else 2 ^ (2 * p) / (2 ^ p + u), -(p : Int)))

end Sys2Proof.Machine
end

