-- ==== Sys2Proof/Machine/Float.lean ====
section
/-! DEFINITION. Floating-point instructions (R129 to R140). -/

namespace Sys2Proof.Machine

/-- Results of the acting lanes, with the `fst` bits that they raise (R37). -/
def laneResults (c : Ctx) (f : Nat → Nat × Word) : List (Nat × Nat × Word) := (lanesOf c.act).map (fun i => (i, f i))

def raised (rs : List (Nat × Nat × Word)) : Word := rs.foldl (fun m r => m ||| r.2.2) 0

/-- Results written to a vector register. -/
def writeLanes (d : Opd) (rs : List (Nat × Nat × Word)) : List RegW :=
  match d with
  | .v n => [RegW.v n.val (rs.map (fun r => (r.1, BitVec.ofNat 32 r.2.1)))]
  | _ => []

/-- A floating instruction whose results are one register wide. -/
def floatOp (d : Opd) (f : Ctx → Nat → Nat × Word) (c : Ctx) (nominal : Nat := 1) : Act :=
  let rs := laneResults c (f c)
  .ok { st := c.s, ws := writeLanes d rs, fst := raised rs, nominal := nominal }

/-- Deliver a value and raise the bits of its operation as well (R106). -/
def finishNum (t : Ty) (mode : Nat) (x : Num × Word) : Nat × Word :=
  let r := deliver t mode 0 x.1
  (r.1, r.2 ||| x.2)

/-- Apply an operation to each element of a register of a floating type (R131). -/
def eachElem (t : Ty) (f : Nat → Nat × Word) : Nat × Word :=
  if t.bits = 32 then f 0
  else
    let lo := f 0
    let hi := f 1
    (lo.1 + 2 ^ 16 * hi.1, lo.2 ||| hi.2)

/-- Element e of a 32-bit operand of a floating type, as a value with its modifier (R129). -/
def elemNum (t : Ty) (m e : Nat) (x : Word) : Num := (decodeNum t (x.toNat / 2 ^ (t.bits * e) % 2 ^ t.bits)).modify m

/-- Two-operand arithmetic (R132). -/
def floatArith (t : Ty) (fc : FCtl) (d a b : Opd) (op : Nat → Num → Num → Num × Word) (c : Ctx) : Act :=
  floatOp d (fun c i =>
    let x := c.val 0 a i [a, b] t
    let y := c.val 1 b i [a, b] t
    eachElem t (fun e => finishNum t fc.rm.toNat (op fc.rm.toNat (elemNum t fc.ma.toNat e x) (elemNum t fc.mb.toNat e y)))) c

def floatMinMax (max nan : Bool) (fc : FCtl) (d a b : Opd) (c : Ctx) : Act :=
  floatOp d (fun c i => finishNum .f32 0
    (Num.pick max nan (elemNum .f32 fc.ma.toNat 0 (c.val 0 a i [a, b] .f32)) (elemNum .f32 fc.mb.toNat 0 (c.val 1 b i [a, b] .f32)))) c

/-- A function of one FP32 operand (R138); it also receives the operand's pattern after the modifier. -/
def floatFun (fc : FCtl) (d a : Opd) (f : Word → Num → Nat × Word) (nominal : Nat) (c : Ctx) : Act :=
  floatOp d (fun c i =>
    let x := elemNum .f32 fc.ma.toNat 0 (c.val 0 a i [a] .f32)
    f (BitVec.ofNat 32 (deliver .f32 0 0 x).1) x) c nominal

/-- R137. -/
def roundIntegral (mode : Nat) (x : Num) : Nat × Word :=
  match x with
  | .fin n m e =>
    let (w, rem, unit) := splitAt m e 0
    deliver .f32 0 0 (.fin n (w + (roundUp mode 0 n (w % 2 = 1) rem unit).toNat) 0)
  | x => finishNum .f32 0 (x, 0)

/-- The class of R136 as its bit number. -/
def classOf (x : Nat) : Nat :=
  match decodeNum .f32 x with
  | .nan true => 0
  | .nan false => 1
  | .inf n => if n then 2 else 9
  | .fin n m _ =>
    if m = 0 then (if n then 5 else 6)
    else if m < 2 ^ 23 then (if n then 4 else 7) else if n then 3 else 8

def execVaddF (h : Hints) (t : Ty) (fc : FCtl) (d a b : Opd) (s : State) : Host.Outcome State Fault Refusal :=
  laneLevel (.vaddF h t fc d a b) h (floatArith t fc d a b Num.add) s
def execVsubF (h : Hints) (t : Ty) (fc : FCtl) (d a b : Opd) (s : State) : Host.Outcome State Fault Refusal :=
  laneLevel (.vsubF h t fc d a b) h (floatArith t fc d a b (fun m x y => Num.add m x y.neg)) s
def execVmulF (h : Hints) (t : Ty) (fc : FCtl) (d a b : Opd) (s : State) : Host.Outcome State Fault Refusal :=
  laneLevel (.vmulF h t fc d a b) h (floatArith t fc d a b (fun _ => Num.mul)) s
def execVfma (h : Hints) (t : Ty) (neg : Bool) (d a b e : Opd) (s : State) : Host.Outcome State Fault Refusal :=
  laneLevel (.vfma h t neg d a b e) h (floatOp d (fun c i =>
    let os := [a, b, e]
    eachElem t (fun j => finishNum t 0 (Num.fma (elemNum t 0 j (c.val 0 a i os t)) (elemNum t 0 j (c.val 1 b i os t))
      (elemNum t neg.toNat j (c.val 2 e i os t)))))) s
def execVminF (h : Hints) (nan : Bool) (fc : FCtl) (d a b : Opd) (s : State) : Host.Outcome State Fault Refusal :=
  laneLevel (.vminF h nan fc d a b) h (floatMinMax false nan fc d a b) s
def execVmaxF (h : Hints) (nan : Bool) (fc : FCtl) (d a b : Opd) (s : State) : Host.Outcome State Fault Refusal :=
  laneLevel (.vmaxF h nan fc d a b) h (floatMinMax true nan fc d a b) s
/-- R135. -/
def execVcmpF (h : Hints) (clr : Bool) (fc : FCtl) (pr : PairF) (a b : Opd) (s : State) : Host.Outcome State Fault Refusal :=
  laneLevel (.vcmpF h clr fc pr a b) h (fun c =>
    let rs := laneResults c (fun i =>
      let r := Num.compare fc.rm.toNat (elemNum .f32 fc.ma.toNat 0 (c.val 0 a i [a, b] .f32)) (elemNum .f32 fc.mb.toNat 0 (c.val 1 b i [a, b] .f32))
      (r.1.toNat, r.2))
    Act.writes c (pairLanes c pr clr (fun i => rs.any (fun r => r.1 = i && r.2.1 = 1))) (raised rs)) s
/-- R136. -/
def execVclass (h : Hints) (clr : Bool) (pr : PairF) (a : Opd) (m : BitVec 10) (s : State) : Host.Outcome State Fault Refusal :=
  laneLevel (.vclass h clr pr a m) h (fun c =>
    Act.writes c (pairLanes c pr clr (fun i => m.getLsbD (classOf (c.val 0 a i [a] .f32).toNat)))) s
def execVrnd (h : Hints) (fc : FCtl) (d a : Opd) (s : State) : Host.Outcome State Fault Refusal :=
  laneLevel (.vrnd h fc d a) h (floatFun fc d a (fun _ x => roundIntegral fc.rm.toNat x) 1) s
def execVrcp (h : Hints) (fc : FCtl) (d a : Opd) (s : State) : Host.Outcome State Fault Refusal :=
  laneLevel (.vrcp h fc d a) h (floatFun fc d a (fun _ x => fRcp x) 1) s
def execVrsq (h : Hints) (fc : FCtl) (d a : Opd) (s : State) : Host.Outcome State Fault Refusal :=
  laneLevel (.vrsq h fc d a) h (floatFun fc d a (fun _ x => fRsq x) 1) s
def execVexp2 (h : Hints) (fc : FCtl) (d a : Opd) (s : State) : Host.Outcome State Fault Refusal :=
  laneLevel (.vexp2 h fc d a) h (floatFun fc d a fExp2 1) s
def execVlog2 (h : Hints) (fc : FCtl) (d a : Opd) (s : State) : Host.Outcome State Fault Refusal :=
  laneLevel (.vlog2 h fc d a) h (floatFun fc d a fLog2 1) s
def execVsqrt (h : Hints) (fc : FCtl) (d a : Opd) (s : State) : Host.Outcome State Fault Refusal :=
  laneLevel (.vsqrt h fc d a) h (floatFun fc d a (fun _ x => fSqrt x) 20) s
/-- R140. -/
def execVdiv (h : Hints) (fc : FCtl) (d a b : Opd) (s : State) : Host.Outcome State Fault Refusal :=
  laneLevel (.vdiv h fc d a b) h (fun c => floatOp d (fun c i =>
    fDiv (elemNum .f32 fc.ma.toNat 0 (c.val 0 a i [a, b] .f32)) (elemNum .f32 fc.mb.toNat 0 (c.val 1 b i [a, b] .f32))) c 28) s
def execVsinpi (h : Hints) (fc : FCtl) (d a : Opd) (s : State) : Host.Outcome State Fault Refusal :=
  laneLevel (.vsinpi h fc d a) h (floatFun fc d a fSinpi 36) s
def execVcospi (h : Hints) (fc : FCtl) (d a : Opd) (s : State) : Host.Outcome State Fault Refusal :=
  laneLevel (.vcospi h fc d a) h (floatFun fc d a fCospi 36) s
def execVtanh (h : Hints) (fc : FCtl) (d a : Opd) (s : State) : Host.Outcome State Fault Refusal :=
  laneLevel (.vtanh h fc d a) h (floatFun fc d a fTanh 36) s
def execVlgt (h : Hints) (fc : FCtl) (d a : Opd) (s : State) : Host.Outcome State Fault Refusal :=
  laneLevel (.vlgt h fc d a) h (floatFun fc d a fLgt 36) s

end Sys2Proof.Machine
end

