-- ==== Sys2Proof/Machine/Convert.lean ====
section
/-! DEFINITION. Conversions and block quantisation (R141 to R147). -/

namespace Sys2Proof.Machine

/-- Element e, of width w, of the group of registers at an operand (R100); a 32-bit source is the operand itself (R142). `os` are the instruction's sources (R38). -/
def groupElem (c : Ctx) (field : Nat) (t : Ty) (a : Opd) (slot lane : Nat) (os : List Opd := []) : Nat :=
  let w := t.bits
  let e := if w = 32 then 0 else slot
  let reg := fun j => match a with
    | .v _ => (c.valN field a j lane).toNat
    | .s _ => (c.valN field a j lane).toNat
    | o => if j = 0 then (c.val field o lane os t).toNat else 0
  let j := w * e / 32
  let sh := w * e % 32
  (reg j + (if 32 < sh + w then 2 ^ 32 * reg (j + 1) else 0)) / 2 ^ sh % 2 ^ w

/-- Registers, by their number in the group, after element e of width w is set to a code in a stream of old words. -/
def setElem (w e code : Nat) (old : Nat → Nat) : List (Nat × Nat) :=
  let j := w * e / 32
  let sh := w * e % 32
  let put := fun (x k s n : Nat) => x - x / 2 ^ s % 2 ^ n * 2 ^ s + k % 2 ^ n * 2 ^ s
  if sh + w ≤ 32 then [(j, put (old j) code sh w)]
  else [(j, put (old j) code sh (32 - sh)), (j + 1, put (old (j + 1)) (code / 2 ^ (32 - sh)) 0 (sh + w - 32))]

/-- Codes merged into slot e of the group at d, other bits unchanged (R142). -/
def mergeElem (c : Ctx) (d : Opd) (w e : Nat) (rs : List (Nat × Nat × Word)) : List RegW :=
  match d with
  | .v n =>
    let xs := rs.map (fun r => (r.1, setElem w e r.2.1 (fun j => (c.valN 8 d j r.1).toNat)))
    (List.range 2).filterMap (fun k =>
      let ys := xs.filterMap (fun x => x.2[k]?.map (fun y => (x.1, y)))
      match ys with
      | [] => none
      | (_, j, _) :: _ => some (RegW.v (n.val + j) (ys.map (fun y => (y.1, BitVec.ofNat 32 y.2.2)))))
  | _ => []

/-- The 16 random bits of a lane under `.sr` (R103, R142). -/
def randBits (c : Ctx) (mode : BitVec 3) (a r : Opd) (lane : Nat) : Nat :=
  if mode = 4 then (c.val 2 r lane [a, r]).toNat % 2 ^ 16 else 0

/-- R142. -/
def execVcvt (h : Hints) (t : Ty) (src rm : BitVec 3) (e : BitVec 4) (d a r : Opd) (s : State) : Host.Outcome State Fault Refusal :=
  laneLevel (.vcvt h t src rm e d a r) h (fun c =>
    let rs := laneResults c (fun i =>
      let ty := Ty.ofFloatCode src
      deliver t rm.toNat (randBits c rm a r i) (decodeNum ty (groupElem c 0 ty a e.toNat i [a, r])))
    Act.writes c (if t = .f32 then writeLanes d rs else mergeElem c d t.bits e.toNat rs) (raised rs)) s

/-- The value of a pattern of an integer or a floating type. -/
def anyNum (t : Ty) (x : Nat) : Num := if t.isInt then Num.ofInt (asInt t x) else decodeNum t x

/-- R143. -/
def execVcvti (h : Hints) (t : Ty) (src : BitVec 4) (rm e : BitVec 3) (d a r : Opd) (s : State) : Host.Outcome State Fault Refusal :=
  laneLevel (.vcvti h t src rm e d a r) h (fun c =>
    let ty := Ty.ofCode src
    let rs := laneResults c (fun i =>
      let x := anyNum ty (if ty.wide then (c.val64 0 a i [a, r]).toNat else groupElem c 0 ty a e.toNat i [a, r])
      if t.isInt then deliverInt t rm.toNat (randBits c rm a r i) x else deliver t rm.toNat (randBits c rm a r i) x)
    let ws :=
      if t.wide then writeLanes d rs ++ (match d with
        | .v n => [RegW.v (n.val + 1) (rs.map (fun q => (q.1, BitVec.ofNat 32 (q.2.1 / 2 ^ 32))))]
        | _ => [])
      else if t.bits = 32 then writeLanes d rs
      else mergeElem c d t.bits e.toNat rs
    Act.writes c ws (raised rs)) s

/-- R146: MAXF of a block format as m · 2^e. -/
def blockMax : Ty → Nat × Int
  | .e4m3 => (480, 0)
  | .e5m2 => (114688, 0)
  | .e2m1 => (6, 0)
  | _ => (1722, -7)

/-- m · 2^e ≤ m' · 2^e'. -/
def magLe (m : Nat) (e : Int) (m' : Nat) (e' : Int) : Bool := decide (m * pow2 (e - e') ≤ m' * pow2 (e' - e))

/-- R146: the least k with m · 2^e ≤ MAXF · 2^k, clamped. -/
def blockScale (t : Ty) (m : Nat) (e : Int) : Int :=
  if m = 0 then 0
  else
    let mx := blockMax t
    let k0 : Int := e + bitLen m - (mx.2 + bitLen mx.1) - 1
    let k := if magLe m e mx.1 (mx.2 + k0) then k0 else if magLe m e mx.1 (mx.2 + (k0 + 1)) then k0 + 1 else k0 + 2
    min (max k (-127)) 127

/-- The greatest finite magnitude of a list of values, as m · 2^e. -/
def greatestMag (xs : List Num) : Nat × Int :=
  xs.foldl (fun b x => match x with
    | .fin _ m e => if magLe m e b.1 b.2 then b else (m, e)
    | _ => b) (0, 0)

/-- R146: the scale code, the element codes and the `fst` bits of a block; `r j` is the random field of element j. -/
def quantise (t : Ty) (mode : Nat) (r : Nat → Nat) (xs : List Num) : Nat × List Nat × Word :=
  if xs.any Num.isNan then (0xFF, xs.map (fun _ => 0), if xs.any Num.isSignalling then fstIV else 0)
  else
    let g := greatestMag xs
    let k := blockScale t g.1 g.2
    let ys := xs.zipIdx.map (fun x => deliver t mode (r x.2) (match x.1 with | .fin n m e => .fin n m (e - k) | y => y))
    ((k + 127).toNat, ys.map (·.1), ys.foldl (fun m y => m ||| y.2) 0)

/-- The stream that element codes of width w make (R100). -/
def streamOf (w : Nat) (codes : List Nat) : Nat := (codes.zipIdx.map (fun x => x.1 * 2 ^ (w * x.2))).sum

/-- R145, R146. -/
def execVqz (h : Hints) (t : Ty) (sr : Bool) (d a sc r : Opd) (s : State) : Host.Outcome State Fault Refusal :=
  laneLevel (.vqz h t sr d a sc r) h (fun c =>
    let qs := (lanesOf c.act).map (fun i =>
      let xs := (List.range 8).map (fun j => decodeNum .f32 (c.valN 0 a j i).toNat)
      (i, quantise t (if sr then 4 else 0) (fun j => (c.valN 8 r (j / 2) i).toNat / 2 ^ (16 * (j % 2)) % 2 ^ 16) xs))
    let write := fun (o : Opd) (j : Nat) (f : Nat × List Nat × Word → Nat) => match o with
      | .v n => [RegW.v (n.val + j) (qs.map (fun q => (q.1, BitVec.ofNat 32 (f q.2))))]
      | _ => []
    let regs := if t = .e2m1 then 1 else 2
    .ok { st := c.s
          ws := (List.range regs).flatMap (fun j => write d j (fun q => streamOf t.bits q.2.1 / 2 ^ (32 * j))) ++ write sc 0 (·.1)
          fst := qs.foldl (fun m q => m ||| q.2.2.2) 0, nominal := 24 }) s

/-- R99, R147: an element under a scale code. -/
def dequantise (t : Ty) (code scale : Nat) : Nat × Word :=
  if scale = 0xFF then (canonicalNaN .f32, 0)
  else match decodeNum t code with
    | .fin n m e => deliver .f32 0 0 (.fin n m (e + scale - 127))
    | x => deliver .f32 0 0 x

/-- R147. -/
def execVdq (h : Hints) (t : Ty) (d a sc : Opd) (s : State) : Host.Outcome State Fault Refusal :=
  laneLevel (.vdq h t d a sc) h (fun c =>
    let rows := (List.range 8).map (fun j => (j, laneResults c (fun i =>
      dequantise t (groupElem c 0 t a j i) ((c.val 8 sc i [sc]).toNat % 256))))
    let ws := match d with
      | .v n => rows.map (fun r => RegW.v (n.val + r.1) (r.2.map (fun x => (x.1, BitVec.ofNat 32 x.2.1))))
      | _ => []
    Act.writes c ws (rows.foldl (fun m r => m ||| raised r.2) 0)) s

end Sys2Proof.Machine
end

