-- ==== Sys2Proof/WellFormed.lean ====
section
/-! DEFINITION. Which instructions are well formed: those that no check of R59 refuses on their own fields. The checks stand in Machine/Legal.lean. -/

namespace Sys2Proof
namespace Instr

/-- Well formed: no check of R59 fails whatever the wave declares, up to the largest counts of R34. -/
def wf (i : Instr) : Bool := i.illegal 512 128 == none

end Instr
end Sys2Proof
end

