-- ==== Sys2Proof/Decode.lean ====
section
/-! DEFINITION. The instruction word (R42 to R51, R57): its fields, operand codes, the decoder with the checks of R59, and the encoder. -/

namespace Sys2Proof

/-- The fields of a word (R43). -/
structure Fields where
  opc : BitVec 9
  mod : BitVec 5
  d : BitVec 10
  a : BitVec 10
  b : BitVec 10
  c : BitVec 10
  h : Hints
  deriving DecidableEq, Repr

/-- R43: cut a word into its fields. -/
def Fields.ofWord (w : IWord) : Fields :=
  { opc := w.extractLsb' 87 9, mod := w.extractLsb' 80 5
    d := w.extractLsb' 50 10, a := w.extractLsb' 40 10, b := w.extractLsb' 30 10, c := w.extractLsb' 20 10
    h := { fh := w.extractLsb' 85 2, lut := w.extractLsb' 72 8, ga := w.extractLsb' 68 4, gb := w.extractLsb' 64 4,
           gc := w.extractLsb' 60 4, stall := w.extractLsb' 17 3, yld := w.getLsbD 16, wait := w.extractLsb' 4 12,
           set := w.extractLsb' 0 4 } }

/-- R43: join fields into a word. -/
def Fields.toWord (f : Fields) : IWord :=
  (f.opc ++ f.h.fh ++ f.mod ++ f.h.lut ++ f.h.ga ++ f.h.gb ++ f.h.gc ++ f.d ++ f.a ++ f.b ++ f.c ++ f.h.stall
    ++ BitVec.ofBool f.h.yld ++ f.h.wait ++ f.h.set).cast (by decide)

/-- The code of an operand (R46). -/
def Opd.code : Opd → BitVec 10
  | .v n => BitVec.ofNat 10 n.val
  | .s n => BitVec.ofNat 10 (0x200 + n.val)
  | .lane => 0x280 | .wid => 0x281 | .cid => 0x282 | .clid => 0x283 | .did => 0x284 | .pid => 0x285
  | .cyc0 => 0x286 | .cyc1 => 0x287 | .lc0 => 0x288 | .lc1 => 0x289 | .plive => 0x28A | .fst => 0x28B
  | .int n => BitVec.ofNat 10 (0x3E0 + n.val)
  | .fp k => BitVec.ofNat 10 (0x3F0 + k.val)
  | .zero => 0x3FF

/-- The operand with a code; none where R46 marks the code illegal. -/
def Opd.ofCode (c : BitVec 10) : Option Opd :=
  let n := c.toNat
  if h : n < 0x200 then some (.v ⟨n, h⟩)
  else if h : n - 0x200 < 0x80 then some (.s ⟨n - 0x200, h⟩)
  else if n = 0x280 then some .lane
  else if n = 0x281 then some .wid
  else if n = 0x282 then some .cid
  else if n = 0x283 then some .clid
  else if n = 0x284 then some .did
  else if n = 0x285 then some .pid
  else if n = 0x286 then some .cyc0
  else if n = 0x287 then some .cyc1
  else if n = 0x288 then some .lc0
  else if n = 0x289 then some .lc1
  else if n = 0x28A then some .plive
  else if n = 0x28B then some .fst
  else if n < 0x3E0 then none
  else if h : n - 0x3E0 < 16 then some (.int ⟨n - 0x3E0, h⟩)
  else if h : n - 0x3F0 < 8 then some (.fp ⟨n - 0x3F0, h⟩)
  else if n = 0x3FF then some .zero
  else none

/-- The code of a scope (R51). -/
def Scope.code : Scope → BitVec 3
  | .wave => 0 | .block => 1 | .cluster => 2 | .die => 3 | .dev => 4 | .sys => 5

def Scope.ofCode (c : BitVec 3) : Option Scope :=
  match c.toNat with
  | 0 => some .wave | 1 => some .block | 2 => some .cluster | 3 => some .die | 4 => some .dev | 5 => some .sys | _ => none

/-- The code of a space (R174). -/
def Space.code : Space → BitVec 2
  | .g => 0 | .s => 1 | .c => 2 | .k => 3

def Space.ofCode (c : BitVec 2) : Space :=
  match c.toNat with
  | 0 => .g | 1 => .s | 2 => .c | _ => .k

/-- The code of an access size (R189). -/
def MSize.code : MSize → BitVec 3
  | .i8 => 0 | .n8 => 1 | .i16 => 2 | .n16 => 3 | .b32 => 4 | .n64 => 5 | .b128 => 6

def MSize.ofCode (c : BitVec 3) : Option MSize :=
  match c.toNat with
  | 0 => some .i8 | 1 => some .n8 | 2 => some .i16 | 3 => some .n16 | 4 => some .b32 | 5 => some .n64 | 6 => some .b128
  | _ => none

/-- The code of an atomic operation (R217). -/
def AOp.code : AOp → BitVec 4
  | .add => 0 | .minI => 1 | .maxI => 2 | .minN => 3 | .maxN => 4 | .and => 5 | .or => 6 | .xor => 7
  | .exch => 8 | .cas => 9 | .inc => 10 | .dec => 11 | .addF => 12 | .minF => 13 | .maxF => 14

def AOp.ofCode (c : BitVec 4) : Option AOp :=
  match c.toNat with
  | 0 => some .add | 1 => some .minI | 2 => some .maxI | 3 => some .minN | 4 => some .maxN | 5 => some .and
  | 6 => some .or | 7 => some .xor | 8 => some .exch | 9 => some .cas | 10 => some .inc | 11 => some .dec
  | 12 => some .addF | 13 => some .minF | 14 => some .maxF | _ => none

/-- The code of a fence kind (R207). -/
def FenceK.code : FenceK → BitVec 2
  | .acq => 1 | .rel => 2 | .ar => 3

def FenceK.ofCode (c : BitVec 2) : Option FenceK :=
  match c.toNat with
  | 1 => some .acq | 2 => some .rel | 3 => some .ar | _ => none

/-- The code of a shuffle mode (R119). -/
def ShflMode.code : ShflMode → BitVec 2
  | .up => 0 | .down => 1 | .xor => 2 | .rot => 3

def ShflMode.ofCode (c : BitVec 2) : ShflMode :=
  match c.toNat with
  | 0 => .up | 1 => .down | 2 => .xor | _ => .rot

/-- The pair field (R76). -/
def PairF.code (p : PairF) : BitVec 10 := (p.acc ++ p.pf ++ p.pt).cast (by decide)

def PairF.ofCode (c : BitVec 10) : PairF := { pt := c.extractLsb' 0 4, pf := c.extractLsb' 4 4, acc := c.extractLsb' 8 2 }

/-- The float control field (R129). -/
def FCtl.code (c : FCtl) : BitVec 10 := ((0 : BitVec 3) ++ c.rm ++ c.mb ++ c.ma).cast (by decide)

def FCtl.ofCode (c : BitVec 10) : FCtl := { ma := c.extractLsb' 0 2, mb := c.extractLsb' 2 2, rm := c.extractLsb' 4 3 }

/-- The engine order field (R154). -/
def EngOrd.code (o : EngOrd) : BitVec 10 :=
  ((0 : BitVec 5) ++ BitVec.ofBool o.rel ++ BitVec.ofBool o.acq ++ o.scope).cast (by decide)

def EngOrd.ofCode (c : BitVec 10) : EngOrd := { scope := c.extractLsb' 0 3, acq := c.getLsbD 3, rel := c.getLsbD 4 }

/-- The barrier operand (R280). -/
def BarF.code (x : BarF) : BitVec 10 := ((0 : BitVec 2) ++ x.cls ++ x.num).cast (by decide)

def BarF.ofCode (c : BitVec 10) : BarF := { num := c.extractLsb' 0 6, cls := c.extractLsb' 6 2 }

/-- What a word's opcode makes of its fields: the instruction, and what R59 must still check that the instruction no longer shows.
`used` are the fields that hold operand codes (reason 4), `unused` those that must hold 0x3FF (reason 5),
`mod` whether the MOD value is listed (reason 3), `raw` whether the reserved bits of raw fields are zero (reason 9). -/
structure Lenient where
  instr : Instr
  used : List (BitVec 10)
  unused : List (BitVec 10)
  mod : Bool := true
  raw : Bool := true
  deriving DecidableEq, Repr

/-- An operand field; an illegal code stands as literal zero, and R59 refuses the word with reason 4. -/
def opd (c : BitVec 10) : Opd := (Opd.ofCode c).getD .zero

/-- The low n bits of a raw field. -/
def rawBits (n : Nat) (c : BitVec 10) : BitVec n := c.extractLsb' 0 n

/-- The bits of a raw field from n up are zero (R49). -/
def rawZero (n : Nat) (c : BitVec 10) : Bool := c.toNat < 2 ^ n

namespace Fields

/-- The type of MOD[3:0] (R50). -/
def ty (f : Fields) : Ty := Ty.ofCode (f.mod.extractLsb' 0 4)
/-- MOD[4]. -/
def m4 (f : Fields) : Bool := f.mod.getLsbD 4
/-- imm20 (R44). -/
def imm (f : Fields) : BitVec 20 := (f.b ++ f.c).cast (by decide)
/-- The truth table of plop, qlop and vlop3: OPC[2:0] and MOD. -/
def table (f : Fields) : BitVec 8 := ((f.opc.extractLsb' 0 3) ++ f.mod).cast (by decide)

/-- R79, R84: the scalar integer instructions. -/
def scalarRow (f : Fields) : Option Lenient :=
  match f.opc.toNat with
  | 0x1 =>
    some { instr := .nop f.h, used := [], unused := [f.d, f.a, f.b, f.c], mod := f.mod == 0 }
  | 0x2 =>
    some { instr := .sadd f.h f.ty (opd f.d) (opd f.a) (opd f.b), used := [f.d, f.a, f.b], unused := [f.c], mod := !f.m4 }
  | 0x3 =>
    some { instr := .saddc f.h (opd f.d) (opd f.a) (opd f.b) (rawBits 4 f.c), used := [f.d, f.a, f.b], unused := [], mod := f.mod == 1, raw := rawZero 4 f.c }
  | 0x4 =>
    some { instr := .ssub f.h f.ty (opd f.d) (opd f.a) (opd f.b), used := [f.d, f.a, f.b], unused := [f.c], mod := !f.m4 }
  | 0x5 =>
    some { instr := .smul f.h f.ty (opd f.d) (opd f.a) (opd f.b), used := [f.d, f.a, f.b], unused := [f.c], mod := !f.m4 }
  | 0x6 =>
    some { instr := .smulh f.h f.ty (opd f.d) (opd f.a) (opd f.b), used := [f.d, f.a, f.b], unused := [f.c], mod := !f.m4 }
  | 0x7 =>
    some { instr := .sdiv f.h f.ty (opd f.d) (opd f.a) (opd f.b), used := [f.d, f.a, f.b], unused := [f.c], mod := !f.m4 }
  | 0x8 =>
    some { instr := .srem f.h f.ty (opd f.d) (opd f.a) (opd f.b), used := [f.d, f.a, f.b], unused := [f.c], mod := !f.m4 }
  | 0x9 =>
    some { instr := .sand f.h f.ty (opd f.d) (opd f.a) (opd f.b), used := [f.d, f.a, f.b], unused := [f.c], mod := !f.m4 }
  | 0xa =>
    some { instr := .sor f.h f.ty (opd f.d) (opd f.a) (opd f.b), used := [f.d, f.a, f.b], unused := [f.c], mod := !f.m4 }
  | 0xb =>
    some { instr := .sxor f.h f.ty (opd f.d) (opd f.a) (opd f.b), used := [f.d, f.a, f.b], unused := [f.c], mod := !f.m4 }
  | 0xc =>
    some { instr := .sandn f.h f.ty (opd f.d) (opd f.a) (opd f.b), used := [f.d, f.a, f.b], unused := [f.c], mod := !f.m4 }
  | 0xd =>
    some { instr := .sshl f.h f.ty (opd f.d) (opd f.a) (opd f.b), used := [f.d, f.a, f.b], unused := [f.c], mod := !f.m4 }
  | 0xe =>
    some { instr := .sshr f.h f.ty (opd f.d) (opd f.a) (opd f.b), used := [f.d, f.a, f.b], unused := [f.c], mod := !f.m4 }
  | 0xf =>
    some { instr := .ssra f.h f.ty (opd f.d) (opd f.a) (opd f.b), used := [f.d, f.a, f.b], unused := [f.c], mod := !f.m4 }
  | 0x10 =>
    some { instr := .smin f.h f.ty (opd f.d) (opd f.a) (opd f.b), used := [f.d, f.a, f.b], unused := [f.c], mod := !f.m4 }
  | 0x11 =>
    some { instr := .smax f.h f.ty (opd f.d) (opd f.a) (opd f.b), used := [f.d, f.a, f.b], unused := [f.c], mod := !f.m4 }
  | 0x12 =>
    some { instr := .sabs f.h f.ty (opd f.d) (opd f.a), used := [f.d, f.a], unused := [f.b, f.c], mod := !f.m4 }
  | 0x13 =>
    some { instr := .sbfe f.h f.ty (opd f.d) (opd f.a) (opd f.b), used := [f.d, f.a, f.b], unused := [f.c], mod := !f.m4 }
  | 0x14 =>
    some { instr := .sbfi f.h (opd f.d) (opd f.a) (opd f.b) (opd f.c), used := [f.d, f.a, f.b, f.c], unused := [], mod := f.mod == 8 }
  | 0x15 =>
    some { instr := .spopc f.h f.ty (opd f.d) (opd f.a), used := [f.d, f.a], unused := [f.b, f.c], mod := !f.m4 }
  | 0x16 =>
    some { instr := .sclz f.h f.ty (opd f.d) (opd f.a), used := [f.d, f.a], unused := [f.b, f.c], mod := !f.m4 }
  | 0x17 =>
    some { instr := .sffs f.h f.ty (opd f.d) (opd f.a), used := [f.d, f.a], unused := [f.b, f.c], mod := !f.m4 }
  | 0x18 =>
    some { instr := .smov f.h f.ty (opd f.d) (opd f.a), used := [f.d, f.a], unused := [f.b, f.c], mod := !f.m4 }
  | 0x19 =>
    some { instr := .smovil f.h (opd f.d) f.imm, used := [f.d], unused := [f.a], mod := f.mod == 0 }
  | 0x1a =>
    some { instr := .smovih f.h (opd f.d) f.imm, used := [f.d], unused := [f.a], mod := f.mod == 0 }
  | 0x1b =>
    some { instr := .ssel f.h f.ty (opd f.d) (opd f.a) (opd f.b) (rawBits 4 f.c), used := [f.d, f.a, f.b], unused := [], mod := !f.m4, raw := rawZero 4 f.c }
  | 0x1c =>
    some { instr := .scmp f.h (f.mod.extractLsb' 0 2) (f.mod.extractLsb' 2 3) (PairF.ofCode f.d) (opd f.a) (opd f.b), used := [f.a, f.b], unused := [f.c] }
  | _ => none

/-- R85: the predicate and mask instructions. `pget` and `pput` take two forms by MOD. -/
def predRow (f : Fields) : Option Lenient :=
  match f.opc.toNat with
  | 0x40 => if f.mod == 1 then some { instr := .pgetQ f.h (opd f.d), used := [f.d], unused := [f.a, f.b, f.c] }
    else some { instr := .pgetP f.h (opd f.d) (rawBits 4 f.a), used := [f.d], unused := [f.b, f.c], mod := f.mod == 0, raw := rawZero 4 f.a }
  | 0x41 => if f.mod == 1 then some { instr := .pputQ f.h (opd f.a), used := [f.a], unused := [f.d, f.b, f.c] }
    else some { instr := .pputP f.h (rawBits 4 f.d) (opd f.a), used := [f.a], unused := [f.b, f.c], mod := f.mod == 0, raw := rawZero 4 f.d }
  | 0x42 =>
    some { instr := .qany f.h (rawBits 4 f.d) (rawBits 4 f.a), used := [], unused := [f.b, f.c], mod := f.mod == 0, raw := rawZero 4 f.d && rawZero 4 f.a }
  | 0x43 =>
    some { instr := .qall f.h (rawBits 4 f.d) (rawBits 4 f.a), used := [], unused := [f.b, f.c], mod := f.mod == 0, raw := rawZero 4 f.d && rawZero 4 f.a }
  | 0x44 =>
    some { instr := .pcnt f.h (opd f.d) (rawBits 4 f.a), used := [f.d], unused := [f.b, f.c], mod := f.mod == 0, raw := rawZero 4 f.a }
  | 0x45 =>
    some { instr := .elect f.h (rawBits 4 f.d), used := [], unused := [f.a, f.b, f.c], mod := f.mod == 0, raw := rawZero 4 f.d }
  | 0x46 =>
    some { instr := .setpl f.h (opd f.a), used := [f.a], unused := [f.d, f.b, f.c], mod := f.mod == 0 }
  | 0x47 =>
    some { instr := .getpl f.h (opd f.d), used := [f.d], unused := [f.a, f.b, f.c], mod := f.mod == 0 }
  | 0x50 | 0x51 | 0x52 | 0x53 | 0x54 | 0x55 | 0x56 | 0x57 =>
    some { instr := .plop f.h f.table (rawBits 4 f.d) (rawBits 4 f.a) (rawBits 4 f.b) (rawBits 4 f.c), used := [], unused := [], raw := rawZero 4 f.d && rawZero 4 f.a && rawZero 4 f.b && rawZero 4 f.c }
  | 0x58 | 0x59 | 0x5a | 0x5b | 0x5c | 0x5d | 0x5e | 0x5f =>
    some { instr := .qlop f.h f.table (rawBits 4 f.d) (rawBits 4 f.a) (rawBits 4 f.b) (rawBits 4 f.c), used := [], unused := [], raw := rawZero 4 f.d && rawZero 4 f.a && rawZero 4 f.b && rawZero 4 f.c }
  | _ => none

/-- R87, R344 to R346: control flow, traps and control registers. -/
def controlRow (f : Fields) : Option Lenient :=
  match f.opc.toNat with
  | 0x60 =>
    some { instr := .br f.h f.imm, used := [], unused := [f.d, f.a], mod := f.mod == 0 }
  | 0x61 =>
    some { instr := .brx f.h (opd f.a), used := [f.a], unused := [f.d, f.b, f.c], mod := f.mod == 0 }
  | 0x62 =>
    some { instr := .call f.h (opd f.d) f.imm, used := [f.d], unused := [f.a], mod := f.mod == 0 }
  | 0x63 =>
    some { instr := .ret f.h (opd f.a), used := [f.a], unused := [f.d, f.b, f.c], mod := f.mod == 0 }
  | 0x64 =>
    some { instr := .bexz f.h f.imm, used := [], unused := [f.d, f.a], mod := f.mod == 0 }
  | 0x65 =>
    some { instr := .exit f.h, used := [], unused := [f.d, f.a, f.b, f.c], mod := f.mod == 0 }
  | 0x66 =>
    some { instr := .yield f.h, used := [], unused := [f.d, f.a, f.b, f.c], mod := f.mod == 0 }
  | 0x67 =>
    some { instr := .sleep f.h (opd f.a), used := [f.a], unused := [f.d, f.b, f.c], mod := f.mod == 0 }
  | 0x68 =>
    some { instr := .trap f.h f.imm, used := [], unused := [f.d, f.a], mod := f.mod == 0 }
  | 0x69 =>
    some { instr := .brk f.h f.imm, used := [], unused := [f.d, f.a], mod := f.mod == 0 }
  | 0x6a =>
    some { instr := .rte f.h (opd f.a), used := [f.a], unused := [f.d, f.b, f.c], mod := f.mod == 0 }
  | 0x6b =>
    some { instr := .csrr f.h (opd f.d) f.imm, used := [f.d], unused := [f.a], mod := f.mod == 0 }
  | 0x6c =>
    some { instr := .csrw f.h f.imm (opd f.a), used := [f.a], unused := [f.d], mod := f.mod == 0 }
  | _ => none

/-- R108 to R114: vector integer, bit, compare, select and move instructions. -/
def vecRow (f : Fields) : Option Lenient :=
  match f.opc.toNat with
  | 0x80 =>
    some { instr := .vadd f.h f.ty f.m4 (opd f.d) (opd f.a) (opd f.b), used := [f.d, f.a, f.b], unused := [f.c] }
  | 0x81 =>
    some { instr := .vsub f.h f.ty f.m4 (opd f.d) (opd f.a) (opd f.b), used := [f.d, f.a, f.b], unused := [f.c] }
  | 0x82 =>
    some { instr := .vaddc f.h (opd f.d) (opd f.a) (opd f.b) (rawBits 4 f.c), used := [f.d, f.a, f.b], unused := [], mod := f.mod == 1, raw := rawZero 4 f.c }
  | 0x83 =>
    some { instr := .vsubb f.h (opd f.d) (opd f.a) (opd f.b) (rawBits 4 f.c), used := [f.d, f.a, f.b], unused := [], mod := f.mod == 1, raw := rawZero 4 f.c }
  | 0x84 =>
    some { instr := .vmul f.h f.ty (opd f.d) (opd f.a) (opd f.b), used := [f.d, f.a, f.b], unused := [f.c], mod := !f.m4 }
  | 0x85 =>
    some { instr := .vmulh f.h f.ty (opd f.d) (opd f.a) (opd f.b), used := [f.d, f.a, f.b], unused := [f.c], mod := !f.m4 }
  | 0x86 =>
    some { instr := .vmad f.h f.ty (opd f.d) (opd f.a) (opd f.b) (opd f.c), used := [f.d, f.a, f.b, f.c], unused := [], mod := !f.m4 }
  | 0x87 =>
    some { instr := .vdot4 f.h f.ty f.m4 (opd f.d) (opd f.a) (opd f.b) (opd f.c), used := [f.d, f.a, f.b, f.c], unused := [] }
  | 0x88 =>
    some { instr := .vmin f.h f.ty (opd f.d) (opd f.a) (opd f.b), used := [f.d, f.a, f.b], unused := [f.c], mod := !f.m4 }
  | 0x89 =>
    some { instr := .vmax f.h f.ty (opd f.d) (opd f.a) (opd f.b), used := [f.d, f.a, f.b], unused := [f.c], mod := !f.m4 }
  | 0x8a =>
    some { instr := .vabs f.h f.ty f.m4 (opd f.d) (opd f.a), used := [f.d, f.a], unused := [f.b, f.c] }
  | 0x8b =>
    some { instr := .vshl f.h f.ty (opd f.d) (opd f.a) (opd f.b), used := [f.d, f.a, f.b], unused := [f.c], mod := !f.m4 }
  | 0x8c =>
    some { instr := .vshr f.h f.ty (opd f.d) (opd f.a) (opd f.b), used := [f.d, f.a, f.b], unused := [f.c], mod := !f.m4 }
  | 0x8d =>
    some { instr := .vsra f.h f.ty (opd f.d) (opd f.a) (opd f.b), used := [f.d, f.a, f.b], unused := [f.c], mod := !f.m4 }
  | 0x8e =>
    some { instr := (if f.m4 then .vfunnelL f.h (opd f.d) (opd f.a) (opd f.b) (opd f.c) else .vfunnelR f.h (opd f.d) (opd f.a) (opd f.b) (opd f.c)), used := [f.d, f.a, f.b, f.c], unused := [], mod := f.mod.extractLsb' 0 4 == 8 }
  | 0x8f =>
    some { instr := .vbfe f.h f.ty (opd f.d) (opd f.a) (opd f.b), used := [f.d, f.a, f.b], unused := [f.c], mod := !f.m4 }
  | 0x90 =>
    some { instr := .vbfi f.h (opd f.d) (opd f.a) (opd f.b) (opd f.c), used := [f.d, f.a, f.b, f.c], unused := [], mod := f.mod == 8 }
  | 0x91 =>
    some { instr := .vpopc f.h f.ty (opd f.d) (opd f.a), used := [f.d, f.a], unused := [f.b, f.c], mod := !f.m4 }
  | 0x92 =>
    some { instr := .vclz f.h f.ty (opd f.d) (opd f.a), used := [f.d, f.a], unused := [f.b, f.c], mod := !f.m4 }
  | 0x93 =>
    some { instr := .vbrev f.h (opd f.d) (opd f.a), used := [f.d, f.a], unused := [f.b, f.c], mod := f.mod == 8 }
  | 0x94 =>
    some { instr := .vcmp f.h f.ty f.m4 (PairF.ofCode f.d) (opd f.a) (opd f.b) (rawBits 3 f.c), used := [f.a, f.b], unused := [], raw := rawZero 3 f.c }
  | 0x95 =>
    some { instr := .vsel f.h f.ty (opd f.d) (opd f.a) (opd f.b) (rawBits 4 f.c), used := [f.d, f.a, f.b], unused := [], mod := !f.m4, raw := rawZero 4 f.c }
  | 0x96 =>
    some { instr := .vmov f.h f.ty (opd f.d) (opd f.a), used := [f.d, f.a], unused := [f.b, f.c], mod := !f.m4 }
  | 0x97 =>
    some { instr := .vmovil f.h (opd f.d) f.imm, used := [f.d], unused := [f.a], mod := f.mod == 0 }
  | 0x98 =>
    some { instr := .vmovih f.h (opd f.d) f.imm, used := [f.d], unused := [f.a], mod := f.mod == 0 }
  | _ => none

/-- R114 to R127: table logic, index splitting, cross-lane, indirect access and noise. -/
def laneRow (f : Fields) : Option Lenient :=
  match f.opc.toNat with
  | 0x99 =>
    some { instr := .vidx f.h (opd f.d) (opd f.a) (rawBits 4 f.b) (rawBits 4 f.c), used := [f.d, f.a], unused := [], mod := f.mod == 0, raw := rawZero 4 f.b && rawZero 4 f.c }
  | 0x9a =>
    some { instr := .vperm f.h (opd f.d) (opd f.a) (opd f.b), used := [f.d, f.a, f.b], unused := [f.c], mod := f.mod == 8 }
  | 0x9b =>
    some { instr := .vshfl f.h (ShflMode.ofCode (f.mod.extractLsb' 3 2)) (f.mod.extractLsb' 0 3) (opd f.d) (opd f.a) (opd f.b), used := [f.d, f.a, f.b], unused := [f.c] }
  | 0x9c =>
    some { instr := .vbcast f.h (opd f.d) (opd f.a) (opd f.b), used := [f.d, f.a, f.b], unused := [f.c], mod := f.mod == 8 }
  | 0x9d =>
    some { instr := .vred f.h f.ty (rawBits 3 f.c) (opd f.d) (opd f.a), used := [f.d, f.a], unused := [f.b], mod := !f.m4, raw := rawZero 3 f.c }
  | 0x9e =>
    some { instr := .vscan f.h f.ty f.m4 (rawBits 3 f.c) (opd f.d) (opd f.a), used := [f.d, f.a], unused := [f.b], raw := rawZero 3 f.c }
  | 0x9f =>
    some { instr := .vgetl f.h (opd f.d) (opd f.a) (opd f.b), used := [f.d, f.a, f.b], unused := [f.c], mod := f.mod == 8 }
  | 0xa0 =>
    some { instr := .vsetl f.h (opd f.d) (opd f.a) (opd f.b), used := [f.d, f.a, f.b], unused := [f.c], mod := f.mod == 8 }
  | 0xa1 =>
    some { instr := .vmovi f.h (opd f.d) (opd f.a) (opd f.b), used := [f.d, f.a, f.b], unused := [f.c], mod := f.mod == 8 }
  | 0xa2 =>
    some { instr := .vmovo f.h (opd f.d) (opd f.a) (opd f.b), used := [f.d, f.a, f.b], unused := [f.c], mod := f.mod == 8 }
  | 0xa3 =>
    some { instr := .vrand f.h (opd f.d), used := [f.d], unused := [f.a, f.b, f.c], mod := f.mod == 8 }
  | 0xd8 | 0xd9 | 0xda | 0xdb | 0xdc | 0xdd | 0xde | 0xdf =>
    some { instr := .vlop3 f.h f.table (opd f.d) (opd f.a) (opd f.b) (opd f.c), used := [f.d, f.a, f.b, f.c], unused := [] }
  | _ => none

/-- R132 to R147: floating-point and conversion instructions. -/
def floatRow (f : Fields) : Option Lenient :=
  match f.opc.toNat with
  | 0xe0 =>
    some { instr := .vaddF f.h f.ty (FCtl.ofCode f.c) (opd f.d) (opd f.a) (opd f.b), used := [f.d, f.a, f.b], unused := [], mod := !f.m4, raw := rawZero 7 f.c }
  | 0xe1 =>
    some { instr := .vsubF f.h f.ty (FCtl.ofCode f.c) (opd f.d) (opd f.a) (opd f.b), used := [f.d, f.a, f.b], unused := [], mod := !f.m4, raw := rawZero 7 f.c }
  | 0xe2 =>
    some { instr := .vmulF f.h f.ty (FCtl.ofCode f.c) (opd f.d) (opd f.a) (opd f.b), used := [f.d, f.a, f.b], unused := [], mod := !f.m4, raw := rawZero 7 f.c }
  | 0xe3 =>
    some { instr := .vfma f.h f.ty f.m4 (opd f.d) (opd f.a) (opd f.b) (opd f.c), used := [f.d, f.a, f.b, f.c], unused := [] }
  | 0xe4 =>
    some { instr := .vminF f.h f.m4 (FCtl.ofCode f.c) (opd f.d) (opd f.a) (opd f.b), used := [f.d, f.a, f.b], unused := [], mod := f.mod.extractLsb' 0 4 == 9, raw := rawZero 7 f.c }
  | 0xe5 =>
    some { instr := .vmaxF f.h f.m4 (FCtl.ofCode f.c) (opd f.d) (opd f.a) (opd f.b), used := [f.d, f.a, f.b], unused := [], mod := f.mod.extractLsb' 0 4 == 9, raw := rawZero 7 f.c }
  | 0xe6 =>
    some { instr := .vcmpF f.h f.m4 (FCtl.ofCode f.c) (PairF.ofCode f.d) (opd f.a) (opd f.b), used := [f.a, f.b], unused := [], mod := f.mod.extractLsb' 0 4 == 9, raw := rawZero 7 f.c }
  | 0xe7 =>
    some { instr := .vclass f.h f.m4 (PairF.ofCode f.d) (opd f.a) f.c, used := [f.a], unused := [f.b], mod := f.mod.extractLsb' 0 4 == 9 }
  | 0xe8 =>
    some { instr := .vrnd f.h (FCtl.ofCode f.c) (opd f.d) (opd f.a), used := [f.d, f.a], unused := [f.b], mod := f.mod == 9, raw := rawZero 7 f.c }
  | 0xe9 =>
    some { instr := .vrcp f.h (FCtl.ofCode f.c) (opd f.d) (opd f.a), used := [f.d, f.a], unused := [f.b], mod := f.mod == 9, raw := rawZero 7 f.c }
  | 0xea =>
    some { instr := .vrsq f.h (FCtl.ofCode f.c) (opd f.d) (opd f.a), used := [f.d, f.a], unused := [f.b], mod := f.mod == 9, raw := rawZero 7 f.c }
  | 0xeb =>
    some { instr := .vexp2 f.h (FCtl.ofCode f.c) (opd f.d) (opd f.a), used := [f.d, f.a], unused := [f.b], mod := f.mod == 9, raw := rawZero 7 f.c }
  | 0xec =>
    some { instr := .vlog2 f.h (FCtl.ofCode f.c) (opd f.d) (opd f.a), used := [f.d, f.a], unused := [f.b], mod := f.mod == 9, raw := rawZero 7 f.c }
  | 0xed =>
    some { instr := .vcvt f.h f.ty (f.c.extractLsb' 0 3) (f.c.extractLsb' 3 3) (f.c.extractLsb' 6 4) (opd f.d) (opd f.a) (opd f.b), used := [f.d, f.a] ++ (if f.c.extractLsb' 3 3 = 4 then [f.b] else []), unused := if f.c.extractLsb' 3 3 = 4 then [] else [f.b], mod := !f.m4 }
  | 0xee =>
    some { instr := .vcvti f.h f.ty (f.c.extractLsb' 0 4) (f.c.extractLsb' 4 3) (f.c.extractLsb' 7 3) (opd f.d) (opd f.a) (opd f.b), used := [f.d, f.a] ++ (if f.c.extractLsb' 4 3 = 4 then [f.b] else []), unused := if f.c.extractLsb' 4 3 = 4 then [] else [f.b], mod := !f.m4 }
  | 0xef =>
    some { instr := .vdq f.h f.ty (opd f.d) (opd f.a) (opd f.b), used := [f.d, f.a, f.b], unused := [f.c], mod := !f.m4 }
  | 0xf0 =>
    some { instr := .vsqrt f.h (FCtl.ofCode f.c) (opd f.d) (opd f.a), used := [f.d, f.a], unused := [f.b], mod := f.mod == 9, raw := rawZero 7 f.c }
  | 0xf1 =>
    some { instr := .vdiv f.h (FCtl.ofCode f.c) (opd f.d) (opd f.a) (opd f.b), used := [f.d, f.a, f.b], unused := [], mod := f.mod == 9, raw := rawZero 7 f.c }
  | 0xf2 =>
    some { instr := .vsinpi f.h (FCtl.ofCode f.c) (opd f.d) (opd f.a), used := [f.d, f.a], unused := [f.b], mod := f.mod == 9, raw := rawZero 7 f.c }
  | 0xf3 =>
    some { instr := .vcospi f.h (FCtl.ofCode f.c) (opd f.d) (opd f.a), used := [f.d, f.a], unused := [f.b], mod := f.mod == 9, raw := rawZero 7 f.c }
  | 0xf4 =>
    some { instr := .vtanh f.h (FCtl.ofCode f.c) (opd f.d) (opd f.a), used := [f.d, f.a], unused := [f.b], mod := f.mod == 9, raw := rawZero 7 f.c }
  | 0xf5 =>
    some { instr := .vlgt f.h (FCtl.ofCode f.c) (opd f.d) (opd f.a), used := [f.d, f.a], unused := [f.b], mod := f.mod == 9, raw := rawZero 7 f.c }
  | 0xf6 =>
    some { instr := .vqz f.h f.ty f.m4 (opd f.d) (opd f.a) (opd f.b) (opd f.c), used := [f.d, f.a, f.b] ++ (if f.m4 then [f.c] else []), unused := if f.m4 then [] else [f.c] }
  | _ => none

/-- R188 to R221: memory, fence and atomic instructions. -/
def memRow (f : Fields) : Option Lenient :=
  match f.opc.toNat with
  | 0x160 =>
    some { instr := .vld f.h (Space.ofCode (f.mod.extractLsb' 0 2)) ((MSize.ofCode (f.mod.extractLsb' 2 3)).getD .b32) (opd f.d) (opd f.a) f.imm, used := [f.d, f.a], unused := [], mod := (MSize.ofCode (f.mod.extractLsb' 2 3)).isSome }
  | 0x161 =>
    some { instr := .vst f.h (Space.ofCode (f.mod.extractLsb' 0 2)) ((MSize.ofCode (f.mod.extractLsb' 2 3)).getD .b32) (opd f.d) (opd f.a) f.imm, used := [f.d, f.a], unused := [], mod := (MSize.ofCode (f.mod.extractLsb' 2 3)).isSome }
  | 0x162 =>
    some { instr := .sld f.h (Space.ofCode (f.mod.extractLsb' 0 2)) ((MSize.ofCode (f.mod.extractLsb' 2 3)).getD .b32) (opd f.d) (opd f.a) f.imm, used := [f.d, f.a], unused := [], mod := (MSize.ofCode (f.mod.extractLsb' 2 3)).isSome }
  | 0x163 =>
    some { instr := .sst f.h (Space.ofCode (f.mod.extractLsb' 0 2)) ((MSize.ofCode (f.mod.extractLsb' 2 3)).getD .b32) (opd f.d) (opd f.a) f.imm, used := [f.d, f.a], unused := [], mod := (MSize.ofCode (f.mod.extractLsb' 2 3)).isSome }
  | 0x164 =>
    some { instr := .vpf f.h (f.mod.getLsbD 2) (opd f.a) f.imm, used := [f.a], unused := [f.d], mod := f.mod == 0 || f.mod == 4 }
  | 0x165 =>
    some { instr := .lwb f.h (opd f.a) f.imm, used := [f.a], unused := [f.d], mod := f.mod == 0 }
  | 0x166 =>
    some { instr := .linv f.h (opd f.a) f.imm, used := [f.a], unused := [f.d], mod := f.mod == 0 }
  | 0x170 =>
    some { instr := .fence f.h ((FenceK.ofCode (f.mod.extractLsb' 0 2)).getD .ar) ((Scope.ofCode (f.mod.extractLsb' 2 3)).getD .wave), used := [], unused := [f.d, f.a, f.b, f.c], mod := (FenceK.ofCode (f.mod.extractLsb' 0 2)).isSome && (Scope.ofCode (f.mod.extractLsb' 2 3)).isSome }
  | 0x171 =>
    some { instr := .dfence f.h, used := [], unused := [f.d, f.a, f.b, f.c], mod := f.mod == 0 }
  | 0x172 =>
    some { instr := .ifence f.h ((Scope.ofCode (f.mod.extractLsb' 2 3)).getD .wave), used := [], unused := [f.d, f.a, f.b, f.c], mod := f.mod.extractLsb' 0 2 == 0 && (Scope.ofCode (f.mod.extractLsb' 2 3)).isSome }
  | 0x1a0 =>
    some { instr := .vatom f.h ((AOp.ofCode (f.mod.extractLsb' 0 4)).getD .add) f.m4 .wave (opd f.d) (opd f.a) (opd f.b) (opd f.c), used := [f.d, f.a, f.b] ++ (if AOp.ofCode (f.mod.extractLsb' 0 4) = some .cas then [f.c] else []), unused := if AOp.ofCode (f.mod.extractLsb' 0 4) = some .cas then [] else [f.c], mod := (AOp.ofCode (f.mod.extractLsb' 0 4)).isSome }
  | 0x1a1 =>
    some { instr := .vatom f.h ((AOp.ofCode (f.mod.extractLsb' 0 4)).getD .add) f.m4 .block (opd f.d) (opd f.a) (opd f.b) (opd f.c), used := [f.d, f.a, f.b] ++ (if AOp.ofCode (f.mod.extractLsb' 0 4) = some .cas then [f.c] else []), unused := if AOp.ofCode (f.mod.extractLsb' 0 4) = some .cas then [] else [f.c], mod := (AOp.ofCode (f.mod.extractLsb' 0 4)).isSome }
  | 0x1a2 =>
    some { instr := .vatom f.h ((AOp.ofCode (f.mod.extractLsb' 0 4)).getD .add) f.m4 .cluster (opd f.d) (opd f.a) (opd f.b) (opd f.c), used := [f.d, f.a, f.b] ++ (if AOp.ofCode (f.mod.extractLsb' 0 4) = some .cas then [f.c] else []), unused := if AOp.ofCode (f.mod.extractLsb' 0 4) = some .cas then [] else [f.c], mod := (AOp.ofCode (f.mod.extractLsb' 0 4)).isSome }
  | 0x1a3 =>
    some { instr := .vatom f.h ((AOp.ofCode (f.mod.extractLsb' 0 4)).getD .add) f.m4 .die (opd f.d) (opd f.a) (opd f.b) (opd f.c), used := [f.d, f.a, f.b] ++ (if AOp.ofCode (f.mod.extractLsb' 0 4) = some .cas then [f.c] else []), unused := if AOp.ofCode (f.mod.extractLsb' 0 4) = some .cas then [] else [f.c], mod := (AOp.ofCode (f.mod.extractLsb' 0 4)).isSome }
  | 0x1a4 =>
    some { instr := .vatom f.h ((AOp.ofCode (f.mod.extractLsb' 0 4)).getD .add) f.m4 .dev (opd f.d) (opd f.a) (opd f.b) (opd f.c), used := [f.d, f.a, f.b] ++ (if AOp.ofCode (f.mod.extractLsb' 0 4) = some .cas then [f.c] else []), unused := if AOp.ofCode (f.mod.extractLsb' 0 4) = some .cas then [] else [f.c], mod := (AOp.ofCode (f.mod.extractLsb' 0 4)).isSome }
  | 0x1a5 =>
    some { instr := .vatom f.h ((AOp.ofCode (f.mod.extractLsb' 0 4)).getD .add) f.m4 .sys (opd f.d) (opd f.a) (opd f.b) (opd f.c), used := [f.d, f.a, f.b] ++ (if AOp.ofCode (f.mod.extractLsb' 0 4) = some .cas then [f.c] else []), unused := if AOp.ofCode (f.mod.extractLsb' 0 4) = some .cas then [] else [f.c], mod := (AOp.ofCode (f.mod.extractLsb' 0 4)).isSome }
  | 0x1b0 =>
    some { instr := .satom f.h ((AOp.ofCode (f.mod.extractLsb' 0 4)).getD .add) f.m4 .wave (opd f.d) (opd f.a) (opd f.b) (opd f.c), used := [f.d, f.a, f.b] ++ (if AOp.ofCode (f.mod.extractLsb' 0 4) = some .cas then [f.c] else []), unused := if AOp.ofCode (f.mod.extractLsb' 0 4) = some .cas then [] else [f.c], mod := (AOp.ofCode (f.mod.extractLsb' 0 4)).isSome }
  | 0x1b1 =>
    some { instr := .satom f.h ((AOp.ofCode (f.mod.extractLsb' 0 4)).getD .add) f.m4 .block (opd f.d) (opd f.a) (opd f.b) (opd f.c), used := [f.d, f.a, f.b] ++ (if AOp.ofCode (f.mod.extractLsb' 0 4) = some .cas then [f.c] else []), unused := if AOp.ofCode (f.mod.extractLsb' 0 4) = some .cas then [] else [f.c], mod := (AOp.ofCode (f.mod.extractLsb' 0 4)).isSome }
  | 0x1b2 =>
    some { instr := .satom f.h ((AOp.ofCode (f.mod.extractLsb' 0 4)).getD .add) f.m4 .cluster (opd f.d) (opd f.a) (opd f.b) (opd f.c), used := [f.d, f.a, f.b] ++ (if AOp.ofCode (f.mod.extractLsb' 0 4) = some .cas then [f.c] else []), unused := if AOp.ofCode (f.mod.extractLsb' 0 4) = some .cas then [] else [f.c], mod := (AOp.ofCode (f.mod.extractLsb' 0 4)).isSome }
  | 0x1b3 =>
    some { instr := .satom f.h ((AOp.ofCode (f.mod.extractLsb' 0 4)).getD .add) f.m4 .die (opd f.d) (opd f.a) (opd f.b) (opd f.c), used := [f.d, f.a, f.b] ++ (if AOp.ofCode (f.mod.extractLsb' 0 4) = some .cas then [f.c] else []), unused := if AOp.ofCode (f.mod.extractLsb' 0 4) = some .cas then [] else [f.c], mod := (AOp.ofCode (f.mod.extractLsb' 0 4)).isSome }
  | 0x1b4 =>
    some { instr := .satom f.h ((AOp.ofCode (f.mod.extractLsb' 0 4)).getD .add) f.m4 .dev (opd f.d) (opd f.a) (opd f.b) (opd f.c), used := [f.d, f.a, f.b] ++ (if AOp.ofCode (f.mod.extractLsb' 0 4) = some .cas then [f.c] else []), unused := if AOp.ofCode (f.mod.extractLsb' 0 4) = some .cas then [] else [f.c], mod := (AOp.ofCode (f.mod.extractLsb' 0 4)).isSome }
  | 0x1b5 =>
    some { instr := .satom f.h ((AOp.ofCode (f.mod.extractLsb' 0 4)).getD .add) f.m4 .sys (opd f.d) (opd f.a) (opd f.b) (opd f.c), used := [f.d, f.a, f.b] ++ (if AOp.ofCode (f.mod.extractLsb' 0 4) = some .cas then [f.c] else []), unused := if AOp.ofCode (f.mod.extractLsb' 0 4) = some .cas then [] else [f.c], mod := (AOp.ofCode (f.mod.extractLsb' 0 4)).isSome }
  | _ => none

/-- R224, R231, R277, R280: combining, barriers and flag waits. -/
def syncRow (f : Fields) : Option Lenient :=
  match f.opc.toNat with
  | 0x1a9 => if f.mod == 1 then some { instr := .ccommitNw f.h, used := [], unused := [f.d, f.a, f.b, f.c] }
    else some { instr := .ccommit f.h (rawBits 6 f.a), used := [], unused := [f.d, f.b, f.c], mod := f.mod == 0, raw := rawZero 6 f.a }
  | 0x1a8 =>
    some { instr := .cmb f.h (opd f.d) (opd f.a) (opd f.b) (rawBits 6 f.c), used := [f.d, f.a, f.b], unused := [], mod := f.mod == 0, raw := rawZero 6 f.c }
  | 0x1aa =>
    some { instr := .creply f.h (opd f.a), used := [f.a], unused := [f.d, f.b, f.c], mod := f.mod == 0 }
  | 0x1ab =>
    some { instr := .cend f.h, used := [], unused := [f.d, f.a, f.b, f.c], mod := f.mod == 0 }
  | 0x1c0 =>
    some { instr := .barArr f.h (BarF.ofCode f.a), used := [], unused := [f.d, f.b, f.c], mod := f.mod == 0, raw := rawZero 8 f.a }
  | 0x1c1 =>
    some { instr := .barWait f.h (BarF.ofCode f.a), used := [], unused := [f.d, f.b, f.c], mod := f.mod == 0, raw := rawZero 8 f.a }
  | 0x1c2 =>
    some { instr := .barSync f.h (BarF.ofCode f.a), used := [], unused := [f.d, f.b, f.c], mod := f.mod == 0, raw := rawZero 8 f.a }
  | 0x1c3 =>
    some { instr := .barExp f.h (BarF.ofCode f.a) (opd f.b), used := [f.b], unused := [f.d, f.c], mod := f.mod == 0, raw := rawZero 8 f.a }
  | 0x1c4 =>
    some { instr := .barTx f.h (BarF.ofCode f.a) (opd f.b), used := [f.b], unused := [f.d, f.c], mod := f.mod == 0, raw := rawZero 8 f.a }
  | 0x1c5 =>
    some { instr := .barTest f.h (PairF.ofCode f.d) (BarF.ofCode f.a), used := [], unused := [f.b, f.c], mod := f.mod == 0, raw := rawZero 8 f.a }
  | 0x1c6 =>
    some { instr := .waitf f.h (rawBits 4 f.a) (rawBits 6 f.b), used := [], unused := [f.d, f.c], mod := f.mod == 0, raw := rawZero 4 f.a && rawZero 6 f.b }
  | _ => none

/-- R237 to R245, R271, R160 to R168, R255, R380: engines, spawn, trace and regions. -/
def engineRow (f : Fields) : Option Lenient :=
  match f.opc.toNat with
  | 0x1d0 =>
    some { instr := .cpy f.h (Space.ofCode (f.mod.extractLsb' 0 2)) (Space.ofCode (f.mod.extractLsb' 2 2)) (opd f.d) (opd f.a) (opd f.b) (EngOrd.ofCode f.c), used := [f.d, f.a, f.b], unused := [], mod := !f.m4, raw := rawZero 5 f.c }
  | 0x1d1 =>
    some { instr := (if f.mod.getLsbD 2 then .cpytSt f.h (Space.ofCode (f.mod.extractLsb' 0 2)) (opd f.d) (opd f.a) (opd f.b) (EngOrd.ofCode f.c) else .cpytLd f.h (Space.ofCode (f.mod.extractLsb' 0 2)) (opd f.d) (opd f.a) (opd f.b) (EngOrd.ofCode f.c)), used := [f.d, f.a, f.b], unused := [], mod := f.mod.extractLsb' 3 2 == 0, raw := rawZero 5 f.c }
  | 0x1d2 =>
    some { instr := .cpyg f.h (Space.ofCode (f.mod.extractLsb' 0 2)) (opd f.d) (opd f.a) (opd f.b) (EngOrd.ofCode f.c), used := [f.d, f.a, f.b], unused := [], mod := f.mod.extractLsb' 2 3 == 0, raw := rawZero 5 f.c }
  | 0x1d3 =>
    some { instr := .cpys f.h (Space.ofCode (f.mod.extractLsb' 0 2)) (opd f.d) (opd f.a) (opd f.b) (EngOrd.ofCode f.c), used := [f.d, f.a, f.b], unused := [], mod := f.mod.extractLsb' 2 3 == 0, raw := rawZero 5 f.c }
  | 0x1d4 =>
    some { instr := .cred f.h (f.mod.extractLsb' 0 2) (f.mod.extractLsb' 2 2) (opd f.d) (opd f.a) (opd f.b) (EngOrd.ofCode f.c), used := [f.d, f.a, f.b], unused := [], mod := !f.m4, raw := rawZero 5 f.c }
  | 0x1d8 =>
    some { instr := .spawn f.h (PairF.ofCode f.d) (opd f.a) (rawBits 2 f.b), used := [f.a], unused := [f.c], mod := f.mod == 0, raw := rawZero 2 f.b }
  | 0x1e0 =>
    some { instr := .mlds f.h f.ty f.m4 (opd f.a) (f.b.extractLsb' 0 2) (f.b.getLsbD 2) (EngOrd.ofCode f.c), used := [f.a], unused := [f.d], raw := rawZero 3 f.b && rawZero 5 f.c }
  | 0x1e1 =>
    some { instr := .mms f.h f.ty f.m4 (f.d.extractLsb' 0 3) (f.d.getLsbD 3) (f.d.getLsbD 4) (f.d.getLsbD 5) (f.d.getLsbD 6) (opd f.a) (opd f.b) (EngOrd.ofCode f.c), used := [f.a, f.b], unused := [], raw := rawZero 7 f.d && rawZero 5 f.c }
  | 0x1e2 =>
    some { instr := .mzero f.h (rawBits 3 f.d), used := [], unused := [f.a, f.b, f.c], mod := f.mod == 0, raw := rawZero 3 f.d }
  | 0x1e3 =>
    some { instr := .mdrain f.h f.ty f.m4 (f.d.extractLsb' 0 3) (f.d.getLsbD 3) (f.d.extractLsb' 4 2) (opd f.a) (opd f.b) (EngOrd.ofCode f.c), used := [f.a, f.b], unused := [], raw := rawZero 6 f.d && rawZero 5 f.c }
  | 0x1e4 =>
    some { instr := .mldacc f.h f.ty f.m4 (f.d.extractLsb' 0 3) (opd f.a) (opd f.b) (EngOrd.ofCode f.c), used := [f.a, f.b], unused := [], raw := rawZero 3 f.d && rawZero 5 f.c }
  | 0x1e5 =>
    some { instr := .aalloc f.h (PairF.ofCode f.d) (rawBits 3 f.a), used := [], unused := [f.b, f.c], mod := f.mod == 0, raw := rawZero 3 f.a }
  | 0x1e6 =>
    some { instr := .afree f.h (rawBits 3 f.a), used := [], unused := [f.d, f.b, f.c], mod := f.mod == 0, raw := rawZero 3 f.a }
  | 0x1f0 =>
    some { instr := .tmark f.h (opd f.a), used := [f.a], unused := [f.d, f.b, f.c], mod := f.mod == 0 }
  | 0x1f1 =>
    some { instr := .capst f.h (rawBits 2 f.a), used := [], unused := [f.d, f.b, f.c], mod := f.mod == 0, raw := rawZero 2 f.a }
  | 0x1f2 =>
    some { instr := .capsp f.h (rawBits 2 f.a), used := [], unused := [f.d, f.b, f.c], mod := f.mod == 0, raw := rawZero 2 f.a }
  | 0x1f8 =>
    some { instr := .rgn f.h, used := [], unused := [f.d, f.a, f.b, f.c], mod := f.mod == 0 }
  | _ => none

end Fields

/-- The opcode map (R57): what a word says, before the checks of R59; none where the opcode is unassigned (R58). -/
def lenient (w : IWord) : Option Lenient :=
  let f := Fields.ofWord w
  let o := f.opc.toNat
  if o < 0x40 then f.scalarRow
  else if o < 0x60 then f.predRow
  else if o < 0x80 then f.controlRow
  else if o < 0x99 then f.vecRow
  else if o < 0xE0 then f.laneRow
  else if o < 0x100 then f.floatRow
  else if o < 0x1A8 then f.memRow
  else if 0x1B0 ≤ o && o < 0x1B8 then f.memRow
  else if o < 0x1D0 then f.syncRow
  else f.engineRow

/-- The reason code of the first check of R59 that a word fails in a wave with these declared counts; none if it fails none. -/
def illegalReason (vregs sregs : Nat) (w : IWord) : Option Nat :=
  match lenient w with
  | none => some 1
  | some l =>
    if 12 < (Fields.ofWord w).h.set.toNat then some 2
    else if !l.mod || !l.instr.modOk then some 3
    else if l.used.any (fun c => (Opd.ofCode c).isNone) then some 4
    else if l.unused.any (fun c => c != 0x3FF) then some 5
    else if l.raw then l.instr.illegal vregs sregs
    else match l.instr.illegal vregs sregs with
      | some r => some r
      | none => some 9

/-- The decoder: total on any word, and none where R59 refuses the word whatever the wave declares. -/
def decode (w : IWord) : Option Instr :=
  if illegalReason 512 128 w = none then (lenient w).map (·.instr) else none

/-- A word from the twelve bytes that memory holds (R42). -/
def wordOfBytes (bs : List Byte) : IWord := BitVec.ofNat 96 (leNat bs)

/-- The bytes of a word, lowest address first (R42). -/
def bytesOfWord (w : IWord) : List Byte := leBytes 12 w.toNat

/-! The encoder, from the same tables. -/

/-- A short field in the low bits of a longer one. -/
def ext {n m : Nat} (x : BitVec n) : BitVec m := x.setWidth m

/-- A raw field (R49). -/
def raw {n : Nat} (x : BitVec n) : BitVec 10 := x.setWidth 10

def immHi (x : BitVec 20) : BitVec 10 := x.extractLsb' 10 10

def immLo (x : BitVec 20) : BitVec 10 := x.extractLsb' 0 10

/-- A word from its fields. -/
def mk (opc : BitVec 9) (h : Hints) (mod : BitVec 5) (d a b c : BitVec 10) : IWord :=
  Fields.toWord { opc := opc, mod := mod, d := d, a := a, b := b, c := c, h := h }

/-- The word of an instruction (R43, R57). The steps of the device have no word; zero, which no instruction has, stands for them. -/
def encode (i : Instr) : IWord :=
  match i with
  | .sadd h t d a b => mk 0x2 h (ext t.code) d.code a.code b.code 0x3FF
  | .ssub h t d a b => mk 0x4 h (ext t.code) d.code a.code b.code 0x3FF
  | .smul h t d a b => mk 0x5 h (ext t.code) d.code a.code b.code 0x3FF
  | .smulh h t d a b => mk 0x6 h (ext t.code) d.code a.code b.code 0x3FF
  | .sdiv h t d a b => mk 0x7 h (ext t.code) d.code a.code b.code 0x3FF
  | .srem h t d a b => mk 0x8 h (ext t.code) d.code a.code b.code 0x3FF
  | .sand h t d a b => mk 0x9 h (ext t.code) d.code a.code b.code 0x3FF
  | .sor h t d a b => mk 0xa h (ext t.code) d.code a.code b.code 0x3FF
  | .sxor h t d a b => mk 0xb h (ext t.code) d.code a.code b.code 0x3FF
  | .sandn h t d a b => mk 0xc h (ext t.code) d.code a.code b.code 0x3FF
  | .sshl h t d a b => mk 0xd h (ext t.code) d.code a.code b.code 0x3FF
  | .sshr h t d a b => mk 0xe h (ext t.code) d.code a.code b.code 0x3FF
  | .ssra h t d a b => mk 0xf h (ext t.code) d.code a.code b.code 0x3FF
  | .smin h t d a b => mk 0x10 h (ext t.code) d.code a.code b.code 0x3FF
  | .smax h t d a b => mk 0x11 h (ext t.code) d.code a.code b.code 0x3FF
  | .sbfe h t d a b => mk 0x13 h (ext t.code) d.code a.code b.code 0x3FF
  | .vmul h t d a b => mk 0x84 h (ext t.code) d.code a.code b.code 0x3FF
  | .vmulh h t d a b => mk 0x85 h (ext t.code) d.code a.code b.code 0x3FF
  | .vmin h t d a b => mk 0x88 h (ext t.code) d.code a.code b.code 0x3FF
  | .vmax h t d a b => mk 0x89 h (ext t.code) d.code a.code b.code 0x3FF
  | .vshl h t d a b => mk 0x8b h (ext t.code) d.code a.code b.code 0x3FF
  | .vshr h t d a b => mk 0x8c h (ext t.code) d.code a.code b.code 0x3FF
  | .vsra h t d a b => mk 0x8d h (ext t.code) d.code a.code b.code 0x3FF
  | .vbfe h t d a b => mk 0x8f h (ext t.code) d.code a.code b.code 0x3FF
  | .sabs h t d a => mk 0x12 h (ext t.code) d.code a.code 0x3FF 0x3FF
  | .spopc h t d a => mk 0x15 h (ext t.code) d.code a.code 0x3FF 0x3FF
  | .sclz h t d a => mk 0x16 h (ext t.code) d.code a.code 0x3FF 0x3FF
  | .sffs h t d a => mk 0x17 h (ext t.code) d.code a.code 0x3FF 0x3FF
  | .smov h t d a => mk 0x18 h (ext t.code) d.code a.code 0x3FF 0x3FF
  | .vpopc h t d a => mk 0x91 h (ext t.code) d.code a.code 0x3FF 0x3FF
  | .vclz h t d a => mk 0x92 h (ext t.code) d.code a.code 0x3FF 0x3FF
  | .vmov h t d a => mk 0x96 h (ext t.code) d.code a.code 0x3FF 0x3FF
  | .nop h => mk 0x1 h 0 0x3FF 0x3FF 0x3FF 0x3FF
  | .exit h => mk 0x65 h 0 0x3FF 0x3FF 0x3FF 0x3FF
  | .yield h => mk 0x66 h 0 0x3FF 0x3FF 0x3FF 0x3FF
  | .cend h => mk 0x1ab h 0 0x3FF 0x3FF 0x3FF 0x3FF
  | .rgn h => mk 0x1f8 h 0 0x3FF 0x3FF 0x3FF 0x3FF
  | .dfence h => mk 0x171 h 0 0x3FF 0x3FF 0x3FF 0x3FF
  | .saddc h d a b k => mk 0x3 h 1 d.code a.code b.code (raw k)
  | .vaddc h d a b k => mk 0x82 h 1 d.code a.code b.code (raw k)
  | .vsubb h d a b k => mk 0x83 h 1 d.code a.code b.code (raw k)
  | .sbfi h d a b c => mk 0x14 h 8 d.code a.code b.code c.code
  | .vbfi h d a b c => mk 0x90 h 8 d.code a.code b.code c.code
  | .vfunnelR h d a b c => mk 0x8e h 8 d.code a.code b.code c.code
  | .vfunnelL h d a b c => mk 0x8e h 0x18 d.code a.code b.code c.code
  | .smovil h d imm => mk 0x19 h 0 d.code 0x3FF (immHi imm) (immLo imm)
  | .smovih h d imm => mk 0x1a h 0 d.code 0x3FF (immHi imm) (immLo imm)
  | .vmovil h d imm => mk 0x97 h 0 d.code 0x3FF (immHi imm) (immLo imm)
  | .vmovih h d imm => mk 0x98 h 0 d.code 0x3FF (immHi imm) (immLo imm)
  | .ssel h t d a b k => mk 0x1b h (ext t.code) d.code a.code b.code (raw k)
  | .vsel h t d a b k => mk 0x95 h (ext t.code) d.code a.code b.code (raw k)
  | .scmp h ty cond pr a b => mk 0x1c h (cond ++ ty) pr.code a.code b.code 0x3FF
  | .pgetP h d k => mk 0x40 h 0 d.code (raw k) 0x3FF 0x3FF
  | .pgetQ h d => mk 0x40 h 1 d.code 0x3FF 0x3FF 0x3FF
  | .pputP h k a => mk 0x41 h 0 (raw k) a.code 0x3FF 0x3FF
  | .pputQ h a => mk 0x41 h 1 0x3FF a.code 0x3FF 0x3FF
  | .qany h d k => mk 0x42 h 0 (raw d) (raw k) 0x3FF 0x3FF
  | .qall h d k => mk 0x43 h 0 (raw d) (raw k) 0x3FF 0x3FF
  | .pcnt h d k => mk 0x44 h 0 d.code (raw k) 0x3FF 0x3FF
  | .elect h d => mk 0x45 h 0 (raw d) 0x3FF 0x3FF 0x3FF
  | .setpl h a => mk 0x46 h 0 0x3FF a.code 0x3FF 0x3FF
  | .getpl h d => mk 0x47 h 0 d.code 0x3FF 0x3FF 0x3FF
  | .plop h t d a b c => mk (0x50 ||| ((t.extractLsb' 5 3).setWidth 9)) h (t.extractLsb' 0 5) (raw d) (raw a) (raw b) (raw c)
  | .qlop h t d a b c => mk (0x58 ||| ((t.extractLsb' 5 3).setWidth 9)) h (t.extractLsb' 0 5) (raw d) (raw a) (raw b) (raw c)
  | .vlop3 h t d a b c => mk (0xD8 ||| ((t.extractLsb' 5 3).setWidth 9)) h (t.extractLsb' 0 5) d.code a.code b.code c.code
  | .br h imm => mk 0x60 h 0 0x3FF 0x3FF (immHi imm) (immLo imm)
  | .bexz h imm => mk 0x64 h 0 0x3FF 0x3FF (immHi imm) (immLo imm)
  | .trap h imm => mk 0x68 h 0 0x3FF 0x3FF (immHi imm) (immLo imm)
  | .brk h imm => mk 0x69 h 0 0x3FF 0x3FF (immHi imm) (immLo imm)
  | .brx h a => mk 0x61 h 0 0x3FF a.code 0x3FF 0x3FF
  | .ret h a => mk 0x63 h 0 0x3FF a.code 0x3FF 0x3FF
  | .sleep h a => mk 0x67 h 0 0x3FF a.code 0x3FF 0x3FF
  | .rte h a => mk 0x6a h 0 0x3FF a.code 0x3FF 0x3FF
  | .creply h a => mk 0x1aa h 0 0x3FF a.code 0x3FF 0x3FF
  | .tmark h a => mk 0x1f0 h 0 0x3FF a.code 0x3FF 0x3FF
  | .call h d imm => mk 0x62 h 0 d.code 0x3FF (immHi imm) (immLo imm)
  | .csrr h d n => mk 0x6b h 0 d.code 0x3FF (immHi n) (immLo n)
  | .csrw h n a => mk 0x6c h 0 0x3FF a.code (immHi n) (immLo n)
  | .vadd h t sat d a b => mk 0x80 h (BitVec.ofBool sat ++ t.code) d.code a.code b.code 0x3FF
  | .vsub h t sat d a b => mk 0x81 h (BitVec.ofBool sat ++ t.code) d.code a.code b.code 0x3FF
  | .vmad h t d a b c => mk 0x86 h (ext t.code) d.code a.code b.code c.code
  | .vdot4 h t sat d a b c => mk 0x87 h (BitVec.ofBool sat ++ t.code) d.code a.code b.code c.code
  | .vabs h t sat d a => mk 0x8a h (BitVec.ofBool sat ++ t.code) d.code a.code 0x3FF 0x3FF
  | .vbrev h d a => mk 0x93 h 8 d.code a.code 0x3FF 0x3FF
  | .vcmp h t clr pr a b cond => mk 0x94 h (BitVec.ofBool clr ++ t.code) pr.code a.code b.code (raw cond)
  | .vidx h d a k j => mk 0x99 h 0 d.code a.code (raw k) (raw j)
  | .vperm h d a b => mk 0x9a h 8 d.code a.code b.code 0x3FF
  | .vbcast h d a b => mk 0x9c h 8 d.code a.code b.code 0x3FF
  | .vgetl h d a b => mk 0x9f h 8 d.code a.code b.code 0x3FF
  | .vsetl h d a b => mk 0xa0 h 8 d.code a.code b.code 0x3FF
  | .vmovi h d a b => mk 0xa1 h 8 d.code a.code b.code 0x3FF
  | .vmovo h d a b => mk 0xa2 h 8 d.code a.code b.code 0x3FF
  | .vshfl h m w d a b => mk 0x9b h (m.code ++ w) d.code a.code b.code 0x3FF
  | .vred h t op d a => mk 0x9d h (ext t.code) d.code a.code 0x3FF (raw op)
  | .vscan h t ex op d a => mk 0x9e h (BitVec.ofBool ex ++ t.code) d.code a.code 0x3FF (raw op)
  | .vrand h d => mk 0xa3 h 8 d.code 0x3FF 0x3FF 0x3FF
  | .vaddF h t c d a b => mk 0xe0 h (ext t.code) d.code a.code b.code c.code
  | .vsubF h t c d a b => mk 0xe1 h (ext t.code) d.code a.code b.code c.code
  | .vmulF h t c d a b => mk 0xe2 h (ext t.code) d.code a.code b.code c.code
  | .vfma h t neg d a b c => mk 0xe3 h (BitVec.ofBool neg ++ t.code) d.code a.code b.code c.code
  | .vminF h nan c d a b => mk 0xe4 h (BitVec.ofBool nan ++ 9#4) d.code a.code b.code c.code
  | .vmaxF h nan c d a b => mk 0xe5 h (BitVec.ofBool nan ++ 9#4) d.code a.code b.code c.code
  | .vcmpF h clr c pr a b => mk 0xe6 h (BitVec.ofBool clr ++ 9#4) pr.code a.code b.code c.code
  | .vclass h clr pr a m => mk 0xe7 h (BitVec.ofBool clr ++ 9#4) pr.code a.code 0x3FF m
  | .vrnd h c d a => mk 0xe8 h 9 d.code a.code 0x3FF c.code
  | .vrcp h c d a => mk 0xe9 h 9 d.code a.code 0x3FF c.code
  | .vrsq h c d a => mk 0xea h 9 d.code a.code 0x3FF c.code
  | .vexp2 h c d a => mk 0xeb h 9 d.code a.code 0x3FF c.code
  | .vlog2 h c d a => mk 0xec h 9 d.code a.code 0x3FF c.code
  | .vsqrt h c d a => mk 0xf0 h 9 d.code a.code 0x3FF c.code
  | .vsinpi h c d a => mk 0xf2 h 9 d.code a.code 0x3FF c.code
  | .vcospi h c d a => mk 0xf3 h 9 d.code a.code 0x3FF c.code
  | .vtanh h c d a => mk 0xf4 h 9 d.code a.code 0x3FF c.code
  | .vlgt h c d a => mk 0xf5 h 9 d.code a.code 0x3FF c.code
  | .vdiv h c d a b => mk 0xf1 h 9 d.code a.code b.code c.code
  | .vcvt h t src rm e d a r => mk 0xed h (ext t.code) d.code a.code r.code (e ++ rm ++ src)
  | .vcvti h t src rm e d a r => mk 0xee h (ext t.code) d.code a.code r.code (e ++ rm ++ src)
  | .vqz h t sr d a sc r => mk 0xf6 h (BitVec.ofBool sr ++ t.code) d.code a.code sc.code r.code
  | .vdq h t d a sc => mk 0xef h (ext t.code) d.code a.code sc.code 0x3FF
  | .vld h sp sz d a off => mk 0x160 h (sz.code ++ sp.code) d.code a.code (immHi off) (immLo off)
  | .vst h sp sz d a off => mk 0x161 h (sz.code ++ sp.code) d.code a.code (immHi off) (immLo off)
  | .sld h sp sz d a off => mk 0x162 h (sz.code ++ sp.code) d.code a.code (immHi off) (immLo off)
  | .sst h sp sz d a off => mk 0x163 h (sz.code ++ sp.code) d.code a.code (immHi off) (immLo off)
  | .vpf h l2 a off => mk 0x164 h (if l2 then 4 else 0) 0x3FF a.code (immHi off) (immLo off)
  | .lwb h a off => mk 0x165 h 0 0x3FF a.code (immHi off) (immLo off)
  | .linv h a off => mk 0x166 h 0 0x3FF a.code (immHi off) (immLo off)
  | .fence h k sc => mk 0x170 h (sc.code ++ k.code) 0x3FF 0x3FF 0x3FF 0x3FF
  | .ifence h sc => mk 0x172 h (sc.code ++ 0#2) 0x3FF 0x3FF 0x3FF 0x3FF
  | .vatom h op wide sc d a b c => mk (0x1a0 ||| sc.code.setWidth 9) h (BitVec.ofBool wide ++ op.code) d.code a.code b.code c.code
  | .satom h op wide sc d a b c => mk (0x1b0 ||| sc.code.setWidth 9) h (BitVec.ofBool wide ++ op.code) d.code a.code b.code c.code
  | .cmb h d a b k => mk 0x1a8 h 0 d.code a.code b.code (raw k)
  | .ccommit h k => mk 0x1a9 h 0 0x3FF (raw k) 0x3FF 0x3FF
  | .ccommitNw h => mk 0x1a9 h 1 0x3FF 0x3FF 0x3FF 0x3FF
  | .barArr h x => mk 0x1c0 h 0 0x3FF x.code 0x3FF 0x3FF
  | .barWait h x => mk 0x1c1 h 0 0x3FF x.code 0x3FF 0x3FF
  | .barSync h x => mk 0x1c2 h 0 0x3FF x.code 0x3FF 0x3FF
  | .barExp h x a => mk 0x1c3 h 0 0x3FF x.code a.code 0x3FF
  | .barTx h x a => mk 0x1c4 h 0 0x3FF x.code a.code 0x3FF
  | .barTest h pr x => mk 0x1c5 h 0 pr.code x.code 0x3FF 0x3FF
  | .waitf h k n => mk 0x1c6 h 0 0x3FF (raw k) (raw n) 0x3FF
  | .cpy h dsp ssp d a b o => mk 0x1d0 h (0#1 ++ ssp.code ++ dsp.code) d.code a.code b.code o.code
  | .cpytLd h sp d a b o => mk 0x1d1 h (0#3 ++ sp.code) d.code a.code b.code o.code
  | .cpytSt h sp d a b o => mk 0x1d1 h (1#3 ++ sp.code) d.code a.code b.code o.code
  | .cpyg h sp d a b o => mk 0x1d2 h (0#3 ++ sp.code) d.code a.code b.code o.code
  | .cpys h sp d a b o => mk 0x1d3 h (0#3 ++ sp.code) d.code a.code b.code o.code
  | .cred h op ty d a b o => mk 0x1d4 h (0#1 ++ ty ++ op) d.code a.code b.code o.code
  | .spawn h pr a n => mk 0x1d8 h 0 pr.code a.code (raw n) 0x3FF
  | .mlds h t g a sp sc o => mk 0x1e0 h (BitVec.ofBool g ++ t.code) 0x3FF a.code (0#7 ++ BitVec.ofBool sc ++ sp) o.code
  | .mms h t g slot swap done z sc a b o => mk 0x1e1 h (BitVec.ofBool g ++ t.code) (0#3 ++ BitVec.ofBool sc ++ BitVec.ofBool z ++ BitVec.ofBool done ++ BitVec.ofBool swap ++ slot) a.code b.code o.code
  | .mzero h slot => mk 0x1e2 h 0 (raw slot) 0x3FF 0x3FF 0x3FF
  | .mdrain h t g slot add rm a b o => mk 0x1e3 h (BitVec.ofBool g ++ t.code) (0#4 ++ rm ++ BitVec.ofBool add ++ slot) a.code b.code o.code
  | .mldacc h t g slot a b o => mk 0x1e4 h (BitVec.ofBool g ++ t.code) (raw slot) a.code b.code o.code
  | .aalloc h pr k => mk 0x1e5 h 0 pr.code (raw k) 0x3FF 0x3FF
  | .afree h k => mk 0x1e6 h 0 0x3FF (raw k) 0x3FF 0x3FF
  | .capst h c => mk 0x1f1 h 0 0x3FF (raw c) 0x3FF 0x3FF
  | .capsp h c => mk 0x1f2 h 0 0x3FF (raw c) 0x3FF 0x3FF
  | _ => 0

/-- What the decoder reads from an instruction whose table bits are w: the words as memory holds them, then decoded. -/
def decodeTableWord (nbits w : Nat) : Option Instr :=
  decode (wordOfBytes (bytesOfWord (BitVec.ofNat 96 (w % 2 ^ nbits))))

end Sys2Proof
end

