-- ==== Sys2Proof/Machine/Engine.lean ====
section
/-! DEFINITION. What the copy and the matrix engine share: memory accesses of a command (R154, R170, R210, R211, R246), its completion and its faults (R155). -/

namespace Sys2Proof.Machine

/-- How an engine's access ends. -/
inductive EngRes (α : Type) where
  | ok (a : α)
  /-- the line is held (R228, R368): later -/
  | held
  /-- a replayable fault: level and page -/
  | fault (level page : Nat)
  /-- a page request to the host -/
  | host (io page : Nat)
  /-- non-canonical or not permitted -/
  | denied
  /-- refused at the home, the host or the peer -/
  | refused
  /-- uncorrectable data -/
  | poison
  deriving DecidableEq, Repr

def EngRes.map {α β : Type} (f : α → β) : EngRes α → EngRes β
  | .ok a => .ok (f a)
  | .held => .held
  | .fault l p => .fault l p
  | .host i p => .host i p
  | .denied => .denied
  | .refused => .refused
  | .poison => .poison

/-- The 64 KiB pages that a range of bytes touches, with the part of the range in each. -/
def rangeParts : Nat → Nat → Nat → List (Nat × Nat)
  | 0, _, _ => []
  | f + 1, va, n =>
    if n = 0 then []
    else
      let m := min n (65536 - va % 65536)
      (va, m) :: rangeParts f ((va + m) % 2 ^ 64) (n - m)

namespace State

/-- The commands of an engine of a core. -/
def cmds (s : State) (cid : Nat) (matrix : Bool) : List EngCmd := if matrix then (s.core cid).mat.cmds else (s.core cid).copy

def cmd (s : State) (cid : Nat) (matrix : Bool) (id : Nat) : Option EngCmd := (s.cmds cid matrix).find? (fun c => c.id = id)

def setCmds (s : State) (cid : Nat) (matrix : Bool) (f : List EngCmd → List EngCmd) : State :=
  s.modCore cid (fun c => if matrix then { c with mat := { c.mat with cmds := f c.mat.cmds } } else { c with copy := f c.copy })

def modCmd (s : State) (cid : Nat) (matrix : Bool) (id : Nat) (f : EngCmd → EngCmd) : State :=
  s.setCmds cid matrix (fun l => l.map (fun c => if c.id = id then f c else c))

/-- The place of an address under the address space of a command. -/
def engPlace (s : State) (cid : Nat) (c : EngCmd) (k : PKind) (va : Nat) : State × EngRes Place :=
  if !canonical va then (s, .denied)
  else match s.translate cid c.pidN c.pasid va k with
    | (s, .ok e) => (s, .ok (e.place (va % 2 ^ 57)))
    | (s, .notValid l) => (s, .fault l (va / 65536))
    | (s, .hostAbsent io) => (s, .host io (va / 65536))
    | (s, _) => (s, .denied)

/-- The places of the parts of a range. -/
def engPlaces (s : State) (cid : Nat) (c : EngCmd) (k : PKind) : List (Nat × Nat) → State × EngRes (List (Place × Nat))
  | [] => (s, .ok [])
  | (va, n) :: rest =>
    match s.engPlace cid c k va with
    | (s, .ok pl) =>
      match s.engPlaces cid c k rest with
      | (s, r) => (s, r.map (fun ps => (pl, n) :: ps))
    | (s, .held) => (s, .held)
    | (s, .fault l p) => (s, .fault l p)
    | (s, .host i p) => (s, .host i p)
    | (s, .denied) => (s, .denied)
    | (s, .refused) => (s, .refused)
    | (s, .poison) => (s, .poison)

/-- Lines of device memory under places with lengths. -/
def placeLines (ps : List (Place × Nat)) : List Nat :=
  ps.flatMap (fun x => match x.1 with | .dev a => linesOf a x.2 | _ => [])

/-- A read of global memory by an engine, at the home slices (R211). -/
def engRead (s : State) (cid : Nat) (c : EngCmd) (va n : Nat) : State × EngRes (List Byte) :=
  match s.engPlaces cid c .read (rangeParts 1024 va n) with
  | (s, .ok ps) =>
    if (placeLines ps).any (fun l => s.lineHeld l c.wave) then (s, .held)
    else ps.foldl (fun (r : State × EngRes (List Byte)) x =>
      match r.2 with
      | .ok bs =>
        match r.1.placeRead c.pidN x.1 x.2 with
        | (s, some (b, false)) => (s, .ok (bs ++ b))
        | (s, some (_, true)) => (s, .poison)
        | (s, none) => (s, .refused)
      | _ => r) (s, .ok [])
  | (s, r) => (s, r.map (fun _ => []))

/-- A write of global memory by an engine: the core's L1 writes back and drops each line first (R211). A refused line is not written; the others are. -/
def engWrite (s : State) (cid : Nat) (c : EngCmd) (va : Nat) (bs : List Byte) : State × EngRes Unit :=
  match s.engPlaces cid c .write (rangeParts 1024 va bs.length) with
  | (s, .ok ps) =>
    if (placeLines ps).any (fun l => s.lineHeld l c.wave) then (s, .held)
    else
      let s := (placeLines ps).eraseDups.foldl (fun s l => s.flushLine cid l) s
      let r := ps.foldl (fun (r : State × List Byte × Bool) x =>
        match r.1.placeWrite c.pidN x.1 (r.2.1.take x.2) with
        | (s, ok) => (s, r.2.1.drop x.2, r.2.2 && ok)) (s, bs, true)
      (r.1, if r.2.2 then .ok () else .refused)
  | (s, r) => (s, r.map (fun _ => ()))

/-- What a command does that must wait, or cannot go on: the reasons of a refusal are those of its engine. -/
def engStop {α : Type} (s : State) (cid : Nat) (matrix : Bool) (c : EngCmd) (k : PKind) (deny home bad : Nat) (r : EngRes α) : State :=
  let refuse := fun (s : State) (n : Nat) => s.modCmd cid matrix c.id (fun x => { x with fault := some n, finished := true })
  let record := s.logPart c.pidN { src := cid, kind := 3, wb := wbOf c.wave, addr := c.pc.toNat }
  match r with
  | .ok _ => s
  | .held => s
  | .fault l page =>
    (s.faultRecord c.pidN c.pasid (page * 65536) k l cid (if matrix then 2 else 1) (if matrix then lcMatrix cid else lcCopy cid)).modCmd cid matrix c.id
      (fun x => { x with waiting := some (page, k) })
  | .host io page => s.modCmd cid matrix c.id (fun x => { x with waiting := some (page, k), hostWait := some io })
  | .denied => refuse s deny
  | .refused => refuse s home
  | .poison => (refuse record.1 bad).modCmd cid matrix c.id (fun x => { x with seq := BitVec.ofNat 32 record.2 })

/-- Raises of a pending-byte counter that come before any later command of the wave starts (R281). -/
def raises (w : Wave) : List Nat := (w.pend.filter (fun p => match p.kind with | .bar _ 2 _ _ _ => true | _ => false)).map (·.id)

/-- A command takes its entry (R152, R236): its operands were read at issue; the issue is a send (R249), and with ACQ the wave performs an acquire, for which the command's reads wait (R202, R210). -/
def engIssue (c : Ctx) (s : State) (matrix : Bool) (i : Instr) (args : List Nat) (slot : Option Nat) (targets : List Nat) : State :=
  let s := s.lcTick (lcCore c.cid)
  let o := engOrd i
  let acq := o.bind (fun o => if o.acq then Scope.ofCode o.scope else none)
  let t := match acq with | some sc => s.addEngAcquire c.k sc | none => (s, [])
  let s := t.1
  let x : EngCmd := { id := c.id, wave := c.k, op := c.id, block := c.w.block, prio := c.w.prio, pidN := c.p, pasid := c.w.pasid, pc := c.w.pc
                      instr := i, args := args, slot := slot, before := raises c.w, needs := t.2, stamp := s.lc (lcCore c.cid), targets := targets }
  s.setCmds c.cid matrix (fun l => l ++ [x])

/-- Before the first read of a command with ACQ: its wave's acquire is complete, and the core's L1 writes its dirty bytes back (R210, R211).
False while that cannot be. -/
def engClear (s : State) (cid : Nat) (matrix : Bool) (c : EngCmd) : State × Bool :=
  if c.clear || !(match engOrd c.instr with | some o => o.acq | none => false) then (s, true)
  else if !s.needsDone c.wave c.needs || !s.releaseReady c.wave .sys then (s, false)
  else ((s.writeBackAll cid c.wave).modCmd cid matrix c.id (fun x => { x with clear := true }), true)

/-- The places of a range of global addresses under the address space of a command, part by part; none where they are not all known: the range is long, or
a page of it is missing. A part that may not be accessed has no place. -/
def partsAt (s : State) (cid : Nat) (c : EngCmd) (va n : Nat) : Option (List (Place × Nat)) :=
  if 2 ^ 26 < n then none
  else (rangeParts 1025 va n).foldr (fun x r => match r, (s.engPlace cid c .read x.1).2 with
    | some ps, .ok pl => some ((pl, x.2) :: ps)
    | some ps, .denied => some ps
    | _, _ => none) (some [])

/-- Two runs of bytes share one. -/
def placesMeet (x y : Place × Nat) : Bool :=
  match x.1, y.1 with
  | .dev a, .dev b => decide (a < b + y.2) && decide (b < a + x.2)
  | .host a, .host b => decide (a < b + y.2) && decide (b < a + x.2)
  | .peer d a, .peer e b => d = e && decide (a < b + y.2) && decide (b < a + x.2)
  | _, _ => false

/-- A command meets another at a location that one of them writes (R154, R247): ranges (write or not, 0 global or 1 + cid of a scratchpad, from, to)
that overlap by address, or in global memory by the places of two addresses; ranges whose places are not known count as meeting (log 29). -/
def rangesMeet (s : State) (cid : Nat) (a b : EngCmd) (ra rb : List (Bool × Nat × Nat × Nat)) : Bool :=
  ra.any (fun x => rb.any (fun y => (x.1 || y.1) && x.2.1 = y.2.1 &&
    ((decide (x.2.2.1 < y.2.2.2) && decide (y.2.2.1 < x.2.2.2))
      || (x.2.1 = 0 && (match s.partsAt cid a x.2.2.1 (x.2.2.2 - x.2.2.1), s.partsAt cid b y.2.2.1 (y.2.2.2 - y.2.2.1) with
          | some ps, some qs => ps.any (fun p => qs.any (placesMeet p))
          | _, _ => true)))))

/-- The lines that a command is about to read and write leave the core's L1 (R166, R211). -/
def engFlush (s : State) (cid : Nat) (c : EngCmd) (va n : Nat) : State :=
  match s.engPlaces cid c .write (rangeParts 1024 va n) with
  | (s, .ok ps) =>
    let ls := (placeLines ps).eraseDups
    if ls.any (fun l => s.lineHeld l c.wave) then s else ls.foldl (fun s l => s.flushLine cid l) s
  | (s, _) => s

/-- The scope of a command's REL. -/
def relScope (i : Instr) : Option Scope := (engOrd i).bind (fun o => if o.rel then Scope.ofCode o.scope else none)

/-- Among commands, the one with the highest wave priority, then the earliest issued (R153, R236). -/
def firstCmd (l : List EngCmd) : Option EngCmd :=
  l.foldl (fun (b : Option EngCmd) c => match b with
    | none => some c
    | some x => if x.prio < c.prio then some c else b) none

/-- A command ends (R152, R155, R236): its entry is free, its wave sees the completion, its flag falls, a refusal is reported.
The release of a REL comes when the wave observes the fall (R202, `observe`). -/
def engComplete (s : State) (cid : Nat) (matrix : Bool) (c : EngCmd) : State :=
  let s := s.setCmds cid matrix (fun l => l.filter (fun x => x.id ≠ c.id))
  match s.pend c.wave c.op with
  | none => s
  | some p =>
    let s := s.lcRecv (lcCore cid) (s.lc (if matrix then lcMatrix cid else lcCopy cid))
    let s := s.opDone c.wave c.op
    let s := match relScope c.instr with
      | some sc => if p.flag = 0 then s else s.modWave c.wave (fun w => { w with relOn := w.relOn ++ [(p.flag, sc)] })
      | none => s
    match c.fault with
    | some r => s.soon [.deferredFaultArrive ⟨c.wave, c.op, c.seq⟩ (if matrix then 7 else 8) r c.pc allLanes 0]
    | none => s

end State

end Sys2Proof.Machine
end

