-- ==== Sys2Proof/Machine/Copy.lean ====
section
/-! DEFINITION. The copy engine (R236 to R247): linear, tensor, gather and scatter copies, cluster reduction. -/

namespace Sys2Proof.Machine

/-! Layout records (R241). -/

structure Layout where
  base : Nat
  elem : Nat
  rank : Nat
  fill : List Byte
  ext : List Nat
  box : List Nat
  str : List Nat
  deriving DecidableEq, Repr

/-- A field of a record. -/
def recField (bs : List Byte) (off n : Nat) : Nat := leNat ((bs.drop off).take n)

/-- R241: a valid record. -/
def layoutOf (bs : List Byte) : Option Layout :=
  let rank := recField bs 9 1
  let elem := recField bs 8 1
  let dims := List.range rank
  let fill := leBytes 4 (recField bs 12 4)
  let l : Layout :=
    { base := recField bs 0 8, elem := elem, rank := rank, fill := if elem = 3 then fill ++ fill else fill.take (2 ^ elem)
      ext := dims.map (fun k => recField bs (16 + 4 * k) 4), box := dims.map (fun k => recField bs (36 + 2 * k) 2)
      str := dims.map (fun k => if k = 0 then 0 else recField bs (44 + 4 * k) 4) }
  if rank = 0 || 5 < rank || 3 < elem || l.base % 16 ≠ 0 || recField bs 10 2 ≠ 0 || recField bs 46 2 ≠ 0 then none
  else if l.ext.all (fun e => 1 ≤ e && e ≤ 2 ^ 31 - 1) && l.box.all (fun b => 1 ≤ b && b ≤ 256)
      && (l.box.headD 0 * 2 ^ elem) % 16 = 0 then some l
  else none

/-- Bytes of an element, and elements of a box. -/
def Layout.size (l : Layout) : Nat := 2 ^ l.elem
def Layout.count (l : Layout) : Nat := l.box.foldl (· * ·) 1

/-- The digits of a position in a box, dimension 0 fastest (R243). -/
def digits : List Nat → Nat → List Nat
  | [], _ => []
  | b :: bs, n => n % b :: digits bs (n / b)

/-- R243: the global address of element n of a box at signed coordinates; none where it lies out of bounds. -/
def Layout.elemAddr (l : Layout) (coords : List Int) (n : Nat) : Option Nat :=
  let xs := List.zipWith (fun (c : Int) (j : Nat) => c + j) coords (digits l.box n)
  if (List.zip xs l.ext).all (fun e => 0 ≤ e.1 && e.1 < e.2) then
    some ((l.base + l.size * (xs.headD 0).toNat + (List.zipWith (fun (x : Int) s => 16 * s * x.toNat) xs l.str).sum) % 2 ^ 64)
  else none

/-- R244: bytes of a row, and the address of row k. -/
def Layout.rowBytes (l : Layout) : Nat := l.box.headD 0 * l.size
def Layout.rowAddr (l : Layout) (k : Nat) : Nat := (l.base + 16 * l.str.getD 1 0 * k) % 2 ^ 64

/-! Issue (R237, R238, R246). -/

/-- A scratchpad address as a command keeps it: its core and its offset in the core's scratchpad. -/
def scrArg (cid off : Nat) : Nat := 2 ^ 20 * cid + off

/-- The block of a window address (R178), with its number. -/
def windowBlockId (s : State) (cid : Nat) (w : Wave) (a : Nat) : List Nat :=
  match windowBlock s cid w (a / 2 ^ 18) with
  | some b => (s.blocks.filter (fun e => e.2 = b)).map (·.1)
  | none => []

/-- An operand address of a command in a space, as it is kept. -/
def sideArg (c : Ctx) (sp : Space) (a : Nat) : Nat :=
  match sp with
  | .g => a
  | sp => match scrPlace c.s c.cid c.w sp a with
    | .scr cid off => scrArg cid off
    | _ => a

/-- R246, reasons 3 and 4 of n bytes at a scratchpad or window address. -/
def sideReasons (c : Ctx) (sp : Space) (a n : Nat) : List Nat :=
  match sp with
  | .g => []
  | .s => if scrLimit c.s c.w < a + n then [3] else []
  | _ =>
    if a / 2 ^ 20 ≠ 0 then [3]
    else match windowBlock c.s c.cid c.w (a / 2 ^ 18) with
      | none => [4]
      | some b => if b.scrSize < a % 2 ^ 18 + n then [3] else []

/-- Bytes between a scratchpad address and the end of its allocation. -/
def sideRoom (c : Ctx) (sp : Space) (a : Nat) : Nat :=
  match sp with
  | .s => scrLimit c.s c.w - a
  | _ => match windowBlock c.s c.cid c.w (a / 2 ^ 18) with
    | some b => b.scrSize - a % 2 ^ 18
    | none => 0

/-- The barrier of an attach word (R238). -/
def attachKey (x : Nat) : Option Nat := if x.testBit 31 then some (64 * bitsOf x 6 6 + bitsOf x 5 0) else none

/-- R238: the attach word is invalid for a destination space. -/
def attachReasons (c : Ctx) (dst : Space) (x : Nat) : List Nat :=
  match attachKey x with
  | none => if x = 0 then [] else [5]
  | some key =>
    if bitsOf x 30 7 ≠ 0 || dst = .g || (dst = .c && key < 64) || (c.s.barrierOf c.w.block key).isNone then [5] else []

/-- A copy command issues, or traps with the lowest of its reasons (R246). -/
def copyIssue (c : Ctx) (i : Instr) (reasons : List Nat) (args : List Nat) (targets : List Nat) : Act :=
  match reasons.min? with
  | some r => .trap 8 r allLanes
  | none => .ok { st := State.engIssue c c.s false i args none targets, kind := .engine false c.id (State.relScope i), nominal := 64 }

/-- An address operand. -/
def engAddr (c : Ctx) (sp : Space) (field : Nat) (o : Opd) : Nat :=
  if sp = .g then (c.val64 field o).toNat else (c.val field o).toNat

/-- R240. -/
def execCpy (h : Hints) (dsp ssp : Space) (d a b : Opd) (o : EngOrd) (s : State) : Host.Outcome State Fault Refusal :=
  let i := Instr.cpy h dsp ssp d a b o
  waveLevel i h (fun c =>
    let da := engAddr c dsp 0 d
    let sa := engAddr c ssp 1 a
    let n := (c.valN 8 b 0).toNat
    let att := (c.valN 8 b 1).toNat
    copyIssue c i ((if n < 4 || 16777216 < n then [1] else []) ++ (if n % 4 ≠ 0 || da % 4 ≠ 0 || sa % 4 ≠ 0 then [2] else [])
        ++ sideReasons c dsp da n ++ sideReasons c ssp sa n ++ attachReasons c dsp att)
      [sideArg c dsp da, sideArg c ssp sa, n, att]
      ((if dsp = .c then windowBlockId c.s c.cid c.w da else []) ++ (if ssp = .c then windowBlockId c.s c.cid c.w sa else []))) s

/-- R243: a tensor copy; the attach word of a store must not attach, its destination being global. -/
def tensorIssue (c : Ctx) (i : Instr) (sp : Space) (load : Bool) (d a b : Opd) : Act :=
  let da := (c.val 0 d).toNat
  let rec_ := (c.val64 1 a).toNat
  let att := (c.valN 8 b 5).toNat
  copyIssue c i ((if rec_ % 64 ≠ 0 then [2] else []) ++ sideReasons c sp da 0 ++ attachReasons c (if load then sp else .g) att)
    ([sideArg c sp da, rec_, att, sideRoom c sp da] ++ (List.range 5).map (fun j => (c.valN 8 b j).toNat))
    (if sp = .c then windowBlockId c.s c.cid c.w da else [])

def execCpytLd (h : Hints) (sp : Space) (d a b : Opd) (o : EngOrd) (s : State) : Host.Outcome State Fault Refusal :=
  waveLevel (.cpytLd h sp d a b o) h (fun c => tensorIssue c (.cpytLd h sp d a b o) sp true d a b) s

def execCpytSt (h : Hints) (sp : Space) (d a b : Opd) (o : EngOrd) (s : State) : Host.Outcome State Fault Refusal :=
  waveLevel (.cpytSt h sp d a b o) h (fun c => tensorIssue c (.cpytSt h sp d a b o) sp false d a b) s

/-- R244: gather and scatter of rows. -/
def rowsIssue (c : Ctx) (i : Instr) (sp : Space) (gather : Bool) (d a b : Opd) : Act :=
  let da := (c.val 0 d).toNat
  let rec_ := (c.val64 1 a).toNat
  let list := (c.valN 8 b 0).toNat
  let n := (c.valN 8 b 1).toNat
  let att := (c.valN 8 b 2).toNat
  copyIssue c i ((if n = 0 || 256 < n || scrLimit c.s c.w < list + 4 * n then [1] else []) ++ (if rec_ % 64 ≠ 0 || list % 4 ≠ 0 then [2] else [])
      ++ sideReasons c sp da 0 ++ (if gather then attachReasons c sp att else if att = 0 then [] else [5]))
    [sideArg c sp da, rec_, att, sideRoom c sp da, sideArg c .s list, n]
    (if sp = .c then windowBlockId c.s c.cid c.w da else [])

def execCpyg (h : Hints) (sp : Space) (d a b : Opd) (o : EngOrd) (s : State) : Host.Outcome State Fault Refusal :=
  waveLevel (.cpyg h sp d a b o) h (fun c => rowsIssue c (.cpyg h sp d a b o) sp true d a b) s

def execCpys (h : Hints) (sp : Space) (d a b : Opd) (o : EngOrd) (s : State) : Host.Outcome State Fault Refusal :=
  waveLevel (.cpys h sp d a b o) h (fun c => rowsIssue c (.cpys h sp d a b o) sp false d a b) s

/-- R245. -/
def execCred (h : Hints) (op ty : BitVec 2) (d a b : Opd) (o : EngOrd) (s : State) : Host.Outcome State Fault Refusal :=
  let i := Instr.cred h op ty d a b o
  waveLevel i h (fun c =>
    let da := (c.val 0 d).toNat
    let sa := (c.val 1 a).toNat
    let n := (c.valN 8 b 0).toNat
    let att := (c.valN 8 b 1).toNat
    copyIssue c i ((if n = 0 || 65536 < n then [1] else []) ++ (if da % 4 ≠ 0 || sa % 4 ≠ 0 then [2] else [])
        ++ sideReasons c .c da (4 * n) ++ sideReasons c .s sa (4 * n) ++ attachReasons c .c att)
      [sideArg c .c da, sideArg c .s sa, n, att] (windowBlockId c.s c.cid c.w da)) s

/-! Service (R236, R239, R242). -/

namespace EngCmd

def arg (c : EngCmd) (i : Nat) : Nat := c.args.getD i 0

/-- The barrier to which it is attached. -/
def attach (c : EngCmd) : Option Nat :=
  match c.instr with
  | .cpy .. => attachKey (c.arg 3)
  | .cred .. => attachKey (c.arg 3)
  | _ => attachKey (c.arg 2)

/-- The layout of a command that uses one. -/
def layout (c : EngCmd) : Option Layout := layoutOf c.recBytes

/-- Units of a prepared command: words, elements of a box, rows. -/
def units (c : EngCmd) : Nat :=
  match c.instr with
  | .cpy .. => c.arg 2 / 4
  | .cred .. => c.arg 2
  | .cpytLd .. => (c.layout.map (·.count)).getD 0
  | .cpytSt .. => (c.layout.map (·.count)).getD 0
  | _ => c.arg 5

/-- The global range that holds every element of a tensor copy, or every row of a gather or scatter (R243, R244); all of memory
while its layout is not known. -/
def span (c : EngCmd) : List (Nat × Nat) :=
  match c.layout with
  | none => [(0, 2 ^ 64)]
  | some l =>
    match c.instr with
    | .cpyg .. => [(l.base, l.base + 16 * l.str.getD 1 0 * (l.ext.getD 1 1 - 1) + l.rowBytes)]
    | .cpys .. => [(l.base, l.base + 16 * l.str.getD 1 0 * (l.ext.getD 1 1 - 1) + l.rowBytes)]
    | _ =>
      let dims := (List.range l.rank).map (fun j =>
        let x := sextNat 32 (c.arg (4 + j))
        (max 0 x, min ((l.ext.getD j 1 : Int) - 1) (x + (l.box.getD j 1 : Int) - 1), if j = 0 then l.size else 16 * l.str.getD j 0))
      if dims.any (fun d => d.2.1 < d.1) then []
      else [(l.base + (dims.map (fun d => d.1.toNat * d.2.2)).sum, l.base + (dims.map (fun d => d.2.1.toNat * d.2.2)).sum + l.size)]

/-- The ranges that a command reads (false) and writes (true): 0 global, 1 + cid a scratchpad. -/
def ranges (c : EngCmd) : List (Bool × Nat × Nat × Nat) :=
  let side := fun (sp : Space) (wr : Bool) (a n : Nat) =>
    if sp = .g then (wr, 0, a, a + n) else (wr, 1 + a / 2 ^ 20, a % 2 ^ 20, a % 2 ^ 20 + n)
  let all := fun (wr : Bool) => c.span.map (fun x => (wr, 0, x.1, x.2))
  match c.instr with
  | .cpy _ dsp ssp .. => [side dsp true (c.arg 0) (c.arg 2), side ssp false (c.arg 1) (c.arg 2)]
  | .cpytLd _ sp .. => side sp true (c.arg 0) (c.arg 3) :: all false
  | .cpytSt _ sp .. => side sp false (c.arg 0) (c.arg 3) :: all true
  | .cpyg _ sp .. => side sp true (c.arg 0) (c.arg 3) :: side .s false (c.arg 4) (4 * c.arg 5) :: all false
  | .cpys _ sp .. => side sp false (c.arg 0) (c.arg 3) :: side .s false (c.arg 4) (4 * c.arg 5) :: all true
  | .cred .. => [side .c true (c.arg 0) (4 * c.arg 2), side .s false (c.arg 1) (4 * c.arg 2)]
  | _ => []

end EngCmd

namespace State

/-- A record through the descriptor cache (R242). -/
def readRecord (s : State) (cid : Nat) (c : EngCmd) : State × EngRes (List Byte) :=
  let sp := asid c.pidN c.pasid
  let va := c.arg 1
  match (s.core cid).dcache.find? (fun e => e.pasid = sp && e.va = va) with
  | some e => (s.modCore cid (fun x => { x with dcache := e :: x.dcache.erase e }), .ok e.bytes)
  | none =>
    match s.engRead cid c va 64 with
    | (s, .ok bs) => (s.modCore cid (fun x => { x with dcache := ({ pasid := sp, va := va, bytes := bs } :: x.dcache).take 64 }), .ok bs)
    | r => r

/-- R246: the reason for which a command with this record is refused at its start. -/
def recordRefusal (c : EngCmd) (bs : List Byte) : Option Nat :=
  match layoutOf bs with
  | none => some 16
  | some l =>
    match c.instr with
    | .cpytLd .. => if c.arg 3 < l.size * l.count then some 20 else none
    | .cpytSt .. => if c.arg 3 < l.size * l.count then some 20 else none
    | _ => if l.rank ≠ 2 then some 16 else if c.arg 3 < c.arg 5 * l.rowBytes then some 20 else none

def scrGet (s : State) (a n : Nat) : List Byte := s.scrRead (a / 2 ^ 20) (a % 2 ^ 20) n

/-- Bytes of a scratchpad; those with an uncorrectable error are not delivered (R187, R246). -/
def scrTake (s : State) (a n : Nat) : EngRes (List Byte) := if s.scrBad (a / 2 ^ 20) (a % 2 ^ 20) n then .poison else .ok (s.scrGet a n)

/-- The words of an overlapping copy's source as they stand before it (R240), and what ended the reading. -/
def snapshot (s : State) (cid : Nat) (c : EngCmd) (global : Bool) : Nat → Nat → State × List Nat × EngRes Unit
  | 0, _ => (s, [], .ok ())
  | n + 1, k =>
    let a := c.arg 1 + 4 * k
    let r := if global then s.engRead cid c a 4 else (s, s.scrTake a 4)
    match r with
    | (s, .ok bs) =>
      let t := snapshot s cid c global n (k + 1)
      (t.1, leNat bs :: t.2.1, t.2.2)
    | (s, r) => (s, [], r.map (fun _ => ()))

/-- R240: the words that an overlapping copy writes: each is the source word as it stood, or what the command wrote to that source word, which is
its word `d` places further on (`d` positive) or back (negative); which of the two is free. -/
def overlapWords (ctr : Nat) (d : Int) (old : List Nat) : List Nat :=
  if 0 < d then
    (old.zipIdx.foldr (fun e later => (if Config.overlapNew ctr e.2 then later.getD (d.toNat - 1) e.1 else e.1) :: later) [])
  else
    ((old.zipIdx.foldl (fun (r : List Nat) e => (if Config.overlapNew ctr e.2 then r.getD ((-d).toNat - 1) e.1 else e.1) :: r) [])).reverse

/-- What a command reads and checks at its start (R240 to R246). An overlapping copy first reads its source as it stands: while a page is missing it has
written nothing; a source that cannot be read ends it after the words before. -/
def copyPrepare (s : State) (cid : Nat) (c : EngCmd) : State :=
  match c.instr with
  | .cpy _ dsp ssp .. =>
    let meet := match c.ranges with
      | [x, y] => x.2.1 = y.2.1 && x.2.2.1 < y.2.2.2 && y.2.2.1 < x.2.2.2 && c.arg 0 ≠ c.arg 1
      | _ => false
    if !meet then s.modCmd cid false c.id (fun x => { x with ready := true })
    else
      let r := s.snapshot cid c (dsp = .g && ssp = .g) c.units 0
      let ws := overlapWords s.freeCtr (((c.arg 1 : Int) - c.arg 0) / 4) r.2.1
      let start := fun (s : State) (left : Bool) =>
        State.modCmd { s with freeCtr := s.freeCtr + 1 } cid false c.id (fun x => { x with ready := true, list := ws, finished := left && ws.isEmpty })
      match r.2.2 with
      | .ok _ => start r.1 false
      | .held => r.1
      | .fault .. => r.1.engStop cid false c .read 17 18 19 r.2.2
      | .host .. => r.1.engStop cid false c .read 17 18 19 r.2.2
      | x => start (r.1.engStop cid false c .read 17 18 19 x) true
  | .cred .. => s.modCmd cid false c.id (fun x => { x with ready := true })
  | _ =>
    match s.readRecord cid c with
    | (s, .ok bs) =>
      match recordRefusal c bs with
      | some n => s.modCmd cid false c.id (fun x => { x with fault := some n, finished := true })
      | none => s.modCmd cid false c.id (fun x => { x with ready := true, recBytes := bs })
    | (s, r) => s.engStop cid false c .read 17 18 19 r

/-- Bytes that became visible at a scratchpad lower the counter of the attached barrier (R239). -/
def lower (s : State) (c : EngCmd) (n : Nat) : State :=
  match c.attach with
  | some key => s.changeBarrier c.block key (fun b => ({ b with t := b.t - BitVec.ofNat 32 n }).check)
  | none => s

/-- Bytes written to a scratchpad by a command. -/
def scrPut (s : State) (c : EngCmd) (a : Nat) (bs : List Byte) : State := (s.scrWrite (a / 2 ^ 20) (a % 2 ^ 20) bs).lower c bs.length

/-- A unit is done. -/
def unitDone (s : State) (cid : Nat) (c : EngCmd) : State :=
  s.modCmd cid false c.id (fun x => { x with done := x.done + 1, finished := decide (c.units ≤ x.done + 1) || (x.fault.isSome && decide (x.list.length ≤ x.done + 1)) })

/-- The bytes of a unit are written. -/
def putUnit (s : State) (cid : Nat) (c : EngCmd) (dst : Bool × Nat) (bs : List Byte) : State :=
  if dst.1 then
    match s.engWrite cid c dst.2 bs with
    | (s, .ok _) => s.unitDone cid c
    | (s, r) => s.engStop cid false c .write 17 18 19 r
  else (s.scrPut c dst.2 bs).unitDone cid c

/-- Bytes from one side of a copy, then to the other. -/
def moveUnit (s : State) (cid : Nat) (c : EngCmd) (src : Bool × Nat) (dst : Bool × Nat) (n : Nat) : State :=
  match if src.1 then s.engRead cid c src.2 n else (s, s.scrTake src.2 n) with
  | (s, .ok bs) => s.putUnit cid c dst bs
  | (s, r) => s.engStop cid false c .read 17 18 19 r

/-- R245: the value left at a word by `cred`. -/
def credValue (op ty : Nat) (y x : Nat) : Nat :=
  match ty, op with
  | 2, 0 => atomFloat (Num.add 0) y x
  | 2, 1 => atomFloat (Num.pick false false) y x
  | 2, _ => atomFloat (Num.pick true false) y x
  | _, 0 => (y + x) % 2 ^ 32
  | 0, 1 => if sextNat 32 x < sextNat 32 y then x else y
  | 0, _ => if sextNat 32 y < sextNat 32 x then x else y
  | _, 1 => min y x
  | _, _ => max y x

/-- Coordinates of a tensor copy. -/
def coordsOf (c : EngCmd) : List Int := (List.range 5).map (fun j => sextNat 32 (c.arg (4 + j)))

/-- The next unit of a prepared command (R240, R243 to R245). -/
def copyUnit (s : State) (cid : Nat) (c : EngCmd) : State :=
  let k := c.done
  match c.instr with
  | .cpy _ dsp ssp .. =>
    match c.list[k]? with
    | some x => s.putUnit cid c (dsp = .g, c.arg 0 + 4 * k) (leBytes 4 x)
    | none => s.moveUnit cid c (ssp = .g, c.arg 1 + 4 * k) (dsp = .g, c.arg 0 + 4 * k) 4
  | .cred _ op ty .. =>
    match s.scrTake (c.arg 1 + 4 * k) 4, s.scrTake (c.arg 0 + 4 * k) 4 with
    | .ok x, .ok y => s.putUnit cid c (false, c.arg 0 + 4 * k) (leBytes 4 (credValue op.toNat ty.toNat (leNat y) (leNat x)))
    | .ok _, r => s.engStop cid false c .read 17 18 19 r
    | r, _ => s.engStop cid false c .read 17 18 19 r
  | .cpytLd .. =>
    match c.layout with
    | none => s
    | some l =>
      match l.elemAddr (coordsOf c) k with
      | some g => s.moveUnit cid c (true, g) (false, c.arg 0 + l.size * k) l.size
      | none => (s.scrPut c (c.arg 0 + l.size * k) l.fill).unitDone cid c
  | .cpytSt .. =>
    match c.layout with
    | none => s
    | some l =>
      match l.elemAddr (coordsOf c) k with
      | some g => s.moveUnit cid c (false, c.arg 0 + l.size * k) (true, g) l.size
      | none => s.unitDone cid c
  | .cpyg .. =>
    match c.layout with
    | none => s
    | some l =>
      match s.scrTake (c.arg 4 + 4 * k) 4 with
      | .ok idx =>
        let row := leNat idx
        let d := c.arg 0 + l.rowBytes * k
        if row < l.ext.getD 1 0 then s.moveUnit cid c (true, l.rowAddr row) (false, d) l.rowBytes
        else (s.scrPut c d ((List.replicate (l.box.headD 0) l.fill).flatten)).unitDone cid c
      | r => s.engStop cid false c .read 17 18 19 r
  | .cpys .. =>
    match c.layout with
    | none => s
    | some l =>
      match s.scrTake (c.arg 4 + 4 * k) 4 with
      | .ok idx =>
        let row := leNat idx
        if row < l.ext.getD 1 0 then s.moveUnit cid c (false, c.arg 0 + l.rowBytes * k) (true, l.rowAddr row) l.rowBytes
        else s.unitDone cid c
      | r => s.engStop cid false c .read 17 18 19 r
  | _ => s

/-- An earlier command of the same wave that has not finished meets this one at a location (R154, R247). -/
def copyBehind (s : State) (cid : Nat) (c : EngCmd) : Bool :=
  (((s.core cid).copy.takeWhile (fun x => x.id ≠ c.id)).any (fun x => x.wave = c.wave && !x.finished && s.rangesMeet cid x c x.ranges c.ranges))

/-- One step of a started command: its preparation, or its next unit. -/
def copyStep (s : State) (cid id : Nat) : State :=
  match s.cmd cid false id with
  | none => s
  | some c =>
    if !c.started || c.finished || c.waiting.isSome then s
    else match s.engClear cid false c with
      | (s, false) => s
      | (s, true) =>
        let linear := match c.instr with | .cpy .. => true | _ => false
        if c.ready || linear then
          if s.copyBehind cid c then s else if c.ready then s.copyUnit cid c else s.copyPrepare cid c
        else s.copyPrepare cid c

def copySteps (s : State) (cid id : Nat) : Nat → State
  | 0 => s
  | n + 1 => (s.copyStep cid id).copySteps cid id n

/-- R236: a command may start. -/
def copyStartable (s : State) (cid : Nat) (c : EngCmd) : Bool :=
  !c.started && c.waiting.isNone && s.needsDone c.wave c.before
    && !((s.core cid).copy.takeWhile (fun x => x.id ≠ c.id)).any (fun x => x.wave = c.wave && !x.started)

end State

/-- COPY_CMD_START (R211, R236, R249): at most four commands run at once. -/
def execCopyCmdStart (cid : Nat) (s : State) : Host.Outcome State Fault Refusal :=
  let q := (s.core cid).copy
  if 4 ≤ (q.filter (·.started)).length then .next s
  else match State.firstCmd (q.filter (s.copyStartable cid)) with
    | none => .next s
    | some c =>
      let s := s.lcRecv (lcCopy cid) c.stamp
      let s := s.modCmd cid false c.id (fun x => { x with started := true, began := s.cyc cid })
      .next (s.copyStep cid c.id)

/-- COPY_BYTES_VISIBLE (R239, R240, R243 to R245): some units of a started command become visible. -/
def execCopyBytesVisible (cid id units : Nat) (s : State) : Host.Outcome State Fault Refusal :=
  .next (s.copySteps cid id units)

/-- COPY_CMD_COMPLETE (R236, R246). -/
def execCopyCmdComplete (cid id : Nat) (s : State) : Host.Outcome State Fault Refusal :=
  match s.cmd cid false id with
  | some c => if c.finished then .next (s.engComplete cid false c) else .next s
  | none => .next s

end Sys2Proof.Machine
end

