-- ==== Sys2Proof/Machine/Matrix.lean ====
section
/-! DEFINITION. The matrix engine (R148 to R173): planes, slots, the arithmetic of `mms`, drains and loads of slots. -/

namespace Sys2Proof.Machine

/-! Formats (R149, R156 to R159). -/

/-- K_d of a type: elements in 192 bytes. -/
def kStored (t : Ty) : Nat := 1536 / t.bits

/-- K_l under a sparsity. -/
def kLogical (t : Ty) (sp : Nat) : Nat := kStored t * (if sp = 1 then 2 else if sp = 2 then 4 else 1)

/-- CH of a type; the integer types have none. -/
def chunk (t : Ty) : Nat :=
  match t with
  | .e4m3 => 32 | .e5m2 => 32 | .e2m1 => 64 | .l6 => 64 | _ => 16

def intElem (t : Ty) : Bool := t = .i8 || t = .n8

/-- The last column of R149. -/
def pairs (a b : Ty) : Bool :=
  match a with
  | .i8 => intElem b
  | .n8 => intElem b
  | .e4m3 => b = .e4m3 || b = .e5m2
  | .e5m2 => b = .e4m3 || b = .e5m2
  | a => a = b

/-- Sections of a plane image (R157): bytes of a row's positions and of its scales. -/
def posBytes (t : Ty) (sp : Nat) : Nat := if sp = 0 then 0 else 5 * kStored t / 8
def scaleBytes (t : Ty) (sp : Nat) (sc : Bool) : Nat := if sc then kLogical t sp / 8 else 0
def imageBytes (t : Ty) (sp : Nat) (sc : Bool) : Nat := 96 * (192 + posBytes t sp + scaleBytes t sp sc)

/-- The plane of an image's bytes. -/
def planeOf (t : Ty) (sp : Nat) (sc : Bool) (bs : List Byte) : Plane :=
  let p := posBytes t sp
  let q := scaleBytes t sp sc
  let row := fun (w off n k : Nat) => BitVec.ofNat w (leNat ((bs.drop (off + n * k)).take n))
  let rows := fun (w off n : Nat) => if n = 0 then [] else Words.putAll [] 0 ((List.range 96).map (row w off n))
  { valid := true, ty := t, sp := sp, sc := sc, data := rows 1536 0 192, pos := rows 1920 18432 p, scales := rows 1536 (18432 + 96 * p) q }

/-- The image of a plane (R157, R172). -/
def Plane.image (pl : Plane) : List Byte :=
  let sec := fun {w : Nat} (m : Words w) (n : Nat) => (List.range 96).flatMap (fun k => leBytes n (Words.get m k).toNat)
  sec pl.data 192 ++ sec pl.pos (posBytes pl.ty pl.sp) ++ sec pl.scales (scaleBytes pl.ty pl.sp pl.sc)

/-- Stored elements in a group of 24 logical positions (R158). -/
def perGroup (sp : Nat) : Nat := if sp = 1 then 12 else 6

/-- Element k of a packed stream (R100). -/
def elemAt (w x k : Nat) : Nat := x >>> (w * k) % 2 ^ w

/-- The 5-bit position of stored element j of row n. -/
def Plane.place (pl : Plane) (n j : Nat) : Nat := elemAt 5 (Words.get pl.pos n).toNat j

/-- The kept elements of column n: logical position and code (R158), ascending. -/
def Plane.column (pl : Plane) (n : Nat) : List (Nat × Nat) :=
  let x := (Words.get pl.data n).toNat
  (List.range (kStored pl.ty)).map (fun j =>
    (if pl.sp = 0 then j else 24 * (j / perGroup pl.sp) + pl.place n j, elemAt pl.ty.bits x j))

/-- R158: within each group positions strictly rise and are at most 23. -/
def Plane.metaOk (pl : Plane) : Bool :=
  pl.sp = 0 || (List.range 96).all (fun n => (List.range (kStored pl.ty)).all (fun j =>
    decide (pl.place n j ≤ 23) && (j % perGroup pl.sp = 0 || decide (pl.place n (j - 1) < pl.place n j))))

/-! Arithmetic of `mms` (R98, R99, R162, R163). -/

/-- The exact product of two elements; for L6 the product of R98. -/
def elemProd (ta tb : Ty) (a b : Nat) : Num :=
  if ta = .l6 then
    let neg := a.testBit 5 != b.testBit 5
    if a % 32 = 0 || b % 32 = 0 then .fin neg 0 0
    else let m := l6Mag ((a % 32 : Nat) + (b % 32 : Nat) - 16); .fin neg m.1 m.2
  else (Num.mul (decodeNum ta a) (decodeNum tb b)).1

/-- A value times a power of two. -/
def Num.scale (d : Int) : Num → Num
  | .fin n m e => .fin n m (e + d)
  | x => x

/-- The scale code that covers position k of a row; 0x7F where the operand is not scaled (R149). -/
def scaleAt (row : Option Nat) (k : Nat) : Nat := match row with | some x => elemAt 8 x (k / 8) | none => 0x7F

/-- A chunk of one column (R162, R163): v as an FP32 code. -/
def chunkValue (ta tb : Ty) (arow : Nat) (sa sb : Option Nat) (c : Nat) (kept : List (Nat × Nat)) : Nat :=
  let ch := chunk ta
  if (List.range (ch / 8)).any (fun t => scaleAt sa (c * ch + 8 * t) = 0xFF || scaleAt sb (c * ch + 8 * t) = 0xFF) then canonicalNaN .f32
  else
    let sum := kept.foldl (fun (x : Num) e =>
      let p := elemProd ta tb (elemAt ta.bits arow e.1) e.2
      (Num.add 0 x (p.scale ((scaleAt sa e.1 : Int) - 127 + ((scaleAt sb e.1 : Int) - 127)))).1) (.fin false 0 0)
    (deliver .f32 0 0 sum).1

/-- The chunks of a column, ascending, are added with one rounding each. -/
def addChunks (ta tb : Ty) (arow : Nat) (sa sb : Option Nat) : Nat → Nat → List (Nat × Nat) → Nat → Nat
  | 0, _, _, acc => acc
  | n + 1, c, kept, acc =>
    let q := kept.span (fun e => decide (e.1 < (c + 1) * chunk ta))
    let v := chunkValue ta tb arow sa sb c q.1
    addChunks ta tb arow sa sb n (c + 1) q.2 (deliver .f32 0 0 (Num.add 0 (decodeNum .f32 acc) (decodeNum .f32 v)).1).1

/-- The value of an integer element. -/
def intOf (t : Ty) (x : Nat) : Int := if t = .i8 then sextNat 8 x else x

/-- One element of a slot after row A has met a column (R162). -/
def mmsElem (ta : Ty) (pl : Plane) (arow : Nat) (sa : Option Nat) (n : Nat) (kept : List (Nat × Nat)) (acc : Nat) : Nat :=
  if intElem ta then
    wrap 32 ((acc : Int) + (kept.map (fun e => intOf ta (elemAt 8 arow e.1) * intOf pl.ty e.2)).sum)
  else
    let kl := kLogical pl.ty pl.sp
    addChunks ta pl.ty arow sa (if pl.sc then some (Words.get pl.scales n).toNat else none) (kl / chunk ta) 0 kept acc

/-- `mms` over the rows of A that have been read: each with its slot row, its data and its scales. -/
def mmsRows (ta : Ty) (pl : Plane) (z : Bool) (slot : Nat) (rows : List (Nat × Nat × Option Nat)) (acc : Words 32) : Words 32 :=
  let cols := (List.range 96).map (fun n => (n, pl.column n))
  rows.foldl (fun (acc : Words 32) r =>
    cols.foldl (fun (acc : Words 32) e =>
      let key := 9216 * slot + 96 * r.1 + e.1
      let old := if z then 0 else (Words.get acc key).toNat
      Words.put acc key (BitVec.ofNat 32 (mmsElem ta pl r.2.1 r.2.2 e.1 e.2 old))) acc) acc

/-! Issue (R152, R155 to R161, R164, R165). -/

/-- The shape word (R156). -/
def shapeRows (x : Nat) : Nat := bitsOf x 6 0
def shapeRow0 (x : Nat) : Nat := bitsOf x 14 8
def shapeStr (x : Nat) : Nat := 16 * bitsOf x 31 16

def shapeReasons (x : Nat) : List Nat :=
  if shapeRows x = 0 || 96 < shapeRows x || 96 < shapeRow0 x + shapeRows x || x.testBit 7 || x.testBit 15 then [2] else []

/-- The stride of rows of n bytes. -/
def strideOf (x n : Nat) : Nat := if shapeStr x = 0 then n else shapeStr x

/-- The binding of a slot name of the issuing block. -/
def slotOfName (c : Ctx) (k : Nat) : Option Nat := ((c.s.block c.w.block).bind (fun b => Tbl.get? b.slots k)).map (·.phys)

/-- A matrix command issues, or traps with the lowest of its reasons (R155). -/
def matrixIssue (c : Ctx) (i : Instr) (reasons : List Nat) (args : List Nat) (slot : Option Nat) : Act :=
  match reasons.min? with
  | some r => .trap 7 r allLanes
  | none => .ok { st := State.engIssue c c.s true i args slot [], kind := .engine true c.id (State.relScope i), nominal := 4 }

/-- The address operand `a` of a command. -/
def matAddr (c : Ctx) (g : Bool) (a : Opd) : Nat := if g then (c.val64 0 a).toNat else (c.val 0 a).toNat

/-- R160. The arguments kept are the address. -/
def execMlds (h : Hints) (t : Ty) (g : Bool) (a : Opd) (sp : BitVec 2) (sc : Bool) (o : EngOrd) (s : State) : Host.Outcome State Fault Refusal :=
  let i := Instr.mlds h t g a sp sc o
  waveLevel i h (fun c =>
    let x := matAddr c g a
    matrixIssue c i ((if x % (if g then 128 else 16) ≠ 0 then [3] else [])
        ++ (if !g && decide (scrLimit c.s c.w < x + imageBytes t sp.toNat sc) then [4] else []))
      [if g then x else sideArg c .s x] none) s

/-- R161. The arguments kept are the address, the shape word, SOFF and, in `.s`, the offset in the block's allocation. -/
def execMms (h : Hints) (t : Ty) (g : Bool) (slot : BitVec 3) (swap done z sc : Bool) (a b : Opd) (o : EngOrd) (s : State) :
    Host.Outcome State Fault Refusal :=
  let i := Instr.mms h t g slot swap done z sc a b o
  waveLevel i h (fun c =>
    let x := matAddr c g a
    let sh := (c.valN 8 b 0).toNat
    let so := (c.valN 8 b 1).toNat
    let ph := slotOfName c slot.toNat
    matrixIssue c i ((if ph.isNone then [1] else []) ++ shapeReasons sh
        ++ (if x % 16 ≠ 0 || (sc && (x + so) % 8 ≠ 0) then [3] else []))
      [if g then x else sideArg c .s x, sh, so, x] ph) s

/-- R164. -/
def execMzero (h : Hints) (slot : BitVec 3) (s : State) : Host.Outcome State Fault Refusal :=
  let i := Instr.mzero h slot
  waveLevel i h (fun c =>
    let ph := slotOfName c slot.toNat
    matrixIssue c i (if ph.isNone then [1] else []) [] ph) s

/-- What `mdrain` and `mldacc` check at issue (R165). The arguments kept are the address and the shape word. -/
def tileIssue (c : Ctx) (i : Instr) (t : Ty) (g : Bool) (slot : Nat) (a b : Opd) : Act :=
  let x := matAddr c g a
  let sh := (c.val 8 b).toNat
  let row := 96 * (t.bits / 8)
  let st := strideOf sh row
  let al := if g then 128 else 16
  let ph := slotOfName c slot
  matrixIssue c i ((if ph.isNone then [1] else []) ++ shapeReasons sh ++ (if x % al ≠ 0 || st % al ≠ 0 then [3] else [])
      ++ (if !g && decide (scrLimit c.s c.w < x + (shapeRows sh - 1) * st + row) then [4] else []))
    [if g then x else sideArg c .s x, sh] ph

def execMdrain (h : Hints) (t : Ty) (g : Bool) (slot : BitVec 3) (add : Bool) (rm : BitVec 2) (a b : Opd) (o : EngOrd) (s : State) :
    Host.Outcome State Fault Refusal :=
  waveLevel (.mdrain h t g slot add rm a b o) h (fun c => tileIssue c (.mdrain h t g slot add rm a b o) t g slot.toNat a b) s

def execMldacc (h : Hints) (t : Ty) (g : Bool) (slot : BitVec 3) (a b : Opd) (o : EngOrd) (s : State) : Host.Outcome State Fault Refusal :=
  waveLevel (.mldacc h t g slot a b o) h (fun c => tileIssue c (.mldacc h t g slot a b o) t g slot.toNat a b) s

namespace State

def modMat (s : State) (cid : Nat) (f : MatEng → MatEng) : State := s.modCore cid (fun c => { c with mat := f c.mat })

/-- A slot with every element +0 (R151, R164). -/
def zeroSlot (s : State) (cid slot : Nat) : State :=
  s.modMat cid (fun m => { m with acc := m.acc.filter (fun e => e.1 / 9216 ≠ slot) })

end State

/-- R167: bind a name to the lowest free physical slot. -/
def execAalloc (h : Hints) (pr : PairF) (k : BitVec 3) (s : State) : Host.Outcome State Fault Refusal :=
  waveLevel (.aalloc h pr k) h (fun c =>
    let free := (List.range 8).find? (fun i => !Tbl.has (c.s.core c.cid).mat.bound i)
    match free, slotOfName c k.toNat with
    | some ph, none =>
      let s := c.s.modBlock c.w.block (fun b => { b with slots := Tbl.set b.slots k.toNat { phys := ph, placed := false } })
      let s := (s.modMat c.cid (fun m => { m with bound := Tbl.set m.bound ph c.w.block })).zeroSlot c.cid ph
      .ok { st := s, ws := pairWave c pr true }
    | _, _ => .ok { st := c.s, ws := pairWave c pr false }) s

namespace State

/-- R168: a physical slot that no name binds and no command names goes back to the free pool. -/
def freeSlot (s : State) (cid ph : Nat) : State :=
  let named := Tbl.any s.blocks (fun _ b => b.cid = cid && Tbl.any b.slots (fun _ x => x.phys = ph))
  if named || (s.core cid).mat.cmds.any (fun c => c.slot = some ph) then s
  else s.modMat cid (fun m => { m with bound := Tbl.erase m.bound ph })

end State

/-- R168. -/
def execAfree (h : Hints) (k : BitVec 3) (s : State) : Host.Outcome State Fault Refusal :=
  waveLevel (.afree h k) h (fun c =>
    match (c.s.block c.w.block).bind (fun b => Tbl.get? b.slots k.toNat) with
    | some x =>
      if x.placed then .trap 7 5 allLanes
      else
        let s := c.s.modBlock c.w.block (fun b => { b with slots := Tbl.erase b.slots k.toNat })
        .ok { st := s.freeSlot c.cid x.phys }
    | none => .trap 7 5 allLanes) s

/-! Service (R153). -/

/-- The resource of a command: 0 the array, 1 the load path, 2 the slot port. -/
def matResource : Instr → Nat
  | .mms .. => 0
  | .mlds .. => 1
  | _ => 2

/-- Commands that use the slot shadow (R169). -/
def usesShadow : Instr → Bool
  | .mms _ _ g .. => g
  | .mldacc _ _ g .. => g
  | _ => false

namespace State

/-- R153: a command may start. -/
def servable (s : State) (cid : Nat) (c : EngCmd) : Bool :=
  let m := (s.core cid).mat
  let busy := m.cmds.filter (·.started)
  !c.started && s.needsDone c.wave c.before
    && !(m.cmds.takeWhile (fun x => x.id ≠ c.id)).any (fun x => x.wave = c.wave && !x.started)
    && !busy.any (fun x => matResource x.instr = matResource c.instr)
    && (c.slot.isNone || !busy.any (fun x => x.slot = c.slot))
    && (matResource c.instr = 2 || m.holder = none || m.holder = some c.block)
    && (match c.instr with
        | .mms _ _ _ _ true .. => !(m.holder.isSome && busy.any (fun x => matResource x.instr = 1 && m.holder = some x.block))
        | _ => true)
    && (!usesShadow c.instr || !busy.any (fun x => usesShadow x.instr))

def matRefuse (s : State) (cid : Nat) (c : EngCmd) (r : Nat) : State :=
  s.modCmd cid true c.id (fun x => { x with fault := some r, finished := true })

def matReady (s : State) (cid : Nat) (c : EngCmd) : State := s.modCmd cid true c.id (fun x => { x with ready := true })

def matDone (s : State) (cid : Nat) (c : EngCmd) : State := s.modCmd cid true c.id (fun x => { x with finished := true })

/-- The slot of a command is copied to the slot shadow (R169), if the command uses it. -/
def copySlot (s : State) (cid : Nat) (c : EngCmd) : State :=
  if !usesShadow c.instr then s
  else
    let ph := c.slot.getD 0
    s.modMat cid (fun m => { m with slotCopy := some (c.id, ph, m.acc.filter (fun e => e.1 / 9216 = ph)) })

/-- The slot is restored from the slot shadow (R170). -/
def restoreSlot (s : State) (cid : Nat) (c : EngCmd) : State :=
  s.modMat cid (fun m => match m.slotCopy with
    | some (id, ph, xs) => if id = c.id then { m with acc := xs.foldl (fun a e => Words.put a e.1 e.2) (m.acc.filter (fun e => e.1 / 9216 ≠ ph)) } else m
    | none => m)

/-- The footprint of A with its scales in the block's allocation (R159). -/
def mmsFits (s : State) (c : EngCmd) (kl w : Nat) (sc : Bool) : Bool :=
  match s.block c.block with
  | none => false
  | some b =>
    let row := kl * w / 8
    let base := c.arg 3
    let last := shapeRows (c.arg 1) - 1
    let so : Int := (base : Int) + sextNat 32 (c.arg 2)
    decide (base + last * strideOf (c.arg 1) row + row ≤ b.scrSize)
      && (!sc || (decide (0 ≤ so) && decide (so + ((last + 1) * (kl / 8) : Nat) ≤ b.scrSize)))

/-- What a command does and checks at its start, before any operand is read (R150, R160, R162). -/
def matPrepare (s : State) (cid : Nat) (c : EngCmd) : State :=
  match c.instr with
  | .mlds .. =>
    (s.modMat cid (fun m => { m with holder := some c.block, shadow := { m.shadow with valid := false } })).matReady cid c
  | .mms _ t g _ swap _ _ sc .. =>
    if (s.core cid).mat.holder ≠ some c.block then s.matRefuse cid c 17
    else
      let s := if swap then s.modMat cid (fun m => { m with active := m.shadow, shadow := { m.shadow with valid := false } }) else s
      let pl := (s.core cid).mat.active
      if !pl.valid then s.matRefuse cid c 17
      else if !pairs t pl.ty then s.matRefuse cid c 16
      else if !g && !s.mmsFits c (kLogical pl.ty pl.sp) t.bits sc then s.matRefuse cid c 20
      else (s.copySlot cid c).matReady cid c
  | _ => (s.copySlot cid c).matReady cid c

/-- Bytes of an operand: from the scratchpad, or from global memory. -/
def matRead (s : State) (cid : Nat) (c : EngCmd) (g : Bool) (a : Int) (n : Nat) : State × EngRes (List Byte) :=
  if g then s.engRead cid c (wrap 64 a) n else (s, s.scrTake a.toNat n)

/-- The rows of A from row m on, with their scales (R159). -/
def readRows (s : State) (cid : Nat) (c : EngCmd) (g sc : Bool) (row stride scb : Nat) : Nat → Nat → State × EngRes (List (Nat × Nat × Option Nat))
  | 0, _ => (s, .ok [])
  | n + 1, m =>
    match s.matRead cid c g ((c.arg 0 : Int) + (m * stride : Nat)) row with
    | (s, .ok bs) =>
      let r := if sc then s.matRead cid c g ((c.arg 0 : Int) + sextNat 32 (c.arg 2) + (m * scb : Nat)) scb else (s, .ok [])
      match r with
      | (s, .ok xs) =>
        match readRows s cid c g sc row stride scb n (m + 1) with
        | (s, r) => (s, r.map (fun l => (shapeRow0 (c.arg 1) + m, leNat bs, if sc then some (leNat xs) else none) :: l))
      | (s, r) => (s, r.map (fun _ => []))
    | (s, r) => (s, r.map (fun _ => []))

/-- What a command that cannot go on leaves (R170). -/
def matStop {α : Type} (s : State) (cid : Nat) (c : EngCmd) (k : PKind) (r : EngRes α) : State :=
  (s.restoreSlot cid c).engStop cid true c k 19 19 19 r

/-- R165: one element as `mdrain` leaves it in memory. -/
def drainElem (t : Ty) (add : Bool) (rm x old : Nat) : Nat :=
  if t = .i32 then (if add then (old + x) % 2 ^ 32 else x)
  else (deliver t rm 0 (if add then (Num.add rm (decodeNum t old) (decodeNum .f32 x)).1 else decodeNum .f32 x)).1

/-- R165: one element as `mldacc` leaves it in the slot. -/
def loadElem (t : Ty) (x : Nat) : Nat := if t = .i32 then x else (deliver .f32 0 0 (decodeNum t x)).1

/-- Elements n0 to n0 + cnt − 1 of a row of the slot, as they go to memory over the bytes that are there. -/
def drainRun (s : State) (cid : Nat) (c : EngCmd) (t : Ty) (add : Bool) (rm m n0 cnt : Nat) (old : List Byte) : List Byte :=
  let e := t.bits / 8
  let key := 9216 * c.slot.getD 0 + 96 * (shapeRow0 (c.arg 1) + m)
  (List.range cnt).flatMap (fun j =>
    leBytes e (drainElem t add rm (Words.get (s.core cid).mat.acc (key + n0 + j)).toNat (leNat ((old.drop (e * j)).take e))))

/-- The parts of a line (a multiple of 128 from address 0 on) that the rows of a drain cover: row, first element, count. -/
def drainParts (c : EngCmd) (e line : Nat) : List (Nat × Nat × Nat) :=
  let st := strideOf (c.arg 1) (96 * e)
  (List.range (shapeRows (c.arg 1))).filterMap (fun m =>
    let lo := c.arg 0 + m * st
    let hi := lo + 96 * e
    if 128 * line + 128 ≤ lo || hi ≤ 128 * line then none
    else some (m, (max lo (128 * line) - lo) / e, (min hi (128 * line + 128) - max lo (128 * line)) / e))

/-- The lines of a drain, in the order in which its rows reach them (R166). -/
def drainLines (c : EngCmd) (e : Nat) : List Nat :=
  let st := strideOf (c.arg 1) (96 * e)
  ((List.range (shapeRows (c.arg 1))).flatMap (fun m => linesOf (c.arg 0 + m * st) (96 * e))).eraseDups

/-- The parts of one line of a global drain, in order; the line is combined in one step (R166), over what the core's L1 has written back (R211). -/
def drainLine (s : State) (cid : Nat) (c : EngCmd) (t : Ty) (add : Bool) (rm : Nat) : List (Nat × Nat × Nat) → State × EngRes Unit
  | [] => (s, .ok ())
  | (m, n0, cnt) :: rest =>
    let e := t.bits / 8
    let va := (c.arg 0 + m * strideOf (c.arg 1) (96 * e) + n0 * e) % 2 ^ 64
    let r := if add then (s.engFlush cid c va (cnt * e)).engRead cid c va (cnt * e) else (s, .ok [])
    match r with
    | (s, .ok old) =>
      match s.engWrite cid c va (s.drainRun cid c t add rm m n0 cnt old) with
      | (s, .ok _) => s.drainLine cid c t add rm rest
      | r => r
    | (s, r) => (s, r.map (fun _ => ()))

/-- The lines of a global drain not yet applied (R166, R170). -/
def drainGlobal (s : State) (cid : Nat) (c : EngCmd) (t : Ty) (add : Bool) (rm : Nat) : List Nat → State
  | [] => s.matDone cid c
  | l :: ls =>
    match s.drainLine cid c t add rm (drainParts c (t.bits / 8) l) with
    | (s, .ok _) => (s.modCmd cid true c.id (fun x => { x with done := x.done + 1 })).drainGlobal cid c t add rm ls
    | (s, r) => s.matStop cid c .write r

/-- A drain to the scratchpad: one tile, row by row (R166). -/
def drainTile (s : State) (cid : Nat) (c : EngCmd) (t : Ty) (add : Bool) (rm : Nat) : State :=
  let row := 96 * (t.bits / 8)
  (List.range (shapeRows (c.arg 1))).foldl (fun s m =>
    let a := c.arg 0 + m * strideOf (c.arg 1) row
    s.scrWrite (a / 2 ^ 20) (a % 2 ^ 20) (s.drainRun cid c t add rm m 0 96 (s.scrGet a row))) s

/-- The effect of a prepared command (R160, R162, R164, R165). -/
def matRun (s : State) (cid : Nat) (c : EngCmd) : State :=
  let ph := c.slot.getD 0
  match c.instr with
  | .mlds _ t g _ sp sc _ =>
    match s.matRead cid c g (c.arg 0) (imageBytes t sp.toNat sc) with
    | (s, .ok bs) =>
      let pl := planeOf t sp.toNat sc bs
      if !pl.metaOk then s.matRefuse cid c 18
      else (s.modMat cid (fun m => { m with shadow := pl })).matDone cid c
    | (s, r) => s.matStop cid c .read r
  | .mms _ t g _ _ _ z sc .. =>
    let pl := (s.core cid).mat.active
    let kl := kLogical pl.ty pl.sp
    let row := kl * t.bits / 8
    match s.readRows cid c g sc row (strideOf (c.arg 1) row) (kl / 8) (shapeRows (c.arg 1)) 0 with
    | (s, .ok rows) => (s.modMat cid (fun m => { m with acc := mmsRows t pl z ph rows m.acc })).matDone cid c
    | (s, r) => s.matStop cid c .read r
  | .mzero .. => (s.zeroSlot cid ph).matDone cid c
  | .mdrain _ t g _ add rm .. =>
    if g then s.drainGlobal cid c t add rm.toNat ((drainLines c (t.bits / 8)).drop c.done)
    else (s.drainTile cid c t add rm.toNat).matDone cid c
  | .mldacc _ t g .. =>
    let row := 96 * (t.bits / 8)
    match s.readRows cid c g false row (strideOf (c.arg 1) row) 0 (shapeRows (c.arg 1)) 0 with
    | (s, .ok rows) =>
      (s.modMat cid (fun m => { m with acc := rows.foldl (fun (a : Words 32) r =>
        (List.range 96).foldl (fun a n =>
          Words.put a (9216 * ph + 96 * r.1 + n) (BitVec.ofNat 32 (loadElem t (elemAt t.bits r.2.1 n)))) a) m.acc })).matDone cid c
    | (s, r) => s.matStop cid c .read r
  | _ => s

/-- The memory that a command reads and writes, as `rangesMeet` takes it. -/
def matRanges (s : State) (cid : Nat) (c : EngCmd) : List (Bool × Nat × Nat × Nat) :=
  let at_ := fun (g wr : Bool) (a n : Nat) => if g then (wr, 0, a, a + n) else (wr, 1 + a / 2 ^ 20, a % 2 ^ 20, a % 2 ^ 20 + n)
  let rows := fun (n : Nat) => (shapeRows (c.arg 1) - 1) * strideOf (c.arg 1) n + n
  match c.instr with
  | .mlds _ t g _ sp sc _ => [at_ g false (c.arg 0) (imageBytes t sp.toNat sc)]
  | .mms _ t g _ _ _ _ sc .. =>
    let kl := kLogical (s.core cid).mat.active.ty (s.core cid).mat.active.sp
    at_ g false (c.arg 0) (rows (kl * t.bits / 8))
      :: (if sc then [at_ g false (wrap 64 ((c.arg 0 : Int) + sextNat 32 (c.arg 2))) (shapeRows (c.arg 1) * (kl / 8))] else [])
  | .mdrain _ t g .. => [at_ g true (c.arg 0) (rows (96 * (t.bits / 8)))]
  | .mldacc _ t g .. => [at_ g false (c.arg 0) (rows (96 * (t.bits / 8)))]
  | _ => []

/-- An earlier command of the same wave that is under way meets this one at a location (R154). -/
def matBehind (s : State) (cid : Nat) (c : EngCmd) : Bool :=
  ((s.core cid).mat.cmds.takeWhile (fun x => x.id ≠ c.id)).any (fun x =>
    x.wave = c.wave && x.started && !x.finished && s.rangesMeet cid x c (s.matRanges cid x) (s.matRanges cid c))

/-- A started command goes on: its checks, then its effect, as far as its acquire, no page, no held line and no earlier command of its wave keeps it. -/
def matGo (s : State) (cid id : Nat) : State :=
  match s.cmd cid true id with
  | none => s
  | some c =>
    if !c.started || c.finished || c.waiting.isSome then s
    else
      let s := if c.ready then s else s.matPrepare cid c
      match s.cmd cid true id with
      | some c =>
        if !c.ready || c.finished || s.matBehind cid c then s
        else match s.engClear cid true c with
          | (s, true) => s.matRun cid c
          | (s, false) => s
      | none => s

/-- R171: the nominal cycles of a command from its start to its completion; the memory latency class of a global operand is taken as 260 (log 3). -/
def matNominal (s : State) (cid : Nat) (c : EngCmd) : Nat :=
  let stream := fun (g : Bool) (base n : Nat) => if g then 260 + (n + 127) / 128 else base + (n + 255) / 256
  match c.instr with
  | .mlds _ t g _ sp sc _ => stream g 20 (imageBytes t sp.toNat sc)
  | .mms _ t g _ _ _ _ sc .. =>
    let kl := kLogical (s.core cid).mat.active.ty (s.core cid).mat.active.sp
    stream g 64 (shapeRows (c.arg 1) * (kl * t.bits / 8 + if sc then kl / 8 else 0)) + (if g then 20 else 0)
  | .mdrain _ t g _ add .. => stream g 24 (shapeRows (c.arg 1) * (96 * (t.bits / 8))) + (if add then 8 else 0)
  | .mldacc _ t g .. => stream g 24 (shapeRows (c.arg 1) * (96 * (t.bits / 8))) + (if g then 20 else 0)
  | _ => 4

/-- A command is in the engine until its nominal time has passed (R171). -/
def matBusy (s : State) (cid : Nat) (c : EngCmd) : Bool := c.started && (!c.finished || decide (s.cyc cid < c.began + s.matNominal cid c))

/-- The planes are released (R150). -/
def releasePlanes (s : State) (cid : Nat) : State :=
  s.modMat cid (fun m => { m with holder := none, active := { m.active with valid := false }, shadow := { m.shadow with valid := false } })

/-- The last row of a `.done` command has entered the array, and the planes are still held for it. -/
def releasing (c : EngCmd) : Bool :=
  c.finished && c.fault.isNone && !c.released && (match c.instr with | .mms _ _ _ _ _ d .. => d | _ => false)

def releaseFor (s : State) (cid : Nat) (c : EngCmd) : State :=
  (s.releasePlanes cid).modCmd cid true c.id (fun x => { x with released := true })

end State

/-- MATRIX_CMD_START (R153, R211, R249): commands that a page or a held line kept go on; then one servable command starts. -/
def execMatrixCmdStart (cid : Nat) (s : State) : Host.Outcome State Fault Refusal :=
  let s := ((s.core cid).mat.cmds.map (·.id)).foldl (fun s id => s.matGo cid id) s
  match State.firstCmd ((s.core cid).mat.cmds.filter (s.servable cid)) with
  | none => .next s
  | some c =>
    let s := s.lcRecv (lcMatrix cid) c.stamp
    let s := s.modCmd cid true c.id (fun x => { x with started := true, began := s.cyc cid })
    .next (s.matGo cid c.id)

/-- PLANE_RELEASE (R150, R162). -/
def execPlaneRelease (cid : Nat) (s : State) : Host.Outcome State Fault Refusal :=
  match (s.core cid).mat.cmds.find? State.releasing with
  | some c => .next (s.releaseFor cid c)
  | none => .next s

/-- MATRIX_CMD_COMPLETE (R152, R155, R168, R170). -/
def execMatrixCmdComplete (cid id : Nat) (s : State) : Host.Outcome State Fault Refusal :=
  match s.cmd cid true id with
  | some c =>
    if !c.finished then .next s
    else
      let s := if State.releasing c then s.releaseFor cid c else s
      let s := s.engComplete cid true c
      if (s.cmd cid true id).isSome then .next s
      else
        let s := s.modMat cid (fun m => { m with slotCopy := m.slotCopy.filter (fun x => x.1 ≠ id) })
        .next (match c.slot with | some ph => s.freeSlot cid ph | none => s)
  | none => .next s

end Sys2Proof.Machine
end

