-- ==== Sys2Proof/Machine/Retire.lean ====
section
/-! DEFINITION. The retirement of a block (R31, R115, R150, R151, R179, R268). -/

namespace Sys2Proof.Machine

namespace State

/-- R31: no wave is left, and no engine command of the block. -/
def blockOver (s : State) (b : Nat) (x : Block) : Bool :=
  x.waves.isEmpty && !(s.core x.cid).mat.cmds.any (fun c => c.block = b) && !(s.core x.cid).copy.any (fun c => c.block = b)

/-- R31, R179: and no copy command of its cluster that was admitted against it. -/
def blockDone (s : State) (b : Nat) (x : Block) : Bool :=
  s.blockOver b x && (List.range 4).all (fun m => !(s.core (x.cid / 4 * 4 + m)).copy.any (fun c => c.targets.contains b))

/-- The resources of a block become free in one step: its slots, the planes that it holds, its shape store with the last block of its kernel, its place in its group. -/
def freeBlock (s : State) (b : Nat) (x : Block) : State :=
  let s := { s with blocks := Tbl.erase s.blocks b }
  let last := match x.store with
    | some n => !Tbl.any s.blocks (fun _ y => y.cid = x.cid && y.store = some n)
    | none => false
  let s := if (s.core x.cid).mat.holder = some b then s.releasePlanes x.cid else s
  let s := s.modCore x.cid (fun c =>
    { c with mat := { c.mat with bound := c.mat.bound.filter (fun e => e.2 ≠ b) }
             shapes := match x.store with | some n => if last then Tbl.erase c.shapes n else c.shapes | none => c.shapes })
  match x.group with
  | none => s
  | some g =>
    let s := s.modGroup g (fun y => { y with blocks := y.blocks.filter (· ≠ b) })
    if (Tbl.get? s.groups g).elim false (fun y => y.blocks.isEmpty) then { s with groups := Tbl.erase s.groups g } else s

/-- R31, R268, R302: the block is counted: in its cluster for its launch, and in the drain of its partition. -/
def retireBlock (s : State) (b : Nat) : State :=
  match s.block b with
  | none => s
  | some x =>
    let s := s.freeBlock b x
    let cl := clidOf x.cid
    let p := ((s.launch x.launch).map (·.pidN)).getD 0
    let s := s.modLaunch x.launch (fun l => { l with live := l.live - 1, retiredAt := Tbl.set l.retiredAt cl (Tbl.getD l.retiredAt cl 0 + 1) })
    let st := (s.part p).pstate
    if (st = 1 || st = 2) && !x.discarded then s.modPart p (fun q => { q with ndrain := min (q.ndrain + 1) 65535 }) else s

end State

/-- BLOCK_RETIRE (R31, R179): the block leaves the directories of its cluster; once every access admitted against it has completed, it is freed. -/
def execBlockRetire (b : Nat) (s : State) : Host.Outcome State Fault Refusal :=
  match s.block b with
  | some x =>
    if s.blockDone b x then .next (s.retireBlock b)
    else if s.blockOver b x then .next (s.modBlock b (fun x => { x with leaving := true }))
    else .next s
  | none => .next s

end Sys2Proof.Machine
end

