-- ==== Sys2Proof/Machine/Record.lean ====
section
/-! DEFINITION. The layout of a wave in memory (R307, R386): the sections that a save and a core dump write. -/

namespace Sys2Proof.Machine

/-- Zero bytes up to the next multiple of n. -/
def padTo (n : Nat) (bs : List Byte) : List Byte := bs ++ List.replicate ((n - bs.length % n) % n) 0

/-- The live numbers among p1 to p15. -/
def livePreds (w : Wave) : List Nat := (List.range 16).filter (fun k => 0 < k && w.plive.getLsbD k)

/-- The header of a wave record (R307). -/
def waveHeader (k : Nat) (w : Wave) : List Byte :=
  leBytes 2 1 ++ leBytes 1 (wbOf k) ++ leBytes 1 w.wid ++ leBytes 2 w.vregs ++ leBytes 1 w.sregs
    ++ leBytes 1 (w.stateCode + 128 * w.inHandler.toNat) ++ leBytes 8 w.pc.toNat ++ leBytes 4 (pliveFix w.plive).toNat ++ leBytes 4 w.fst.toNat
    ++ leBytes 4 w.draws.toNat ++ leBytes 4 (w.hold.getD 0).toNat ++ (List.range 12).flatMap (fun f => leBytes 1 (w.flag (f + 1)))
    ++ leBytes 1 w.hold.isSome.toNat ++ leBytes 1 w.barCode ++ leBytes 18 0

def scalarBytes (w : Wave) : List Byte := (List.range w.sregs).flatMap (fun n => leBytes 4 (w.sget n).toNat)

/-- The q registers that are live, 1 to 15 (R36), as bits. -/
def liveQ (w : Wave) : BitVec 16 := w.plive.extractLsb' 16 16 &&& 0xFFFE

/-- The q word of the live q registers, then the live p registers. -/
def predBytes (w : Wave) : List Byte :=
  leBytes 4 ((List.range 16).foldl (fun a k => if 0 < k && w.plive.getLsbD (16 + k) && w.q.getLsbD k then a + 2 ^ k else a) 0)
    ++ (livePreds w).flatMap (fun n => leBytes 12 (Words.get w.p n).toNat)

def vectorBytes (w : Wave) : List Byte :=
  (List.range w.vregs).flatMap (fun n => (List.range 96).flatMap (fun i => leBytes 4 (w.vget n i).toNat))

/-- The poison bits, in the order of the values and of the live predicates alone; an error that the save finds in a value it reads sets its bit (R74; DEDUCED, log 31). -/
def poisonBytes (w : Wave) : List Byte :=
  let w := w.found
  leBytes 16 w.poisonS.toNat ++ leBytes 4 (w.poisonQ &&& liveQ w).toNat
    ++ (livePreds w).flatMap (fun n => leBytes 12 (Words.get w.poisonP n).toNat)
    ++ (List.range w.vregs).flatMap (fun n => leBytes 12 (Words.get w.poisonV n).toNat)

/-- The pending section: the first deferred fault that is held. -/
def pendingBytes (w : Wave) : List Byte :=
  match w.deferred with
  | [] => leBytes 32 0
  | f :: _ => leBytes 1 1 ++ leBytes 1 f.cls ++ leBytes 2 f.reason ++ leBytes 4 0 ++ leBytes 8 f.pc.toNat ++ leBytes 12 f.mask.toNat ++ leBytes 4 0

/-- The captures at a save at a time of the timebase (R256). -/
def captureBytes (w : Wave) (ns : Nat) : List Byte :=
  (List.range 4).flatMap (fun c => match Tbl.get? w.caps c with
    | none => leBytes 32 0
    | some x => leBytes 4 1 ++ State.count32 x.instr ++ State.count32 x.beats ++ State.count32 x.held ++ State.count32 x.memreq ++ leBytes 8 x.resident ++ leBytes 4 ns)

/-- The barriers that a wave may name, b then c then g, as keys. -/
def namedBars (nb nc ng : Nat) : List Nat := List.range nb ++ (List.range nc).map (64 + ·) ++ (List.range ng).map (128 + ·)

def arrivalBytes (w : Wave) (keys : List Nat) : List Byte :=
  keys.flatMap (fun b => leBytes 4 (match Tbl.get? w.arr b with | some ap => 2 ^ 31 + ap.toNat | none => 0))

/-- A wave record (R307); it starts at a multiple of 128 (log 20). -/
def waveRecord (k : Nat) (w : Wave) (keys : List Nat) (ns : Nat) : List Byte :=
  let r := waveHeader k w ++ pendingBytes w ++ leBytes 32 0 ++ captureBytes w ns
  let r := padTo 64 r ++ scalarBytes w
  let r := padTo 64 r ++ predBytes w
  let r := padTo 64 r ++ arrivalBytes w keys
  let r := padTo 128 r ++ vectorBytes w
  padTo 64 (padTo 64 r ++ poisonBytes w)

/-- A number of bytes at an offset of a record. -/
def recNat (bs : List Byte) (off n : Nat) : Nat := leNat ((bs.drop off).take n)

/-- Offsets of the sections of a wave record: scalars, predicates, arrivals, vectors, poison, end. -/
def waveOffsets (vregs sregs npl nbar : Nat) : List Nat :=
  let up := fun (m x : Nat) => (x + m - 1) / m * m
  let p := up 64 (256 + 4 * sregs)
  let a := up 64 (p + 4 + 12 * npl)
  let v := up 128 (a + 4 * nbar)
  let o := up 64 (v + 384 * vregs)
  [256, p, a, v, o, up 64 (o + 20 + 12 * npl + 12 * vregs)]

/-- The wave that a record restores (R309), over a wave that holds what the launch and the block give it. -/
def restoreWave (base : Wave) (bs : List Byte) (keys : List Nat) (ns : Nat) : Wave :=
  let pl := pliveFix (BitVec.ofNat 32 (recNat bs 16 4))
  let w : Wave := { base with pc := BitVec.ofNat 64 (recNat bs 8 8), plive := pl, fst := BitVec.ofNat 6 (recNat bs 20 4)
                              draws := BitVec.ofNat 32 (recNat bs 24 4), hold := if recNat bs 44 1 % 2 = 1 then some (BitVec.ofNat 32 (recNat bs 28 4)) else none
                              inHandler := (recNat bs 7 1).testBit 7 }
  let st := recNat bs 7 1 % 128
  let w := { w with stat := if st = 2 then .barWait (recNat bs 45 1) else .ready }
  let live := livePreds w
  let off := waveOffsets w.vregs w.sregs live.length keys.length
  let at_ := fun i => off.getD i 0
  let w := { w with deferred := if recNat bs 64 1 % 2 = 1 then
      [{ cls := recNat bs 65 1, reason := recNat bs 66 2, pc := BitVec.ofNat 64 (recNat bs 72 8), mask := BitVec.ofNat 96 (recNat bs 80 12), addr := 0 }] else [] }
  let w := { w with caps := (List.range 4).filterMap (fun c =>
      let o := 128 + 32 * c
      if recNat bs o 4 = 0 then none
      else some (c, ({ instr := recNat bs (o + 4) 4, beats := recNat bs (o + 8) 4, held := recNat bs (o + 12) 4, memreq := recNat bs (o + 16) 4
                       resident := recNat bs (o + 20) 8, absent := (ns + 2 ^ 32 - recNat bs (o + 28) 4) % 2 ^ 32, interrupted := true } : Capture))) }
  let w := { w with s := (List.range w.sregs).foldl (fun m n => Words.put m n (BitVec.ofNat 32 (recNat bs (at_ 0 + 4 * n) 4))) [] }
  let w := { w with emask := w.execMask }
  let qword := recNat bs (at_ 1) 4
  let w := { w with q := BitVec.ofNat 16 ((List.range 16).foldl (fun a k =>
      if 0 < k && pl.getLsbD (16 + k) && qword.testBit k then a + 2 ^ k else a) 0) }
  let w := { w with p := live.zipIdx.foldl (fun (m : Words 96) (e : Nat × Nat) => Words.put m e.1 (BitVec.ofNat 96 (recNat bs (at_ 1 + 4 + 12 * e.2) 12))) [] }
  let w := { w with arr := keys.zipIdx.filterMap (fun (e : Nat × Nat) =>
      let x := recNat bs (at_ 2 + 4 * e.2) 4
      if x.testBit 31 then some (e.1, BitVec.ofNat 16 x) else none) }
  let w := { w with v := ((bs.drop (at_ 3)).take (384 * w.vregs) |> wordsOf).zipIdx.foldl (fun (m : Words 32) (e : Word × Nat) => Words.put m e.2 e.1) [] }
  let po := at_ 4
  { w with poisonS := BitVec.ofNat 128 (recNat bs po 16), poisonQ := BitVec.ofNat 16 (recNat bs (po + 16) 4) &&& liveQ w
           poisonP := live.zipIdx.foldl (fun (m : Words 96) (e : Nat × Nat) => Words.put m e.1 (BitVec.ofNat 96 (recNat bs (po + 20 + 12 * e.2) 12))) []
           poisonV := (List.range w.vregs).foldl (fun m n =>
             Words.put m n (BitVec.ofNat 96 (recNat bs (po + 20 + 12 * live.length + 12 * n) 12))) [] }
where
  /-- Little-endian words. -/
  wordsOf : List Byte → List Word
    | a :: b :: c :: d :: r => BitVec.ofNat 32 (leNat [a, b, c, d]) :: wordsOf r
    | _ => []

end Sys2Proof.Machine
end

