-- ==== Sys2Proof/Machine/TraceOps.lean ====
section
/-! DEFINITION. The trace instructions and events (R251 to R258), regions of protected waves (R380 to R383), the delivery of a trap that waited (R342), core dumps (R384 to R387). -/

namespace Sys2Proof.Machine

/-- R249, R255. -/
def execTmark (h : Hints) (a : Opd) (s : State) : Host.Outcome State Fault Refusal :=
  waveLevel (.tmark h a) h (fun c =>
    let x := c.val 0 a 0 [a]
    let s := c.s.lcTick (lcCore c.cid)
    .ok { st := s.packet c.k 0x40 [] (leBytes 6 (s.lc (lcCore c.cid)).toNat ++ leBytes 4 x.toNat) }) s

def execCapst (h : Hints) (n : BitVec 2) (s : State) : Host.Outcome State Fault Refusal :=
  waveLevel (.capst h n) h (fun c =>
    let s := c.s.lcTick (lcCore c.cid)
    let s := s.packet c.k 0x50 [BitVec.ofNat 8 n.toNat] (leBytes 6 (s.lc (lcCore c.cid)).toNat)
    .ok { st := s.modWave c.k (fun w => { w with caps := Tbl.set w.caps n.toNat {} }) }) s

def execCapsp (h : Hints) (n : BitVec 2) (s : State) : Host.Outcome State Fault Refusal :=
  waveLevel (.capsp h n) h (fun c => .ok { st := c.s.closeCapture c.k n.toNat false }) s

/-- R380. -/
def execRgn (h : Hints) (s : State) : Host.Outcome State Fault Refusal :=
  waveLevel (.rgn h) h (fun c =>
    .ok { st := c.s.modWave c.k (fun w =>
      if w.prot then { w with region := some { entry := w.pc + 12, restarts := 0, n := w.draws } } else w) }) s

/-- REGION_RESTART (R382): once every outstanding operation of the wave has completed. -/
def execRegionRestart (k : Nat) (s : State) : Host.Outcome State Fault Refusal :=
  match s.wave k with
  | none => .next s
  | some w =>
    match w.region with
    | none => .next s
    | some r =>
      if !w.restart || !w.pend.isEmpty then .next s
      else
        .next ((s.modWave k (fun w => { w with pc := r.entry, draws := r.n, restart := false, region := some { r with restarts := r.restarts + 1 } })).modPart
          w.pidN (fun q => { q with plrst := min (q.plrst + 1) (2 ^ 32 - 1) }))

/-- TRC_CTL_WRITE (R251, R258). -/
def execTrcCtlWrite (cid : Nat) (val : BitVec 32) (s : State) : Host.Outcome State Fault Refusal :=
  let on := val.getLsbD 0
  let was := (s.core cid).trc.en
  let s := (s.flushTrace cid).modTrc cid (fun t => { t with en := on, syncp := bitsOf val.toNat 11 8, tsk := bitsOf val.toNat 20 16 })
  .next (if on && !was then (s.traceResume cid).syncAll cid else s)

/-- TRC_RPTR_WRITE (R254, R258): software frees space. An offset at or above SIZE is kept, and counts modulo SIZE in the free space (DEDUCED, log 25). -/
def execTrcRptrWrite (cid : Nat) (val : BitVec 32) (s : State) : Host.Outcome State Fault Refusal :=
  .next (((s.flushTrace cid).modTrc cid (fun t => { t with rptr := val.toNat })).traceResume cid)

/-- TRACE_SYNC_PERIOD (R258): the cycle counter of the core has reached a multiple of the period. -/
def execTraceSyncPeriod (cid : Nat) (s : State) : Host.Outcome State Fault Refusal :=
  let t := (s.core cid).trc
  if t.en && s.cyc cid % 2 ^ (t.syncp + 10) = 0 then .next ((s.traceResume cid).syncAll cid) else .next s

/-- The lengths of period that end now (R257). -/
def periodsEnding (ns : Nat) : List Nat := (List.range 25).filter (fun k => 10 ≤ k && ns % 2 ^ k = 0)

/-- SERIES_TICK (R257): the global tick of the period that a core's TSK names: the core latches its counts and writes its record. The counts of
every length of period go on whatever TSK is. -/
def execSeriesTick (s : State) : Host.Outcome State Fault Refusal :=
  let ks := periodsEnding s.ns
  .next ((Tbl.keys s.cores).foldl (fun s cid =>
    let k := (s.core cid).trc.tsk
    let s := if ks.contains k then s.seriesRecord cid k (s.ns / 2 ^ k) else s
    s.modCore cid (fun c => { c with marks := ks.foldl (fun m k => Tbl.set m k c.series) c.marks })) s)

/-- TRAP_DELIVER (R342): the delivery of a trap whose frame page was missing goes on. -/
def execTrapDeliver (k : Nat) (s : State) : Host.Outcome State Fault Refusal :=
  match s.wave k with
  | some w =>
    match w.stat, w.trapPend with
    | .trapWait, some t => .next (s.deliverTrap k t)
    | _, _ => .next s
  | none => .next s

/-! Core dumps. -/

/-- The sections of a dump after its header (R386): headers, scalars, predicates, poison and vectors of the waves, by `wid`. -/
def dumpBody (ws : List (Nat × Wave)) : List Byte :=
  ws.flatMap (fun e => waveHeader e.1 e.2) ++ ws.flatMap (fun e => scalarBytes e.2) ++ ws.flatMap (fun e => predBytes e.2)
    ++ ws.flatMap (fun e => poisonBytes e.2) ++ ws.flatMap (fun e => vectorBytes e.2)

/-- The header of a dump (R386). -/
def dumpHeader (status w need missing abort recVa lin : Nat) (t : TrapRec) (k : Nat) (x : Wave) (lc : Nat) : List Byte :=
  leBytes 2 0x0101 ++ leBytes 1 status ++ leBytes 1 w ++ leBytes 4 0 ++ leBytes 8 need ++ leBytes 8 missing ++ leBytes 8 abort
    ++ leBytes 8 recVa ++ leBytes 4 lin ++ leBytes 1 t.cls ++ leBytes 1 (wbOf k) ++ leBytes 2 t.reason ++ leBytes 8 t.ipc.toNat
    ++ leBytes 2 x.vregs ++ leBytes 1 x.sregs ++ leBytes 1 (livePreds x).length ++ leBytes 4 0 ++ leBytes 8 lc ++ leBytes 56 0

namespace State

/-- Bytes of a dump at consecutive addresses of a wave's address space, page by page; answers how many were written (R387). The core's L1 writes back and
drops their lines first, but for those that are held (R228, R368). -/
def dumpWrite (s : State) (cid : Nat) (w : Wave) : List (Nat × Nat) → List Byte → Nat → State × Nat
  | [], _, done => (s, done)
  | (va, n) :: rest, bs, done =>
    if !canonical va then (s, done)
    else match s.translate cid w.pidN w.pasid va .write with
      | (s, .ok e) =>
        let pl := e.place (va % 2 ^ 57)
        let s := match pl with
          | .dev a => (linesOf a n).foldl (fun (s : State) l => if s.lineHeld l 0xFFFFFFFF then s else s.flushLine cid l) s
          | _ => s
        match s.placeWrite w.pidN pl (bs.take n) with
        | (s, true) => s.dumpWrite cid w rest (bs.drop n) (done + n)
        | (s, false) => (s, done)
      | (s, _) => (s, done)

/-- The whole dump of a block whose wave k has trapped fatally (R386, R387). -/
def writeDump (s : State) (k : Nat) (w : Wave) (b : Block) (t : TrapRec) : State :=
  let cid := cidOf k
  let q := s.part w.pidN
  let ws := (b.waves.filterMap (fun j => (s.wave j).map (fun x => (j, x)))).mergeSort (fun a c => decide (a.2.wid ≤ c.2.wid))
  let body := dumpBody ws
  let width := ((s.launch b.launch).map (·.desc.w)).getD ws.length
  let need := 128 + body.length
  let missing := need - q.dmsize
  let recVa := ((s.launch b.launch).bind (·.recVa)).getD 0
  let head := fun (st abort : Nat) => dumpHeader st width need missing abort recVa b.lin t k w (s.lc (lcCore cid)).toNat
  let part := fun (bs : List Byte) => rangeParts 65536 q.dmbase bs.length
  let bytes := (head 0 0 ++ body).take q.dmsize
  let r := s.dumpWrite cid w (part bytes) bytes 0
  let stopped := r.2 < bytes.length
  let status := if stopped then 3 else if 0 < missing then 2 else 1
  let last := head status (if stopped then r.2 else 0)
  let f := r.1.dumpWrite cid w (part last) last 0
  let failed := f.2 < last.length
  f.1.modPart w.pidN (fun q => { q with dmbusy := false, dmstat := if failed then 3 else status, dmoff := if stopped then r.2 else 0 })

end State

/-- The wave of a block whose fatal trap is to be dumped. -/
def dumpingWave (s : State) (x : Block) : Option (Nat × Wave × TrapRec) :=
  x.waves.findSome? (fun k => (s.wave k).bind (fun w => match w.stat, w.trapPend with
    | .dumping .., some t => some (k, w, t)
    | _, _ => none))

namespace State

/-- R385: the dump of a block that has one to write is written, then its waves are killed. -/
def dumpBlock (s : State) (b : Nat) : State :=
  match s.block b with
  | none => s
  | some x =>
    match dumpingWave s x with
    | some (k, w, t) => (s.writeDump k w x t).killBlockWaves b
    | none => s

/-- Some line of a partition's dump area is held (R228, R368). -/
def dumpHeld (s : State) (k : Nat) (w : Wave) : Bool :=
  (rangeParts 65536 (s.part w.pidN).dmbase (s.part w.pidN).dmsize).any (fun x => canonical x.1 &&
    (match (s.translate (cidOf k) w.pidN w.pasid x.1 .write).2 with
      | .ok e => (match e.place (x.1 % 2 ^ 57) with | .dev a => s.rangeHeld a x.2 | _ => false)
      | _ => false))

end State

/-- CORE_DUMP (R385): the dump is written, once no line of it is held, then the waves of the block are killed. -/
def execCoreDump (b : Nat) (s : State) : Host.Outcome State Fault Refusal :=
  match (s.block b).bind (dumpingWave s) with
  | some (k, w, _) => if s.dumpHeld k w then .next s else .next (s.dumpBlock b)
  | none => .next s

end Sys2Proof.Machine
end

