-- ==== Sys2Proof/Machine/Graph.lean ====
section
/-! DEFINITION. Task graphs (R284 to R292): the walker, its tokens and its nodes; a `SOLVE` node up to its hand-over to the solver sequencer. -/

namespace Sys2Proof.Machine

/-! Records (R284, R285, R286). -/

def nodeType (bs : List Byte) : Nat := fieldAt bs 0 1
def nodePred (bs : List Byte) : Nat := fieldAt bs 1 1
def nodeState (bs : List Byte) : Nat := fieldAt bs 12 4
/-- Fields of a node's body. -/
def nodeAddr (bs : List Byte) : Nat := fieldAt bs 16 8
def bodyAt (bs : List Byte) (off n : Nat) : Nat := fieldAt bs (16 + off) n

/-- A successor index; none for 0xFFFF_FFFF. -/
def nodeSucc (bs : List Byte) (i : Nat) : List Nat :=
  let x := fieldAt bs (4 + 4 * i) 4
  if x = 0xFFFFFFFF then [] else [x]

/-- R285, R286, R292: the record breaks a rule. -/
def nodeInvalid (bs : List Byte) (nnode : Nat) : Bool :=
  let body := fun (bytes : Nat) => zeroAt bs (16 + bytes) (48 - bytes)
  let ok := match nodeType bs with
    | 1 => nodeAddr bs % 64 = 0 && body 8
    | 2 => nodeAddr bs % 4 = 0 && bodyAt bs 8 8 % 4 = 0 && bodyAt bs 16 4 % 4 = 0 && 4 ≤ bodyAt bs 16 4 && bodyAt bs 16 4 ≤ 16777216 && body 20
    | 3 => nodeAddr bs % 8 = 0 && bodyAt bs 16 1 ≤ 1 && body 17
    | 4 => nodeAddr bs % 8 = 0 && bodyAt bs 16 1 ≤ 1 && body 17
    | 5 => nodeAddr bs % 4 = 0 && body 8
    | 6 => nodeAddr bs % 4 = 0 && 1 ≤ bodyAt bs 8 4 && bodyAt bs 8 4 ≤ 2 ^ 31 - 1 && body 12
    | 7 => nodeAddr bs % 64 = 0 && body 8
    | 8 => bodyAt bs 0 1 ≤ 1 && body 1
    | _ => false
  !ok || nodePred bs = 0 || !zeroAt bs 2 2 || (nodeSucc bs 0 ++ nodeSucc bs 1).any (nnode ≤ ·)

/-- R284: the header breaks a rule. -/
def headerInvalid (bs : List Byte) : Bool :=
  let n := fieldAt bs 0 4
  n = 0 || 65536 < n || n ≤ fieldAt bs 4 4 || fieldAt bs 8 8 % 16 ≠ 0 || !zeroAt bs 24 40

namespace State

def graph (s : State) (p g : Nat) : GraphSlot := Tbl.getD (s.part p).graphs g {}

def modGraph (s : State) (p g : Nat) (f : GraphSlot → GraphSlot) : State :=
  s.modPart p (fun q => { q with graphs := Tbl.set q.graphs g (f (Tbl.getD q.graphs g {})) })

def modRun (s : State) (p g n : Nat) (f : NodeRun → NodeRun) : State :=
  s.modGraph p g (fun x => { x with running := Tbl.modify x.running n f })

/-- The clock of the walker of a partition (R287). -/
def walker (s : State) (p : Nat) : Nat := lcWalker (s.cpOf p)

/-- Where a node's record lies (R284). -/
def nodeVa (s : State) (p g n : Nat) : Nat := ((s.graph p g).base + 64 * (n + 1)) % 2 ^ 64

/-- The walker of a node of a graph slot, or of the slot itself (R317). -/
def graphWalker (s : State) (p g : Nat) (node : Option Nat) : Nat :=
  match node with
  | some n => walkerOf (s.walker p) 4 (4 * n + g)
  | none => walkerOf (s.walker p) 5 g

/-- Graph accesses under GRW_PASID, of a node or of the slot itself. -/
def graphRead (s : State) (p g : Nat) (node : Option Nat) (va n : Nat) : State × Cp (List Byte) :=
  s.cpRead p (s.graph p g).pasid (s.graphWalker p g node) va n
def graphWrite (s : State) (p g : Nat) (node : Option Nat) (va : Nat) (bs : List Byte) : State × Cp Unit :=
  s.cpWrite p (s.graph p g).pasid (s.graphWalker p g node) va bs

/-- R292, R289: the graph fails with its first reason, or ends; no further node starts. -/
def graphFail (s : State) (p g reason : Nat) (node : Option Nat) : State :=
  s.modGraph p g (fun x =>
    { x with stat := 2, fail := if x.fail = 0 then reason else x.fail
             failNode := if x.fail = 0 then (match node with | some n => BitVec.ofNat 32 n | none => 0xFFFFFFFF) else x.failNode
             running := match node with | some n => Tbl.erase x.running n | none => x.running })

/-- An unresolvable access to a record or to NSTATE: reason 4, with an error record of KIND 16 (R288, R348). -/
def graphBad (s : State) (p g va : Nat) (node : Option Nat) : State := (s.cpError p va).graphFail p g 4 node

/-! Tokens (R288). -/

/-- One token for a node; `from_` is the node that gives it. False while it waits. -/
def giveToken (s : State) (p g n : Nat) (model : Bool) (from_ : Option Nat) : State × Bool :=
  let va := s.nodeVa p g n + 12
  match s.graphRead p g from_ va 4 with
  | (s, .wait) => (s, false)
  | (s, .bad) => (s.graphBad p g va from_, true)
  | (s, .ok bs) =>
    let x := leNat bs
    match s.graphWrite p g from_ va (leBytes 4 (x / 65536 * 65536 + (x + 1) % 65536)) with
    | (s, .wait) => (s, false)
    | (s, .bad) => (s.graphBad p g va from_, true)
    | (s, .ok _) =>
      (s.modGraph p g (fun y => { y with cand := if n ∈ y.cand then y.cand else y.cand ++ [n]
                                         mtok := if model && !(n ∈ y.mtok) then y.mtok ++ [n] else y.mtok }), true)

/-- The tokens that an ended node still owes, then it is idle. -/
def giveTokens (s : State) (p g n : Nat) (model : Bool) : List Nat → State
  | [] => s.modGraph p g (fun x => { x with running := Tbl.erase x.running n })
  | m :: ms =>
    match s.giveToken p g m model (some n) with
    | (s, true) =>
      if Tbl.has (s.graph p g).running n then (s.modRun p g n (fun r => { r with succ := ms })).giveTokens p g n model ms else s
    | (s, false) => s

/-- A node whose effect has taken place gives its tokens as far as it can. -/
def completeNode (s : State) (p g n : Nat) : State :=
  match Tbl.get? (s.graph p g).running n with
  | some r => if r.ended then s.giveTokens p g n r.model r.succ else s
  | none => s

/-- The effect of a node has taken place: these successors receive a token. -/
def endNode (s : State) (p g n : Nat) (succ : List Nat) : State := s.modRun p g n (fun r => { r with ended := true, succ := succ })

/-! GO. -/

/-- The work of GO: the header, NSTATE = 0 in every node, the token of ENTRY (R288). -/
def goSteps (s : State) (p g : Nat) : Nat → State
  | 0 => s
  | fuel + 1 =>
    let x := s.graph p g
    match x.init with
    | none => s
    | some 0 =>
      match s.graphRead p g none x.base 64 with
      | (s, .wait) => s
      | (s, .bad) => (s.modGraph p g (fun x => { x with init := none })).graphBad p g x.base none
      | (s, .ok bs) =>
        let s := s.modGraph p g (fun x => { x with nnode := fieldAt bs 0 4, entry := fieldAt bs 4 4, done := fieldAt bs 8 8, doneval := fieldAt bs 16 8 })
        if headerInvalid bs then (s.modGraph p g (fun x => { x with init := none })).graphFail p g 1 none
        else (s.modGraph p g (fun x => { x with init := some 1 })).goSteps p g fuel
    | some (n + 1) =>
      if n < x.nnode then
        let va := s.nodeVa p g n + 12
        match s.graphWrite p g none va (leBytes 4 0) with
        | (s, .wait) => s
        | (s, .bad) => (s.modGraph p g (fun x => { x with init := none })).graphBad p g va (some n)
        | (s, .ok _) => (s.modGraph p g (fun x => { x with init := some (n + 2) })).goSteps p g fuel
      else
        match s.giveToken p g x.entry false none with
        | (s, true) => s.modGraph p g (fun x => { x with init := none })
        | (s, false) => s

end State

/-- GRAPH_GO (R287, R288): GO in STATE 0 starts the graph at BASE; its work goes on while a page is missing. -/
def execGraphGo (p g : Nat) (s : State) : Host.Outcome State Fault Refusal :=
  let x := s.graph p g
  if x.stat = 0 then
    let s := s.modGraph p g (fun x =>
      { x with stat := 1, init := some 0, nnode := 0, done := 0, doneval := 0, fail := 0, failNode := 0xFFFFFFFF, limit := false
               cand := [], mtok := [], lastStart := none, running := [] })
    .next (s.goSteps p g 65540)
  else if x.stat = 1 && x.init.isSome then .next (s.goSteps p g 65540)
  else .next s

/-- GRAPH_ABORT (R289). -/
def execGraphAbort (p g : Nat) (s : State) : Host.Outcome State Fault Refusal :=
  if (s.graph p g).stat = 0 then .next s
  else .next ((s.graphFail p g 15 none).modGraph p g (fun x => { x with init := none }))

/-! The start of a node. -/

/-- Whether a node that holds tokens is ready (R288), as far as its record can be read without a wait. -/
def nodeReady (s : State) (p g n : Nat) : Bool :=
  match (s.graphRead p g (some n) (s.nodeVa p g n) 64).2 with
  | .ok bs => decide (nodePred bs ≤ nodeState bs % 65536)
  | _ => true

/-- Ready nodes in ascending order. -/
def readyNodes (s : State) (p g : Nat) : List Nat :=
  let x := s.graph p g
  (x.cand.filter (fun n => !Tbl.has x.running n && nodeReady s p g n)).mergeSort (· ≤ ·)

/-- R288, R302, R324: a node of the graph may start now. -/
def mayStart (s : State) (p g : Nat) : Bool :=
  let x := s.graph p g
  x.stat = 1 && x.init.isNone && (s.part p).pstate = 0 && s.holds p
    && (match x.lastStart with | some t => decide (t + 8 ≤ s.cyc (48 * s.cpOf p)) | none => true)

namespace State

/-- The lowest ready node starts, if it is this one and of this type: NPRED is subtracted and its record is held (R288, R292). -/
def startNode (s : State) (p g n ty : Nat) : State :=
  if !mayStart s p g || (readyNodes s p g).head? ≠ some n then s
  else
    let va := s.nodeVa p g n
    match s.graphRead p g (some n) va 64 with
    | (s, .wait) => s
    | (s, .bad) => s.graphBad p g va (some n)
    | (s, .ok bs) =>
      let count := nodeState bs % 65536
      if nodeInvalid bs (s.graph p g).nnode then s.graphFail p g 2 (some n)
      else if nodeType bs ≠ ty then s
      else
        match s.graphWrite p g (some n) (va + 12) (leBytes 4 (nodeState bs - nodePred bs)) with
        | (s, .wait) => s
        | (s, .bad) => s.graphBad p g (va + 12) (some n)
        | (s, .ok _) =>
          let empty := count = nodePred bs
          let now := s.cyc (48 * s.cpOf p)
          s.modGraph p g (fun x =>
            { x with running := Tbl.set x.running n { model := decide (n ∈ x.mtok), bytes := bs }
                     cand := if empty then x.cand.filter (· ≠ n) else x.cand
                     mtok := if empty then x.mtok.filter (· ≠ n) else x.mtok
                     lastStart := some now })

/-- A node of a type that runs and whose effect has not taken place: start it if it may start, then go on with its effect. -/
def onNode (s : State) (p g n ty : Nat) (f : State → NodeRun → State) : State :=
  let s := if Tbl.has (s.graph p g).running n then s else s.startNode p g n ty
  match Tbl.get? (s.graph p g).running n with
  | some r => if !r.ended && nodeType r.bytes = ty then f s r else s
  | none => s

/-- Both successors of a node. -/
def bothSucc (r : NodeRun) : List Nat := nodeSucc r.bytes 0 ++ nodeSucc r.bytes 1

/-- `LAUNCH`: the record is copied and started (R263, R286), but none starts while the partition drains or is stopped (R302). A record that cannot be read is
refused (R263, reason 10), which fails the node (R292, reason 3). -/
def launchNode (s : State) (p g n : Nat) (r : NodeRun) : State :=
  let x := s.graph p g
  if r.launch.isSome || (s.part p).pstate ≠ 0 || !s.holds p then s
  else
    let va := nodeAddr r.bytes
    match s.graphRead p g (some n) va 128 with
    | (s, .wait) => s
    | (s, .bad) => (s.cpError p va).graphFail p g 3 (some n)
    | (s, .ok bs) =>
      let rc := lrecOf bs
      match s.readDesc p x.pasid (s.graphWalker p g (some n)) rc with
      | (s, .ok d) =>
        let t := s.startLaunch p x.pasid (.graph g n) x.prio (some va) rc ((s.part p).plmGs.getLsbD g) none d
        t.1.modRun p g n (fun r => { r with launch := some t.2 })
      | (s, _) => s

/-- One part of a `COPY` after the other (R240, R286); the parts stay within pages. -/
def copyNode (s : State) (p g n : Nat) : Nat → State
  | 0 => s
  | fuel + 1 =>
    match Tbl.get? (s.graph p g).running n with
    | none => s
    | some r =>
      let src := nodeAddr r.bytes
      let dst := bodyAt r.bytes 8 8
      let len := bodyAt r.bytes 16 4
      let meet := src < dst + len && dst < src + len && src ≠ dst
      if len ≤ r.prog then s.endNode p g n (bothSucc r)
      else
        let a := src + r.prog
        let b := dst + r.prog
        let m := if meet then 4 else min (len - r.prog) (min (65536 - a % 65536) (65536 - b % 65536))
        let bad := fun (s : State) => s.graphFail p g 4 (some n)
        if meet && r.old.isEmpty then
          match s.graphRead p g (some n) src len with
          | (s, .wait) => s
          | (s, .bad) => bad s
          | (s, .ok bs) =>
            let ws := overlapWords s.freeCtr (((src : Int) - dst) / 4) ((List.range (len / 4)).map (fun k => fieldAt bs (4 * k) 4))
            (State.modRun { s with freeCtr := s.freeCtr + 1 } p g n (fun r => { r with old := ws })).copyNode p g n fuel
        else
          match s.graphRead p g (some n) a m with
          | (s, .wait) => s
          | (s, .bad) => bad s
          | (s, .ok bs) =>
            let bs := if meet then leBytes 4 (r.old.getD (r.prog / 4) 0) else bs
            match s.graphWrite p g (some n) b bs with
            | (s, .wait) => s
            | (s, .bad) => bad s
            | (s, .ok _) => (s.modRun p g n (fun r => { r with prog := r.prog + m })).copyNode p g n fuel

/-- The place of a word of a node: the key of its stamp. -/
def signalKey (s : State) (p g n va : Nat) : Option Place :=
  match (s.cpPlace p (s.graph p g).pasid (s.graphWalker p g (some n)) va .read).2 with
  | .ok pl => some pl
  | _ => none

/-- The stamp of the latest `SIGNAL` on a word (R249). -/
def signalAt (s : State) (pl : Place) : Option (BitVec 48) := (s.signals.find? (fun e => e.1 = pl)).map (·.2)

/-- `SIGNAL`: a release at `.sys`, then the word (R286); a message send (R249). -/
def signalNode (s : State) (p g n : Nat) (r : NodeRun) : State :=
  let va := nodeAddr r.bytes
  let v := bodyAt r.bytes 8 8
  let add := bodyAt r.bytes 16 1 = 1
  let rd := if add then s.graphRead p g (some n) va 8 else (s, .ok (leBytes 8 0))
  match rd with
  | (s, .wait) => s
  | (s, .bad) => s.graphFail p g 4 (some n)
  | (s, .ok bs) =>
    match s.graphWrite p g (some n) va (leBytes 8 ((leNat bs + v) % 2 ^ 64)) with
    | (s, .wait) => s
    | (s, .bad) => s.graphFail p g 4 (some n)
    | (s, .ok _) =>
      let s := s.lcTick (s.walker p)
      let s := match s.signalKey p g n va with
        | some pl => { s with signals := (pl, s.lc (s.walker p)) :: s.signals.filter (fun e => e.1 ≠ pl) }
        | none => s
      s.endNode p g n (bothSucc r)

/-- `WAIT`: one reading of the word (R286); a match is a message receive (R249). -/
def pollNode (s : State) (p g n : Nat) (r : NodeRun) : State :=
  let va := nodeAddr r.bytes
  match s.graphRead p g (some n) va 8 with
  | (s, .wait) => s
  | (s, .bad) => s.graphFail p g 4 (some n)
  | (s, .ok bs) =>
    let x := leNat bs
    let v := bodyAt r.bytes 8 8
    if (if bodyAt r.bytes 16 1 = 0 then x = v else v ≤ x) then
      let u := s.walker p
      let stamp := ((s.signalKey p g n va).bind s.signalAt).getD (s.lc u)
      (s.lcRecv u stamp).endNode p g n (bothSucc r)
    else s.modRun p g n (fun r => { r with polled := s.ns })

/-- `COND`: the word chooses the successor (R286). -/
def condNode (s : State) (p g n : Nat) (r : NodeRun) : State :=
  match s.graphRead p g (some n) (nodeAddr r.bytes) 4 with
  | (s, .wait) => s
  | (s, .bad) => s.graphFail p g 4 (some n)
  | (s, .ok bs) => (s.endNode p g n (nodeSucc r.bytes (if leNat bs = 0 then 1 else 0))).completeNode p g n

/-- `WHILE` (R290); the iteration count is NSTATE[31:16]. -/
def whileNode (s : State) (p g n : Nat) (r : NodeRun) : State :=
  let va := s.nodeVa p g n + 12
  match s.graphRead p g (some n) (nodeAddr r.bytes) 4 with
  | (s, .wait) => s
  | (s, .bad) => s.graphFail p g 4 (some n)
  | (s, .ok bs) =>
    match s.graphRead p g (some n) va 4 with
    | (s, .wait) => s
    | (s, .bad) => s.graphBad p g va (some n)
    | (s, .ok ns) =>
      let w := leNat bs
      let i := leNat ns / 65536
      let limit := bodyAt r.bytes 8 4
      let again := w ≠ 0 && i < limit
      let i' := if again then (i + 1) % 65536 else 0
      match s.graphWrite p g (some n) va (leBytes 4 (i' * 65536 + leNat ns % 65536)) with
      | (s, .wait) => s
      | (s, .bad) => s.graphBad p g va (some n)
      | (s, .ok _) =>
        let s := if w ≠ 0 && !again then s.modGraph p g (fun x => { x with limit := true }) else s
        (s.endNode p g n (nodeSucc r.bytes (if again then 0 else 1))).completeNode p g n

/-- `END` (R289, R291, R292, reason 5). -/
def endGraphNode (s : State) (p g n : Nat) (r : NodeRun) : State :=
  let idle := fun (s : State) => s.modGraph p g (fun x => { x with running := Tbl.erase x.running n })
  if (bodyAt r.bytes 0 1 = 1) != r.model then s.graphFail p g 5 (some n)
  else if r.model then
    idle { s with sqs := Tbl.modify s.sqs (s.cpOf p) (fun l => match l with
      | x :: rest => (if x.pidN = p && x.slot = g then { x with modelEnd := true } else x) :: rest
      | [] => []) }
  else idle (s.modGraph p g (fun x => { x with stat := 2 }))

end State

def execNodeLaunch (p g n : Nat) (s : State) : Host.Outcome State Fault Refusal :=
  .next (s.onNode p g n 1 (fun s r => s.launchNode p g n r))

def execNodeCopy (p g n : Nat) (s : State) : Host.Outcome State Fault Refusal :=
  .next (s.onNode p g n 2 (fun s _ => s.copyNode p g n 4194400))

def execNodeSignal (p g n : Nat) (s : State) : Host.Outcome State Fault Refusal :=
  .next (s.onNode p g n 3 (fun s r => s.signalNode p g n r))

def execNodeWait (p g n : Nat) (s : State) : Host.Outcome State Fault Refusal :=
  .next (s.onNode p g n 4 (fun s r => s.pollNode p g n r))

/-- WAIT_POLL (R286). -/
def execWaitPoll (p g n : Nat) (s : State) : Host.Outcome State Fault Refusal :=
  match Tbl.get? (s.graph p g).running n with
  | some r => if !r.ended && nodeType r.bytes = 4 then .next (s.pollNode p g n r) else .next s
  | none => .next s

def execNodeCond (p g n : Nat) (s : State) : Host.Outcome State Fault Refusal :=
  .next (s.onNode p g n 5 (fun s r => s.condNode p g n r))

def execNodeWhile (p g n : Nat) (s : State) : Host.Outcome State Fault Refusal :=
  .next (s.onNode p g n 6 (fun s r => s.whileNode p g n r))

def execNodeEnd (p g n : Nat) (s : State) : Host.Outcome State Fault Refusal :=
  .next (s.onNode p g n 8 (fun s r => s.endGraphNode p g n r))

/-- NODE_COMPLETE (R286, R288, R292): a `LAUNCH` whose launch has completed, or a node whose effect has taken place, gives its tokens. -/
def execNodeComplete (p g n : Nat) (s : State) : Host.Outcome State Fault Refusal :=
  match Tbl.get? (s.graph p g).running n with
  | none => .next s
  | some r =>
    match r.launch.bind (fun l => (s.launch l).map (fun x => (l, x))) with
    | some (l, x) =>
      if !x.fin then .next s
      else
        let s : State := { s with launches := Tbl.erase s.launches l }
        if x.status ≠ 0 then .next (s.graphFail p g 3 (some n))
        else .next (((s.modRun p g n (fun r => { r with launch := none })).endNode p g n (State.bothSucc r)).completeNode p g n)
    | none => .next (s.completeNode p g n)

/-- GRAPH_END (R289): once no node runs, the release, the completion record, the count. -/
def execGraphEnd (p g : Nat) (s : State) : Host.Outcome State Fault Refusal :=
  let x := s.graph p g
  if x.stat ≠ 2 || !x.running.isEmpty || !s.partReleasable p then .next s
  else
    let s := s.partRelease p
    let finish := fun (s : State) => s.modGraph p g (fun x =>
      { x with stat := 0, reason := x.fail, node := if x.fail = 0 then x.node else x.failNode, ndone := x.ndone + 1
               init := none, cand := [], mtok := [] })
    if x.done = 0 then .next (finish s)
    else if x.done % 16 ≠ 0 then .next (finish (s.cpError p x.done))
    else
      let bs := leBytes 8 x.doneval ++ leBytes 4 (x.fail + if x.limit then 2 ^ 31 else 0) ++ leBytes 4 x.failNode.toNat
      match s.graphWrite p g none x.done bs with
      | (s, .ok _) => .next (finish s)
      | (s, .wait) => .next s
      | (s, .bad) => .next (finish (s.cpError p x.done))

end Sys2Proof.Machine
end

