-- ==== Sys2Proof/Machine/Solver.lean ====
section
/-! DEFINITION. The solver sequencer (R293 to R300): coefficient tables, the steps of a `SOLVE` node, its decisions in FP32. -/

namespace Sys2Proof.Machine

/-! FP32 arithmetic of the decisions: every operation rounds once in mode RNE (R133, R134, R138, R140). -/

def fpOf (x : Nat) : Num := decodeNum .f32 x
def fpTo (x : Num) : Nat := (deliver .f32 0 0 x).1
def fpAdd (a b : Nat) : Nat := fpTo (Num.add 0 (fpOf a) (fpOf b)).1
def fpSub (a b : Nat) : Nat := fpTo (Num.add 0 (fpOf a) (fpOf b).neg).1
def fpMul (a b : Nat) : Nat := fpTo (Num.mul (fpOf a) (fpOf b)).1
def fpDiv (a b : Nat) : Nat := (fDiv (fpOf a) (fpOf b)).1
def fpSqrt (a : Nat) : Nat := (fSqrt (fpOf a)).1
def fpMin (a b : Nat) : Nat := fpTo (Num.pick false false (fpOf a) (fpOf b)).1
def fpMax (a b : Nat) : Nat := fpTo (Num.pick true false (fpOf a) (fpOf b)).1
/-- a < b, and a ≥ b, of values that may be NaN. -/
def fpLt (a b : Nat) : Bool := (Num.compare 2 (fpOf a) (fpOf b)).1
def fpGe (a b : Nat) : Bool := (Num.compare 5 (fpOf a) (fpOf b)).1
def fpFinite (a : Nat) : Bool := match fpOf a with | .fin .. => true | _ => false
def fpPositive (a : Nat) : Bool := match fpOf a with | .fin n m _ => !n && m ≠ 0 | _ => false

/-! Tables (R293). -/

def tableValid (bs : List Byte) : Bool :=
  let word := fun (off : Nat) => fieldAt bs off 4
  1 ≤ fieldAt bs 0 1 && fieldAt bs 0 1 ≤ 8 && zeroAt bs 3 13 && zeroAt bs 24 8 && fpPositive (word 16) && fpPositive (word 20)
    && !fpLt (word 20) (word 16) && (List.range 64).all (fun i => fpPositive (word (384 + 4 * i)))

/-- SQS_TLOAD_TABLE (R293). -/
def execSqsTloadTable (p idx : Nat) (s : State) : Host.Outcome State Fault Refusal :=
  .next (s.modPart p (fun q => if q.tbusy.isSome then q else { q with tbusy := some (some (idx % 16)) }))

/-- SQS_TLOAD_ALL (R293). -/
def execSqsTloadAll (p : Nat) (s : State) : Host.Outcome State Fault Refusal :=
  .next (s.modPart p (fun q => if q.tbusy.isSome then q else { q with tbusy := some none }))

namespace State

/-- The clock of the SQS of a partition. -/
def sqsLc (s : State) (p : Nat) : Nat := lcSqs (s.cpOf p)

/-- The walkers of a table load and of a solve (R317). -/
def loadWalker (s : State) (p : Nat) : Nat := walkerOf (s.sqsLc p) 6 0
def solveWalker (s : State) (p g n : Nat) : Nat := walkerOf (s.sqsLc p) 7 (4 * n + g)

/-- Several reads, all or none. -/
def cpReads (s : State) (p pasid u : Nat) : List (Nat × Nat) → State × Cp (List (List Byte))
  | [] => (s, .ok [])
  | (va, n) :: rest =>
    match s.cpRead p pasid u va n with
    | (s, .wait) => (s, .wait)
    | (s, .bad) => (s, .bad)
    | (s, .ok bs) =>
      match s.cpReads p pasid u rest with
      | (s, .ok l) => (s, .ok (bs :: l))
      | r => r

/-- Several writes; those made leave the list. -/
def cpWrites (s : State) (p pasid u : Nat) : List (Nat × List Byte) → State × List (Nat × List Byte) × Cp Unit
  | [] => (s, [], .ok ())
  | (va, bs) :: rest =>
    match s.cpWrite p pasid u va bs with
    | (s, .ok _) => s.cpWrites p pasid u rest
    | (s, .wait) => (s, (va, bs) :: rest, .wait)
    | (s, .bad) => (s, [], .bad)

end State

/-- SQS_TLOAD_DONE (R293): the images have been read; VALID is set or cleared for each, and BUSY clears. -/
def execSqsTloadDone (p : Nat) (s : State) : Host.Outcome State Fault Refusal :=
  let q := s.part p
  match q.tbusy with
  | none => .next s
  | some which =>
    let ks := match which with | some i => [i] | none => List.range 16
    let bit := fun (k : Nat) => (1 : BitVec 16) <<< k
    let va := fun (k : Nat) => (q.tbase + 640 * k) % 2 ^ 64
    match s.cpReads p (s.graph p 0).pasid (s.loadWalker p) (ks.map (fun k => (va k, 640))) with
    | (s, .wait) => .next s
    | (s, .bad) =>
      -- the record names the first table that could not be read (R348)
      let ok := fun (k : Nat) => match (s.cpRead p (s.graph p 0).pasid (s.loadWalker p) (va k) 640).2 with | .ok _ => true | _ => false
      let first := (ks.find? (fun k => !ok k)).getD (ks.headD 0)
      .next ((s.cpError p (va first)).modPart p (fun q => { q with tbusy := none, tvalid := ks.foldl (fun m k => m &&& ~~~bit k) q.tvalid }))
    | (s, .ok images) =>
      .next (s.modPart p (fun q => (ks.zip images).foldl (fun (q : Part) e =>
        { q with tables := Tbl.set q.tables e.1 e.2, tvalid := if tableValid e.2 then q.tvalid ||| bit e.1 else q.tvalid &&& ~~~bit e.1 })
        { q with tbusy := none }))

/-! Descriptors and samples (R294 to R296). -/

/-- Fields of a descriptor (R294). -/
structure SqsDesc where
  tbl : Nat
  nsamp : Nat
  rc : Nat
  tend : Nat
  hmin : Nat
  hmax : Nat
  dvs : Nat
  nslot : Nat
  maxStep : Nat
  errbuf : Nat
  act : Nat
  kpage : Nat
  stage : Nat
  err : Nat
  model : Nat
  evt : Nat
  log2e : Nat
  user : List Byte

def sqsDesc (bs : List Byte) : SqsDesc :=
  { tbl := fieldAt bs 0 1, nsamp := fieldAt bs 4 4, rc := fieldAt bs 8 8, tend := fieldAt bs 16 4, hmin := fieldAt bs 20 4, hmax := fieldAt bs 24 4
    dvs := fieldAt bs 28 4, nslot := fieldAt bs 32 4, maxStep := fieldAt bs 36 4, errbuf := fieldAt bs 40 8, act := fieldAt bs 48 8
    kpage := fieldAt bs 56 8, stage := fieldAt bs 64 8, err := fieldAt bs 72 8, model := fieldAt bs 80 4, evt := fieldAt bs 88 8
    log2e := fieldAt bs 96 1, user := (bs.drop 128).take 128 }

/-- R294: the reason for which a `SOLVE` node fails at its start. -/
def sqsReason (bs : List Byte) (tvalid : BitVec 16) (nnode : Nat) : Option Nat :=
  let d := sqsDesc bs
  let ok := d.tbl ≤ 15 && zeroAt bs 1 3 && 1 ≤ d.nsamp && d.nsamp ≤ 4096 && d.rc % 32 = 0 && fpFinite d.tend && fpPositive d.hmin
    && fpFinite d.hmax && !fpLt d.hmax d.hmin && fpPositive d.dvs && 1 ≤ d.nslot && d.nslot ≤ 256 && d.maxStep ≤ 2 ^ 31 - 1
    && d.errbuf % 16 = 0 && d.act % 16 = 0 && d.kpage % 256 = 0 && d.stage % 64 = 0 && d.err % 64 = 0 && zeroAt bs 84 4 && d.evt % 16 = 0
    && (d.evt = 0 || (4 ≤ d.log2e && d.log2e ≤ 16)) && zeroAt bs 97 31
  if !ok then some 6 else if !tvalid.getLsbD d.tbl then some 7 else if nnode ≤ d.model then some 8 else none

/-- A sample record (R295), as its 32 bytes with some fields replaced. -/
def sampleBytes (old : List Byte) (t h err status bsel steps rejects : Nat) : List Byte :=
  leBytes 4 t ++ leBytes 4 h ++ leBytes 4 err ++ leBytes 1 status ++ leBytes 1 bsel ++ (old.drop 14).take 2 ++ leBytes 4 steps ++ leBytes 4 rejects
    ++ old.drop 24

def sampleT (bs : List Byte) : Nat := fieldAt bs 0 4
def sampleH (bs : List Byte) : Nat := fieldAt bs 4 4
def sampleStatus (bs : List Byte) : Nat := fieldAt bs 12 1

/-- R296: a sample at the start of the node. -/
def sampleStart (d : SqsDesc) (bs : List Byte) : List Byte :=
  let t := sampleT bs
  let h := sampleH bs
  let put := fun (t h st : Nat) => sampleBytes bs t h (fieldAt bs 8 4) st (fieldAt bs 13 1) (fieldAt bs 16 4) (fieldAt bs 20 4)
  if sampleStatus bs ≠ 0 then bs
  else if !fpFinite t || !fpPositive h then put t h 4
  else if fpGe t d.tend then put d.tend h 1
  else
    let h := fpMin (fpMax h d.hmin) d.hmax
    put t (fpMin h (fpSub d.tend t)) 0

/-- R298: the error of a sample from its partials. -/
def sampleErr (dvs : Nat) (ps : List Nat) : Nat :=
  match ps with
  | [] => 0
  | x :: xs => fpSqrt (fpDiv (xs.foldl fpAdd x) dvs)

/-- R298: the index of an error. -/
def errIndex (err : Nat) : Nat :=
  if (fpOf err).isNan || fpGe err 0x47800000 then 63
  else if fpLt err 0x37800000 then 0
  else 2 * (bitsOf err 30 23 - 111) + bitsOf err 22 22

/-- R299: the decision for one sample: its new record, and whether the step was accepted. -/
def decideSample (d : SqsDesc) (table : List Byte) (bs : List Byte) (ps : List Nat) : List Byte × Bool :=
  let t := sampleT bs
  let h := sampleH bs
  let err := sampleErr d.dvs ps
  let last := fpGe h (fpSub d.tend t)
  let g := fpMul h (fieldAt table (384 + 4 * errIndex err) 4)
  let g := fpMin (fpMax g (fpMul h (fieldAt table 16 4))) (fpMul h (fieldAt table 20 4))
  let accepted := (Num.compare 3 (fpOf err) (fpOf 0x3F800000)).1
  let steps := fieldAt bs 16 4
  let rejects := fieldAt bs 20 4
  let bsel := fieldAt bs 13 1
  let next := fun (t : Nat) => fpMin (fpMin (fpMax g d.hmin) d.hmax) (fpSub d.tend t)
  if accepted then
    let t' := if last then d.tend else fpAdd t h
    let put := fun (t h st : Nat) => sampleBytes bs t h err st (bsel ^^^ 1) ((steps + 1) % 2 ^ 32) rejects
    (if fpGe t' d.tend then put d.tend h 1 else put t' (next t') 0, true)
  else
    let put := fun (h st : Nat) => sampleBytes bs t h err st bsel steps ((rejects + 1) % 2 ^ 32)
    (if fpLt g d.hmin then put h 2 else put (next t) 0, false)

/-- T and H of the active samples at the start of a step (R299). -/
def startOf (l : List (Nat × List Byte)) : Tbl (Nat × Nat) :=
  l.foldl (fun t e => if sampleStatus e.2 = 0 then Tbl.set t e.1 (sampleT e.2, sampleH e.2) else t) []

/-- A record with T and H as they were at the start of the step (R299). -/
def atStart (t : Tbl (Nat × Nat)) (k : Nat) (bs : List Byte) : List Byte :=
  match Tbl.get? t k with
  | some (t, h) => leBytes 4 t ++ leBytes 4 h ++ bs.drop 8
  | none => bs

/-- The constant page (R297). -/
def constPage (d : SqsDesc) (table : List Byte) (kind j nact step : Nat) : List Byte :=
  let row := fun (off n : Nat) => (table.drop off).take n
  leBytes 4 kind ++ leBytes 4 j ++ leBytes 4 (fieldAt table 0 1) ++ leBytes 4 nact
    ++ (if kind = 0 then row (352 + 4 * j) 4 else leBytes 4 0) ++ leBytes 4 step ++ leBytes 8 d.act
    ++ (if kind = 0 then row (32 + 32 * j) 32 else leBytes 32 0) ++ row 288 32 ++ row 320 32 ++ d.user

/-- The active list as it stands in memory. -/
def activeBytes (l : List Nat) : List Byte := l.flatMap (leBytes 4)

def sampleVa (d : SqsDesc) (k : Nat) : Nat := (d.rc + 32 * k) % 2 ^ 64

/-- The solve is that of a node. -/
def Solve.isOf (x : Solve) (p g n : Nat) : Bool := x.pidN = p && x.slot = g && x.node = n

namespace State

def sqsHead (s : State) (cp : Nat) : Option Solve := (Tbl.getD s.sqs cp []).head?

def modSolve (s : State) (cp : Nat) (f : Solve → Solve) : State :=
  { s with sqs := Tbl.modify s.sqs cp (fun l => match l with | x :: r => f x :: r | [] => []) }

def dropSolve (s : State) (cp : Nat) : State := { s with sqs := Tbl.modify s.sqs cp (fun l => l.drop 1) }

/-- R292, R294: the node of the running solve fails. -/
def solveFail (s : State) (cp : Nat) (x : Solve) (reason : Nat) : State := (s.dropSolve cp).graphFail x.pidN x.slot reason (some x.node)

def solveReads (s : State) (x : Solve) (l : List (Nat × Nat)) : State × Cp (List (List Byte)) :=
  s.cpReads x.pidN (s.graph x.pidN x.slot).pasid (s.solveWalker x.pidN x.slot x.node) l

/-- The solve of a node, in its queue. -/
def solveOf (s : State) (cp p g n : Nat) : Option Solve := (Tbl.getD s.sqs cp []).find? (·.isOf p g n)

def modSolveOf (s : State) (cp p g n : Nat) (f : Solve → Solve) : State :=
  { s with sqs := Tbl.modify s.sqs cp (fun l => l.map (fun x => if x.isOf p g n then f x else x)) }

/-- A solve leaves its queue. -/
def leaveQueue (s : State) (cp p g n : Nat) : State := { s with sqs := Tbl.modify s.sqs cp (fun l => l.filter (fun x => !x.isOf p g n)) }

/-- The samples of a solve whose turn has come, and its active list (R296, R300). A record with another STATUS is left. -/
def solvePrepare (s : State) (cp : Nat) (x : Solve) : State :=
  let p := x.pidN
  let u := s.solveWalker p x.slot x.node
  let pasid := (s.graph p x.slot).pasid
  let d := sqsDesc x.desc
  let fail := fun (s : State) => (s.leaveQueue cp p x.slot x.node).graphFail p x.slot 10 (some x.node)
  match s.cpReads p pasid u ((List.range d.nsamp).map (fun k => (sampleVa d k, 32))) with
  | (s, .wait) => s
  | (s, .bad) => fail s
  | (s, .ok recs) =>
    let new := recs.map (sampleStart d)
    let active := (new.zipIdx.filter (fun e => sampleStatus e.1 = 0)).map (·.2)
    let ws := ((recs.zip new).zipIdx.filter (fun e => sampleStatus e.1.1 = 0)).map (fun e => (sampleVa d e.2, e.1.2)) ++ (if active.isEmpty then [] else [(d.act, activeBytes active)])
    match s.cpWrites p pasid u ws with
    | (s, _, .wait) => s
    | (s, _, .bad) => fail s
    | (s, _, .ok _) => s.modSolveOf cp p x.slot x.node (fun y =>
      { y with active := active, start := startOf (new.zipIdx.map (fun e => (e.2, e.1))), stat := if active.isEmpty then .finished else .ready })

/-- The descriptor and the table of a solve that has started (R293, R294). -/
def solveOpen (s : State) (cp : Nat) (x : Solve) (r : NodeRun) : State :=
  let p := x.pidN
  let fail := fun (s : State) (reason : Nat) => (s.leaveQueue cp p x.slot x.node).graphFail p x.slot reason (some x.node)
  match s.cpRead p (s.graph p x.slot).pasid (s.solveWalker p x.slot x.node) (nodeAddr r.bytes) 256 with
  | (s, .wait) => s
  | (s, .bad) => fail s 10
  | (s, .ok bs) =>
    match sqsReason bs (s.part p).tvalid (s.graph p x.slot).nnode with
    | some reason => fail s reason
    | none => s.modSolveOf cp p x.slot x.node (fun y =>
        { y with desc := bs, table := Tbl.getD (s.part p).tables (sqsDesc bs).tbl [], stat := .waiting })

/-- `SOLVE` (R294, R296, R300): it joins the queue of its SQS as it starts; its descriptor and its table are read; at its turn its samples are prepared.
One whose graph ends before that is given up. -/
def solveNode (s : State) (p g n : Nat) (r : NodeRun) : State :=
  let cp := s.cpOf p
  if r.model then s.graphFail p g 5 (some n)
  else
    let s := if (s.solveOf cp p g n).isSome then s
      else { s with sqs := Tbl.set s.sqs cp (Tbl.getD s.sqs cp [] ++ [{ pidN := p, slot := g, node := n, desc := [], table := [], stat := .queued }]) }
    match s.solveOf cp p g n with
    | none => s
    | some x =>
      if x.stat ≠ .queued && x.stat ≠ .waiting then s
      else if (s.graph p g).stat ≠ 1 then (s.leaveQueue cp p g n).modGraph p g (fun y => { y with running := Tbl.erase y.running n })
      else if x.stat = .queued then s.solveOpen cp x r
      else if (s.sqsHead cp).elim false (·.isOf p g n) then s.solvePrepare cp x
      else s

/-- R296: the page is written and a copy of a template is launched; a template that cannot be read is refused (R263, reason 10; R294, reason 9); `next` is where the solve then stands. -/
def solveLaunch (s : State) (cp : Nat) (x : Solve) (kind j : Nat) (next : Nat → SqsStat) : State :=
  let p := x.pidN
  let g := s.graph p x.slot
  let d := sqsDesc x.desc
  let u := s.solveWalker p x.slot x.node
  let va := if kind = 0 then d.stage else d.err
  if (s.part p).pstate ≠ 0 || !s.holds p then s
  else match s.cpRead p g.pasid u va 128 with
    | (s, .wait) => s
    | (s, .bad) => (s.cpError p va).solveFail cp x 9
    | (s, .ok bs) =>
      let rc := { lrecOf bs with y := x.active.length, kbase := d.kpage, ksize := 256, next := 0, done := 0 }
      match s.readDesc p g.pasid u rc with
      | (s, .ok kd) =>
        match s.cpWrite p g.pasid u d.kpage (constPage d x.table kind j x.active.length x.n) with
        | (s, .wait) => s
        | (s, .bad) => s.solveFail cp x 10
        | (s, .ok _) =>
          let t := s.startLaunch p g.pasid (.sqs cp) g.prio (some va) rc ((s.part p).plmGs.getLsbD x.slot) none kd
          t.1.modSolve cp (fun y => { y with stat := next t.2, modelEnd := false })
      | (s, _) => s

/-- A launch of a solve that has completed: it is taken away, and a failed one fails the node (R292, R294). True where it succeeded. -/
def takeLaunch (s : State) (cp : Nat) (x : Solve) (l : Nat) : State × Bool :=
  match s.launch l with
  | none => (s, false)
  | some y =>
    if !y.fin then (s, false)
    else
      let s : State := { s with launches := Tbl.erase s.launches l }
      if y.status = 0 then (s, true) else (s.solveFail cp x (if y.status = 32 then 3 else 9), false)

/-- R291: the model run of the present stage is complete. -/
def modelDone (s : State) (x : Solve) : Bool :=
  x.modelEnd && !Tbl.any (s.graph x.pidN x.slot).running (fun _ r => r.model)

/-- R393: a launch of the model subgraph of a solve runs: the SQS writes nothing meanwhile. -/
def modelRuns (s : State) (x : Solve) : Bool := Tbl.any (s.graph x.pidN x.slot).running (fun _ r => r.model && r.launch.isSome)

/-- The graph of a solve is ending, and the solve is not carried on (R288, R300). -/
def solveEnding (s : State) (x : Solve) : Bool := (s.graph x.pidN x.slot).stat ≠ 1

end State

/-- NODE_SOLVE (R294, R296). -/
def execNodeSolve (p g n : Nat) (s : State) : Host.Outcome State Fault Refusal :=
  .next (s.onNode p g n 7 (fun s r => s.solveNode p g n r))

/-- SQS_STAGE_LAUNCH (R296, R393): at the start of a step stage 0, after a model run the next stage. -/
def execSqsStageLaunch (cp : Nat) (s : State) : Host.Outcome State Fault Refusal :=
  match s.sqsHead cp with
  | none => .next s
  | some x =>
    if s.solveEnding x then .next s
    else match x.stat with
      | .ready => if s.modelRuns x then .next s else .next (s.solveLaunch cp x 0 0 (.stage 0))
      | .model j =>
        if s.modelDone x && j + 1 < fieldAt x.table 0 1 then .next (s.solveLaunch cp x 0 (j + 1) (.stage (j + 1))) else .next s
      | _ => .next s

/-- SQS_MODEL_RUN (R291, R296): the stage kernel has completed; MODEL receives a token. -/
def execSqsModelRun (cp : Nat) (s : State) : Host.Outcome State Fault Refusal :=
  match s.sqsHead cp with
  | none => .next s
  | some x =>
    if s.solveEnding x || (s.part x.pidN).pstate ≠ 0 || !s.holds x.pidN then .next s
    else match x.stat with
      | .stage j l =>
        if !((s.launch l).elim false (·.fin)) then .next s
        else if (s.launch l).elim false (fun y => y.status ≠ 0) then .next (s.takeLaunch cp x l).1
        else match s.giveToken x.pidN x.slot (sqsDesc x.desc).model true (some x.node) with
          | (s, true) => .next (((s.takeLaunch cp x l).1).modSolve cp (fun y => { y with stat := .model j, modelEnd := false }))
          | (s, false) => .next s
      | _ => .next s

/-- SQS_ERROR_LAUNCH (R296): every stage is done. -/
def execSqsErrorLaunch (cp : Nat) (s : State) : Host.Outcome State Fault Refusal :=
  match s.sqsHead cp with
  | none => .next s
  | some x =>
    if s.solveEnding x then .next s
    else match x.stat with
      | .model j => if s.modelDone x && fieldAt x.table 0 1 ≤ j + 1 then .next (s.solveLaunch cp x 1 0 .error) else .next s
      | _ => .next s

namespace State

/-- The writes of a decided step are made; then the step is counted (R296, R300). -/
def solveWrites (s : State) (cp : Nat) (x : Solve) : State :=
  match s.cpWrites x.pidN (s.graph x.pidN x.slot).pasid (s.solveWalker x.pidN x.slot x.node) x.writes with
  | (s, rest, .wait) => s.modSolve cp (fun y => { y with writes := rest })
  | (s, _, .bad) => s.solveFail cp x 10
  | (s, _, .ok _) =>
    (s.modPart x.pidN (fun q => { q with nstep := q.nstep + 1 })).modSolve cp (fun y =>
      { y with writes := [], n := y.n + 1, stat := if y.active.isEmpty then .finished else .ready })

/-- R298, R299: every active sample is decided, from T and H as they were at the start of the step; the records, the list and the event are to be written. -/
def solveDecide (s : State) (cp : Nat) (x : Solve) : State :=
  let d := sqsDesc x.desc
  match s.solveReads x (x.active.flatMap (fun k => [(sampleVa d k, 32), ((d.errbuf + 4 * d.nslot * k) % 2 ^ 64, 4 * d.nslot)])) with
  | (s, .wait) => s
  | (s, .bad) => s.solveFail cp x 10
  | (s, .ok l) =>
    let rs := x.active.zipIdx.map (fun e =>
      let ps := l.getD (2 * e.2 + 1) []
      (e.1, decideSample d x.table (atStart x.start e.1 (l.getD (2 * e.2) [])) ((List.range d.nslot).map (fun k => fieldAt ps (4 * k) 4))))
    let rs' := rs.map (fun e => (e.1, e.2.1))
    let active := (rs.filter (fun e => sampleStatus e.2.1 = 0)).map (·.1)
    let accepted := (rs.filter (fun e => e.2.2)).length
    let stop := d.maxStep ≠ 0 && x.n + 1 = d.maxStep
    let limit := fun (bs : List Byte) => if stop && sampleStatus bs = 0 then bs.take 12 ++ leBytes 1 3 ++ bs.drop 13 else bs
    let event := if d.evt = 0 then [] else
      [((d.evt + 16 * (x.n % 2 ^ d.log2e)) % 2 ^ 64,
        leBytes 4 x.n ++ leBytes 4 active.length ++ leBytes 4 accepted ++ leBytes 4 (rs.length - accepted))]
    let ws := rs.map (fun e => (sampleVa d e.1, limit e.2.1)) ++ (if active.isEmpty then [] else [(d.act, activeBytes active)]) ++ event
    let x' := { x with stat := .deciding, active := if stop then [] else active, start := startOf rs', writes := ws }
    (s.modSolve cp (fun _ => x')).solveWrites cp x'

end State

/-- SQS_STEP_DECIDE (R298, R299, R393): the error kernel has completed. -/
def execSqsStepDecide (cp : Nat) (s : State) : Host.Outcome State Fault Refusal :=
  match s.sqsHead cp with
  | none => .next s
  | some x =>
    match x.stat with
    | .error l =>
      if s.solveEnding x || !((s.launch l).elim false (·.fin)) then .next s
      else if (s.launch l).elim false (fun y => y.status ≠ 0) then .next (s.takeLaunch cp x l).1
      else if s.modelRuns x then .next s
      else
        let s' := s.solveDecide cp x
        -- the launch is taken away once the reads have been made
        if (s'.sqsHead cp).elim true (fun y => y.stat ≠ .error l || y.node ≠ x.node) then .next { s' with launches := Tbl.erase s'.launches l }
        else .next s'
    | .deciding => if s.modelRuns x then .next s else .next (s.solveWrites cp x)
    | _ => .next s

/-- SOLVE_COMPLETE (R300): no sample is active; or the graph is ending and the kernels of the solve have completed. -/
def execSolveComplete (cp : Nat) (s : State) : Host.Outcome State Fault Refusal :=
  match s.sqsHead cp with
  | none => .next s
  | some x =>
    let drop := fun (s : State) => (s.dropSolve cp).modGraph x.pidN x.slot (fun g => { g with running := Tbl.erase g.running x.node })
    let after := fun (l : Nat) => if (s.launch l).elim true (·.fin) then drop { s with launches := Tbl.erase s.launches l } else s
    match x.stat with
    | .finished =>
      let s := (s.dropSolve cp).modPart x.pidN (fun q => { q with nsolve := q.nsolve + 1 })
      match Tbl.get? (s.graph x.pidN x.slot).running x.node with
      | some r => .next ((s.endNode x.pidN x.slot x.node (State.bothSucc r)).completeNode x.pidN x.slot x.node)
      | none => .next s
    | .deciding => .next s
    | st =>
      if !s.solveEnding x then .next s
      else match st with
        | .stage _ l => .next (after l)
        | .error l => .next (after l)
        | .model _ => if Tbl.any (s.graph x.pidN x.slot).running (fun _ r => r.model) then .next s else .next (drop s)
        | _ => .next (drop s)

end Sys2Proof.Machine
end

