-- ==== Sys2Proof/Machine/Invalidate.lean ====
section
/-! DEFINITION. The invalidation queue (R319 to R322): invalidations, replays and failures of waiting accesses, SYNC, teardown; the answers of the host to page requests (R315, R328). -/

namespace Sys2Proof.Machine

/-! TLB entries (R316, R320). -/

/-- An entry overlaps a range of virtual addresses. -/
def TlbE.overlaps (e : TlbE) (va n : Nat) : Bool := e.va < va % 2 ^ 57 + n && va % 2 ^ 57 < e.va + 2 ^ e.log

namespace State

/-- Every TLB loses the entries that meet a test, and so do the walks that a command processor keeps. -/
def tlbDrop (s : State) (f : TlbE → Bool) : State :=
  { s with cores := Tbl.mapVal (fun _ (c : Core) => { c with tlb := c.tlb.filter (fun e => !f e) }) s.cores
           tlb2 := Tbl.mapVal (fun _ (l : List TlbE) => l.filter (fun e => !f e)) s.tlb2
           parts := Tbl.mapVal (fun _ (q : Part) => { q with cpMade := q.cpMade.filter (fun x => !f x.2.2) }) s.parts }

/-- Writes of a command processor, under a PASID (none: under any) and to pages of a test, that wait at a held line. -/
def lateUnder (s : State) (p : Nat) (pasid : Option Nat) (f : Nat → Bool := fun _ => true) : List Nat :=
  (s.later.filter (fun e => e.under.elim false (fun u => u.1 = p && (pasid.isNone || pasid = some u.2.1) && f u.2.2))).map (·.id)

/-- Requests in flight of a partition for accesses under a PASID that used pages of a test (no PASID: of any), also those that a batch holds:
what an invalidation waits for beside held writes (R215, R321). -/
def reqsUnder (s : State) (p : Nat) (pasid : Option Nat) (f : Nat → Bool := fun _ => true) : List Nat :=
  (s.reqs.filter (fun e => e.2.pidN = p && (pasid.isNone || pasid = some e.2.pasid) && e.2.pages.any f)).map (·.1)
    ++ s.batches.flatMap (fun e =>
      if e.2.pidN = p && (pasid.isNone || pasid = some e.2.ent.pasid) && f (e.2.va / 65536) then e.2.reqs.map (·.req) else [])

/-- A request has not ended: in flight or in a batch. -/
def outstanding (s : State) (r : Nat) : Bool :=
  Tbl.has s.reqs r || Tbl.any s.batches (fun _ b => b.reqs.any (fun q => q.req = r))

/-- The command that has been taken is complete; the next may be taken (R320). -/
def iqDone (s : State) (p : Nat) : State :=
  s.modPart p (fun q => if q.iqbusy.isSome then { q with iqbusy := none, iqhead := q.iqhead + 1 } else q)

/-- An invalidation has been taken: it completes once the accesses under a PASID that used pages of a test have (R321). -/
def iqWaits (s : State) (p : Nat) (pasid : Option Nat) (f : Nat → Bool := fun _ => true) : State :=
  s.modPart p (fun q => { q with iqbusy := q.iqbusy.map (fun c => { c with waits := s.reqsUnder p pasid f, lates := s.lateUnder p pasid f }) })

/-- The accesses that a command waits for have ended. -/
def iqReady (s : State) (c : IqCmd) : Bool :=
  c.waits.all (fun r => !s.outstanding r) && c.lates.all (fun n => !s.later.any (fun e => e.id = n))

/-- A completion record of 16 bytes at a device physical address (R321); one that the partition does not own is refused. -/
def iqRecord (s : State) (p rc idx status : Nat) : State :=
  if rc = 0 then s else (s.placeWrite p (.dev rc) (leBytes 4 idx ++ leBytes 4 status ++ leBytes 8 0)).1

end State

/-- INVPG (R320, R321): it waits for the accesses under the range, and under an entry that the range touches. -/
def execInvpg (p pasid va count : Nat) (s : State) : Host.Outcome State Fault Refusal :=
  let hit := fun (e : TlbE) => e.pasid = asid p pasid && e.overlaps va (65536 * count)
  let es := (s.cores.flatMap (fun c => c.2.tlb.filter hit)) ++ s.tlb2.flatMap (fun c => c.2.filter hit)
  let used := fun (page : Nat) => (va / 65536 ≤ page && page < va / 65536 + count) || es.any (fun e => e.covers (asid p pasid) (page * 65536 % 2 ^ 57))
  .next ((s.iqWaits p (some pasid) used).tlbDrop hit)

/-- INVPASID (R320). -/
def execInvpasid (p pasid : Nat) (s : State) : Host.Outcome State Fault Refusal :=
  .next ((s.iqWaits p (some pasid)).tlbDrop (fun e => e.pasid = asid p pasid))

/-- INVALL (R320). -/
def execInvall (p : Nat) (s : State) : Host.Outcome State Fault Refusal :=
  .next ((s.iqWaits p none).tlbDrop (fun e => e.pasid / 2 ^ 20 = p))

/-- INVALIDATION_COMPLETE (R321): every access that used a removed entry has ended. -/
def execInvalidationComplete (p : Nat) (s : State) : Host.Outcome State Fault Refusal :=
  match (s.part p).iqbusy with
  | some c => if 1 ≤ c.op && c.op ≤ 3 && s.iqReady c then .next (s.iqDone p) else .next s
  | none => .next s

/-! Waiting accesses (R319). -/

namespace State

/-- Waves of a partition whose trap waits for its frame page, where the page meets a test: their delivery is tried again (R342). -/
def retryFrames (s : State) (p : Nat) (f : Nat → Nat → Bool) : State :=
  s.post ((s.waves.filter (fun e => e.2.pidN = p && e.2.stat = .trapWait && f e.2.pasid (s.frameVa e.1 p / 65536))).map (fun e => Instr.trapDeliver e.1))

/-- R319: a wave that waits walks again, at once, to each of its pages that meets a test: what now has a leaf is in the TLBs, what still has none is
reported again, what may not be accessed is refused to the instruction. It is ready once it lacks no page. -/
def rewalkWave (s : State) (k : Nat) (f : Nat → Nat → PKind → Bool) : State :=
  match s.wave k with
  | some w =>
    match w.stat with
    | .faulted a pages hosts kind =>
      let r := (pages.filter (fun page => f a page kind)).foldl (fun (r : State × List Nat × List (Nat × Nat) × List Nat) page =>
        match r.1.translate (cidOf k) w.pidN a (page * 65536) kind with
        | (s, .ok _) => (s, r.2)
        | (s, .notValid lvl) => (s.faultRecord w.pidN a (page * 65536) kind lvl (cidOf k) 0 (lcCore (cidOf k)), page :: r.2.1, r.2.2)
        | (s, .hostAbsent io) => (s, r.2.1, (io, page) :: r.2.2.1, r.2.2.2)
        | (s, _) => (s, r.2.1, r.2.2.1, page :: r.2.2.2)) (s, pages.filter (fun page => !f a page kind), hosts, [])
      r.1.modWave k (fun w =>
        { w with stat := if r.2.1.isEmpty && r.2.2.1.isEmpty then .ready else .faulted a r.2.1 r.2.2.1 kind
                 refusedPages := r.2.2.2.map (fun page => (page, kind)) ++ w.refusedPages })
    | _ => s
  | none => s

/-- The same of a trap that waits for its frame page (R342): its delivery goes on with what the walk has found. -/
def rewalkFrame (s : State) (k : Nat) (w : Wave) : State :=
  let va := s.frameVa k w.pidN / 65536 * 65536
  match s.translate (cidOf k) w.pidN w.pasid va .write with
  | (s, .ok _) => s.post [.trapDeliver k]
  | (s, .notValid lvl) => s.faultRecord w.pidN w.pasid va .write lvl (cidOf k) 0 (lcCore (cidOf k))
  | (s, .hostAbsent _) => s
  | (s, _) => (s.modWave k (fun w => { w with refusedPages := (va / 65536, .write) :: w.refusedPages })).post [.trapDeliver k]

/-- The same of a command of an engine. -/
def rewalkCmd (s : State) (cid : Nat) (matrix : Bool) (c : EngCmd) (page : Nat) (k : PKind) : State :=
  match s.translate cid c.pidN c.pasid (page * 65536) k with
  | (s, .ok _) => s.modCmd cid matrix c.id (fun x => { x with waiting := none })
  | (s, .notValid lvl) => s.faultRecord c.pidN c.pasid (page * 65536) k lvl cid (if matrix then 2 else 1) (if matrix then lcMatrix cid else lcCopy cid)
  | (s, .hostAbsent io) => s.modCmd cid matrix c.id (fun x => { x with hostWait := some io })
  | (s, _) => s.modCmd cid matrix c.id (fun x => { x with waiting := none, fault := some (if matrix then 19 else 17), finished := true })

/-- The same of a walker of a command processor, which keeps what the walk has found. -/
def rewalkCp (s : State) (p : Nat) (x : Nat × FaultKey) : State :=
  let va := x.2.page * 65536
  let off := fun (q : Part) => { q with cpWait := q.cpWait.filter (· ≠ x) }
  match s.translateCp p x.2.pasid va x.2.kind with
  | (s, .ok e) => s.modPart p (fun q => { off q with cpMade := q.cpMade ++ [(x.1, x.2, e)] })
  | (s, .notValid lvl) => s.faultRecord p x.2.pasid va x.2.kind lvl 0xFFFF 3 (x.1 % 4096)
  | (s, .hostAbsent io) => s.modPart p (fun q => { off q with cpHost := q.cpHost ++ [(io, x)] })
  | (s, _) => s.modPart p (fun q => { off q with cpRefused := q.cpRefused ++ [x] })

/-- Every waiting access that meets a test walks again, at once (R319): waves, engine commands, command processors, traps that wait for their frame page. -/
def wake (s : State) (p : Nat) (f : Nat → Nat → PKind → Bool) : State :=
  let s := (s.waves.filter (fun e => e.2.pidN = p)).foldl (fun s e => s.rewalkWave e.1 f) s
  let cmds := fun (cid : Nat) (matrix : Bool) (l : List EngCmd) (s : State) => l.foldl (fun (s : State) c =>
    match c.waiting with
    | some (page, k) => if c.pidN = p && c.hostWait.isNone && f c.pasid page k then s.rewalkCmd cid matrix c page k else s
    | none => s) s
  let s := s.cores.foldl (fun s e => cmds e.1 true e.2.mat.cmds (cmds e.1 false e.2.copy s)) s
  let s := ((s.part p).cpWait.filter (fun x => f x.2.pasid x.2.page x.2.kind)).foldl (fun s x => s.rewalkCp p x) s
  (s.waves.filter (fun e => e.2.pidN = p && e.2.stat = .trapWait && f e.2.pasid (s.frameVa e.1 p / 65536) .write)).foldl
    (fun s e => s.rewalkFrame e.1 e.2) s

/-- Every waiting access that meets a test is refused (R319): a wave traps at its instruction, a command ends with its reason, a command processor fails. -/
def refuseWaiting (s : State) (p : Nat) (f : Nat → Nat → PKind → Bool) : State :=
  let upd := fun (k : Nat) (w : Wave) => match w.stat with
    | .faulted a pages _ kind =>
      let bad := pages.filter (fun page => f a page kind)
      if w.pidN = p && !bad.isEmpty then { w with stat := .ready, refusedPages := bad.map (fun page => (page, kind)) ++ w.refusedPages } else w
    | .trapWait =>
      let page := s.frameVa k p / 65536
      if w.pidN = p && f w.pasid page .write then { w with refusedPages := (page, .write) :: w.refusedPages } else w
    | _ => w
  let s := { s with waves := Tbl.mapVal upd s.waves }
  let cmd := fun (r : Nat) (c : EngCmd) => match c.waiting with
    | some (page, k) => if c.pidN = p && c.hostWait.isNone && f c.pasid page k then { c with waiting := none, fault := some r, finished := true } else c
    | none => c
  let s := { s with cores := Tbl.mapVal (fun _ (c : Core) =>
    { c with copy := c.copy.map (cmd 17), mat := { c.mat with cmds := c.mat.cmds.map (cmd 19) } }) s.cores }
  let s := s.modPart p (fun q => { q with cpWait := q.cpWait.filter (fun x => !f x.2.pasid x.2.page x.2.kind)
                                          cpRefused := q.cpRefused ++ q.cpWait.filter (fun x => f x.2.pasid x.2.page x.2.kind) })
  s.retryFrames p (fun a page => f a page .write)

/-- Fault keys that meet a test are released (R317). -/
def releaseKeys (s : State) (p : Nat) (f : Nat → Nat → PKind → Bool) : State :=
  s.modPart p (fun q => { q with keys := q.keys.filter (fun x => !f x.pasid x.page x.kind) })

end State

/-- One (PASID, page, kind). -/
def onePage (pasid va : Nat) (k : PKind) (a page : Nat) (kind : PKind) : Bool := a = pasid && page = va / 65536 && kind = k

/-- REPLAY (R319). -/
def execReplay (p pasid va : Nat) (k : PKind) (s : State) : Host.Outcome State Fault Refusal :=
  let f := onePage pasid va k
  .next (((s.releaseKeys p f).wake p f).iqDone p)

/-- REPLAY ALL (R319). -/
def execReplayAll (p : Nat) (s : State) : Host.Outcome State Fault Refusal :=
  let f := fun (_ _ : Nat) (_ : PKind) => true
  .next (((s.releaseKeys p f).wake p f).iqDone p)

/-- FAIL (R319). -/
def execFailCmd (p pasid va : Nat) (k : PKind) (s : State) : Host.Outcome State Fault Refusal :=
  let f := onePage pasid va k
  .next (((s.releaseKeys p f).refuseWaiting p f).iqDone p)

/-- SYNC (R321): every earlier command has completed; the record is a release at `.sys`. -/
def execSyncCmd (p rc : Nat) (s : State) : Host.Outcome State Fault Refusal :=
  if !s.partReleasable p then .next s
  else
    let q := s.part p
    let idx := match q.iqbusy with | some c => c.idx | none => q.iqhead.toNat
    .next (((s.partRelease p).iqRecord p rc idx 0).iqDone p)

/-! Teardown (R322). -/

namespace State

/-- A launch under the PASID is torn down: its waves are killed, behind a dump that is due (R385), its engine commands abandoned, its blocks freed; no record is written. -/
def tearLaunch (s : State) (lid : Nat) (l : Launch) : State :=
  let bs := (s.blocks.filter (fun e => e.2.launch = lid)).map (·.1)
  let s := bs.foldl (fun (s : State) b => (s.dumpBlock b).killBlockWaves b) s
  let gone := fun (c : EngCmd) => c.block ∈ bs
  let s := { s with cores := Tbl.mapVal (fun _ (c : Core) =>
    { c with copy := c.copy.filter (fun x => !gone x), mat := { c.mat with cmds := c.mat.cmds.filter (fun x => !gone x) } }) s.cores }
  let s := bs.foldl retireBlock s
  let s := s.modPart l.pidN (fun q => { q with saved := q.saved.filter (fun x => x.launch ≠ lid) })
  let s := { s with launches := Tbl.erase s.launches lid }
  match l.src with
  | .sub q _ => s.modSub l.pidN q (fun u => { u with done := u.done + 1 })
  | _ => s

/-- R322, step 1: a graph under the PASID ends as by ABORT, and no record of it is written. -/
def tearGraph (s : State) (p g : Nat) : State :=
  let s := if (s.graph p g).stat = 0 then s else (s.graphFail p g 15 none).modGraph p g (fun x => { x with running := [], done := 0, init := none })
  { s with sqs := Tbl.mapVal (fun _ (l : List Solve) => l.filter (fun x => !(x.pidN = p && x.slot = g))) s.sqs }

end State

/-- TEARDOWN (R322), steps 1 to 3. -/
def execTeardown (p pasid rc : Nat) (s : State) : Host.Outcome State Fault Refusal :=
  let q := s.part p
  let idx := match q.iqbusy with | some c => c.idx | none => q.iqhead.toNat
  let s := (List.range 16).foldl (fun (s : State) j =>
    if (Tbl.getD q.subs j {}).pasid = pasid then s.modSub p j (fun u => { u with stat := 2 }) else s) s
  let s := s.modPart p (fun q =>
    { q with methods := Tbl.mapVal (fun _ (m : Method) => if m.pasid = pasid then { m with valid := false } else m) q.methods
             devq := q.devq.filter (fun e => e.pasid ≠ pasid) })
  let waits := s.reqsUnder p (some pasid)
  let graphs := (List.range 4).filter (fun g => Tbl.has (s.part p).graphs g && (s.graph p g).pasid = pasid)
  let s := graphs.foldl (fun s g => s.tearGraph p g) s
  let s := (s.launches.filter (fun e => e.2.pidN = p && e.2.pasid = pasid)).foldl (fun s e => s.tearLaunch e.1 e.2) s
  let s := ((s.batches.filter (fun e => e.2.pidN = p && e.2.ent.pasid = pasid)).map (·.1)).foldl State.closeBatch s
  let under := fun (a _ : Nat) (_ : PKind) => decide (a = pasid)
  let s := (s.releaseKeys p under).modPart p (fun q =>
    { q with cpWait := q.cpWait.filter (fun x => x.2.pasid ≠ pasid), cpHost := q.cpHost.filter (fun x => x.2.2.pasid ≠ pasid)
             cpRefused := q.cpRefused.filter (fun x => x.2.pasid ≠ pasid), cpMade := q.cpMade.filter (fun x => x.2.1.pasid ≠ pasid)
             teardown := Tbl.set q.teardown pasid (rc, idx, waits) })
  .next s

/-- TEARDOWN_DRAIN_DONE (R322), step 4: the drain count has reached 0. -/
def execTeardownDrainDone (p pasid : Nat) (s : State) : Host.Outcome State Fault Refusal :=
  match Tbl.get? (s.part p).teardown pasid with
  | none => .next s
  | some (rc, idx, waits) =>
    if waits.any s.outstanding || s.priWait.any (fun h => h.pid = p && h.pasid = pasid) || !(s.lateUnder p (some pasid)).isEmpty
        || !s.partReleasable p then .next s
    else
      let s := s.tlbDrop (fun e => e.pasid = asid p pasid)
      let s := s.modPart p (fun q =>
        { q with teardown := Tbl.erase q.teardown pasid
                 subs := Tbl.mapVal (fun _ (u : SubQ) => if u.pasid = pasid && u.stat = 2 then { u with stat := 0, en := false } else u) q.subs })
      .next (((s.partRelease p).iqRecord p rc idx 0).iqDone p)

/-! Taking commands (R320). -/

/-- IQ_KICK (R320): the rule of R260 with PRT_IQHEAD in the place of SUB_HEAD. -/
def execIqKick (p : Nat) (k : BitVec 32) (s : State) : Host.Outcome State Fault Refusal :=
  .next (s.modPart p (fun q => if (kickCheck k q.iqkick q.iqhead (2 ^ ringLog q.iqlog2n 12)).1 then { q with iqkick := k } else q))

/-- R320: the command that 32 bytes hold; none for one that is skipped. -/
def iqDecode (p : Nat) (bs : List Byte) : Option Instr :=
  let op := fieldAt bs 0 1
  let fl := fieldAt bs 1 1
  let pasid := fieldAt bs 4 4
  let va := fieldAt bs 8 8
  let count := fieldAt bs 16 4
  let rc := fieldAt bs 24 8
  let kind := match fl / 2 % 4 with | 0 => some PKind.read | 1 => some PKind.write | 2 => some PKind.fetch | _ => none
  let plain := zeroAt bs 2 2 && zeroAt bs 20 4 && pasid < 2 ^ 20
  let noVa := va = 0
  let noCount := count = 0
  let noRec := rc = 0
  if !plain then none
  else match op with
    | 1 => if fl = 0 && va % 65536 = 0 && 1 ≤ count && count ≤ 2 ^ 24 && noRec then some (.invpg p pasid va count) else none
    | 2 => if fl = 0 && noVa && noCount && noRec then some (.invpasid p pasid) else none
    | 3 => if fl = 0 && noVa && noCount && noRec then some (.invall p) else none
    | 4 =>
      if fl / 8 ≠ 0 || va % 65536 ≠ 0 || !noCount || !noRec then none
      else if fl % 2 = 1 then some (.replayAll p)
      else kind.map (fun k => .replay p pasid va k)
    | 5 => if fl / 8 ≠ 0 || fl % 2 ≠ 0 || va % 65536 ≠ 0 || !noCount || !noRec then none else kind.map (fun k => .failCmd p pasid va k)
    | 6 => if fl = 0 && noVa && noCount && rc % 16 = 0 then some (.syncCmd p rc) else none
    | 7 => if fl = 0 && noVa && noCount && rc % 16 = 0 then some (.teardown p pasid rc) else none
    | _ => none

namespace State

/-- The unit takes its next command, or skips one that is malformed or that it cannot read: refused, or with an uncorrectable error (R320, R326). -/
def iqTake (s : State) (p : Nat) : State × Option Instr :=
  let q := s.part p
  if !q.iqen || q.iqbusy.isSome || q.iqhead = q.iqkick then (s, none)
  else
    let idx := q.iqhead.toNat
    let a := q.iqbase + 32 * (idx % 2 ^ ringLog q.iqlog2n 12)
    let take := fun (s : State) (op rc : Nat) => s.modPart p (fun q => { q with iqbusy := some { idx := idx, op := op, rc := rc } })
    if !s.ringOk p q.iqbase a 32 then ((take (s.refuseRing p q.iqbase a 32) 0 0).iqDone p, none)
    else match s.placeRead p (.dev a) 32 with
    | (s, none) => ((take s 0 0).iqDone p, none)
    | (s, some (_, true)) => ((take s 0 0).iqDone p, none)
    | (s, some (bs, false)) =>
      match iqDecode p bs with
      | some i => (take s (fieldAt bs 0 1) (fieldAt bs 24 8), some i)
      | none =>
        let rc := fieldAt bs 24 8
        (((take s 0 0).iqRecord p (if rc % 16 = 0 then rc else 0) idx 1).iqDone p, none)

end State

/-! Answers of the host (R315, R328). -/

namespace State

/-- The answer to a page request: the accesses that wait for the page walk again, or are refused as by FAIL; those that wait for a page that could not
be requested yet walk again too (R328). -/
def hostAnswer (s : State) (h : HostPage) (ok : Bool) : State :=
  let p := h.pid
  let s := { s with priWait := s.priWait.filter (· ≠ h) }
  let free := fun (pasid io : Nat) => !s.priWait.contains { pid := p, pasid := pasid, page := io }
  let refuse := fun (pasid io : Nat) => !ok && pasid = h.pasid && io = h.page
  let upd := fun (_ : Nat) (w : Wave) => match w.stat with
    | .faulted a _ hosts k =>
      if w.pidN = p && hosts.any (fun x => free a x.2) then
        { w with stat := .ready, refusedPages := (hosts.filter (fun x => refuse a x.2)).map (fun x => (x.1, k)) ++ w.refusedPages }
      else w
    | _ => w
  let s := { s with waves := Tbl.mapVal upd s.waves }
  let cmd := fun (r : Nat) (c : EngCmd) =>
    match c.hostWait with
    | some io =>
      if c.pidN ≠ p || !free c.pasid io then c
      else if refuse c.pasid io then { c with waiting := none, hostWait := none, fault := some r, finished := true }
      else { c with waiting := none, hostWait := none }
    | none => c
  let s := { s with cores := Tbl.mapVal (fun _ (c : Core) =>
    { c with copy := c.copy.map (cmd 17), mat := { c.mat with cmds := c.mat.cmds.map (cmd 19) } }) s.cores }
  let s := s.modPart p (fun q =>
    { q with cpHost := q.cpHost.filter (fun x => !free x.2.2.pasid x.1)
             cpRefused := q.cpRefused ++ (q.cpHost.filter (fun x => refuse x.2.2.pasid x.1)).map (·.2) })
  -- frames that wait for a page
  let frames := s.waves.filterMap (fun e =>
    if e.2.pidN = p && e.2.stat = .trapWait then
      match (s.translate (cidOf e.1) p e.2.pasid (s.frameVa e.1 p) .write).2 with
      | .hostAbsent io => if free e.2.pasid io then some (e.1, refuse e.2.pasid io) else none
      | _ => none
    else none)
  let s := frames.foldl (fun (s : State) x =>
    if x.2 then s.modWave x.1 (fun w => { w with refusedPages := (s.frameVa x.1 p / 65536, .write) :: w.refusedPages }) else s) s
  s.post (frames.map (fun x => Instr.trapDeliver x.1))

/-- An address space is in teardown: what arrives for it is discarded (R322, step 3). -/
def inTeardown (s : State) (p pasid : Nat) : Bool := Tbl.has (s.part p).teardown pasid

/-- Whether a page is present at the host, which lies outside the device. -/
def hostHas (s : State) (h : HostPage) (present : Bool) : State :=
  { s with hostAbsent := if present then s.hostAbsent.filter (· ≠ h) else if h ∈ s.hostAbsent then s.hostAbsent else h :: s.hostAbsent }

end State

/-- PRI_RESPONSE (R315, R322): one for a page request that is outstanding; a success makes the page present at the host. -/
def execPriResponse (p : Nat) (io : IoPage) (ok : Bool) (s : State) : Host.Outcome State Fault Refusal :=
  let h : HostPage := { pid := p, pasid := io.pasid, page := io.page }
  if !s.priWait.contains h then .next s
  else
    let s := if ok then s.hostHas h true else s
    if s.inTeardown p io.pasid then .next { s with priWait := s.priWait.filter (· ≠ h) }
    else .next (s.hostAnswer h ok)

/-- ATS_COMPLETION (R315, R322): the host's translation of an I/O page arrives at a base die; an absent page goes on to a page request. -/
def execAtsCompletion (dest : AtsFor) (io : IoPage) (present : Bool) (s : State) : Host.Outcome State Fault Refusal :=
  let d := dest.die
  let h : HostPage := { pid := dest.pid, pasid := io.pasid, page := io.page }
  let s := s.hostHas h present
  if s.inTeardown dest.pid io.pasid || 3 ≤ d then .next s
  else if present then .next (if s.ats.contains (d, h) then s else s.atsKeep d h)
  else .next ({ s with ats := s.ats.filter (fun e => e.2 ≠ h) }.pageRequest h)

end Sys2Proof.Machine
end

