-- ==== Sys2Proof/Machine/Preempt.lean ====
section
/-! DEFINITION. Pre-emption (R301 to R311): drains, escalation, the save and the restore of blocks, time slices (R310, R324). -/

namespace Sys2Proof.Machine

namespace State

/-- The launches of a partition with blocks still to place. -/
def unplaced (s : State) (p : Nat) : List Nat := (s.launches.filter (fun e => e.2.pidN = p && e.2.next < e.2.rc.total)).map (·.1)

/-- The blocks of a partition that are resident. -/
def residentBlocks (s : State) (p : Nat) : List (Nat × Block) :=
  s.blocks.filter (fun e => ((s.launch e.2.launch).map (·.pidN)) = some p)

/-- R302, step 2: NEXT is written to the ring slots of the launches noted; those that wait for a page stay noted. -/
def writeNexts (s : State) (p : Nat) : State :=
  ((s.part p).nextPend).foldl (fun (s : State) lid =>
    let drop := fun (s : State) => s.modPart p (fun q => { q with nextPend := q.nextPend.filter (· ≠ lid) })
    match s.launch lid with
    | none => drop s
    | some l =>
      match l.src, l.recVa with
      | .sub .., some va =>
        match s.cpWrite p l.pasid (walkerOf (lcDispatcher (s.cpOf p)) 3 lid) ((va + 28) % 2 ^ 64) (leBytes 4 l.next) with
        | (s, .ok _) => drop s
        | (s, .wait) => s
        | (s, .bad) => drop (s.cpError p va)
      | _, _ => drop s) s

/-- R305: every span of the save area is owned by the partition. A region of 2 MiB lies in the spans of its first and its last byte. -/
def saveAreaOk (s : State) (p : Nat) : Bool :=
  let n := (s.coresOf p).length
  (List.range n).all (fun r =>
    let a := (s.part p).csbase + 2 ^ 21 * r
    decide (s.owner a = some p) && decide (s.owner (a + 2 ^ 21 - 1) = some p))

/-- The dirty bytes that another party's hold keeps in an L1 are queued behind it (R228, R368). -/
def queueDirty (s : State) (cid : Nat) : State :=
  (s.dirtyLines cid).foldl (fun (s : State) l => (s.l1Dirty cid l).foldl (fun (s : State) e => s.homePut (128 * l + e.1) [e.2]) s) s

/-- R310: between two holders each core writes back and drops its L1 and empties its TLBs and instruction cache. The member that leaves keeps its trace
registers and counts, which no other member sees (R327). -/
def clearClusters (s : State) (p : Nat) : State :=
  let cs := s.coresOf p
  let s := cs.foldl (fun (s : State) cid =>
    let s := ((s.writeBackAll cid 0xFFFFFFFF).queueDirty cid).flushTrace cid
    let c := s.core cid
    let s := s.modPart p (fun q => { q with kept := Tbl.set q.kept cid { trc := c.trc, series := c.series, marks := c.marks } })
    s.modCore cid (fun c => { c with l1 := [], tlb := [], icache := [], trc := {}, series := ({} : Core).series, marks := [] })) s
  { s with tlb2 := s.tlb2.filter (fun e => !(cs.map clidOf).contains e.1) }

/-- The member that takes the clusters finds what it kept of their cores. -/
def takeKept (s : State) (p : Nat) : State :=
  ((s.part p).kept.foldl (fun (s : State) e => s.modCore e.1 (fun c => { c with trc := e.2.trc, series := e.2.series, marks := e.2.marks })) s).modPart p
    (fun q => { q with kept := [] })

/-- RESUME is accepted (R308): not while another member of the group holds its clusters (R324), nor while the interface of the partition is in ERROR (R335). -/
def doResume (s : State) (p : Nat) : State :=
  let q := s.part p
  let taken := q.group ≠ 0 && (List.range 12).any (fun j => j ≠ p && (s.part j).group = q.group && (s.part j).pstate ≠ 3)
  if q.pstate ≠ 3 || taken || !s.hostOk p then s
  else (s.takeKept p).modPart p (fun q => { q with pstate := 0, quantEnd := if q.group = 0 then none else some (s.time + 200000 * max 1 q.quant) })

/-- The members of a group in their turn after a partition (R310). -/
def turnAfter (s : State) (g p : Nat) : List Nat :=
  let ms := (List.range 12).filter (fun q => (s.part q).group = g)
  ms.filter (p < ·) ++ ms.filter (· ≤ p)

/-- R310: a partition that has saved blocks or started launches. -/
def hasWork (s : State) (p : Nat) : Bool :=
  !(s.part p).saved.isEmpty || Tbl.any s.launches (fun _ l => l.pidN = p && !l.fin)

/-- A partition with work that has not started: a kicked queue, a device-queue entry, a running graph. -/
def hasQueued (s : State) (p : Nat) : Bool :=
  let q := s.part p
  Tbl.any q.subs (fun _ u => u.en && u.head ≠ u.kick) || !q.devq.isEmpty || Tbl.any q.graphs (fun _ g => g.stat ≠ 0)

/-- Firmware resumes the next member of a group that no member holds, after the one that held it last (R310); where no member has saved blocks or
started launches, the next with work that has not started (log 21). A member whose interface is in ERROR stays stopped (R335). -/
def nextTurn (s : State) (g : Nat) : State :=
  let ms := (List.range 12).filter (fun q => (s.part q).group = g)
  let last := ms.foldl (fun a q => if (s.part a).heldAt ≤ (s.part q).heldAt then q else a) (ms.headD 11)
  let order := (s.turnAfter g last).filter s.hostOk
  match order.find? s.hasWork with
  | some q => s.doResume q
  | none => match order.find? s.hasQueued with
    | some q => s.doResume q
    | none => s

/-- R302, step 4, and R303: the stop is complete. The cores of the clusters that the holder of a group leaves are cleared first (R310), once their dirty lines
can go home. -/
def stopCheck (s : State) (p : Nat) : State :=
  let q := s.part p
  if q.pstate ≠ 1 && q.pstate ≠ 2 then s
  else if !(s.residentBlocks p).isEmpty || !q.nextPend.isEmpty || !q.packed || Tbl.any s.batches (fun _ b => b.pidN = p && b.stat = .running) then s
  else if q.group ≠ 0 && s.holds p && !s.partReleasable p then s
  else
    let s := if q.group = 0 || !s.holds p then s else s.clearClusters p
    s.modPart p (fun q => { q with pstate := 3, deadline := none, quantEnd := none, heldAt := s.time })

/-- REQ is accepted (R302). -/
def doRequest (s : State) (p : Nat) : State :=
  let s := s.modPart p (fun q =>
    { q with pstate := 1, ndrain := 0, deadline := some (s.time + 2000 * max 1 q.pdl), nextPend := s.unplaced p })
  (s.writeNexts p).stopCheck p

/-- REQ: ignored while STATE is not 0; refused where the save area is not the partition's (R301, R305). -/
def request (s : State) (p : Nat) : State :=
  if (s.part p).pstate ≠ 0 then s
  else if !s.saveAreaOk p then s.modPart p (fun q => { q with perr := true })
  else s.doRequest p

end State

/-- PREEMPT_REQ (R301, R302, R305). -/
def execPreemptReq (p : Nat) (s : State) : Host.Outcome State Fault Refusal := .next (s.request p)

/-! Escalation (R303). -/

namespace State

/-- Waves of a block stop issuing (R304). -/
def stopBlock (s : State) (b : Nat) : State :=
  match s.block b with
  | none => s
  | some x => x.waves.foldl (fun (s : State) k =>
      let s := s.modWave k (fun w => { w with saving := true })
      if s.cur = some k then { s with cur := none } else s) s

/-- The SIZE of a block record (R306). -/
def recordSize (s : State) (addr : Nat) : Nat := leNat (s.homeRead (addr + 24) 4).2.1

/-- The region of a core in the save area (R305). -/
def regionOf (s : State) (p cid : Nat) : Nat := (s.part p).csbase + 2 ^ 21 * s.rankOf p cid

/-- A record, or what is kept at the head of a region, is held (R228, R368): it is neither written nor read. -/
def recordHeld (s : State) (x : Saved) : Bool := s.rangeHeld x.addr 64 || s.rangeHeld x.addr (s.recordSize x.addr)
def headHeld (s : State) (p cid : Nat) : Bool := s.rangeHeld (s.regionOf p cid) 320

/-- Something of a save area that packing its regions reads or writes is held. -/
def packHeld (s : State) (p : Nat) : Bool :=
  (s.coresOf p).any (s.headHeld p) || (s.part p).saved.any (fun x =>
    s.recordHeld x || s.rangeHeld (s.regionOf p x.cid + 4096) (x.addr - (s.regionOf p x.cid + 4096)))

/-- Each region begins with the records that have not been restored, in their order, if there are any (R305). -/
def packRegions (s : State) (p : Nat) : State :=
  if (s.part p).packed || s.packHeld p then s
  else
  (s.coresOf p).foldl (fun (s : State) cid =>
    let base := s.regionOf p cid
    let old := (s.part p).saved.filter (fun x => x.cid = cid)
    let t := old.foldl (fun (t : State × Nat) x =>
      let size := t.1.recordSize x.addr
      match t.1.placeRead p (.dev x.addr) size with
      | (s, some (bs, _)) =>
        (((s.placeWrite p (.dev t.2) bs).1.modPart p (fun q => { q with saved := q.saved.map (fun y => if y = x then { y with addr := t.2 } else y) })),
          (t.2 + size + 4095) / 4096 * 4096)
      | (s, none) => (s, t.2)) (s, base + 4096)
    (t.1.placeWrite p (.dev base) (leBytes 64 old.length)).1) (s.modPart p (fun q => { q with packed := true }))

/-- R303: every block still resident is killed, or stopped for its save. A block whose dump is being written is killed behind that (R385). -/
def escalate (s : State) (p : Nat) : State :=
  let bs := (s.residentBlocks p).map (·.1)
  let discard := (s.part p).mode = 1
  let s := s.modPart p (fun q => { q with pstate := 2, nsave := 0 })
  if discard then
    let s := bs.foldl (fun (s : State) b =>
      (if ((s.block b).bind (dumpingWave s)).isSome then s else s.killBlockWaves b).modBlock b (fun x => { x with discarded := true })) s
    s.modPart p (fun q => { q with nsave := min bs.length 65535 })
  else
    bs.foldl stopBlock ((s.modPart p (fun q => { q with packed := false })).packRegions p)

end State

/-- PREEMPT_DEADLINE (R303): in STATE 1 at the deadline, or at once under MODE 2. It is also the moment at which a stop is found complete (R302). -/
def execPreemptDeadline (p : Nat) (s : State) : Host.Outcome State Fault Refusal :=
  let s := s.writeNexts p
  let q := s.part p
  let due := q.mode = 2 || (match q.deadline with | some t => decide (t ≤ s.time) | none => false)
  let s := if q.pstate = 1 && due && !(s.residentBlocks p).isEmpty then s.escalate p else s.packRegions p
  .next (s.stopCheck p)

/-! The save (R304 to R307). -/

/-- A barrier in 16 bytes (R306). -/
def barBytes (b : Barrier) : List Byte := leBytes 2 b.e ++ leBytes 2 b.a ++ leBytes 4 b.t.toNat ++ leBytes 2 b.phc.toNat ++ leBytes 6 0

/-- A barrier from its 16 bytes, with the stamps of the one that was saved. -/
def barOf (old : Barrier) (bs : List Byte) : Barrier :=
  { old with e := fieldAt bs 0 2, a := fieldAt bs 2 2, t := BitVec.ofNat 32 (fieldAt bs 4 4), phc := BitVec.ofNat 16 (fieldAt bs 8 2) }

/-- A plane with its tag in 65,536 bytes (R306): the image of R157 at its largest layout, whose rows of positions have 240 bytes and whose rows of
scales have 192, whatever the plane's own are (DEDUCED, log 20). -/
def planeBytes (pl : Plane) : List Byte :=
  let rows := fun {w : Nat} (m : Words w) (n : Nat) => (List.range 96).flatMap (fun k => leBytes n (Words.get m k).toNat)
  let im := leBytes 1 pl.valid.toNat ++ leBytes 1 pl.ty.code.toNat ++ leBytes 1 pl.sp ++ leBytes 1 pl.sc.toNat ++ leBytes 60 0
    ++ rows pl.data 192 ++ rows pl.pos 240 ++ rows pl.scales 192
  im ++ List.replicate (65536 - im.length) 0

def planeOfBytes (bs : List Byte) : Plane :=
  let rows := fun (w off n : Nat) => Words.putAll [] 0 ((List.range 96).map (fun k => BitVec.ofNat w (leNat ((bs.drop (64 + off + n * k)).take n))))
  { valid := fieldAt bs 0 1 = 1, ty := Ty.ofCode (BitVec.ofNat 4 (fieldAt bs 1 1)), sp := fieldAt bs 2 1, sc := fieldAt bs 3 1 = 1
    data := rows 1536 0 192, pos := rows 1920 18432 240, scales := rows 1536 41472 192 }

/-- The elements of a slot. -/
def slotBytes (m : MatEng) (ph : Nat) : List Byte := (List.range 9216).flatMap (fun j => leBytes 4 (Words.get m.acc (9216 * ph + j)).toNat)

/-- Sections that each start at a multiple of 128 (R306). -/
def joinSections (l : List (List Byte)) : List Byte := l.foldl (fun a x => if x.isEmpty then a else padTo 128 a ++ x) []

/-- The barriers that the waves of a block may name, as keys (R278, R307). -/
def blockKeys (nb ncb : Nat) (l : Launch) : List Nat := namedBars nb ncb l.rc.gbar

/-- What a trap that waits for its frame leaves of a deferred fault: the fault is held again (R304). -/
def Wave.heldFaults (w : Wave) : List DFault :=
  (match w.trapPend with
    | some t => if t.deferred then [{ cls := t.cls, reason := t.reason, pc := t.ipc, mask := t.mask, addr := t.addr, seq := t.seq }] else []
    | none => []) ++ w.deferred

namespace State

/-- R304: the waves of a block and its engine commands have drained. -/
def blockDrained (s : State) (b : Nat) (x : Block) : Bool :=
  let idle := fun (k : Nat) => match s.wave k with
    | some w => w.saving && w.pend.isEmpty && !w.restart && (List.range 13).all (fun f => w.flag f = 0)
        && (match w.stat with | .exiting => false | .dumping .. => false | _ => true)
    | none => true
  !x.waves.isEmpty && x.waves.all idle && s.blockDone b { x with waves := [] }

/-- The blocks that are saved or restored together with one (R303): its group, or its COR launch. -/
def together (s : State) (b : Nat) (x : Block) : List (Nat × Block) :=
  let cor := (s.launch x.launch).elim false (·.rc.cor)
  s.blocks.filter (fun e => e.1 = b || (x.group.isSome && e.2.group = x.group) || (cor && e.2.launch = x.launch))

/-- The bytes of a block's record (R306). -/
def blockRecord (s : State) (b : Nat) (x : Block) (l : Launch) : List Byte :=
  let m := (s.core x.cid).mat
  let ncb := (x.group.bind (Tbl.get? s.groups)).elim 0 (·.ncb)
  let keys := blockKeys x.nbar ncb l
  let ws := (x.waves.filterMap (fun k => (s.wave k).map (fun w => (k, w)))).mergeSort (fun a c => decide (a.2.wid ≤ c.2.wid))
  let holds := decide (m.holder = some b)
  let sections :=
    [x.bars.flatMap (fun e => barBytes e.2)] ++ ws.map (fun e => waveRecord e.1 { e.2 with deferred := e.2.heldFaults } keys s.ns)
      ++ [s.scrRead x.cid x.scrBase x.scrSize] ++ x.slots.map (fun e => slotBytes m e.2.phys)
      ++ (if holds then [planeBytes m.active, planeBytes m.shadow] else [])
  let head := fun (size : Nat) =>
    leBytes 8 (l.recVa.getD 0) ++ leBytes 4 x.lin ++ leBytes 1 l.desc.w ++ leBytes 1 x.rank ++ leBytes 1 x.nbar ++ leBytes 1 l.desc.acc
      ++ leBytes 4 x.scrSize ++ leBytes 1 ((x.slots.map (fun e => 2 ^ e.1)).sum) ++ leBytes 1 holds.toNat ++ leBytes 2 0 ++ leBytes 4 size ++ leBytes 28 0
  let whole := fun (size : Nat) => joinSections (head size :: sections)
  whole (whole 0).length

/-- Where the next record of a core's region goes, from what is saved there already (R305): the number of records and the address. -/
def nextRecord (s : State) (p cid : Nat) : Nat × Nat :=
  let base := s.regionOf p cid
  let here := (s.part p).saved.filter (fun x => x.cid = cid)
  let last := here.foldl (fun a x => max a ((x.addr + s.recordSize x.addr + 4095) / 4096 * 4096)) (base + 4096)
  (here.length, last)

/-- Something that the save of a block reads or writes is held: the heads of its core's region and of the cluster's first, the records there, its own. -/
def saveHeld (s : State) (p b : Nat) (x : Block) (l : Launch) : Bool :=
  s.headHeld p x.cid || s.headHeld p (x.cid / 4 * 4) || ((s.part p).saved.filter (fun y => y.cid = x.cid)).any (fun y => s.rangeHeld y.addr 64)
    || s.rangeHeld (s.nextRecord p x.cid).2 (s.blockRecord b x l).length

/-- A drained block is written to the save area and leaves the core (R304 to R307). -/
def saveBlock (s : State) (p b : Nat) (x : Block) (l : Launch) : State :=
  let s := s.writeBackAll x.cid 0xFFFFFFFF
  let (n, addr) := s.nextRecord p x.cid
  let base := s.regionOf p x.cid
  let bytes := s.blockRecord b x l
  let s := (s.placeWrite p (.dev addr) bytes).1
  let s := (s.placeWrite p (.dev base) (leBytes 4 (n + 1))).1
  -- the cluster barriers lie in the region of the cluster's first core
  let old := x.group.bind (fun g => Tbl.get? s.groups g)
  let region := s.regionOf p (x.cid / 4 * 4) + 64
  let s := match old with
    | some y => (y.bars.zip y.cphys).foldl (fun (s : State) e => (s.placeWrite p (.dev (region + 16 * e.2)) (barBytes e.1.2)).1) s
    | none => s
  let ws := (x.waves.filterMap (fun k => (s.wave k).map (fun w => (k, w)))).mergeSort (fun a c => decide (a.2.wid ≤ c.2.wid))
  let saved : Saved :=
    { cid := x.cid, addr := addr, launch := x.launch, lin := x.lin, rank := x.rank, group := x.group, old := old
      bars := x.bars, scrBase := x.scrBase, slots := x.slots.map (fun e => (e.1, e.2.placed))
      waves := ws.map (fun e => { key := e.1, wid := e.2.wid, lclass := e.2.lclass, deferred := e.2.heldFaults
                                  absent := e.2.caps.map (fun c => (c.1, c.2.absent)), logged := e.2.logged, relOn := e.2.relOn }) }
  let s := x.waves.foldl removeWave s
  let cl := clidOf x.cid
  let s := (s.freeBlock b x).modLaunch x.launch (fun y => { y with live := y.live - 1, placedAt := Tbl.set y.placedAt cl (Tbl.getD y.placedAt cl 0 - 1) })
  s.modPart p (fun q => { q with saved := q.saved ++ [saved], nsave := min (q.nsave + 1) 65535 })

end State

/-- BLOCK_SAVE (R304): a block is saved once it, its group and its COR launch have drained, and nothing that it writes is held. -/
def execBlockSave (b : Nat) (s : State) : Host.Outcome State Fault Refusal :=
  match s.block b with
  | none => .next s
  | some x =>
    match s.launch x.launch with
    | none => .next s
    | some l =>
      if (s.part l.pidN).pstate ≠ 2 || !(s.part l.pidN).packed || s.saveHeld l.pidN b x l || !(s.together b x).all (fun e => s.blockDrained e.1 e.2)
          || !(s.dirtyLines x.cid).all (fun n => !s.lineHeld n 0xFFFFFFFF) then .next s
      else .next ((s.saveBlock l.pidN b x l).stopCheck l.pidN)

/-! The restore (R308, R309). -/

/-- Offsets of the sections of a block record, from their lengths. -/
def sectionOffsets (start : Nat) : List Nat → List Nat
  | [] => []
  | n :: ns =>
    if n = 0 then start :: sectionOffsets start ns
    else let o := (start + 127) / 128 * 128; o :: sectionOffsets (o + n) ns

namespace State

/-- The place of a saved block on its core, if every resource is free there (R308). -/
def restoreFit (s : State) (x : Saved) (l : Launch) : Option Fit :=
  let taken := x.waves.any (fun w => Tbl.has s.waves w.key)
  let units := fun (q : Nat) => vregUnits l.desc.vregs * (x.waves.filter (fun w => quadOf w.key = q)).length
  let room := quadRoom s x.cid
  let quads := (List.range 4).all (fun q => decide (units q ≤ (room.getD q ([], 0)).2))
  let planes := (leNat (s.homeRead (x.addr + 21) 1).2.1).testBit 0
  let size := scratchSize l.desc.scratch
  let used := (coreBlocks s x.cid).map (fun e => (e.2.scrBase, e.2.scrSize))
  let same := used.all (fun u => decide (u.1 + u.2 ≤ x.scrBase) || decide (x.scrBase + size ≤ u.1))
  if taken || !quads || 64 < ((coreBlocks s x.cid).map (fun e => e.2.nbar)).sum + l.desc.barriers || (freeSlots s x.cid).length < x.slots.length
      || (planes && (s.core x.cid).mat.holder.isSome) then none
  else match (if same then some x.scrBase else scratchRoom s x.cid size), shapeStoreFor s x.cid l.pasid l.rc.desc l.desc with
    | some scr, some store => some { slots := x.waves.map (fun w => slotOf w.key), scr := scr, acc := (freeSlots s x.cid).take x.slots.length, store := store }
    | _, _ => none

/-- One saved block goes back to its core, its quads and its slots (R308, R309); `g` its group, if it has one. -/
def restoreBlock (s : State) (p : Nat) (x : Saved) (l : Launch) (g : Option Nat) (f : Fit) : State :=
  let b := s.nextId
  let s := { s with nextId := s.nextId + 1 }
  let size := scratchSize l.desc.scratch
  let ncb := x.old.elim 0 (·.ncb)
  let keys := blockKeys l.desc.barriers ncb l
  let rd := fun (s : State) (a n : Nat) => match s.placeRead p (.dev a) n with
    | (s, some (bs, _)) => (s, bs)
    | (s, none) => (s, leBytes n 0)
  let (s, head) := rd s x.addr 4096
  let (s, bytes) := rd s x.addr (max (fieldAt head 24 4) 64)
  let part := fun (off n : Nat) => (bytes.drop off).take n
  let nb := 16 * l.desc.barriers
  -- the length of each wave record follows from its own `plive`
  let lens := x.waves.foldl (fun (a : List Nat × Nat) _ =>
    let o := (a.2 + 127) / 128 * 128
    let pl := pliveFix (BitVec.ofNat 32 (fieldAt bytes (o + 16) 4))
    let n := (waveOffsets l.desc.vregs l.desc.sregs (livePreds { pidN := p, pasid := l.pasid, plive := pl }).length keys.length).getLastD 0
    (a.1 ++ [n], o + n)) ([], if nb = 0 then 64 else 128 + nb)
  let planes := (fieldAt bytes 21 1).testBit 0
  let off := sectionOffsets 64 ([nb] ++ lens.1 ++ [size] ++ x.slots.map (fun _ => 36864) ++ (if planes then [65536, 65536] else []))
  let nw := x.waves.length
  let bars := (newBarriers 0 l.desc.barriers l.desc.w).map (fun e =>
    (e.1, barOf (Tbl.getD x.bars e.1 e.2) (part (off.getD 0 0 + 16 * e.1) 16)))
  let slots := x.slots.zipIdx.map (fun e => (e.1.1, ({ phys := f.acc.getD e.2 0, placed := e.1.2 } : SlotBind)))
  let ks := x.waves.map (·.key)
  let blk : Block := { launch := x.launch, lin := x.lin, cid := x.cid, rank := x.rank, group := g, waves := ks, scrBase := f.scr, scrSize := size
                       nbar := l.desc.barriers, bars := bars, slots := slots, store := f.store }
  let s : State := { s with blocks := Tbl.set s.blocks b blk }
  let acc := slots.zipIdx.map (fun e => (e.1.2.phys, part (off.getD (nw + 2 + e.2) 0) 36864))
  let po := nw + 2 + slots.length
  let s := s.modCore x.cid (fun c =>
    let m := c.mat
    let cells := acc.foldl (fun (a : Words 32) e =>
      (List.range 9216).foldl (fun a j => Words.put a (9216 * e.1 + j) (BitVec.ofNat 32 (fieldAt e.2 (4 * j) 4))) (a.filter (fun y => y.1 / 9216 ≠ e.1))) m.acc
    let m := { m with acc := cells, bound := slots.foldl (fun t e => Tbl.set t e.2.phys b) m.bound }
    let m := if planes then { m with holder := some b, active := planeOfBytes (part (off.getD po 0) 65536), shadow := planeOfBytes (part (off.getD (po + 1) 0) 65536) } else m
    { c with mat := m, scr := Memory.writeBytes c.scr f.scr (part (off.getD (nw + 1) 0) size)
             scrErr := c.scrErr.filter (fun o => o < f.scr || f.scr + size ≤ o)
             shapes := shapesFor c.shapes f.store l })
  let s := s.dropClean x.cid
  let s := x.waves.zipIdx.foldl (fun (s : State) e =>
    let y := e.1
    let o := off.getD (1 + e.2) 0
    let w := restoreWave (startWave l b x.lin y.wid) (part o (lens.1.getD e.2 0)) keys s.ns
    let w := { w with lclass := y.lclass, logged := y.logged, relOn := y.relOn
                      deferred := (w.deferred.map (fun d => { d with addr := ((y.deferred.head?).map (·.addr)).getD 0, seq := ((y.deferred.head?).map (·.seq)).getD 0xFFFFFFFF })) ++ y.deferred.drop 1
                      caps := w.caps.map (fun c => (c.1, { c.2 with absent := c.2.absent + Tbl.getD y.absent c.1 0 })) }
    ((s.setWave y.key w).enterRotation y.key l.rc.prio).syncPacket y.key) s
  let cl := clidOf x.cid
  s.modLaunch x.launch (fun y => { y with live := y.live + 1, placedAt := Tbl.set y.placedAt cl (Tbl.getD y.placedAt cl 0 + 1) })

/-- The saved blocks that are restored together with one. -/
def savedSet (s : State) (p : Nat) (x : Saved) : List Saved :=
  let cor := (s.launch x.launch).elim false (·.rc.cor)
  (s.part p).saved.filter (fun y => y = x || (x.group.isSome && y.group = x.group) || (cor && y.launch = x.launch))

/-- Restore a set, block by block; none where one finds a resource taken. -/
def restoreAll (s : State) (p : Nat) (gs : Tbl Nat) : List Saved → Option State
  | [] => some s
  | x :: xs =>
    match s.launch x.launch with
    | none => s.restoreAll p gs xs
    | some l =>
      match s.restoreFit x l with
      | none => none
      | some f =>
        -- the group of the first of its blocks is made anew, with its barriers from the region of the cluster's first core
        let r : Option (State × Option Nat × Tbl Nat) := match x.group, x.old with
          | some g, some old =>
            match Tbl.get? gs g with
            | some n => some (s, some n, gs)
            | none =>
              if !clusterBarsFree s old.clid old.ncb then none
              else
                let n := s.nextId
                let region := s.regionOf p (x.cid / 4 * 4) + 64
                let t := (old.bars.zip old.cphys).foldl (fun (r : State × Tbl Barrier) e =>
                  match r.1.placeRead p (.dev (region + 16 * e.2)) 16 with
                  | (s, some (bs, _)) => (s, r.2 ++ [(e.1.1, barOf e.1.2 bs)])
                  | (s, none) => (s, r.2 ++ [e.1])) (s, [])
                let free := freeCbars s old.clid
                let cphys := if old.cphys.all free.contains then old.cphys else free.take old.ncb
                some ({ t.1 with nextId := n + 1, groups := Tbl.set t.1.groups n { old with blocks := [], bars := t.2, cphys := cphys } }, some n, Tbl.set gs g n)
          | _, _ => some (s, none, gs)
        match r with
        | none => none
        | some (s, g, gs) =>
          let b := s.nextId
          let s := s.restoreBlock p x l g f
          let s := match g with | some n => s.modGroup n (fun y => { y with blocks := y.blocks ++ [b] }) | none => s
          (s.modPart p (fun q => { q with saved := q.saved.filter (· ≠ x) })).restoreAll p gs xs

end State

/-- BLOCK_RESTORE (R308): the first saved block, with its group or its COR launch, once every resource is free and nothing that it reads is held. -/
def execBlockRestore (p : Nat) (s : State) : Host.Outcome State Fault Refusal :=
  if (s.part p).pstate ≠ 0 || !s.holds p then .next s
  else match (s.part p).saved with
    | [] => .next s
    | x :: _ =>
      if (s.savedSet p x).any (fun y => s.recordHeld y || s.headHeld p (y.cid / 4 * 4)) then .next s
      else match s.restoreAll p [] (s.savedSet p x) with
        | some s' => .next s'
        | none => .next s

/-- RESUME (R301, R308). -/
def execResume (p : Nat) (s : State) : Host.Outcome State Fault Refusal := .next (s.doResume p)

/-- QUANTUM_EXPIRE (R310, R324, R331): the leading firmware runs the turns of a group: of several members that run it stops all but the lowest,
as when the group has just been formed; it pre-empts the holder at the end of its quantum; where no member holds the clusters it resumes one. -/
def execQuantumExpire (g : Nat) (s : State) : Host.Outcome State Fault Refusal :=
  if g = 0 || (leader s).isNone then .next s
  else
    match (List.range 12).filter (fun q => (s.part q).group = g && (s.part q).pstate ≠ 3) with
    | _ :: (q :: rest) =>
      .next ((q :: rest).foldl State.request s)
    | [p] =>
      let q := s.part p
      if q.pstate = 0 && (match q.quantEnd with | some t => decide (t ≤ s.time) | none => true) then
        .next ((s.modPart p (fun q => { q with mode := 0 })).request p)
      else .next s
    | [] => .next (s.nextTurn g)

end Sys2Proof.Machine
end

