-- ==== Sys2Proof/Machine/Resilience.lean ====
section
/-! DEFINITION. Memory that survives loss (R350 to R375): write-backs and check deltas, decodes, scrubbing, repair, remapping, losses, the Armature's updates, the Recaster. -/

namespace Sys2Proof.Machine

/-! Write-backs (R353). -/
/-- L2_WRITEBACK (R353): a dirty line is written back, unless a check buffer has no room for its delta. -/
def execL2Writeback (line : Nat) (s : State) : Host.Outcome State Fault Refusal :=
  match Tbl.get? s.l2 line with
  | none => .next s
  | some e =>
    let sp := spanOf (128 * line)
    let st := stripeOf (128 * line)
    if e.dirty = 0 || !s.deltaRoom sp st 0 || !s.deltaRoom sp st 1 then .next s
    else .next (s.writeBackL2 line e)

/-- CHECK_DELTA_DRAIN (R353): the buffered delta of a check line goes to HBM by read, XOR and write. -/
def execCheckDeltaDrain (stripe : Nat) (q : Bool) (s : State) : Host.Outcome State Fault Refusal :=
  .next (s.drainDelta (2 * stripe + q.toNat))

namespace State

/-- The tables of the Armature are read at the home slices, by firmware's right; what lies in spans without storage as memory holds it. -/
def armRead (s : State) (a n : Nat) : State × Nat :=
  if (linesOf a n).all (fun l => (s.spanE (spanOf (128 * l))).isSome) then
    let r := s.homeRead a n
    (r.1, leNat r.2.1)
  else (s, leNat (Memory.readBytes s.mem a n))

def armWrite (s : State) (a : Nat) (bs : List Byte) : State :=
  if (linesOf a bs.length).all (fun l => (s.spanE (spanOf (128 * l))).isSome) then s.homeWrite a bs
  else { s with mem := Memory.writeBytes s.mem a bs }

/-- The 32 bits of a span entry (R355). -/
def spanWord (e : SpanE) : Nat := e.layout % 4096 + 2 ^ 12 * (e.stat % 8) + 2 ^ 15 * (e.owner % 16) + 2 ^ 19 * (e.cursor % 1024)

/-- An entry changes in memory and in every Armature cache (R361, R368). -/
def putSpan (s : State) (sp : Nat) (e : SpanE) : State :=
  let s := s.armWrite (s.arm.stbase + 4 * sp) (leBytes 4 (spanWord e))
  { s with arm := { s.arm with spans := Tbl.set s.arm.spans sp e } }

/-- R362: a span becomes LOST; one that is migrating does at the end of its migration (R368). -/
def loseSpan (s : State) (sp : Nat) : State :=
  match s.spanE sp with
  | none => s
  | some e =>
    if e.stat = 5 then s
    else if e.stat = 4 then { s with recasters := Tbl.mapVal (fun _ (r : Recaster) => if r.busy && r.span = sp then { r with lostSpan := true } else r) s.recasters }
    else s.putSpan sp { e with stat := 5 }

/-- A stripe is decoded (R354); one with a third erasure is lost with its span (R362). -/
def decodeOrLose (s : State) (sp st : Nat) : State :=
  let lost := s.thirdErasure sp st
  let s := s.decodeStripe sp st
  if lost then s.loseSpan sp else s

end State

/-- STRIPE_DECODE (R354, R362). -/
def execStripeDecode (stripe : Nat) (s : State) : Host.Outcome State Fault Refusal :=
  .next (s.decodeOrLose (stripe / 8192) (stripe % 8192))

/-! The Rasp (R364, R365). -/

namespace State

/-- R358 to R360: the line that lies at a channel byte address: its span, stripe and layout position; none where no span uses the place now. -/
def lineAt (s : State) (ch off : Nat) : Option (Nat × Nat × Nat) :=
  let t := ch / 32
  let f := off / 32768
  -- the home channel and its frame, through the remap tables of the stack
  let from_ := (List.range 32).findSome? (fun i =>
    (Tbl.find? (α := Nat × Nat) (s.chan (32 * t + i)).remap (fun _ (e : Nat × Nat) => e.1 = ch % 32 && e.2 = f)).map (fun e => (i, e.1)))
  let here := match from_ with
    | some r => some r
    | none => if Tbl.has (s.chan ch).remap f then none else some (ch % 32, f)
  match here with
  | none => none
  | some (home, frame) =>
    match Tbl.find? s.arm.frames (fun n f => n / nSpan = t && f = frame) with
    | none => none
    | some (key, _) =>
      let sp := key % nSpan
      match (List.range 32).find? (fun x => Tbl.getD s.arm.chmap (32 * t + x) x = home) with
      | none => none
      | some x =>
        let st := 32 * (off % 32768 / 128) + (x + 32 - sp % 32) % 32
        ((s.stripeLayout sp st).idxOf? t).map (fun p => (sp, st, p))

/-- The DPA that a record gives for a sector of a layout position: that of the sector, for a check line that of the stripe. -/
def dpaAt (sp st p k : Nat) : Nat :=
  let j := (p + 10 - st % 10) % 10
  2 ^ 23 * sp + 1024 * st + (if j < 8 then 128 * j + 32 * k else 0)

/-- R364: one sector is scrubbed. -/
def scrubSector (s : State) (ch row k : Nat) : State :=
  let off := 1024 * row + 32 * k
  let a := ch * 2 ^ 31 + off
  let here := s.lineAt ch off
  match s.sectorRead a with
  | some (_, n) =>
    let s := if n = 1 then s.noteCorrected a ((here.map (fun h => dpaAt h.1 h.2.1 h.2.2 (k % 4))).getD 0) here.isSome else s
    match here with
    | some (sp, st, p) => if (s.chan ch).outer && (p + 10 - st % 10) % 10 = 8 then s.decodeOrLose sp st else s
    | none => s
  | none =>
    match here with
    | some (sp, st, _) => s.decodeOrLose sp st
    | none => s.noteDetected a

/-- Rows of a channel (R364). -/
def nRows : Nat := 2097152

/-- The Rasp goes on to its next row, and starts a new pass at the end. -/
def nextRow (c : Chan) : Chan :=
  if c.pos + 1 < nRows then { c with pos := c.pos + 1 }
  else { c with pos := 0, pass := c.pass + 1, ue := 0, rows := [], bank := [], seen := [] }

end State

/-- RASP_ROW (R364). -/
def execRaspRow (ch : Nat) (s : State) : Host.Outcome State Fault Refusal :=
  let c := s.chan ch
  if 384 ≤ ch || !c.en || c.dead then .next s
  else
    let plain := s.hbmErr.isEmpty && !c.outer
    let s := if plain then s else (List.range 32).foldl (fun (s : State) k => s.scrubSector ch c.pos k) s
    .next (s.modChan ch State.nextRow)

namespace State

/-- A row of HBM is read, corrected and written again; what its reads show is counted (R350, R354, R362). -/
def rewriteRow (s : State) (ch row : Nat) : State :=
  (List.range 32).foldl (fun (s : State) k =>
    let off := 1024 * row + 32 * k
    let a := ch * 2 ^ 31 + off
    let here := s.lineAt ch off
    match s.sectorRead a with
    | some (_, 1) => s.noteCorrected a ((here.map (fun h => dpaAt h.1 h.2.1 h.2.2 (k % 4))).getD 0) here.isSome
    | some (bs, _) => s.sectorWrite a bs
    | none => match here with
      | some (sp, st, _) => s.decodeOrLose sp st
      | none => s.noteDetected a) s

end State

namespace State

/-- R360: the lines of a frame of one channel. -/
def frameLines (ch f : Nat) : List (Nat × Nat) := (List.range 256).map (fun i => (i, ch * 2 ^ 31 + 32768 * f + 128 * i))

/-- The target of a remap is taken: named by an entry of the stack frame table in its channel and not remapped away, or a target already. -/
def targetUsed (s : State) (t tch tf : Nat) : Bool :=
  (Tbl.any s.arm.frames (fun n f => n / nSpan = t && f = tf) && !Tbl.has (s.chan (32 * t + tch)).remap tf)
    || (List.range 32).any (fun i => Tbl.any (α := Nat × Nat) (s.chan (32 * t + i)).remap (fun _ (e : Nat × Nat) => e.1 = tch && e.2 = tf))

/-- Where a frame of a channel lies now, as an address in `hbm`. -/
def frameAt (s : State) (ch f : Nat) : Nat :=
  match Tbl.get? (s.chan ch).remap f with
  | some e => (32 * (ch / 32) + e.1) * 2 ^ 31 + 32768 * e.2
  | none => ch * 2 ^ 31 + 32768 * f

/-- The contents of a frame go to another, from the old one where it still reads and else by decode (R354, R362); what the reads show is counted (R350). -/
def moveFrame (s : State) (ch f dst : Nat) : State :=
  let old := s.frameAt ch f
  let alive := !(s.chan (chanOf old)).dead && s.stackOk (ch / 32)
  let base := s
  (List.range 256).foldl (fun (s : State) i =>
    let raw := if alive then base.rawLine (some (old + 128 * i)) else List.replicate 128 none
    match base.lineAt (chanOf old) (old % 2 ^ 31 + 128 * i) with
    | none => if alive then s.noteLine (old + 128 * i) 0 else s
    | some (sp, st, p) =>
      if raw.all (·.isSome) then (s.noteLine (old + 128 * i) (dpaAt sp st p 0)).lineWrite (dst + 128 * i) raw
      else
        let j := (p + 10 - st % 10) % 10
        let s := (s.decodeOrLose sp st).lineWrite (dst + 128 * i) (symsAt (base.stripeSyms sp st) st p)
        if j < 8 then s else { s with deltas := Tbl.erase s.deltas (deltaKey sp st (j - 8)) }) s

/-- The lowest entry of a remap table that is not valid (R360). -/
def freeEntry (c : Chan) : Nat := ((List.range 4096).find? (fun e => !Tbl.any c.ridx (fun f n => n = e && Tbl.has c.remap f))).getD 0

/-- R360, R365: a frame of a channel is redirected to a target in the same stack, in a given entry of the table or in the lowest that is free; with the
table full the channel is marked dead. -/
def remapFrame (s : State) (ch f tch tf : Nat) (entry : Option Nat) : State :=
  let t := ch / 32
  let c := s.chan ch
  if 384 ≤ ch || 65535 < f || 31 < tch || 65535 < tf || s.targetUsed t tch tf || (s.chan (32 * t + tch)).dead then s
  else if !Tbl.has c.remap f && 4096 ≤ c.remap.length then (s.modChan ch (fun c => { c with moves := c.moves.filter (· ≠ f) })).markDead ch
  else
    let old := s.frameAt ch f
    let s := s.moveFrame ch f ((32 * t + tch) * 2 ^ 31 + 32768 * tf)
    let e := entry.getD (if Tbl.has c.remap f then Tbl.getD c.ridx f 0 else freeEntry c)
    let s := s.modChan (chanOf old) (fun c => { c with due := c.due.filter (fun r => r / 32 ≠ old % 2 ^ 31 / 32768) })
    let s := s.modChan ch (fun c =>
      { c with remap := Tbl.set c.remap f (tch, tf), ridx := Tbl.set c.ridx f e, rent := Tbl.set c.rent e (f, tf, tch), moves := c.moves.filter (· ≠ f) })
    if (s.chan (chanOf old)).retired.contains (old % 2 ^ 31 / 32768 % 64) then s else s.logOperator { src := 0x100 + ch, kind := 13, addr := 32768 * f }

/-- The highest frame below a bound that a remap of a stack may take in a channel: not in use, nor in a bank that has been retired. -/
def spareIn (s : State) (t tch : Nat) : Nat → Option Nat
  | 0 => none
  | n + 1 => if !s.targetUsed t tch n && !(s.chan (32 * t + tch)).retired.contains (n % 64) then some n else s.spareIn t tch n

/-- The target that firmware gives a frame that is due for remapping: in its own channel if there is one, else in the first of the others
(DESIGN CHOICE, log 22: R365 names none). -/
def spareFrame (s : State) (ch : Nat) : Option (Nat × Nat) :=
  let t := ch / 32
  (ch % 32 :: (List.range 32).filter (· ≠ ch % 32)).findSome? (fun tch =>
    if (s.chan (32 * t + tch)).dead then none else (s.spareIn t tch 65536).map (fun f => (tch, f)))

end State

/-- ROW_REPAIR (R365): a row that is due is repaired; with no repair row left, every frame that touches it is due for remapping. The row of a frame that is due
for remapping stands for that frame, which is remapped. -/
def execRowRepair (ch row : Nat) (s : State) : Host.Outcome State Fault Refusal :=
  let c := s.chan ch
  let done := fun (c : Chan) => { c with due := c.due.filter (· ≠ row) }
  if c.moves.contains (row / 32) then
    match s.spareFrame ch with
    | some t => .next (s.remapFrame ch (row / 32) t.1 t.2 none)
    | none => .next s
  else if c.dead || !c.due.contains row then .next s
  else if c.ppr = 0 then .next ((s.modChan ch done).retireFrames ch (fun f => f = row / 32))
  else
    .next (((s.rewriteRow ch row).modChan ch (fun c =>
      { done c with ppr := c.ppr - 1, rows := Tbl.erase c.rows row })).logOperator { src := 0x100 + ch, kind := 12, addr := 1024 * row })

/-- FRAME_REMAP (R360, R365): firmware names a frame of a channel and its target in the same stack. -/
def execFrameRemap (ch f tch tf : Nat) (s : State) : Host.Outcome State Fault Refusal := .next (s.remapFrame ch f tch tf none)

/-! Losses (R362, R363). -/

/-- CHANNEL_INTERFACE_FAIL (R362). -/
def execChannelInterfaceFail (ch : Nat) (s : State) : Host.Outcome State Fault Refusal :=
  if 384 ≤ ch then .next s else .next (s.markDead ch)

namespace State

/-- Stacks of a layout that have failed. -/
def failedOf (s : State) (lay : Nat) : Nat := ((s.layout lay).filter (fun t => !s.stackOk t)).length

/-- R356: the state that SPN_STK gives a span with storage. -/
def stateOf (s : State) (lay : Nat) : Nat :=
  match s.failedOf lay with
  | 0 => 1 | 1 => 2 | 2 => 3 | _ => 5

/-- R356: firmware keeps the states of the spans current. -/
def refreshSpans (s : State) : State :=
  s.arm.spans.foldl (fun (s : State) e =>
    let now := s.stateOf e.2.layout
    if (s.spanE e.1).isNone || e.2.stat = 4 || e.2.stat = 5 || e.2.stat = now then s
    else s.putSpan e.1 { e.2 with stat := now }) s

/-- R363: the spans to release: frames to rebuild beyond the usable spare frames of the healthy stacks, nine to a span. A frame of a
stack is spare that no entry of its table names and that no remap of its channels uses (R359). -/
def toRelease (s : State) : Nat :=
  let used := s.arm.frames.filter (fun e => e.2 ≠ 0xFFFF)
  let taken := fun (t : Nat) =>
    ((used.filter (fun e => e.1 / nSpan = t)).map (·.2) ++ (List.range 32).flatMap (fun i => (s.chan (32 * t + i)).remap.map (fun e => e.2.2))).eraseDups
  let n := (used.filter (fun e => !s.stackOk (e.1 / nSpan) && (match s.spanE (e.1 % nSpan) with
    | some x => (s.layout x.layout).contains (e.1 / nSpan)
    | none => false))).length
  let healthy := (List.range 12).filter s.stackOk
  let free := (healthy.map (fun t => 65535 - ((taken t).filter (· ≠ 65535)).length)).sum
  (n - free + 8) / 9

end State

/-- STACK_FAIL (R356, R362, R363): a healthy stack is marked failed; firmware brings the spans' states and SPN_RELEASE up to date. -/
def execStackFail (t : Nat) (s : State) : Host.Outcome State Fault Refusal :=
  if 12 ≤ t || !s.stackOk t then .next s
  else
    let s := { s with arm := { s.arm with stk := s.arm.stk ||| ((1 : BitVec 24) <<< (2 * t)) } }
    let s := s.logOperator { src := 0x510 + t / 4, kind := 14 }
    let s := s.refreshSpans
    .next { s with arm := { s.arm with release := s.toRelease } }

/-! Armature updates (R361). -/

namespace State

/-- The layout table entry of a layout, as memory holds it (R357). -/
def readLayout (s : State) (lay : Nat) : State × List Nat :=
  let r := s.armRead (s.arm.ltbase + 8 * lay) 8
  (r.1, if r.2 / 2 ^ 40 = 0 then (List.range 10).map (fun p => r.2 / 2 ^ (4 * p) % 16) else [])

/-- The stack frame table's entry of a span on a stack goes into the caches (R359). -/
def reloadFrame (s : State) (sp t : Nat) : State :=
  let r := s.armRead (s.arm.sftbase + 2 * (nSpan * t + sp)) 2
  { r.1 with arm := { r.1.arm with
      frames := if r.2 = 0xFFFF then Tbl.erase r.1.arm.frames (nSpan * t + sp) else Tbl.set r.1.arm.frames (nSpan * t + sp) r.2 } }

/-- The caches take the entries of a span from memory: its Span Table entry, its layout, its stack frames (R355, R357, R359). -/
def reloadSpan (s : State) (sp : Nat) : State :=
  let (s, x) := s.armRead (s.arm.stbase + 4 * sp) 4
  let lay := bitsOf x 11 0
  let (s, order) := s.readLayout lay
  let s := (List.range 12).foldl (fun (s : State) t => s.reloadFrame sp t) s
  { s with arm := { s.arm with
      spans := Tbl.set s.arm.spans sp { layout := lay, stat := bitsOf x 14 12, owner := bitsOf x 18 15, cursor := bitsOf x 28 19 }
      layouts := Tbl.set s.arm.layouts lay order } }

end State

/-- SPN_UPD (R361): every cache takes the entries of a span; the write is ignored while the span is migrating. -/
def execSpnUpd (sp : Nat) (s : State) : Host.Outcome State Fault Refusal :=
  if nSpan ≤ sp || (Tbl.get? s.arm.spans sp).elim false (fun e => e.stat = 4) then .next s
  else
    let s := s.reloadSpan sp
    .next { s with arm := { s.arm with updBusy := some sp } }

/-- SPN_UPD_DONE (R361): BUSY clears once no access routed by an old entry remains but those answered moved. -/
def execSpnUpdDone (s : State) : Host.Outcome State Fault Refusal :=
  if s.arm.updBusy.isSome && s.reqs.all (fun e => e.2.moved || e.2.home = s.homeNow e.2.line) then
    .next { s with arm := { s.arm with updBusy := none } }
  else .next s

/-! The Recaster (R368 to R372). -/

namespace State

def recaster (s : State) (k : Nat) : Recaster := Tbl.getD s.recasters k {}

def modRecaster (s : State) (k : Nat) (f : Recaster → Recaster) : State := { s with recasters := Tbl.set s.recasters k (f (s.recaster k)) }

/-- R368: a command is refused; the layout is the one that the table holds. -/
def rcsRefused (s : State) (r : Recaster) (lay : List Nat) : Bool :=
  r.busy || nSpan ≤ r.span || Tbl.any s.recasters (fun _ x => x.busy && x.span = r.span)
    || (match s.spanE r.span with | some e => e.stat = 4 || e.stat = 5 | none => true) || !layoutValid lay

/-- Requests answered moved of a span, or sent again and not yet served (R371). -/
def movedLeft (s : State) (sp : Nat) : Bool := Tbl.any s.reqs (fun _ q => (q.moved || q.resent) && spanOf (128 * q.line) = sp)

end State

/-- RCS_MIGRATE (R368): with the command the Recaster takes the target layout and the new frames that firmware has allocated. -/
def execRcsMigrate (k : Nat) (s : State) : Host.Outcome State Fault Refusal :=
  if 3 ≤ k then .next s
  else
    let r := s.recaster k
    let x := s.readLayout r.layout
    match s.rcsRefused r x.2, s.spanE r.span with
    | false, some e =>
      let s := { x.1 with arm := { x.1.arm with layouts := Tbl.set x.1.arm.layouts r.layout x.2 } }
      let s := (x.2.filter (fun t => !(s.layout e.layout).contains t)).foldl (fun (s : State) t => s.reloadFrame r.span t) s
      let s := s.putSpan r.span { e with stat := 4, cursor := 0 }
      let s := (s.modRecaster k (fun r => { r with busy := true, unit := 0, hold := false, handed := [], lostSpan := false })).lcTick (lcRecaster k)
      .next (s.logOperator { src := 0x510 + k, kind := 15, addr := 2 ^ 23 * r.span })
    | _, _ => .next (s.modRecaster k (fun r => { r with err := true }))

namespace State

/-- The moving data lines of the present unit of a Recaster. -/
def movingLines (s : State) (k : Nat) : List Nat :=
  let r := s.recaster k
  (List.range 64).filterMap (fun i =>
    let line := 65536 * r.span + 64 * r.unit + i
    match s.mover line with
    | some (k', _) => if k' = k then some line else none
    | none => none)

/-- A batch that has been dispatched runs on a line (R368, step 2). -/
def batchRuns (s : State) (line : Nat) : Bool := Tbl.any s.batches (fun _ b => b.stat = .running && b.dpa / 128 = line)

/-- R370: combine requests queued or forming at the old home leave it and are answered moved, each as it was sent: the lanes of one `cmb` stay
together, also those that stood in two batches (R227). -/
def dissolve (s : State) (line : Nat) : State :=
  let mine := s.batches.filter (fun e => e.2.stat ≠ .running && e.2.dpa / 128 = line)
  let s := mine.foldl (fun (s : State) (e : Nat × Batch) =>
    ((e.2.reqs.map (·.req)).eraseDups).foldl (fun (s : State) (n : Nat) =>
      let l := e.2.reqs.filter (fun q => q.req = n)
      let had := match Tbl.get? s.reqs n with | some q => (match q.kind with | .combine _ _ _ _ xs => xs | _ => []) | none => []
      match l with
      | [] => s
      | q :: _ =>
        let lanes := (had ++ l.map (fun q => (q.lane, q.a0, q.a1))).mergeSort (fun x y => decide (x.1 ≤ y.1))
        let whole : Req := {
          kind := .combine e.2.dpa e.2.va e.2.method e.2.ent.pasid lanes, cid := q.cid, wave := q.wave, op := q.op
          pidN := e.2.pidN, line := line, home := e.2.slice, moved := true, stamp := q.stamp, pasid := e.2.ent.pasid, pages := [e.2.va / 65536] }
        { s with reqs := Tbl.set s.reqs n whole }) s) s
  { s with batches := s.batches.filter (fun e => !(e.2.stat ≠ .running && e.2.dpa / 128 = line)) }

/-- R370: the handoff of one line: dirty it travels to its new home, which makes room for it (R16), clean it is dropped; held requests are answered moved. -/
def handOff (s : State) (k line : Nat) : State :=
  let s := s.dissolve line
  let clean := (Tbl.get? s.l2 line).elim true (fun e => e.dirty = 0)
  let s := if clean then { s with l2 := Tbl.erase s.l2 line } else s.roomAt (s.newHome (s.recaster k) line) line
  let s := { s with reqs := Tbl.mapVal (fun _ (q : Req) => if q.line = line then { q with moved := true, resent := false } else q) s.reqs }
  (s.modRecaster k (fun r => { r with hold := true, handed := line :: r.handed })).lcTick (lcRecaster k)

/-- R368, step 3: the moving lines of a stripe are written under the new layout. What is read to do so is counted (R350): the lines that move, for a check line
all data lines, where one of them does not read the whole stripe, which is decoded (R354). Answers whether no byte met a third erasure. -/
def moveStripe (s : State) (sp st : Nat) (old new : List Nat) : State × Bool :=
  let pos := fun (j : Nat) => (st + j) % 10
  let moving := fun (p : Nat) => decide (old.getD p 0 ≠ new.getD p 0)
  let reads := fun (s : State) (p : Nat) => (s.rawLine (s.phys sp st p)).all (·.isSome)
  let movers := (List.range 10).filter moving
  let read := if moving (pos 8) || moving (pos 9) then ((List.range 8).map pos ++ movers).eraseDups else movers
  let ok := movers.isEmpty || !s.thirdErasure sp st
  -- the value that each data line has in HBM, as the codes give it where the stripe is decoded
  let syms := s.stripeSyms sp st
  let whole := !read.all (reads s)
  let hbm := fun (j : Nat) =>
    let raw := s.rawLine (s.phys sp st (pos j))
    if whole then List.zipWith (fun x r => x.or r) (symsAt syms st (pos j)) raw else raw
  let line := fun (j : Nat) => (2 ^ 23 * sp + 1024 * st) / 128 + j
  let dirty := fun (j : Nat) => moving (pos j) && (Tbl.get? s.l2 (line j)).elim false (fun e => e.dirty ≠ 0)
  -- a dirty line that moves is written as its new home holds it
  let vals := (List.range 8).map (fun j =>
    if dirty j then (Memory.readBytes s.mem (128 * line j) 128).map (fun (b : Byte) => some b.toNat) else hbm j)
  let check := fun (q : Nat) => (List.range 128).map (fun b =>
    let c := vals.map (fun v => v.getD b none)
    if c.all (·.isSome) then some (c.zipIdx.foldl (fun a e => a ^^^ (if q = 0 then e.1.getD 0 else gfMul (gfPow e.2) (e.1.getD 0))) 0) else none)
  let s := if whole then s.decodeOrLose sp st else s.noteStripe sp st read
  -- dirty lines go to their new frames with their deltas to the check lines that stay, in whose buffers room is made (R353)
  let s := (List.range 8).foldl (fun (s : State) j =>
    if !moving (pos j) then s
    else
      let s := match Tbl.get? s.l2 (line j) with
        | some e =>
          if e.dirty = 0 then s
          else
            let bs := Memory.readBytes s.mem (128 * line j) 128
            let δ := List.zipWith (· ^^^ ·) e.old bs
            let s := if moving (pos 8) then s else (s.makeDeltaRoom sp st 0).mergeDelta sp st 0 δ
            let s := if moving (pos 9) then s
              else (s.makeDeltaRoom sp st 1).mergeDelta sp st 1 (δ.map (fun (b : Byte) => BitVec.ofNat 8 (gfMul (gfPow j) b.toNat)))
            { s with l2 := Tbl.set s.l2 (line j) { old := bs } }
        | none => s
      match s.physAt new sp st (pos j) with
      | some a => s.lineWrite a (vals.getD j [])
      | none => s) s
  let s := [0, 1].foldl (fun (s : State) q =>
    if !moving (pos (8 + q)) then s
    else
      let s := { s with deltas := Tbl.erase s.deltas (deltaKey sp st q) }
      match s.physAt new sp st (pos (8 + q)) with
      | some a => s.lineWrite a (check q)
      | none => s) s
  (s, ok)

/-- R368, steps 3 to 5: the unit's lines are moved and the cursor goes on; the last unit ends the migration. -/
def finishUnit (s : State) (k : Nat) (e : SpanE) : State :=
  let r := s.recaster k
  let old := s.layout e.layout
  let new := s.layout r.layout
  let (s, ok) := (List.range 8).foldl (fun (x : State × Bool) i =>
    let y := x.1.moveStripe r.span (8 * r.unit + i) old new
    (y.1, x.2 && y.2)) (s, true)
  let lost := r.lostSpan || !ok
  let s := s.modRecaster k (fun r =>
    { r with unit := r.unit + 1, hold := false, handed := [], lostSpan := lost, lost := if ok then r.lost else min (r.lost + 1) (2 ^ 32 - 1) })
  if r.unit < 1023 then s.putSpan r.span { e with cursor := r.unit + 1 }
  else
    let s := s.putSpan r.span { e with layout := r.layout, stat := if lost then 5 else s.stateOf r.layout, cursor := 0 }
    (s.modRecaster k (fun r => { r with busy := false, done := r.done + 1 })).logOperator { src := 0x510 + k, kind := 15, addr := 2 ^ 23 * r.span }

end State

/-- A migration has not begun to move lines, and waits until the last one's moved answers have been served (R371). -/
def State.rcsWaits (s : State) (r : Recaster) : Bool := r.unit = 0 && r.handed.isEmpty && s.movedLeft r.span

/-- RECASTER_UNIT (R368): the present unit is held; once no dispatched batch runs on its moving lines it is handed off, moved and released. -/
def execRecasterUnit (k : Nat) (s : State) : Host.Outcome State Fault Refusal :=
  let r := s.recaster k
  match r.busy, Tbl.get? s.arm.spans r.span with
  | true, some e =>
    let lines := s.movingLines k
    if s.rcsWaits r then .next s
    else if lines.any s.batchRuns then .next (s.modRecaster k (fun r => { r with hold := true }))
    else
      let s := (lines.filter (fun l => !r.handed.contains l)).foldl (fun s l => s.handOff k l) s
      .next (s.finishUnit k e).putLater
  | _, _ => .next s

/-- LINE_HANDOFF (R370): one line of the unit that is held goes to its new home, once no dispatched batch runs on it. -/
def execLineHandoff (k line : Nat) (s : State) : Host.Outcome State Fault Refusal :=
  let r := s.recaster k
  if r.busy && !s.rcsWaits r && !r.handed.contains line && (s.movingLines k).contains line && !s.batchRuns line then .next (s.handOff k line) else .next s

/-- MOVED_RESEND (R371): the sender sends a request answered moved once, unchanged, to the line's home, those of one core in their order. -/
def execMovedResend (q : Nat) (s : State) : Host.Outcome State Fault Refusal :=
  match Tbl.get? s.reqs q with
  | some x =>
    if !x.moved || Tbl.any s.reqs (fun n y => n < q && y.moved && y.cid = x.cid) then .next s
    else .next (s.modReq q (fun y => { y with moved := false, resent := true, home := s.homeNow y.line }))
  | none => .next s

end Sys2Proof.Machine
end

