-- ==== Sys2Proof/Machine/Device.lean ====
section
/-! DEFINITION. Reset, clocks, the governors and the die fabric (R10 to R15, R19, R327). -/

namespace Sys2Proof.Machine

/-- DEVICE_RESET (R3, R15, R124): the machine right after reset. The board, memory cells and what lies outside the device stay as they are (log 24). -/
def execDeviceReset (s : State) : Host.Outcome State Fault Refusal :=
  let peers := Tbl.mapVal (fun _ (e : PeerE) => ({ mem := e.mem } : PeerE)) s.peers
  .next { State.reset with
    orderM := s.orderM, moduleW := s.moduleW, mem := s.mem, hbm := s.hbm, hbmErr := s.hbmErr
    hostMem := s.hostMem, hostAbsent := s.hostAbsent, peers := peers, sent := s.sent, inbox := s.inbox, freeCtr := s.freeCtr }

/-- R15, R19: the module power limit that firmware applies: the board's, 1,800 W where none can be read or on WX-RLD3-M. -/
def moduleLimit (orderM : Bool) (read : Option Nat) : Nat := if orderM then 1800 else read.getD 1800

/-- R15: a die's budget: a third of the limit, of which no more than 1,800 W counts, in whole watts. -/
def dieBudget (limit : Nat) : Nat := min limit 1800 / 3

/-- POWER_BUDGET_SET (R15, R331): the leader sets a die's budget. The first starts the governor; a later one takes effect at the next period boundary. -/
def execPowerBudgetSet (d : Nat) (read : Option Nat) (s : State) : Host.Outcome State Fault Refusal :=
  if 3 ≤ d || (leader s).isNone then .next s
  else
    let limit := moduleLimit s.orderM read
    let s := { s with moduleW := limit }
    .next (s.modDie d (fun x =>
      if x.budget.isNone then { x with budget := some (dieBudget limit), since := s.time } else { x with pending := some (dieBudget limit) }))

/-- A governor period in half nanoseconds (R13). -/
def governorSpan : Nat := 20000

/-- R13: the clock of the next period, from the headroom in milliwatts; `forced` where the module was over its limit (R15). -/
def nextClock (mhz : Nat) (headroom : Int) (forced : Bool) : Nat :=
  if forced || headroom < 0 then max (mhz - 50) 1200
  else if headroom < 15000 then mhz
  else min (mhz + 50) 2000

/-- GOVERNOR_PERIOD (R13, R15): a period of a die's governor ends, with the power measured of the die and of the module. A module that has been over its limit
for two periods on end, whichever governors found it so, has every governor lower its clock: the time over the limit is one for the module (DEDUCED, log 3). -/
def execGovernorPeriod (d dieMw moduleMw : Nat) (s : State) : Host.Outcome State Fault Refusal :=
  let x := s.die d
  match x.budget with
  | none => .next s
  | some w =>
    if 3 ≤ d || s.time < x.since + governorSpan then .next s
    else
      let isOver := decide (min s.moduleW 1800 * 1000 < moduleMw)
      let start := s.overFrom.getD x.since
      let forced := isOver && decide (start + governorSpan ≤ x.since)
      let headroom : Int := (w * 1000 : Nat) - (dieMw : Nat)
      .next ({ s with overFrom := if isOver then some start else none }.modDie d (fun y =>
        { y with mhz := nextClock y.mhz headroom forced, negative := decide (headroom < 0)
                 budget := some (y.pending.getD w), pending := none, since := y.since + governorSpan }))

/-- Partitions that own a cluster, the members of a time-slice group among them (R324). -/
def State.owning (s : State) : List Nat := (List.range 12).filter (fun p => s.clusters p ≠ 0)

/-- Partitions that own a cluster of a compute die. -/
def State.owningOn (s : State) (d : Nat) : List Nat :=
  (List.range 12).filter (fun p => (List.range 36).any (fun c => c / 12 = d && (s.clusters p).getLsbD c))

/-- R327: the command processor of a die fails: a fatal record reaches every partition on that die. The table of opcodes has no step for this event of R327; the
model takes it as a failure of connection 3, 4 or 5, which do not exist (DESIGN CHOICE, log 22). -/
def State.cpFail (s : State) (d : Nat) : State := s.logDevice (s.owningOn d) { src := 0x500 + d, kind := 8, flags := 1 }

/-- FABRIC_CONNECTION_FAIL (R10, R327): connection 0 joins B0 and B1, 1 joins B0 and B2, 2 joins B1 and B2. The first loss is a recoverable device error; the second
is fatal and reaches every partition on the dies concerned, which are all three. Numbers 3 to 5 stand for the command processors of B0 to B2 (`cpFail`). -/
def execFabricConnectionFail (c : Nat) (s : State) : Host.Outcome State Fault Refusal :=
  if 6 ≤ c || s.fabricDown.contains c then .next s
  else if 3 ≤ c then .next (s.cpFail (c - 3))
  else
    let s := { s with fabricDown := c :: s.fabricDown }
    -- SRC: the firmware core of the lower-numbered base die (DESIGN CHOICE, log 22)
    let r : ErrRec := { src := 0x510 + c / 2, kind := 8 }
    .next (if s.fabricDown.length = 1 then s.logOperator r else s.logDevice s.owning { r with flags := 1 })

end Sys2Proof.Machine
end

