-- ==== Sys2Proof/Machine/Fetch.lean ====
section
/-! DEFINITION. Instruction fetch (R42, R182, R214, R338, R340): the instruction cache, the words fetched ahead, translation and the faults of a fetch. -/

namespace Sys2Proof.Machine

/-- How a fetch ends. -/
inductive Fetched where
  | word (w : IWord)
  /-- the fetch-fault reason (R338) -/
  | trap (reason : Nat)
  /-- a translation is missing: level of the entry and page (R317) -/
  | miss (level page : Nat)
  deriving DecidableEq, Repr

/-- The word that a core's instruction cache holds for an address. -/
def Core.cached (c : Core) (space va : Nat) : Option IWord :=
  (c.icache.find? (fun e => e.1 = space && e.2.1 = va)).map (·.2.2)

/-- Whole words of 12 bytes that 64 KiB hold (R8, R16). The oldest leaves first (DESIGN CHOICE, log 30). -/
def icacheWords : Nat := 5461

namespace State

/-- The place of one byte of an instruction (R315, R338). -/
def fetchPlace (s : State) (k : Nat) (w : Wave) (va : Nat) : State × Except Fetched Nat :=
  if w.refusedPages.contains (va / 65536, PKind.fetch) then (s, .error (.trap 2))
  else if !canonical va then (s, .error (.trap 2))
  else match s.translate (cidOf k) w.pidN w.pasid va .fetch with
    | (s, .ok e) => match e.place (va % 2 ^ 57) with
      | .dev a => (s, .ok a)
      | _ => (s, .error (.trap 2))
    | (s, .notValid lvl) => (s, .error (.miss lvl (va / 65536)))
    | (s, _) => (s, .error (.trap 2))

/-- Bytes of an instruction read at the home slices (R181, R325). -/
def fetchRead (s : State) (p a n : Nat) : State × Except Fetched (List Byte) :=
  if s.admits p a n false then
    let r := s.homeRead a n
    if r.2.2 then (r.1, .error (.trap 3)) else (r.1, .ok r.2.1)
  else (s.refuse p a n, .error (.trap 4))

/-- Of two parts of an instruction that cannot be read, the lower reason (R339). -/
def lowerTrap : Fetched → Fetched → Fetched
  | .trap r, .trap q => .trap (min r q)
  | f, _ => f

/-- A word that has been read goes into the instruction cache. -/
def keepWord (s : State) (k : Nat) (w : Wave) (va : Nat) (bs : List Byte) : State × Fetched :=
  let word := wordOfBytes bs
  (s.modCore (cidOf k) (fun c => { c with icache := ((asid w.pidN w.pasid, va, word) :: c.icache).take icacheWords }), .word word)

/-- The word at an address of a wave, from memory into the instruction cache. An instruction may straddle a page boundary (R42): both pages are
translated before either part is read, and the lowest reason stands (R339). -/
def fetchMemory (s : State) (k : Nat) (w : Wave) (va : Nat) : State × Fetched :=
  match s.fetchPlace k w va with
  | (s, .error f) => (s, f)
  | (s, .ok a) =>
    let n := min 12 (65536 - va % 65536)
    if n = 12 then
      match s.fetchRead w.pidN a 12 with
      | (s, .error f) => (s, f)
      | (s, .ok bs) => s.keepWord k w va bs
    else match s.fetchPlace k w ((va + n) % 2 ^ 64) with
      | (s, .error f) => (s, f)
      | (s, .ok a2) =>
        let r := s.fetchRead w.pidN a n
        let t := r.1.fetchRead w.pidN a2 (12 - n)
        match r.2, t.2 with
        | .ok bs, .ok bs2 => t.1.keepWord k w va (bs ++ bs2)
        | .ok _, .error f => (t.1, f)
        | .error f, .ok _ => (t.1, f)
        | .error f, .error g => (t.1, lowerTrap f g)

/-- The word at the pc of a wave (R42, R214). -/
def fetch (s : State) (k : Nat) (w : Wave) : State × Fetched :=
  let va := w.pc.toNat
  if va % 4 ≠ 0 then (s, .trap 1)
  else match Tbl.get? w.ahead va with
    | some word => (s, .word word)
    | none => match (s.core (cidOf k)).cached (asid w.pidN w.pasid) va with
      | some word => (s, .word word)
      | none => s.fetchMemory k w va

/-- A wave waits for the page of a replayable fault of its fetch (R186, R317). -/
def blockFetch (s : State) (k : Nat) (w : Wave) (level page : Nat) : State :=
  (s.faultRecord w.pidN w.pasid (page * 65536) .fetch level (cidOf k) 0 (lcCore (cidOf k))).modWave k
    (fun x => { x with stat := .faulted w.pasid [page] [] .fetch, run := none, overdue := false })

end State

/-! Events of fetch. -/

/-- FETCH_AHEAD (R42, R89, R340): a word at a later address of a wave is fetched before it issues. A fault is recorded with the speculative flag and never traps. -/
def execFetchAhead (k va : Nat) (s : State) : Host.Outcome State Fault Refusal :=
  match s.wave k with
  | none => .next s
  | some w =>
    if Tbl.has w.ahead va then .next s
    else
      let r := if va % 4 ≠ 0 then (s, Fetched.trap 1) else match (s.core (cidOf k)).cached (asid w.pidN w.pasid) va with
        | some word => (s, Fetched.word word)
        | none => s.fetchMemory k w va
      match r with
      | (s, .word word) => .next (s.modWave k (fun w => { w with ahead := Tbl.set w.ahead va word }))
      | (s, .trap reason) =>
        .next (s.logPart w.pidN { src := cidOf k, kind := 4, cls := 1, reason := reason, wb := wbOf k, flags := 2, addr := va }).1
      | (s, .miss ..) => .next s

end Sys2Proof.Machine
end

