-- ==== Sys2Proof/Machine/Firmware.lean ====
section
/-! DEFINITION. Firmware cores, secure boot, SPDM, TDISP (R331 to R337), the reset of a partition (R324, R327). -/

namespace Sys2Proof.Machine

/-! The lease (R331). -/

namespace State

def modFw (s : State) (d : Nat) (f : FwCore → FwCore) : State := { s with fw := Tbl.set s.fw d (f (Tbl.getD s.fw d {})) }

/-- Where the lease word lies in firmware memory: at the first byte of the first span of firmware, 72,064 (R355; DESIGN CHOICE, log 18: R331 gives no address). -/
def leaseDpa : Nat := 72064 * 2 ^ 23

/-- The lease word. -/
def lease (s : State) : BitVec 64 := BitVec.ofNat 64 (s.armRead leaseDpa 8).2

/-- The lease word of a die that renews now under a term. -/
def leaseWord (s : State) (d term : Nat) : BitVec 64 := BitVec.ofNat 64 (s.ns % 2 ^ 48 + 2 ^ 48 * (d % 256) + 2 ^ 56 * (term % 256))

/-- The lease word is written by a successful CAS; the log takes the records that waited for a leader (R331). -/
def takeLease (s : State) (d term : Nat) : State :=
  let w := s.leaseWord d term
  ((s.modFw d (fun f => { f with renewed := some s.time, word := w })).armWrite leaseDpa (leBytes 8 w.toNat)).keepLog

end State

/-- LEASE_RENEW (R331): the leader's CAS from the word that it wrote last. -/
def execLeaseRenew (d : Nat) (s : State) : Host.Outcome State Fault Refusal :=
  if !leads s d then .next s
  else
    let found := s.lease
    let s := s.modFw d (fun f => { f with polled := s.time })
    if found = (Tbl.getD s.fw d {}).word then .next (s.takeLease d (found.toNat / 2 ^ 56))
    else .next (s.modFw d (fun f => { f with renewed := none }))

/-- LEASE_LOSS (R331): no successful renewal within 750 µs of the last one. -/
def execLeaseLoss (d : Nat) (s : State) : Host.Outcome State Fault Refusal :=
  match (Tbl.getD s.fw d {}).renewed with
  | some t => if t + leaseSpan ≤ s.time then .next (s.modFw d (fun f => { f with renewed := none })) else .next s
  | none => .next s

/-- FOLLOWER_POLL (R331, R333): a follower claims a lease that has lapsed for 1 ms. A change of leader ends every SPDM session. -/
def execFollowerPoll (d : Nat) (s : State) : Host.Outcome State Fault Refusal :=
  let f := Tbl.getD s.fw d {}
  if 3 ≤ d || !f.booted || f.renewed.isSome then .next s
  else
    let found := s.lease
    let s := s.modFw d (fun f => { f with polled := s.time })
    let age := (s.ns % 2 ^ 48 + 2 ^ 48 - found.toNat % 2 ^ 48) % 2 ^ 48
    if age < 1000000 then .next s
    else .next { s.takeLease d (found.toNat / 2 ^ 56 + 1) with spdm := [] }

/-! Secure boot (R332). -/

/-- The bits of a word, least significant first. -/
def bitsLsb (n : Nat) (x : BitVec n) : List Bool := (List.range n).map (fun i => x.getLsbD i)

/-- What a boot ROM accepts (R332). -/
def acceptsImage (s : State) (image : List Bool) (version : Nat) (key sig : BitVec 512) : Bool :=
  let digest := Config.sm3 image
  Config.sm3 (bitsLsb 512 key) = Config.fusedKeyDigest && Config.sm2Verify digest key sig && decide (Config.fusedVersion ≤ version)
    && Tbl.any s.fw (fun _ f => f.booted && f.image ≠ digest) = false

/-- SECURE_BOOT (R332). -/
def execSecureBoot (d : Nat) (image : List Bool) (version : Nat) (key sig : BitVec 512) (s : State) : Host.Outcome State Fault Refusal :=
  let f := Tbl.getD s.fw d {}
  if 3 ≤ d || f.booted || f.rejected then .next s
  else if acceptsImage s image version key sig then
    .next (s.modFw d (fun f => { f with booted := true, image := Config.sm3 image, version := version }))
  else
    let s := s.modFw d (fun f => { f with rejected := true })
    .next { s with sent := s.sent ++ [.recovery] }

/-- All three firmware cores have accepted the same image: before that no VF can be enabled (R332). -/
def State.bootOk (s : State) : Bool := (List.range 3).all (fun d => (Tbl.getD s.fw d {}).booted)

/-! SPDM (R333). -/

/-- R20: the identity's fields that depend on the part: the ordering code (1 for WX-RLD3-M) and the module power limit. -/
def State.identity (s : State) : List Nat := [s.orderM.toNat, s.moduleW]

/-- A number's 64 bits. -/
def natBits (x : Nat) : List Bool := bitsLsb 64 (BitVec.ofNat 64 x)

/-- R333: measurements 1 to 4. -/
def State.measurement (s : State) (d i : Nat) : Option (BitVec 256) :=
  match i with
  | 1 => some Config.romDigest
  | 2 => some (Tbl.getD s.fw d {}).image
  | 3 => some Config.fwConfigDigest
  | 4 => some (Config.sm3 (s.identity.flatMap natBits))
  | _ => none

/-- SPDM_REQUEST (R333): answered by the leader; none answers while leadership is vacant. The versions are 1.2 and 1.3; the algorithms are SM2 for the
signature and the key exchange, SM3-256, AES-256-GCM, numbered as SPDM numbers them (PRESUMED, log 18). -/
def execSpdmRequest (r : SpdmReq) (s : State) : Host.Outcome State Fault Refusal :=
  match leader s with
  | none => .next s
  | some d =>
    let send := fun (s : State) (m : HostMsg) => { s with sent := s.sent ++ [m] }
    match r with
    | .getVersion => .next (send s (.spdm true [0x12, 0x13] 0))
    | .getAlgorithms => .next (send s (.spdm true [0x200, 0x40, 0x40, 2] 0))
    | .openSession n => .next (send { s with spdm := if n ∈ s.spdm then s.spdm else n :: s.spdm } (.spdm true [n] 0))
    | .endSession n => .next (send { s with spdm := s.spdm.filter (· ≠ n) } (.spdm (decide (n ∈ s.spdm)) [n] 0))
    | .getCertificate => .next (send s (.spdm true s.identity 0))
    | .getMeasurement i =>
      match s.measurement d i with
      | some m => .next (send s (.spdm true [i] m))
      | none => .next (send s (.spdm false [i] 0))
    | .keyStream n v =>
      if n ∈ s.spdm && 1 ≤ v && v ≤ 12 then
        .next (send { s with vfs := Tbl.set s.vfs v { Tbl.getD s.vfs v {} with keyed := true } } (.spdm true [v] 0))
      else .next (send s (.spdm false [v] 0))

/-! Stopping a partition at once (R335, R337). -/

namespace State

def vf (s : State) (v : Nat) : Vf := Tbl.getD s.vfs v {}
def modVf (s : State) (v : Nat) (f : Vf → Vf) : State := { s with vfs := Tbl.set s.vfs v (f (s.vf v)) }

/-- R335, R337: stopped as by REQ with MODE 1, the blocks discarded at once; a drain or save already under way becomes a discard. -/
def discardPart (s : State) (p : Nat) : State :=
  let s := s.modPart p (fun q => { q with mode := 1 })
  let s := if (s.part p).pstate = 0 then s.doRequest p else s
  let st := (s.part p).pstate
  if st = 1 || st = 2 then (if (s.residentBlocks p).isEmpty then s.stopCheck p else (s.escalate p).stopCheck p) else s

/-- R334: an event that puts a locked interface in ERROR. -/
def interfaceError (s : State) (v : Nat) : State :=
  match (s.vf v).tdi with
  | .locked => (s.modVf v (fun x => { x with tdi := .error })).discardPart (v - 1)
  | .run => (s.modVf v (fun x => { x with tdi := .error })).discardPart (v - 1)
  | _ => s

/-- R328, R324, R332, R335: a VF serves requests. -/
def vfServes (s : State) (p : Nat) : Bool :=
  decide (p < 12) && s.bootOk && decide ((s.vf (p + 1)).tdi ≠ .error) && ((s.part p).clmask ≠ 0 || (s.part p).group ≠ 0)

def send (s : State) (m : HostMsg) : State := { s with sent := s.sent ++ [m] }

/-- What no resident block holds of a core's scratchpad and slots is cleared. -/
def clearUnheld (s : State) (cid : Nat) : State :=
  let held := fun (o : Nat) => Tbl.any s.blocks (fun _ b => b.cid = cid && b.scrBase ≤ o && o < b.scrBase + b.scrSize)
  s.modCore cid (fun c => { c with scr := c.scr.filter (fun e => held e.1), scrErr := c.scrErr.filter held
                                   mat := { c.mat with acc := c.mat.acc.filter (fun e => Tbl.has c.mat.bound (e.1 / 9216)) } })

/-- Scratchpads and slots of a partition's cores are cleared. -/
def clearCores (s : State) (p : Nat) : State :=
  (s.coresOf p).foldl (fun (s : State) cid => s.modCore cid (fun c => { c with scr := [], scrErr := [], mat := { c.mat with acc := [], slotCopy := none } })) s

/-- The TLB entries of a partition are dropped (R327, R335). -/
def dropTlb (s : State) (p : Nat) : State :=
  let keep := fun (e : TlbE) => e.pasid / 2 ^ 20 ≠ p
  { s with cores := Tbl.mapVal (fun _ (c : Core) => { c with tlb := c.tlb.filter keep }) s.cores
           tlb2 := Tbl.mapVal (fun _ (l : List TlbE) => l.filter keep) s.tlb2 }

/-- R335: zero is written to every span that a partition owns. Spans keep their owner. -/
def zeroSpans (s : State) (p : Nat) : State :=
  let mine := fun (sp : Nat) => (s.spanE sp).elim false (fun e => e.owner = p)
  let line := fun (l : Nat) => mine (spanOf (128 * l))
  let cell := fun (a : Nat) => match s.lineAt (chanOf a) (a % 2 ^ 31) with | some (sp, _, _) => mine sp | none => false
  { s with mem := s.mem.filter (fun c => !mine (spanOf c.1))
           l2 := s.l2.filter (fun e => !line e.1)
           badLines := s.badLines.filter (fun l => !line l)
           deltas := s.deltas.filter (fun e => !mine (e.1 / 16384))
           later := s.later.filter (fun e => !mine (spanOf e.addr))
           hbm := s.hbm.filter (fun c => !cell c.1)
           hbmErr := s.hbmErr.filter (fun c => !cell (32 * (c.1 / 36))) }

end State

/-! TDISP (R334 to R337). -/

/-- A TDISP response of the leader. -/
def tdispAnswer (s : State) (v : Nat) (ok : Bool) (nonce : BitVec 256) : State := { s with sent := s.sent ++ [.tdisp v ok nonce] }

/-- The number of a VF (R328). -/
def isVf (v : Nat) : Bool := 1 ≤ v && v ≤ 12

/-- LOCK_INTERFACE_REQUEST (R332, R334): in a session with the VF's stream keyed. The nonce is the one that the device draws. -/
def execLockInterfaceRequest (v : Nat) (nonce : BitVec 256) (s : State) : Host.Outcome State Fault Refusal :=
  if !isVf v || (leader s).isNone then .next s
  else
    let x := s.vf v
    if s.bootOk && x.tdi = .unlocked && !s.spdm.isEmpty && x.keyed then
      .next (tdispAnswer (s.modVf v (fun x => { x with tdi := .locked, nonce := nonce, atLock := (x.bar0, x.bar2, x.msixCtl) })) v true nonce)
    else .next (tdispAnswer s v false 0)

/-- START_INTERFACE_REQUEST (R332, R334, R337). -/
def execStartInterfaceRequest (v : Nat) (nonce : BitVec 256) (s : State) : Host.Outcome State Fault Refusal :=
  if !isVf v || (leader s).isNone then .next s
  else if s.bootOk && (s.vf v).tdi = .locked && (s.vf v).nonce = nonce then .next (tdispAnswer (s.modVf v (fun x => { x with tdi := .run })) v true 0)
  else .next (tdispAnswer s v false 0)

/-- STOP_INTERFACE_REQUEST (R334, R335): scratchpads, slots, L1s (of data and of instructions, R8) and TLB entries are cleared and every span of the partition is
zero before the response. A member of a group that does not hold the clusters has left nothing in the L1s (R310); of its scratchpads and slots what is not in use
by blocks of the holder is cleared. -/
def execStopInterfaceRequest (v : Nat) (s : State) : Host.Outcome State Fault Refusal :=
  if !isVf v || (leader s).isNone then .next s
  else
    let p := v - 1
    let s := if s.holds p then
        (s.coresOf p).foldl (fun (s : State) cid => s.modCore cid (fun c => { c with l1 := [], icache := [] })) (s.clearCores p)
      else (s.coresOf p).foldl State.clearUnheld s
    let s := (s.dropTlb p).zeroSpans p
    .next (tdispAnswer (s.modVf v (fun x => { x with tdi := .unlocked })) v true 0)

/-- Spans that a partition owns. -/
def State.ownedSpans (s : State) (p : Nat) : Nat := (s.arm.spans.filter (fun e => (s.spanE e.1).isSome && e.2.owner = p)).length

/-- The fields of the interface report (R336): DMA with PASID allowed, without PASID not; the MSI-X message control at lock; BAR0 and BAR2 with their sizes and host addresses at lock; `pid`, PRT_CLMASK, owned spans, ordering code, module power limit. -/
def State.reportFields (s : State) (v : Nat) : List Nat :=
  let x := s.vf v
  [1, 0, x.atLock.2.2, 2, x.atLock.1, 2 ^ 20, 0, x.atLock.2.1, 2 ^ 40, 1, v - 1, (s.clusters (v - 1)).toNat, s.ownedSpans (v - 1)] ++ s.identity

/-- GET_DEVICE_INTERFACE_REPORT (R336): in a session, of an interface that is locked or runs. -/
def execGetDeviceInterfaceReport (v : Nat) (s : State) : Host.Outcome State Fault Refusal :=
  if !isVf v || (leader s).isNone then .next s
  else if !s.spdm.isEmpty && ((s.vf v).tdi = .locked || (s.vf v).tdi = .run) then .next { s with sent := s.sent ++ [.report v true (s.reportFields v)] }
  else .next { s with sent := s.sent ++ [.report v false []] }

/-- LOCKED_REGISTER_WRITE (R334): 0 BAR0, 1 BAR2, 2 Memory Space Enable, 3 MSI-X table location, 4 the VF's SR-IOV fields in the PF. A VF that does not serve
answers a request with unsupported request (R328, R335); the fields in the PF are no such request. -/
def execLockedRegisterWrite (v reg : Nat) (val : DWord) (s : State) : Host.Outcome State Fault Refusal :=
  if !isVf v || 5 ≤ reg then .next s
  else if !s.vfServes (v - 1) && reg ≠ 4 then .next (s.send (.completion v false false []))
  else
    let s := s.modVf v (fun x => match reg with
      | 0 => { x with bar0 := val.toNat }
      | 1 => { x with bar2 := val.toNat }
      | 2 => { x with mse := val.getLsbD 0 }
      | 3 => { x with msix := val.toNat }
      | _ => { x with sriov := val.toNat })
    .next (s.interfaceError v)

/-- FLR (R334): a request to the VF, which one that does not serve answers with unsupported request (R328, R335). -/
def execFlr (v : Nat) (s : State) : Host.Outcome State Fault Refusal :=
  if !isVf v then .next s
  else if !s.vfServes (v - 1) then .next (s.send (.completion v false false []))
  else .next (s.interfaceError v)

/-- IDE_STREAM_FAILURE (R334). -/
def execIdeStreamFailure (v : Nat) (s : State) : Host.Outcome State Fault Refusal :=
  if isVf v then .next ((s.modVf v (fun x => { x with keyed := false })).interfaceError v) else .next s

/-! Partition reset (R324, R327, R334). -/

namespace State

/-- Every launch of a partition goes, with its blocks, waves, engine commands and saved blocks, behind the dumps that are due (R385); no record is written. -/
def resetLaunches (s : State) (p : Nat) : State :=
  let bs := (s.residentBlocks p).map (·.1)
  let s := bs.foldl (fun (s : State) b => (s.dumpBlock b).killBlockWaves b) s
  let gone := fun (c : EngCmd) => c.block ∈ bs
  let s := { s with cores := Tbl.mapVal (fun _ (c : Core) =>
    { c with copy := c.copy.filter (fun x => !gone x), mat := { c.mat with cmds := c.mat.cmds.filter (fun x => !gone x) } }) s.cores }
  let s := bs.foldl retireBlock s
  let s := ((s.batches.filter (fun e => e.2.pidN = p)).map (·.1)).foldl closeBatch s
  let s := { s with launches := s.launches.filter (fun e => e.2.pidN ≠ p)
                    sqs := Tbl.mapVal (fun _ (l : List Solve) => l.filter (fun x => x.pidN ≠ p)) s.sqs }
  s.modPart p (fun q => { q with
    saved := [], nextPend := [], devq := []
    graphs := Tbl.mapVal (fun _ (g : GraphSlot) =>
      if g.stat = 0 then g else { g with stat := 0, running := [], init := none, cand := [], mtok := [], ndone := g.ndone + 1 }) q.graphs
    keys := [], cpWait := [], cpHost := [], cpRefused := [], cpMade := [] })

end State

/-- The records that the copy engines hold of a partition are dropped (R242). -/
def State.dropRecords (s : State) (p : Nat) : State :=
  { s with cores := Tbl.mapVal (fun _ (c : Core) => { c with dcache := c.dcache.filter (fun e => e.pasid / 2 ^ 20 ≠ p) }) s.cores }

/-- PARTITION_RESET (R242, R324, R327, R334). The clusters of a holder are cleared as at the end of a quantum; firmware then resumes the next member (`execQuantumExpire`). -/
def execPartitionReset (p : Nat) (s : State) : Host.Outcome State Fault Refusal :=
  if 12 ≤ p then .next s
  else
    let held := s.holds p
    let s := ((s.interfaceError (p + 1)).resetLaunches p).dropRecords p
    let s := if held then s.clearCores p else s
    let s := s.dropTlb p
    if (s.part p).group = 0 || !held || (s.part p).pstate = 3 then .next (s.stopCheck p)
    else
      .next ((s.clearClusters p).modPart p (fun q => { q with pstate := 3, deadline := none, quantEnd := none, heldAt := s.time }))

end Sys2Proof.Machine
end

