-- ==== Sys2Proof/Machine/HostLink.lean ====
section
/-! DEFINITION. The host link and the Relidal links (R18, R325, R328 to R330): accesses through BAR2, accesses of peer devices, ATS invalidations. -/

namespace Sys2Proof.Machine

namespace State

end State

/-- The function of a host access. -/
def hostFn : Instr → Option Nat
  | .hostBar2Access p .. => some p
  | .registerWrite (.bar0 p) .. => some p
  | .registerWrite (.bar0Read p) .. => some p
  | _ => none

namespace State

/-- An earlier access of the same function waits (R329: posted order). -/
def fnWaits (s : State) (p : Nat) : Bool := s.heldIn.any (fun i => hostFn i = some p)

/-- An access has to wait. -/
def hold (s : State) (i : Instr) : State := { s with heldIn := s.heldIn ++ [i] }

/-- A host or peer access at the home slices (R325): the state, whether it was served, whether its data are poisoned, its bytes. -/
def outerAccess (s : State) (p : Nat) (write : Bool) (a : Nat) (bs : List Byte) : State × Bool × Bool × List Byte :=
  if !s.admits p a bs.length write then (s.refuse p a bs.length, false, false, [])
  else if write then (s.homeWrite a bs, true, false, [])
  else
    let r := s.homeRead a bs.length
    (r.1, true, r.2.2, r.2.1)

end State

/-- HOST_BAR2_ACCESS (R325, R328, R329): the length of a read is that of `bytes`. A write that is served is posted and has no completion. -/
def execHostBar2Access (p : Nat) (write : Bool) (a : Nat) (bytes : List Byte) (s : State) : Host.Outcome State Fault Refusal :=
  if !s.vfServes p || 2 ^ 40 < a + bytes.length then .next (s.send (.completion (p + 1) false false []))
  else if s.fnWaits p || s.rangeHeld a bytes.length then .next (s.hold (.hostBar2Access p write a bytes))
  else
    let r := s.outerAccess p write a bytes
    .next (if write && r.2.1 then r.1 else r.1.send (.completion (p + 1) r.2.1 r.2.2.1 r.2.2.2))

/-- The bytes of a peer's access. -/
def accSize : PeerAcc → Nat
  | .read n => n
  | .write bs => bs.length
  | .atomic _ wide _ _ => if wide then 8 else 4

/-- A peer's access at the home slices (R325, R330, R395): the state, whether it was served, whether its data are poisoned, its bytes. An atomic is one step
and answers the old value; at a poisoned line it is not performed (R220). -/
def State.peerAccess (s : State) (p a : Nat) (acc : PeerAcc) : State × Bool × Bool × List Byte :=
  match acc with
  | .read n => s.outerAccess p false a (List.replicate n 0)
  | .write bs => s.outerAccess p true a bs
  | .atomic op _ b c =>
    let n := accSize acc
    if !s.admits p a n true then (s.refuse p a n, false, false, [])
    else
      let x := s.homeRead a n
      if x.2.2 then (x.1, true, true, x.2.1)
      else (x.1.homeWrite a (leBytes n (atomNew op (8 * n) (leNat x.2.1) b c)), true, false, x.2.1)

/-- PEER_REQUEST_ARRIVE (R18, R249, R325, R330, R395): a peer's access carries a partition number and the stamp of its sender, and enters the home slice
of its line; a number that is no partition's owns nothing. Its arrival and the answer are messages over the link. -/
def execPeerRequestArrive (l p a : Nat) (acc : PeerAcc) (stamp : BitVec 48) (s : State) : Host.Outcome State Fault Refusal :=
  if 12 ≤ l || s.linksDown.contains l then .next s
  else if p < 12 && s.rangeHeld a (accSize acc) then .next (s.hold (.peerRequestArrive l p a acc stamp))
  else
    let s := s.lcRecv (lcLink l) stamp
    if 12 ≤ p then .next (((s.logOperator { src := 0x300 + s.homeSlice a, kind := 8, addr := a }).lcTick (lcLink l)).send (.peerDone l false false []))
    else
      let r := s.peerAccess p a acc
      .next ((r.1.lcTick (lcLink l)).send (.peerDone l r.2.1 r.2.2.1 r.2.2.2))

/-- PEER_LINK_FAIL (R330): accesses over the link are refused from now on; a record is written. Every access in flight has completed (log 11). -/
def execPeerLinkFail (l : Nat) (s : State) : Host.Outcome State Fault Refusal :=
  if 12 ≤ l || s.linksDown.contains l then .next s
  else .next ({ s with linksDown := l :: s.linksDown }.logOperator { src := 0x510 + l / 4, kind := 8 })

/-- An atomic on host memory of a partition is under way. -/
def State.hostPending (s : State) (p : Nat) : Bool :=
  Tbl.any s.reqs (fun _ q => q.pidN = p && (match q.kind with | .atomic _ _ (.host _) _ _ => true | _ => false))

/-- ATS_INVALIDATION (R328): the translations of the pages go at once; it completes after the drain of R321. A VF that does not serve answers it with
unsupported request (R328, R335). -/
def execAtsInvalidation (p io count : Nat) (s : State) : Host.Outcome State Fault Refusal :=
  if !s.vfServes p then .next (s.send (.completion (p + 1) false false []))
  else
  let s := { s with ats := s.ats.filter (fun e => !(e.2.pid = p && io ≤ e.2.page && e.2.page < io + count)) }
  if s.hostPending p then .next (s.hold (.atsInvalidation p io count)) else .next (s.send (.atsDone (p + 1) io count))

end Sys2Proof.Machine
end

