-- ==== Sys2Proof/Machine/Noise.lean ====
section
/-! DEFINITION. The noise sources (R124, R125): when a `vrand` is served, and the steps of a source. The raw bits come from outside the model (log 8). -/

namespace Sys2Proof.Machine

/-- The words that a `vrand` hands out: one for each acting lane, or for each pair of a protected wave (R378). -/
def drawUnits (prot : Bool) (act : Mask) : List Nat := ((lanesOf act).map (fun i => if prot then i / 2 else i)).eraseDups

/-- R127: the reason of the noise trap, the lowest (R339). -/
def noiseTrap (w : Wave) (n : Noise) : Option Nat :=
  if drawMode w ≠ 2 && n.st = 3 && n.en then some 1
  else if (w.nmode = 1 || w.nmode = 2) && w.nstride < (w.draws.toNat + 1) * 384 then some 2
  else none

/-- R127: the source cannot serve the lanes now. -/
def noiseHeld (w : Wave) (n : Noise) (act : Mask) : Bool :=
  drawMode w ≠ 2 && (n.st ≠ 1 || !n.en || n.buf.length < (drawUnits w.prot act).length)

/-- Change the noise source of a core. -/
def State.modNoise (s : State) (cid : Nat) (f : Noise → Noise) : State := s.modCore cid (fun c => { c with noise := f c.noise })

/-! The health tests (R124). -/

/-- What the two tests keep between samples: the latest sample and the length of its run, the first sample of the window, the samples
of the window so far and those among them that equal the first. -/
structure NoiseTest where
  last : Bool
  run : Nat
  first : Bool
  seen : Nat
  same : Nat
  deriving DecidableEq, Repr

/-- R124: one sample: the repetition count test, cutoff 41; the adaptive proportion test, window 1,024 and cutoff 840. -/
def NoiseTest.sample (t : NoiseTest) (x : Bool) : NoiseTest :=
  let run := if t.run ≠ 0 && t.last = x then t.run + 1 else 1
  if t.seen = 0 || t.seen = 1024 then { last := x, run := run, first := x, seen := 1, same := 1 }
  else { last := x, run := run, first := t.first, seen := t.seen + 1, same := if t.first = x then t.same + 1 else t.same }

/-- Whether the repetition count test and the adaptive proportion test fail on the first of a list of samples on which one of them does. -/
def NoiseTest.samples (t : NoiseTest) : List Bool → NoiseTest × Option (Bool × Bool)
  | [] => (t, none)
  | x :: xs =>
    let t := t.sample x
    let rct := decide (41 ≤ t.run)
    let apt := decide (840 ≤ t.same)
    if rct || apt then (t, some (rct, apt)) else NoiseTest.samples t xs

/-- The tests as the state of a source keeps them (R124). -/
def Noise.tested (n : Noise) : NoiseTest :=
  { last := n.lastBit, run := n.runLen, first := n.winBit, seen := n.winSeen, same := n.winSame }

def Noise.keep (n : Noise) (t : NoiseTest) : Noise :=
  { n with lastBit := t.last, runLen := t.run, winBit := t.first, winSeen := t.seen, winSame := t.same }

/-- R124: a health test fails: a failure in state OK begins a start-up, with the tests anew; three within one make the source failed. Both tests failing on
one sample are one failure, shown by both sticky bits (R125; DEDUCED, log 8). -/
def Noise.failed (n : Noise) (rct apt : Bool) : Noise :=
  let fails := if n.st = 1 then 0 else n.fails + 1
  { n with rctf := n.rctf || rct, aptf := n.aptf || apt, fcnt := min (n.fcnt + 1) 255, fails := fails
           st := if fails = 3 then 3 else 2, runLen := 0, winSeen := 0, winSame := 0 }

/-- Samples in the order in which the source delivers them go through the tests; `good` follows where none fails. -/
def Noise.take (n : Noise) (raw : List Bool) (good : Noise → Noise) : Noise :=
  match n.tested.samples raw with
  | (t, none) => good (n.keep t)
  | (_, some f) => n.failed f.1 f.2

/-- NOISE_STARTUP_PASS (R124): the 1,024 samples of a start-up test; the test passes where no health test fails on them. -/
def execNoiseStartupPass (start : StartUp) (s : State) : Host.Outcome State Fault Refusal :=
  .next (s.modNoise start.cid (fun n =>
    if n.en && (n.st = 0 || n.st = 2) then
      { n with runLen := 0, winSeen := 0, winSame := 0 }.take ((List.range 1024).map start.raw.getLsbD) (fun n => { n with st := 1, fails := 0 })
    else n))

/-- The 8 words that a conditioned group gives. -/
def conditioned (raw : BitVec 512) : List Word :=
  let d := Config.sm3 ((List.range 512).map raw.getLsbD)
  (List.range 8).map (fun j => d.extractLsb' (32 * j) 32)

/-- NOISE_GROUP_CONDITIONED (R124): 512 raw samples: where they pass the tests they give 8 words of the buffer, which holds 1,024. -/
def execNoiseGroupConditioned (cid : Nat) (raw : BitVec 512) (s : State) : Host.Outcome State Fault Refusal :=
  .next (s.modNoise cid (fun n =>
    if n.en && n.st = 1 then n.take ((List.range 512).map raw.getLsbD) (fun n => { n with buf := (n.buf ++ conditioned raw).take 1024 }) else n))

/-- NOISE_TEST_FAILURE (R124): a health test fails on samples of a group or a start-up in progress. -/
def execNoiseTestFailure (cid : Nat) (adaptive : Bool) (s : State) : Host.Outcome State Fault Refusal :=
  .next (s.modNoise cid (fun n => if !n.en || n.st = 3 then n else n.failed (!adaptive) adaptive))

/-- RETEST (R125): in the failed state the count of failures is cleared and a new start-up test begins. The source keeps its state while EN is 0,
and a RETEST acts on the failed state that it then keeps, although STATE reads 0 (DEDUCED, log 8). -/
def execRetest (cid : Nat) (s : State) : Host.Outcome State Fault Refusal :=
  .next (s.modNoise cid (fun n => if n.st = 3 then { n with st := 2, fails := 0, runLen := 0, winSeen := 0, winSame := 0 } else n))

end Sys2Proof.Machine
end

