-- ==== Sys2Proof/Machine/Lanes.lean ====
section
/-! DEFINITION. Index splitting, cross-lane instructions, indirect register access and the noise source's instruction (R115 to R128), with their protected forms (R378). -/

namespace Sys2Proof.Machine

/-! Index splitting (R115, R116). -/

/-- The shape entry k of the kernel of a wave, in the store of its block (R115). -/
def shapeOf (c : Ctx) (k : Nat) : Option (List Extent) :=
  ((c.s.block c.w.block).bind (·.store)).bind (fun n =>
    (Tbl.get? (c.s.core c.cid).shapes n).bind (fun st => Tbl.get? st.shapes k))

/-- R116: the coordinates of an index and the quotient left after the last extent. -/
def splitIndex : List Extent → Nat → List Nat × Nat
  | [], x => ([], x)
  | e :: es, x =>
    let q := x * e.m / 2 ^ (32 + e.l)
    let r := splitIndex es q
    (wrap 32 ((x : Int) - q * e.d) :: r.1, r.2)

/-- R116: the limits that depend on the shape store. -/
def vidxIllegal (d : Opd) (k : Nat) (c : Ctx) : Option Nat :=
  match shapeOf c k, d with
  | none, _ => some 9
  | some es, .v n => if c.w.vregs < n.val + es.length then some 6 else none
  | some _, _ => none

def execVidx (h : Hints) (d a : Opd) (k j : BitVec 4) (s : State) : Host.Outcome State Fault Refusal :=
  issued (.vidx h d a k j) h true (vidxIllegal d k.toNat) (fun c =>
    let es := (shapeOf c k.toNat).getD []
    let rs := (lanesOf c.act).map (fun i => (i, splitIndex es (c.val 0 a i [a]).toNat))
    let ws := match d with
      | .v n => (List.range es.length).map (fun e => RegW.v (n.val + e) (rs.map (fun r => (r.1, BitVec.ofNat 32 (r.2.1.getD e 0)))))
      | _ => []
    Act.writes c (ws ++ [RegW.p j.toNat c.act (maskOf (fun i => rs.any (fun r => r.1 = i && r.2.2 ≠ 0)))])) s

/-! Cross-lane reads (R117). -/

/-- Visible lanes of a wave (R377). -/
def nVisible (c : Ctx) : Nat := if c.w.prot then 48 else 96

/-- The physical lane that an index names for physical lane i (R118, R378); none where it names no lane. -/
def sourceLane (c : Ctx) (i L : Nat) : Option Nat :=
  if L < nVisible c then some (if c.w.prot then 2 * L + i % 2 else L) else none

/-- The poison of one lane of a source register (R74, R117). -/
def lanePoison (w : Wave) (o : Opd) (lane : Nat) : Bool :=
  match o with
  | .v n => (w.badV n.val).getLsbD lane
  | .s n => w.badS n.val
  | _ => false

/-- R117: an instruction whose acting lanes read the source `a` at lanes that `src` names: the trap of R74, or the effect. -/
def crossLane (c : Ctx) (a : Opd) (src : Nat → Option Nat) (act : Act) : Act :=
  let bad := maskOf (fun i => c.act.getLsbD i && (match src i with | some l => lanePoison c.w a l | none => false))
  if bad = 0 then act else .trap 4 0 bad

/-- The value of the source at the lane named for lane i; zero where none is named (R118). -/
def crossVal (c : Ctx) (a : Opd) (os : List Opd) (src : Option Nat) : Nat :=
  match src with
  | some l => (c.val 0 a l os).toNat
  | none => 0

/-- R118: each acting lane takes the source's value at the lane that it names. -/
def permute (d a b : Opd) (c : Ctx) : Act :=
  let src := fun i => sourceLane c i (c.val 1 b i [a, b]).toNat
  crossLane c a src (Act.writes c (dstV c.act d false (fun i => crossVal c a [a, b] (src i))))

def execVperm (h : Hints) (d a b : Opd) (s : State) : Host.Outcome State Fault Refusal :=
  laneLevel (.vperm h d a b) h (permute d a b) s

def execVbcast (h : Hints) (d a b : Opd) (s : State) : Host.Outcome State Fault Refusal :=
  laneLevel (.vbcast h d a b) h (permute d a b) s

/-- R118; in a protected wave the even and the odd lane must give the same word (R378). -/
def execVgetl (h : Hints) (d a b : Opd) (s : State) : Host.Outcome State Fault Refusal :=
  laneLevel (.vgetl h d a b) h (fun c =>
    let L := (c.val 1 b 0 [a, b]).toNat
    let src := fun i => sourceLane c i L
    let x := crossVal c a [a, b] (src 0)
    crossLane c a (fun i => if c.w.prot then src i else src 0)
      (if c.w.prot && x ≠ crossVal c a [a, b] (src 1) then .mismatch else Act.writes c (dstS d false x))) s

/-- R118; in a protected wave both lanes of the visible lane (R378). -/
def execVsetl (h : Hints) (d a b : Opd) (s : State) : Host.Outcome State Fault Refusal :=
  laneLevel (.vsetl h d a b) h (fun c =>
    let L := (c.val 1 b 0 [a, b]).toNat
    let named := maskOf (fun i => c.act.getLsbD i && (if c.w.prot then i / 2 else i) = L)
    crossLane { c with act := named } a (fun i => some i)
      (if named = 0 then Act.writes c [] else Act.writes c (dstV named d false (fun i => crossVal c a [a, b] (some i))))) s

/-- Segment widths of `vshfl` (R119). -/
def shflWidth (w : BitVec 3) : Nat := if w.toNat = 5 then 96 else 2 ^ (w.toNat + 1)

/-- R119: the visible lane that visible lane i reads. -/
def shflSource (m : ShflMode) (W i o : Nat) : Nat :=
  let j := i % W
  let b := i - j
  match m with
  | .up => if o ≤ j then b + j - o else i
  | .down => if j + o < W then b + j + o else i
  | .xor => b + (j ^^^ (o % W))
  | .rot => b + (j + o) % W

/-- R378: a width of 96 is illegal in a protected wave. -/
def shflIllegal (w : BitVec 3) (c : Ctx) : Option Nat := if c.w.prot && w.toNat = 5 then some 3 else none

/-- The value that a lane of `vshfl` reads. The last segment of 32 visible lanes of a protected wave runs past its 48th: a vector register gives nothing
there, and the manual no value: it is free (DESIGN CHOICE, log 28). -/
def shflVal (c : Ctx) (a b : Opd) (i : Nat) (src : Option Nat) : Nat :=
  match src, a with
  | none, .v _ => (Config.absentLane c.s.freeCtr (i / 2)).toNat
  | none, .lane => (Config.absentLane c.s.freeCtr (i / 2)).toNat
  | src, a => crossVal c a [a, b] (some (src.getD i))

def execVshfl (h : Hints) (m : ShflMode) (w : BitVec 3) (d a b : Opd) (s : State) : Host.Outcome State Fault Refusal :=
  issued (.vshfl h m w d a b) h true (shflIllegal w) (fun c =>
    let src := fun i =>
      sourceLane c i (shflSource m (shflWidth w) (if c.w.prot then i / 2 else i) (c.val 1 b i [a, b]).toNat)
    crossLane c a src (Act.writes c (dstV c.act d false (fun i => shflVal c a b i (src i))))) s

/-! Reduction and scan (R120, R121). -/

/-- One step on patterns: the new value and the `fst` bits. -/
def redStep (t : Ty) (op : Nat) (r x : Nat) : Nat × Word :=
  let fl := fun (f : Num → Num → Num × Word) => finishNum .f32 0 (f (decodeNum .f32 r) (decodeNum .f32 x))
  match op with
  | 0 => if t = .f32 then fl (Num.add 0) else ((r + x) % 2 ^ t.bits, 0)
  | 1 => if t = .f32 then fl (Num.pick false false) else (if asInt t x < asInt t r then x else r, 0)
  | 2 => if t = .f32 then fl (Num.pick true false) else (if asInt t r < asInt t x then x else r, 0)
  | 3 => (r &&& x, 0)
  | 4 => (r ||| x, 0)
  | _ => (r ^^^ x, 0)

/-- The identity of an operation (R120). -/
def redIdentity (t : Ty) (op : Nat) : Nat :=
  match op with
  | 1 => if t = .f32 then infCode (Ty.fmt .f32) else wrap t.bits (Ty.greatest t)
  | 2 => if t = .f32 then infCode (Ty.fmt .f32) + signBit .f32 true else wrap t.bits (Ty.least t)
  | 3 => 2 ^ 32 - 1
  | _ => 0

/-- R121: the value after each of a list of values, and the bits that the steps raise. -/
def redChain (t : Ty) (op : Nat) : Option Nat → List Nat → List Nat × Word
  | _, [] => ([], 0)
  | none, x :: xs =>
    let r := redChain t op (some x) xs
    (x :: r.1, r.2)
  | some y, x :: xs =>
    let z := redStep t op y x
    let r := redChain t op (some z.1) xs
    (z.1 :: r.1, z.2 ||| r.2)

/-- The chain over the lanes of a mask. -/
def chainOf (c : Ctx) (t : Ty) (op : Nat) (a : Opd) (m : Mask) : List Nat × Word :=
  redChain t op none ((lanesOf m).map (fun i => c.lnat t 0 a i [a]))

/-- R121; in a protected wave the even and the odd result must agree (R378). -/
def execVred (h : Hints) (t : Ty) (op : BitVec 3) (d a : Opd) (s : State) : Host.Outcome State Fault Refusal :=
  laneLevel (.vred h t op d a) h (fun c =>
    match gather c (fun m => (chainOf c t op.toNat a m).1.getLast?) with
    | none => .mismatch
    | some x =>
      let m := if c.w.prot then c.act &&& evenLanes else c.act
      .ok { st := c.s, ws := dstS d t.wide (x.getD 0), fst := (chainOf c t op.toNat a m).2, nominal := 24 }) s

/-- The results of a scan over the lanes of a mask (R121). The step to the last lane is taken in the `.ex` form too. -/
def scanOf (c : Ctx) (t : Ty) (ex : Bool) (op : Nat) (a : Opd) (m : Mask) : List (Nat × Nat) × Word :=
  if ex then
    let r := chainOf c t op a m
    ((lanesOf m).zip (redIdentity t op :: r.1), r.2)
  else
    let r := chainOf c t op a m
    ((lanesOf m).zip r.1, r.2)

/-- R121; in a protected wave one chain over the even and one over the odd lanes (R378). -/
def execVscan (h : Hints) (t : Ty) (ex : Bool) (op : BitVec 3) (d a : Opd) (s : State) : Host.Outcome State Fault Refusal :=
  laneLevel (.vscan h t ex op d a) h (fun c =>
    let r := if c.w.prot then
        let e := scanOf c t ex op.toNat a (c.act &&& evenLanes)
        let o := scanOf c t ex op.toNat a (c.act &&& oddLanes)
        (e.1 ++ o.1, e.2 ||| o.2)
      else scanOf c t ex op.toNat a c.act
    .ok { st := c.s, ws := dstV c.act d t.wide (fun i => ((r.1.find? (fun e => e.1 = i)).map (·.2)).getD 0), fst := r.2, nominal := 24 }) s

/-! Indirect register access (R122). -/

/-- Some acting lane's register number x lies at or above the declared count. -/
def outOfRange (c : Ctx) (x : Nat → Nat) : Bool := (lanesOf c.act).any (fun i => decide (c.w.vregs ≤ x i))

/-- The number of a base register plus a lane's index; `os` are the instruction's sources (R38). -/
def indexed (c : Ctx) (base b : Opd) (os : List Opd) (lane : Nat) : Nat :=
  (match base with | .v n => n.val | _ => 0) + (c.val 1 b lane os).toNat

def execVmovi (h : Hints) (d a b : Opd) (s : State) : Host.Outcome State Fault Refusal :=
  laneLevel (.vmovi h d a b) h (fun c =>
    let x := indexed c a b [b]
    if outOfRange c x then .trap 2 9 allLanes
    else
      let bad := maskOf (fun i => c.act.getLsbD i && (c.w.badV (x i)).getLsbD i)
      if bad ≠ 0 then .trap 4 0 bad
      else Act.writes c (dstV c.act d false (fun i => (c.rdV 0 (x i) i).toNat))) s

def execVmovo (h : Hints) (d a b : Opd) (s : State) : Host.Outcome State Fault Refusal :=
  laneLevel (.vmovo h d a b) h (fun c =>
    let x := indexed c d b [a, b]
    if outOfRange c x then .trap 2 9 allLanes
    else Act.writes c ((lanesOf c.act).map (fun i => RegW.v (x i) [(i, c.val 0 a i [a, b])]))) s

/-! The noise source (R124 to R128). -/

/-- R127: the log entry of a wave's next draw. -/
def logEntry (w : Wave) : Nat := (w.nlog + w.gwave * w.nstride + w.draws.toNat * 384) % 2 ^ 64

/-- Words leave the buffer in order and the draw count rises. -/
def drawn (c : Ctx) (s : State) (n : Nat) : State :=
  (if drawMode c.w = 2 then s else s.modCore c.cid (fun x => { x with noise := { x.noise with buf := x.noise.buf.drop n } })).modWave c.k
    (fun w => { w with draws := w.draws + 1, logged := if w.nmode = 1 then max w.logged (w.draws.toNat + 1) else w.logged })

/-- R127, R378, R382. -/
def execVrand (h : Hints) (d : Opd) (s : State) : Host.Outcome State Fault Refusal :=
  laneLevel (.vrand h d) h (fun c =>
    let src := (c.s.core c.cid).noise
    match noiseTrap c.w src with
    | some r => .trap 5 r c.act
    | none =>
      if noiseHeld c.w src c.act then .wait c.s
      else
        let us := drawUnits c.w.prot c.act
        let unit := fun i => if c.w.prot then i / 2 else i
        let word := fun i => src.buf.getD (us.takeWhile (· ≠ unit i)).length 0
        let ws := match d with
          | .v n => if c.act = 0 then [] else [RegW.v n.val ((lanesOf c.act).map (fun i => (i, word i)))]
          | _ => []
        let at_ := fun i => (i, (logEntry c.w + 4 * unit i) % 2 ^ 64)
        match drawMode c.w with
        | 1 =>
          let one := us.filterMap (fun u => (lanesOf c.act).find? (fun i => unit i = u))
          (resolve c .g 4 true .write (fun _ => true) (one.map at_)).andThen (fun s accs =>
            let r := s.storeAll c.cid c.p (accs.map (fun a => { a with got := (leBytes 4 (word a.lane).toNat).map some }))
            .ok { st := (drawn c r.1 us.length).askStore c.k c.id c.p (r.2.filter (fun a => !a.refused)), kind := .store r.2, ws := ws, nominal := 40 })
        | 2 =>
          (resolve c .g 4 true .read (fun _ => true) ((lanesOf c.act).map at_)).andThen (fun s accs =>
            let r := sampleLoads c .g s accs
            .ok { st := (drawn c r.1 0).askLoad c.k c.id c.p r.2, kind := .load .b32 true (destReg d) r.2, nominal := 40 })
        | _ => .ok { st := drawn c c.s us.length, ws := ws, nominal := 40 }) s

end Sys2Proof.Machine
end

