-- ==== Sys2Proof/Machine/Registers.lean ====
section
/-! DEFINITION. Reads and writes of control registers (R3, R394): the partition register windows (R223, R258, R259, R287, R293, R301, R326, R329, R341, R376, R384), the firmware registers (R125, R373 to R375), what the operator writes (R323, R330). A register whose write is a step of its own has that effect here too. -/

namespace Sys2Proof.Machine

/-- R394: an address field of which the low bits are ignored. -/
def alignTo (n x : Nat) : Nat := x / n * n

/-- R394: a value outside the set of a restricted field leaves it. -/
def inSet (ok : Bool) (new old : Nat) : Nat := if ok then new else old

/-- A size of a ring that must be a power of two from 4 KiB to 1 GiB (R258). -/
def ringSizeOk (x : Nat) : Bool := (List.range 19).any (fun k => x = 4096 * 2 ^ k)

/-- The state that an outcome goes on with. -/
def goOn (s : State) : Host.Outcome State Fault Refusal → State
  | .next t => t
  | _ => s

namespace State

/-- PRT_PCTL (R301): MODE, ERR, then REQ and RESUME, each under the STATE at the write. -/
def writePctl (s : State) (p x : Nat) : State :=
  let st := (s.part p).pstate
  let mode := bitsOf x 2 1
  let s := s.modPart p (fun q =>
    { q with mode := if st = 0 then (if mode = 3 then 0 else mode) else q.mode, perr := q.perr && !bitOf x 6 })
  let s := if bitOf x 0 && st = 0 then goOn s (execPreemptReq p s) else s
  if bitOf x 3 && st ≠ 0 then goOn s (execResume p s) else s

/-- The PRT page (R326, R301, R341, R376, R384). -/
def writePrt (s : State) (p off : Nat) (v : Nat) : State :=
  let w := v % 2 ^ 32
  let q := s.part p
  let idle := q.pstate = 0
  match off with
  | 0x010 => s.modPart p (fun q => if q.iqen then q else { q with ptbase := alignTo 4096 v })
  | 0x018 => s.modPart p (fun q => let n := bitsOf w 20 0; { q with ptlen := inSet (decide (n ≤ 2 ^ 20)) n q.ptlen })
  | 0x020 => s.modPart p (fun q => if q.iqen then q else { q with iqbase := alignTo 4096 v })
  | 0x028 => s.modPart p (fun q => let n := bitsOf w 7 4; { q with iqlog2n := if q.iqen then q.iqlog2n else ringLog n 12, iqen := bitOf w 0 })
  | 0x02C => goOn s (execIqKick p (BitVec.ofNat 32 w) s)
  | 0x038 => s.modPart p (fun q => { q with fbbase := alignTo 4096 v })
  | 0x044 => s.modPart p (fun q => { q with fbget := w % 4096 })
  | 0x100 => s.writePctl p w
  | 0x104 => if idle then s.modPart p (fun q => { q with pdl := w % 65536 }) else s
  | 0x108 => if idle then s.modPart p (fun q => { q with csbase := alignTo (2 ^ 21) v }) else s
  | 0x114 => s.modPart p (fun q =>
      let g := bitsOf w 3 0
      let n := bitsOf w 15 8
      { q with group := g, quant := n, quantEnd := if g = 0 || q.pstate ≠ 0 then none else some (s.time + 200000 * max 1 n) })
  | 0x120 => s.modPart p (fun q => { q with tvec := alignTo 4 v })
  | 0x128 => s.modPart p (fun q => { q with tfbase := alignTo 4096 v })
  | 0x130 => s.modPart p (fun q => if q.elen then q else { q with elbase := alignTo 4096 v })
  | 0x138 => s.modPart p (fun q => let n := bitsOf w 7 4; { q with ellog2n := if q.elen then q.ellog2n else if 6 ≤ n && n ≤ 16 then n else 8, elen := bitOf w 0 })
  | 0x140 => s.modPart p (fun q => { q with elget := BitVec.ofNat 32 w })
  | 0x148 => s.modPart p (fun q => { q with plmSq := BitVec.ofNat 16 w, plmGs := BitVec.ofNat 4 (w / 2 ^ 16), plmSpw := bitOf w 20 })
  | 0x150 => s.modPart p (fun q => if q.dmbusy then q else { q with dmbase := alignTo 4096 v })
  | 0x158 => s.modPart p (fun q => if q.dmbusy then q else { q with dmsize := inSet (w % 4096 = 0 && 4096 ≤ w && w ≤ 2 ^ 30) w q.dmsize })
  | 0x15C => s.modPart p (fun q => if q.dmbusy then q else { q with dmen := bitOf w 0 })
  | _ => s

/-- The SUB area (R259, R322). -/
def writeSub (s : State) (p n off v : Nat) : State :=
  let w := v % 2 ^ 32
  match off with
  | 0x00 => s.modSub p n (fun u => if u.en then u else { u with base := alignTo 4096 v })
  | 0x08 => s.modSub p n (fun u =>
      let k := bitsOf w 7 4
      { u with prio := bitsOf w 2 1, ord := bitOf w 3, log2n := if u.en then u.log2n else ringLog k 16, en := bitOf w 0
               stat := if u.stat = 2 then 2 else if bitOf w 0 then 1 else 0 })
  | 0x0C => goOn s (execSubKick p n (BitVec.ofNat 32 w) s)
  | 0x18 => s.modSub p n (fun u => { u with ovf := u.ovf && !bitOf w 0, back := u.back && !bitOf w 1 })
  | 0x1C => s.modSub p n (fun u => if u.en then u else { u with pasid := bitsOf w 19 0 })
  | _ => s

/-- The GRW area (R287). -/
def writeGrw (s : State) (p g off v : Nat) : State :=
  let w := v % 2 ^ 32
  let idle := (s.graph p g).stat = 0
  match off with
  | 0x00 => if idle then s.modGraph p g (fun x => { x with base := alignTo 64 v }) else s
  | 0x08 =>
    let s := if idle then s.modGraph p g (fun x => { x with prio := bitsOf w 3 2 }) else s
    let s := if bitOf w 0 && idle then goOn s (execGraphGo p g s) else s
    if bitOf w 1 then goOn s (execGraphAbort p g s) else s
  | 0x0C => if idle then s.modGraph p g (fun x => { x with pasid := bitsOf w 19 0 }) else s
  | _ => s

/-- The CHU page (R223). -/
def writeChu (s : State) (p off v : Nat) : State :=
  let w := v % 2 ^ 32
  match off with
  | 0x000 => s.modPart p (fun q => { q with mtb := alignTo 1024 v })
  | 0x008 => if bitOf w 6 then goOn s (execChuMtloadAll p s) else goOn s (execChuMtloadEntry p (bitsOf w 5 0) s)
  | 0x00C => s.modPart p (fun q => { q with chuEn := bitOf w 0, tmo := bitsOf w 23 8 })
  | _ => s

/-- The SQS page (R293). -/
def writeSqs (s : State) (p off v : Nat) : State :=
  let w := v % 2 ^ 32
  match off with
  | 0x00 => s.modPart p (fun q => { q with tbase := alignTo 64 v })
  | 0x08 => if bitOf w 4 then goOn s (execSqsTloadAll p s) else goOn s (execSqsTloadTable p (bitsOf w 3 0) s)
  | _ => s

/-- The registers of a trace page, of a core with no wave of the partition (R258). -/
def trcWrite (off v : Nat) (t : TraceU) : TraceU :=
  let w := v % 2 ^ 32
  match off with
  | 0x00 => { t with en := bitOf w 0, syncp := bitsOf w 11 8, tsk := bitsOf w 20 16 }
  | 0x18 => { t with rptr := w }
  | 0x38 => { t with tsrptr := w }
  | 0x04 => if t.en then t else { t with pasid := bitsOf w 19 0 }
  | 0x08 => if t.en then t else { t with base := alignTo 4096 v }
  | 0x10 => if t.en then t else { t with size := inSet (ringSizeOk w) w t.size }
  | 0x28 => if t.en then t else { t with tsbase := alignTo 4096 v }
  | 0x30 => if t.en then t else { t with tssize := inSet (ringSizeOk w) w t.tssize }
  | _ => t

/-- The trace page of a core (R258). A member of a group that does not hold the clusters has the registers that it left (R324, R327). -/
def writeTrc (s : State) (p cid off v : Nat) : State :=
  if !s.holds p then
    s.modPart p (fun q => let x := Tbl.getD q.kept cid {}; { q with kept := Tbl.set q.kept cid { x with trc := trcWrite off v x.trc } })
  else match off with
  | 0x00 => goOn s (execTrcCtlWrite cid (BitVec.ofNat 32 v) s)
  | 0x18 => goOn s (execTrcRptrWrite cid (BitVec.ofNat 32 v) s)
  | _ => s.modTrc cid (trcWrite off v)

/-- A write to BAR0 of a partition's function (R329). Offsets that name no register are ignored. -/
def writeBar0 (s : State) (p off v : Nat) : State :=
  if off < 0x1000 then s.writePrt p off v
  else if off < 0x1400 then s.writeSub p ((off - 0x1000) / 0x40) ((off - 0x1000) % 0x40) v
  else if 0x2000 ≤ off && off < 0x2080 then s.writeGrw p ((off - 0x2000) / 0x20) ((off - 0x2000) % 0x20) v
  else if 0x3000 ≤ off && off < 0x4000 then s.writeChu p (off - 0x3000) v
  else if 0x4000 ≤ off && off < 0x5000 then s.writeSqs p (off - 0x4000) v
  else if 0x10000 ≤ off then
    match (s.coresOf p)[(off - 0x10000) / 256]? with
    | some cid => s.writeTrc p cid ((off - 0x10000) % 256) v
    | none => s
  else s

/-! Firmware registers (R373 to R375). -/

def modArm (s : State) (f : Armature → Armature) : State := { s with arm := f s.arm }

/-- Writing 1 sets (R373): each stack's field that is written with 1 or 2 takes that value. -/
def writeStk (old : BitVec 24) (w : Nat) : BitVec 24 :=
  (List.range 12).foldl (fun (m : BitVec 24) t =>
    let c := bitsOf w (2 * t + 1) (2 * t)
    if c = 0 || c = 3 then m else (m &&& ~~~((3 : BitVec 24) <<< (2 * t))) ||| ((BitVec.ofNat 24 c) <<< (2 * t))) old

/-- Eight bytes of a channel map (R358, R373): logical channels x to x + 7 of a stack. A byte of 32 or more leaves its entry. -/
def writeMap (s : State) (t x v : Nat) : State :=
  (List.range 8).foldl (fun (s : State) i =>
    let b := v / 2 ^ (8 * i) % 256
    if b < 32 then s.modArm (fun a => { a with chmap := Tbl.set a.chmap (32 * t + x + i) b }) else s) s

def writeSpn (s : State) (off v : Nat) : State :=
  let w := v % 2 ^ 32
  if off = 0x000 then s.modArm (fun a => { a with stbase := alignTo 4096 v })
  else if off = 0x008 then s.modArm (fun a => { a with ltbase := alignTo 4096 v })
  else if off = 0x010 then s.modArm (fun a => { a with sftbase := alignTo 4096 v })
  else if off = 0x01C then goOn s (execSpnUpd (bitsOf w 16 0) s)
  else if off = 0x020 then s.modArm (fun a => { a with stk := writeStk a.stk w })
  else if off = 0x024 then s.modArm (fun a => { a with release := w })
  else if 0x100 ≤ off && off < 0x280 && off % 8 = 0 then s.writeMap ((off - 0x100) / 32) ((off - 0x100) % 32) v
  else s

def writeRsp (s : State) (ch off v : Nat) : State :=
  let w := v % 2 ^ 32
  match off with
  | 0x00 => s.modChan ch (fun c => let k := bitsOf w 11 8; { c with en := bitOf w 0, outer := bitOf w 1, slots := if 1 ≤ k && k ≤ 8 then k else 2 })
  | 0x04 => s.modChan ch (fun c => { c with period := w % 65536 })
  | 0x18 => s.modChan ch (fun c => { c with rowth := bitsOf w 7 0, bankth := bitsOf w 23 8, deadth := bitsOf w 31 24 })
  | 0x2C => s.modChan ch (fun c => { c with bsel := bitsOf w 5 0 })
  | _ => s

def writeRcs (s : State) (k off v : Nat) : State :=
  let w := v % 2 ^ 32
  match off with
  | 0x00 => if bitsOf w 1 0 = 1 then goOn s (execRcsMigrate k s) else s
  | 0x04 => s.modRecaster k (fun r => if r.busy then r else { r with span := bitsOf w 16 0 })
  | 0x08 => s.modRecaster k (fun r => if r.busy then r else { r with layout := bitsOf w 11 0 })
  | 0x0C => s.modRecaster k (fun r => { r with err := r.err && !bitOf w 16 })
  | _ => s

/-- NSE_CTL of a core (R125): EN, then RETEST. While EN is 0 the source keeps its state and its buffer, so that STATE reads as before once EN is 1 again (DEDUCED, log 8). -/
def writeNseCtl (s : State) (cid v : Nat) : State :=
  let s := s.modNoise cid (fun n => { n with en := bitOf v 0 })
  if bitOf v 1 then goOn s (execRetest cid s) else s

/-- The frame that an entry of a frame remap table remaps while it is valid (R360). -/
def remapOf (c : Chan) (e : Nat) : Option Nat := (Tbl.find? c.ridx (fun f n => n = e && Tbl.has c.remap f)).map (·.1)

/-- An entry of the frame remap table of a channel (R360): it takes its fields, and a frame that it remapped before is remapped no more; with V the frame that it
names is remapped as by FRAME_REMAP. -/
def writeRemap (s : State) (ch e v : Nat) : State :=
  if 384 ≤ ch || 4096 ≤ e then s
  else
    let f := bitsOf v 15 0
    let drop := fun (c : Chan) => match remapOf c e with
      | some g => if bitOf v 63 && g = f then c else { c with remap := Tbl.erase c.remap g, ridx := Tbl.erase c.ridx g }
      | none => c
    let s := s.modChan ch (fun c => { drop c with rent := Tbl.set c.rent e (f, bitsOf v 31 16, bitsOf v 36 32) })
    if bitOf v 63 then s.remapFrame ch f (bitsOf v 36 32) (bitsOf v 31 16) (some e) else s

def readRemap (s : State) (ch e : Nat) : Nat :=
  let x := Tbl.getD (s.chan ch).rent e (0, 0, 0)
  x.1 + 2 ^ 16 * x.2.1 + 2 ^ 32 * x.2.2 + 2 ^ 63 * (remapOf (s.chan ch) e).isSome.toNat

/-- The firmware register space of a base die. The model puts there, at addresses of its own (log 25): from 2^43 on, the pre-emption registers of the
partitions (R301), partition p's page at 0x1000·p; from 2^42 on, the frame remap tables (R360), entry e of that of channel c at 8·(4096·c + e); from 2^41 on,
NSE_CTL of the die's cores (R125), by `cid`; from 2^40 on, firmware's own writes of 8 bytes to firmware memory. -/
def writeFirmware (s : State) (d off v : Nat) : State :=
  if 2 ^ 43 ≤ off then
    let p := (off - 2 ^ 43) / 0x1000
    let o := (off - 2 ^ 43) % 0x1000
    if p < 12 && 0x100 ≤ o && o < 0x120 then s.writePrt p o v else s
  else if 2 ^ 42 ≤ off then
    let e := (off - 2 ^ 42) / 8
    if e / 4096 / 128 = d then s.writeRemap (e / 4096) (e % 4096) v else s
  else if 2 ^ 41 ≤ off then (if off < 2 ^ 41 + 144 && didOf (off - 2 ^ 41) = d then s.writeNseCtl (off - 2 ^ 41) (v % 2 ^ 32) else s)
  else if 2 ^ 40 ≤ off then s.armWrite (off - 2 ^ 40) (leBytes 8 v)
  else if off < 0x1000 then s.writeSpn off v
  else if off < 0x1000 + 0x40 * 384 then
    let ch := (off - 0x1000) / 0x40
    if ch / 128 = d then s.writeRsp ch ((off - 0x1000) % 0x40) v else s
  else if 0x8000 + 0x40 * d ≤ off && off < 0x8040 + 0x40 * d then s.writeRcs d (off - (0x8000 + 0x40 * d)) v
  else s

/-! What the operator writes (R323, R330). The manual gives these no addresses (log 25): PRT_CLMASK of partition p at 0x1000·p + 8, entry e of the peer table at 0x10_0000 + 8·e (bit 63 present, bits 3:0 the link). -/

/-- R323, R324: clusters are assigned only while every partition concerned is stopped: the partition and the members of its group; no cluster goes to two
partitions, nor to a member of a group that is not its lowest. -/
def assignClusters (s : State) (p : Nat) (m : BitVec 36) : State :=
  let others := (List.range 12).filter (· ≠ p)
  let g := (s.part p).group
  let mates := if g = 0 then [p] else (List.range 12).filter (fun q => (s.part q).group = g)
  if mates.any (fun q => (s.part q).pstate ≠ 3) || others.any (fun q => (s.part q).clmask &&& m ≠ 0) || (m ≠ 0 && mates.head? ≠ some p) then s
  else s.modPart p (fun q => { q with clmask := m })

/-- Also the model's own address (log 25): the MSI-X message control of function v at 0x20_0000 + 0x1000·v, of which bits 15:14 are written (R328; PRESUMED, PCIe);
function 0 is the PF. A link of 12 to 15 leaves the field of an entry of the peer table as it was (R394). -/
def writeOperator (s : State) (off v : Nat) : State :=
  if off < 0xC000 then (if off % 0x1000 = 8 then s.assignClusters (off / 0x1000) (BitVec.ofNat 36 v) else s)
  else if 0x100000 ≤ off && off < 0x100060 && off % 8 = 0 then
    let e := (off - 0x100000) / 8
    let x := Tbl.getD s.peers e {}
    { s with peers := Tbl.set s.peers e { x with present := bitOf v 63, link := inSet (decide (bitsOf v 3 0 < 12)) (bitsOf v 3 0) x.link } }
  else if 0x200000 ≤ off && off % 0x1000 = 0 && (off - 0x200000) / 0x1000 ≤ 12 then
    s.modVf ((off - 0x200000) / 0x1000) (fun x => { x with msixCtl := 63 + 2 ^ 14 * bitsOf v 15 14 })
  else s

/-! Reads (R3, R329): reserved fields, write-only fields and offsets that name no register read as zero. -/

def readPrt (s : State) (p off : Nat) : Nat :=
  let q := s.part p
  match off with
  | 0x000 => p
  | 0x008 => (s.clusters p).toNat
  | 0x010 => q.ptbase
  | 0x018 => q.ptlen
  | 0x020 => q.iqbase
  | 0x028 => q.iqen.toNat + 16 * q.iqlog2n
  | 0x02C => q.iqkick.toNat
  | 0x030 => q.iqhead.toNat
  | 0x038 => q.fbbase
  | 0x040 => q.fbput
  | 0x044 => q.fbget
  | 0x048 => q.fbdrop
  | 0x050 => q.ovaddr
  | 0x058 => q.ovcnt
  | 0x100 => 2 * q.mode + 16 * q.pstate + 64 * q.perr.toNat
  | 0x104 => max 1 q.pdl
  | 0x108 => q.csbase
  | 0x110 => min q.ndrain 65535 + 2 ^ 16 * q.nsave
  | 0x114 => q.group + 2 ^ 8 * max 1 q.quant
  | 0x120 => q.tvec
  | 0x128 => q.tfbase
  | 0x130 => q.elbase
  | 0x138 => q.elen.toNat + 16 * (q.ellog2n % 16)
  | 0x13C => q.elput.toNat
  | 0x140 => q.elget.toNat
  | 0x144 => q.eldrop
  | 0x148 => q.plmSq.toNat + 2 ^ 16 * q.plmGs.toNat + 2 ^ 20 * q.plmSpw.toNat
  | 0x14C => q.plrst
  | 0x150 => q.dmbase
  | 0x158 => q.dmsize
  | 0x15C => q.dmen.toNat + 2 * q.dmstat + 8 * q.dmbusy.toNat
  | 0x160 => q.dmoff
  | _ => 0

def readSub (s : State) (p n off : Nat) : Nat :=
  let u := Tbl.getD (s.part p).subs n {}
  match off with
  | 0x00 => u.base
  | 0x08 => u.en.toNat + 2 * u.prio + 8 * u.ord.toNat + 16 * (ringLog u.log2n 16 % 16) + 256 * u.stat
  | 0x0C => u.kick.toNat
  | 0x10 => u.head.toNat
  | 0x14 => u.done.toNat
  | 0x18 => u.ovf.toNat + 2 * u.back.toNat
  | 0x1C => u.pasid
  | _ => 0

def readGrw (s : State) (p g off : Nat) : Nat :=
  let x := s.graph p g
  match off with
  | 0x00 => x.base
  | 0x08 => 4 * x.prio + 16 * x.stat
  | 0x0C => x.pasid
  | 0x10 => x.reason
  | 0x14 => x.node.toNat
  | 0x18 => x.ndone.toNat
  | _ => 0

def readChu (s : State) (p off : Nat) : Nat :=
  let q := s.part p
  match off with
  | 0x000 => q.mtb
  | 0x008 => 2 ^ 31 * q.mtbusy.isSome.toNat
  | 0x00C => q.chuEn.toNat + 2 ^ 8 * q.tmo
  | 0x010 => q.nbatch.toNat
  | 0x014 => q.nrefuse.toNat
  | 0x018 => q.ngone.toNat
  | _ => 0

def readSqs (s : State) (p off : Nat) : Nat :=
  let q := s.part p
  match off with
  | 0x00 => q.tbase
  | 0x08 => 2 ^ 31 * q.tbusy.isSome.toNat
  | 0x0C => q.tvalid.toNat
  | 0x10 => q.nstep.toNat
  | 0x14 => q.nsolve.toNat
  | _ => 0

def readTrc (s : State) (p cid off : Nat) : Nat :=
  let t := if s.holds p then (s.core cid).trc else (Tbl.getD (s.part p).kept cid {}).trc
  match off with
  | 0x00 => t.en.toNat + 2 ^ 8 * t.syncp + 2 ^ 16 * t.tsk
  | 0x04 => t.pasid
  | 0x08 => t.base
  | 0x10 => t.size
  | 0x14 => t.wptr
  | 0x18 => t.rptr
  | 0x1C => t.lost
  | 0x20 => t.syncoff
  | 0x28 => t.tsbase
  | 0x30 => t.tssize
  | 0x34 => t.tswptr
  | 0x38 => t.tsrptr
  | 0x3C => t.tslost
  | _ => 0

/-- A read of BAR0 of a partition's function (R329). -/
def readBar0 (s : State) (p off : Nat) : Nat :=
  if off < 0x1000 then s.readPrt p off
  else if off < 0x1400 then s.readSub p ((off - 0x1000) / 0x40) ((off - 0x1000) % 0x40)
  else if 0x2000 ≤ off && off < 0x2080 then s.readGrw p ((off - 0x2000) / 0x20) ((off - 0x2000) % 0x20)
  else if 0x3000 ≤ off && off < 0x4000 then s.readChu p (off - 0x3000)
  else if 0x4000 ≤ off && off < 0x5000 then s.readSqs p (off - 0x4000)
  else if 0x10000 ≤ off then
    match (s.coresOf p)[(off - 0x10000) / 256]? with
    | some cid => s.readTrc p cid ((off - 0x10000) % 256)
    | none => 0
  else 0

def readSpn (s : State) (off : Nat) : Nat :=
  let a := s.arm
  if off = 0x000 then a.stbase
  else if off = 0x008 then a.ltbase
  else if off = 0x010 then a.sftbase
  else if off = 0x018 then nSpan
  else if off = 0x01C then 2 ^ 31 * a.updBusy.isSome.toNat
  else if off = 0x020 then a.stk.toNat
  else if off = 0x024 then a.release
  else if 0x100 ≤ off && off < 0x280 && off % 8 = 0 then
    let t := (off - 0x100) / 32
    let x := (off - 0x100) % 32
    ((List.range 8).map (fun i => 2 ^ (8 * i) * Tbl.getD a.chmap (32 * t + x + i) (x + i))).sum
  else 0

def readRsp (s : State) (ch off : Nat) : Nat :=
  let c := s.chan ch
  match off with
  | 0x00 => c.en.toNat + 2 * c.outer.toNat + 2 ^ 8 * c.slots
  | 0x04 => max 1 c.period
  | 0x08 => c.pos
  | 0x0C => c.pass.toNat
  | 0x10 => c.ce
  | 0x14 => c.ue
  | 0x18 => c.rowth + 2 ^ 8 * c.bankth + 2 ^ 24 * c.deadth
  | 0x1C => s.seqOf (0x100 + ch) 12
  | 0x20 => c.ppr
  | 0x24 => c.remap.length
  | 0x28 => c.dead.toNat
  | 0x2C => c.bsel
  | 0x30 => Tbl.getD c.bank c.bsel 0
  | _ => 0

def readRcs (s : State) (k off : Nat) : Nat :=
  let r := s.recaster k
  match off with
  | 0x00 => 2 ^ 31 * r.busy.toNat
  | 0x04 => r.span
  | 0x08 => r.layout
  | 0x0C => r.unit + 2 ^ 16 * r.err.toNat
  | 0x10 => r.done.toNat
  | 0x14 => r.lost
  | _ => 0

/-- A read in the firmware register space of a base die, which has the places of `writeFirmware`. -/
def readFirmware (s : State) (d off : Nat) : Nat :=
  if 2 ^ 43 ≤ off then
    let p := (off - 2 ^ 43) / 0x1000
    let o := (off - 2 ^ 43) % 0x1000
    if p < 12 && 0x100 ≤ o && o < 0x120 then s.readPrt p o else 0
  else if 2 ^ 42 ≤ off then
    let e := (off - 2 ^ 42) / 8
    if e / 4096 / 128 = d then s.readRemap (e / 4096) (e % 4096) else 0
  else if 2 ^ 41 ≤ off then (if off < 2 ^ 41 + 144 && didOf (off - 2 ^ 41) = d then (s.core (off - 2 ^ 41)).noise.en.toNat else 0)
  else if 2 ^ 40 ≤ off then (s.armRead (off - 2 ^ 40) 8).2
  else if off < 0x1000 then s.readSpn off
  else if off < 0x1000 + 0x40 * 384 then
    let ch := (off - 0x1000) / 0x40
    if ch / 128 = d then s.readRsp ch ((off - 0x1000) % 0x40) else 0
  else if 0x8000 + 0x40 * d ≤ off && off < 0x8040 + 0x40 * d then s.readRcs d (off - (0x8000 + 0x40 * d))
  else 0

/-- A read by the operator, at the places of `writeOperator`. -/
def readOperator (s : State) (off : Nat) : Nat :=
  if off < 0xC000 then (if off % 0x1000 = 8 then (s.clusters (off / 0x1000)).toNat else 0)
  else if 0x100000 ≤ off && off < 0x100060 && off % 8 = 0 then
    let e := Tbl.getD s.peers ((off - 0x100000) / 8) {}
    e.link + 2 ^ 63 * e.present.toNat
  else if 0x200000 ≤ off && off % 0x1000 = 0 && (off - 0x200000) / 0x1000 ≤ 12 then (s.vf ((off - 0x200000) / 0x1000)).msixCtl
  else 0

end State

/-- REGISTER_WRITE (R3, R329, R394). A host access waits behind earlier ones of its function; a read is answered with 8 bytes (log 25). -/
def execRegisterWrite (sp : RegSpace) (off : Nat) (val : DWord) (s : State) : Host.Outcome State Fault Refusal :=
  match sp with
  | .bar0 p =>
    if !s.vfServes p then .next (s.send (.completion (p + 1) false false []))
    else if s.fnWaits p then .next (s.hold (.registerWrite (.bar0 p) off val))
    else .next (s.writeBar0 p off val.toNat)
  | .bar0Read p =>
    if !s.vfServes p then .next (s.send (.completion (p + 1) false false []))
    else if s.fnWaits p then .next (s.hold (.registerWrite (.bar0Read p) off val))
    else .next (s.send (.completion (p + 1) true false (leBytes 8 (s.readBar0 p off))))
  | .firmware d => if d < 3 then .next (s.writeFirmware d off val.toNat) else .next s
  | .firmwareRead d => if d < 3 then .next (s.send (.register (s.readFirmware d off))) else .next s
  | .operator => .next (s.writeOperator off val.toNat)
  | .operatorRead => .next (s.send (.register (s.readOperator off)))

end Sys2Proof.Machine
end

