-- ==== Sys2Proof/Machine/Select.lean ====
section
/-! DEFINITION. Choosing a wave (R52, R55, R88, R208, R272 to R276): eligibility, the rotation lists, overdue waves. -/

namespace Sys2Proof.Machine

/-- Memory instructions that a pending fence holds (R208). -/
def isMemory : Instr → Bool
  | .vld .. | .vst .. | .sld .. | .sst .. | .vatom .. | .satom .. | .cmb .. | .spawn .. | .vpf .. | .lwb .. | .linv .. | .vrand .. => true
  | _ => false

/-- Copy and matrix commands (R152, R236). -/
def isCopyCmd : Instr → Bool
  | .cpy .. | .cpytLd .. | .cpytSt .. | .cpyg .. | .cpys .. | .cred .. => true
  | _ => false

def isMatrixCmd : Instr → Bool
  | .mlds .. | .mms .. | .mzero .. | .mdrain .. | .mldacc .. => true
  | _ => false

/-- Entries of a core's copy queue (R236) and of its matrix queue (R152). -/
def copyQueue : Nat := 16
def matrixQueue : Nat := 16

/-- R152: no queue entry for a matrix command of a block: the queue is full, or twelve entries hold commands of blocks other than the plane holder. -/
def matrixFull (m : MatEng) (block : Nat) : Bool :=
  matrixQueue ≤ m.cmds.length
    || (m.holder ≠ some block && 12 ≤ (m.cmds.filter (fun c => m.holder ≠ some c.block)).length)

/-- R208, R231, R281: an outstanding operation holds the issue of an instruction. -/
def Pend.holds (p : Pend) (i : Instr) : Bool :=
  match p.kind with
  | .fence .. => isMemory i || (match engOrd i with | some o => o.acq | none => false)
  | .bar _ kind _ _ _ => kind = 1
  | .commit .. => (match i with | .cend .. => true | _ => false)
  | .reply => (match i with | .cend .. => true | _ => false)
  | _ => false

/-- A wave in state ready, not in a region restart and not stopped for a save (R304). -/
def Wave.isReady (w : Wave) : Bool := w.stat = .ready && !w.restart && !w.saving

/-- STALL (R52), WAIT and SET (R55): `sets` where the word would raise the flag that SET names. -/
def hintsMet (w : Wave) (h : Hints) (sets : Bool) (now : Nat) : Bool :=
  (match w.lastIssue with | none => true | some t => t + h.stall.toNat + 1 ≤ now)
    && (List.range 12).all (fun j => !h.wait.getLsbD j || w.flag (j + 1) = 0)
    && (h.set = 0 || !sets || w.flag h.set.toNat < 63)

/-- R208, R231, R281: an outstanding operation holds the word; of a suppressed wave-level word only STALL and WAIT are honoured (R71), but `bar.exp` holds the
wave itself. -/
def heldBy (w : Wave) (i : Instr) (acts : Bool) : Bool :=
  w.pend.any (fun p => p.holds i && (acts || (match p.kind with | .bar .. => true | _ => false)))

/-- How a wave stands in the choice of its quad in this cycle: 0 not eligible, 1 refused only by the datapath, 2 eligible. A deferred fault is delivered in the
place of the wave's next instruction, once that word's STALL, WAIT and SET are met (R272, R275). -/
def standing (s : State) (k : Nat) (w : Wave) : Nat :=
  let now := s.cyc (cidOf k)
  let c := s.core (cidOf k)
  if !w.isReady || (match w.waitFlag with | some (f, n) => n < w.flag f | none => false)
      || (match w.lastIssue with | some t => now ≤ t | none => false) then 0
  else
    let faults := !w.deferred.isEmpty && !w.inHandler
    match (s.fetch k w).2 with
    | .word word =>
      match decode word with
      | none => if hintsMet w (Fields.ofWord word).h true now then 2 else 0
      | some i =>
        match i.hints with
        | none => 2
        | some h =>
          let x : Ctx := { s := { s with freeCtr := s.freeCtr + 1 }, k := k, w := w, h := h, act := 0, id := 0 }
          let acts := i.isLane || guardWave x
          if !hintsMet w h acts now then 0
          else if faults then 2
          else if heldBy w i acts then 0
          else
            if ((isCopyCmd i && copyQueue ≤ c.copy.length) || (isMatrixCmd i && matrixFull c.mat w.block)) && guardWave x then 0
            else if (match i with | .vrand .. => (noiseTrap w c.noise).isNone && noiseHeld w c.noise (guardLanes x) | _ => false) then 0
            else if now < (Tbl.getD c.quads (quadOf k) {}).busy && runsBeats i && beatsOf i (guardLanes x) ≠ 0 then 1
            else 2
    | _ => 2

/-- A rotation list from its pointer on (R273). -/
def rotated (l : List Nat) (ptr : Nat) : List Nat := l.drop ptr ++ l.take ptr

/-- The waves of a quad in its rotation lists. -/
def Quad.all (q : Quad) : List Nat := [3, 2, 1, 0].flatMap (fun p => Tbl.getD q.rot p [])

/-- R274: the run of a wave that could have issued, and whether it is overdue. -/
def Wave.track (w : Wave) (stand now n : Nat) : Wave :=
  if stand = 0 then { w with run := none, overdue := false }
  else match w.run with
    | none => { w with run := some (now, n) }
    | some (t, m) => if 8 * m ≤ now - t then { w with overdue := true } else w

namespace State

/-- R202, R277: the flags whose fall a wave observes before it issues its next word: those that the word waits for, and the flag of a `waitf` that has been met. -/
def observed (s : State) (k : Nat) (w : Wave) (flag : Nat) : Bool :=
  (match w.waitFlag with | some (f, n) => f = flag && w.flag f ≤ n | none => false)
    || (w.flag flag = 0 && (match (s.fetch k w).2 with
      | .word word => (Fields.ofWord word).h.wait.getLsbD (flag - 1)
      | _ => false))

/-- A wave that observes the fall of a flag of commands with REL performs their releases (R202). -/
def observe (s : State) (k : Nat) : State :=
  match s.wave k with
  | none => s
  | some w =>
    if w.relOn.isEmpty || !w.isReady then s
    else
      let now := w.relOn.filter (fun e => s.observed k w e.1)
      now.foldl (fun s e => s.addRelease k e.2) (s.modWave k (fun w => { w with relOn := w.relOn.filter (fun e => !now.contains e) }))

/-- The standings of a quad's waves by themselves, and which of them are in a `yield`. -/
def standsAlone (s : State) (cid quad : Nat) : List (Nat × Nat × Bool) :=
  (Tbl.getD (s.core cid).quads quad {}).all.filterMap (fun k => (s.wave k).map (fun w =>
    (k, standing s k w, match w.yieldTil with | some t => decide (s.cyc cid < t) | none => false)))

/-- The standings of a quad's waves: a wave in a `yield` is not chosen while another is ready (R88). -/
def stands (s : State) (cid quad : Nat) : List (Nat × Nat) :=
  let l := s.standsAlone cid quad
  l.map (fun e => (e.1, if e.2.2 && l.any (fun f => f.1 ≠ e.1 && f.2.1 ≠ 0) then 0 else e.2.1))

/-- R274: the waves of a quad that are ready and not held, also those in a `yield`. -/
def readyCount (s : State) (cid quad : Nat) : Nat := ((s.standsAlone cid quad).filter (fun e => e.2.1 ≠ 0)).length

/-- R273: the wave that a quad chooses, from the standings of its waves: overdue waves first, then the highest priority, in rotation order.
A wave whose YLD is still to count is passed over, unless it is the only eligible one. -/
def first (s : State) (q : Quad) (stands : List (Nat × Nat)) : Option Nat :=
  let elig := fun k => stands.any (fun e => e.1 = k && e.2 = 2)
  let test := fun (f : Wave → Bool) k => match s.wave k with | some w => f w | none => false
  let order := fun p => (rotated (Tbl.getD q.rot p []) (Tbl.getD q.ptr p 0)).filter elig
  let all := [3, 2, 1, 0].flatMap order
  match all.filter (test (·.overdue)) with
  | k :: _ => some k
  | [] =>
    match all.filter (fun k => all.length = 1 || !test (·.yld) k) with
    | k :: _ => some k
    | [] => all.head?

/-- R273: the choice of a quad, after the releases of flags observed (R202). The YLD of a wave counts in the next choice of its list (R56): in that of the list from which a wave
is chosen, and in that of each list of a higher priority, which was looked through before it. -/
def choose (s : State) (cid quad : Nat) : State :=
  let q := Tbl.getD (s.core cid).quads quad {}
  let now := s.cyc cid
  let s := q.all.foldl observe s
  let stands := s.stands cid quad
  let n := s.readyCount cid quad
  let s := stands.foldl (fun s e => s.modWave e.1 (fun w => w.track e.2 now (max 1 n))) s
  match (s.first q stands).bind (fun k => (s.wave k).map (fun w => (k, w))) with
  | none => s
  | some (k, w) =>
    let prio := w.prio % 4
    let list := Tbl.getD q.rot prio []
    let at_ := (list.takeWhile (· ≠ k)).length
    let seen := if w.overdue then list else [3, 2, 1, 0].flatMap (fun p => if prio ≤ p then Tbl.getD q.rot p [] else [])
    let s := seen.foldl (fun s j => s.modWave j (fun x => { x with yld := false })) s
    let s := s.modCore cid (fun c =>
      let q := Tbl.getD c.quads quad {}
      { c with quads := Tbl.set c.quads quad { q with ptr := Tbl.set q.ptr prio ((at_ + 1) % list.length) } })
    { s with cur := some k }

end State

/-- ISSUE_SELECT (R272, R273): a quad makes its choice for this cycle. -/
def execIssueSelect (cid quad : Nat) (s : State) : Host.Outcome State Fault Refusal :=
  let s := { s with todo := s.todo.filter (fun e => !(e.1 = cid && e.2 = quad)) }
  match s.cur with
  | some _ => .next s
  | none => .next (s.choose cid quad)

/-- WAVE_OVERDUE (R274). -/
def execWaveOverdue (k : Nat) (s : State) : Host.Outcome State Fault Refusal :=
  .next (s.modWave k (fun w => match w.run with
    | some (t, n) => if w.isReady && 8 * n ≤ s.cyc (cidOf k) - t then { w with overdue := true } else w
    | none => w))

/-- FIXED_RESULT_READY (R53): a fixed-latency result is written once its latency has passed. -/
def execFixedResultReady (k op : Nat) (s : State) : Host.Outcome State Fault Refusal :=
  match s.pend k op with
  | some p => if !p.long && p.ready ≤ s.cyc (cidOf k) then .next (s.opDone k op) else .next s
  | none => .next s

/-- YIELD_END (R88): the wave may be chosen again. -/
def execYieldEnd (k : Nat) (s : State) : Host.Outcome State Fault Refusal :=
  .next (s.modWave k (fun w => match w.yieldTil with
    | some t => if t ≤ s.cyc (cidOf k) then { w with yieldTil := none } else w
    | none => w))

/-- SLEEP_END (R88): the cycles of a sleep have passed. -/
def execSleepEnd (k : Nat) (s : State) : Host.Outcome State Fault Refusal :=
  .next (s.modWave k (fun w => match w.stat with
    | .sleeping til => if til ≤ s.cyc (cidOf k) then { w with stat := .ready } else w
    | _ => w))

/-- WAVE_RETIRE (R29, R30): an exiting wave with no flag up and no long-latency operation outstanding retires. -/
def execWaveRetire (k : Nat) (s : State) : Host.Outcome State Fault Refusal :=
  match s.wave k with
  | some w =>
    if w.stat = .exiting && w.pend.all (fun p => !p.long) && (List.range 13).all (fun f => w.flag f = 0) then .next (s.removeWave k) else .next s
  | none => .next s

end Sys2Proof.Machine
end

