-- ==== Sys2Proof/Machine/Dispatch.lean ====
section
/-! DEFINITION. One arm for each constructor of Instr. -/

namespace Sys2Proof.Machine

def exec (i : Instr) (s : State) : Host.Outcome State Fault Refusal :=
  match i with
  | .nop h => Sys2Proof.Machine.execNop h s
  | .sadd h t d a b => Sys2Proof.Machine.execSadd h t d a b s
  | .saddc h d a b k => Sys2Proof.Machine.execSaddc h d a b k s
  | .ssub h t d a b => Sys2Proof.Machine.execSsub h t d a b s
  | .smul h t d a b => Sys2Proof.Machine.execSmul h t d a b s
  | .smulh h t d a b => Sys2Proof.Machine.execSmulh h t d a b s
  | .sdiv h t d a b => Sys2Proof.Machine.execSdiv h t d a b s
  | .srem h t d a b => Sys2Proof.Machine.execSrem h t d a b s
  | .sand h t d a b => Sys2Proof.Machine.execSand h t d a b s
  | .sor h t d a b => Sys2Proof.Machine.execSor h t d a b s
  | .sxor h t d a b => Sys2Proof.Machine.execSxor h t d a b s
  | .sandn h t d a b => Sys2Proof.Machine.execSandn h t d a b s
  | .sshl h t d a b => Sys2Proof.Machine.execSshl h t d a b s
  | .sshr h t d a b => Sys2Proof.Machine.execSshr h t d a b s
  | .ssra h t d a b => Sys2Proof.Machine.execSsra h t d a b s
  | .smin h t d a b => Sys2Proof.Machine.execSmin h t d a b s
  | .smax h t d a b => Sys2Proof.Machine.execSmax h t d a b s
  | .sabs h t d a => Sys2Proof.Machine.execSabs h t d a s
  | .sbfe h t d a b => Sys2Proof.Machine.execSbfe h t d a b s
  | .sbfi h d a b c => Sys2Proof.Machine.execSbfi h d a b c s
  | .spopc h t d a => Sys2Proof.Machine.execSpopc h t d a s
  | .sclz h t d a => Sys2Proof.Machine.execSclz h t d a s
  | .sffs h t d a => Sys2Proof.Machine.execSffs h t d a s
  | .smov h t d a => Sys2Proof.Machine.execSmov h t d a s
  | .smovil h d imm => Sys2Proof.Machine.execSmovil h d imm s
  | .smovih h d imm => Sys2Proof.Machine.execSmovih h d imm s
  | .ssel h t d a b k => Sys2Proof.Machine.execSsel h t d a b k s
  | .scmp h ty cond pr a b => Sys2Proof.Machine.execScmp h ty cond pr a b s
  | .pgetP h d k => Sys2Proof.Machine.execPgetP h d k s
  | .pgetQ h d => Sys2Proof.Machine.execPgetQ h d s
  | .pputP h k a => Sys2Proof.Machine.execPputP h k a s
  | .pputQ h a => Sys2Proof.Machine.execPputQ h a s
  | .qany h d k => Sys2Proof.Machine.execQany h d k s
  | .qall h d k => Sys2Proof.Machine.execQall h d k s
  | .pcnt h d k => Sys2Proof.Machine.execPcnt h d k s
  | .elect h d => Sys2Proof.Machine.execElect h d s
  | .setpl h a => Sys2Proof.Machine.execSetpl h a s
  | .getpl h d => Sys2Proof.Machine.execGetpl h d s
  | .plop h t d a b c => Sys2Proof.Machine.execPlop h t d a b c s
  | .qlop h t d a b c => Sys2Proof.Machine.execQlop h t d a b c s
  | .br h imm => Sys2Proof.Machine.execBr h imm s
  | .brx h a => Sys2Proof.Machine.execBrx h a s
  | .call h d imm => Sys2Proof.Machine.execCall h d imm s
  | .ret h a => Sys2Proof.Machine.execRet h a s
  | .bexz h imm => Sys2Proof.Machine.execBexz h imm s
  | .exit h => Sys2Proof.Machine.execExit h s
  | .yield h => Sys2Proof.Machine.execYield h s
  | .sleep h a => Sys2Proof.Machine.execSleep h a s
  | .trap h imm => Sys2Proof.Machine.execTrap h imm s
  | .brk h imm => Sys2Proof.Machine.execBrk h imm s
  | .rte h a => Sys2Proof.Machine.execRte h a s
  | .csrr h d n => Sys2Proof.Machine.execCsrr h d n s
  | .csrw h n a => Sys2Proof.Machine.execCsrw h n a s
  | .vadd h t sat d a b => Sys2Proof.Machine.execVadd h t sat d a b s
  | .vsub h t sat d a b => Sys2Proof.Machine.execVsub h t sat d a b s
  | .vaddc h d a b k => Sys2Proof.Machine.execVaddc h d a b k s
  | .vsubb h d a b k => Sys2Proof.Machine.execVsubb h d a b k s
  | .vmul h t d a b => Sys2Proof.Machine.execVmul h t d a b s
  | .vmulh h t d a b => Sys2Proof.Machine.execVmulh h t d a b s
  | .vmad h t d a b c => Sys2Proof.Machine.execVmad h t d a b c s
  | .vdot4 h t sat d a b c => Sys2Proof.Machine.execVdot4 h t sat d a b c s
  | .vmin h t d a b => Sys2Proof.Machine.execVmin h t d a b s
  | .vmax h t d a b => Sys2Proof.Machine.execVmax h t d a b s
  | .vabs h t sat d a => Sys2Proof.Machine.execVabs h t sat d a s
  | .vshl h t d a b => Sys2Proof.Machine.execVshl h t d a b s
  | .vshr h t d a b => Sys2Proof.Machine.execVshr h t d a b s
  | .vsra h t d a b => Sys2Proof.Machine.execVsra h t d a b s
  | .vfunnelR h d a b c => Sys2Proof.Machine.execVfunnelR h d a b c s
  | .vfunnelL h d a b c => Sys2Proof.Machine.execVfunnelL h d a b c s
  | .vbfe h t d a b => Sys2Proof.Machine.execVbfe h t d a b s
  | .vbfi h d a b c => Sys2Proof.Machine.execVbfi h d a b c s
  | .vpopc h t d a => Sys2Proof.Machine.execVpopc h t d a s
  | .vclz h t d a => Sys2Proof.Machine.execVclz h t d a s
  | .vbrev h d a => Sys2Proof.Machine.execVbrev h d a s
  | .vcmp h t clr pr a b cond => Sys2Proof.Machine.execVcmp h t clr pr a b cond s
  | .vsel h t d a b k => Sys2Proof.Machine.execVsel h t d a b k s
  | .vmov h t d a => Sys2Proof.Machine.execVmov h t d a s
  | .vmovil h d imm => Sys2Proof.Machine.execVmovil h d imm s
  | .vmovih h d imm => Sys2Proof.Machine.execVmovih h d imm s
  | .vlop3 h t d a b c => Sys2Proof.Machine.execVlop3 h t d a b c s
  | .vidx h d a k j => Sys2Proof.Machine.execVidx h d a k j s
  | .vperm h d a b => Sys2Proof.Machine.execVperm h d a b s
  | .vbcast h d a b => Sys2Proof.Machine.execVbcast h d a b s
  | .vgetl h d a b => Sys2Proof.Machine.execVgetl h d a b s
  | .vsetl h d a b => Sys2Proof.Machine.execVsetl h d a b s
  | .vshfl h m w d a b => Sys2Proof.Machine.execVshfl h m w d a b s
  | .vred h t op d a => Sys2Proof.Machine.execVred h t op d a s
  | .vscan h t ex op d a => Sys2Proof.Machine.execVscan h t ex op d a s
  | .vmovi h d a b => Sys2Proof.Machine.execVmovi h d a b s
  | .vmovo h d a b => Sys2Proof.Machine.execVmovo h d a b s
  | .vrand h d => Sys2Proof.Machine.execVrand h d s
  | .vaddF h t c d a b => Sys2Proof.Machine.execVaddF h t c d a b s
  | .vsubF h t c d a b => Sys2Proof.Machine.execVsubF h t c d a b s
  | .vmulF h t c d a b => Sys2Proof.Machine.execVmulF h t c d a b s
  | .vfma h t neg d a b c => Sys2Proof.Machine.execVfma h t neg d a b c s
  | .vminF h nan c d a b => Sys2Proof.Machine.execVminF h nan c d a b s
  | .vmaxF h nan c d a b => Sys2Proof.Machine.execVmaxF h nan c d a b s
  | .vcmpF h clr c pr a b => Sys2Proof.Machine.execVcmpF h clr c pr a b s
  | .vclass h clr pr a m => Sys2Proof.Machine.execVclass h clr pr a m s
  | .vrnd h c d a => Sys2Proof.Machine.execVrnd h c d a s
  | .vrcp h c d a => Sys2Proof.Machine.execVrcp h c d a s
  | .vrsq h c d a => Sys2Proof.Machine.execVrsq h c d a s
  | .vexp2 h c d a => Sys2Proof.Machine.execVexp2 h c d a s
  | .vlog2 h c d a => Sys2Proof.Machine.execVlog2 h c d a s
  | .vsqrt h c d a => Sys2Proof.Machine.execVsqrt h c d a s
  | .vdiv h c d a b => Sys2Proof.Machine.execVdiv h c d a b s
  | .vsinpi h c d a => Sys2Proof.Machine.execVsinpi h c d a s
  | .vcospi h c d a => Sys2Proof.Machine.execVcospi h c d a s
  | .vtanh h c d a => Sys2Proof.Machine.execVtanh h c d a s
  | .vlgt h c d a => Sys2Proof.Machine.execVlgt h c d a s
  | .vcvt h t src rm e d a r => Sys2Proof.Machine.execVcvt h t src rm e d a r s
  | .vcvti h t src rm e d a r => Sys2Proof.Machine.execVcvti h t src rm e d a r s
  | .vqz h t sr d a sc r => Sys2Proof.Machine.execVqz h t sr d a sc r s
  | .vdq h t d a sc => Sys2Proof.Machine.execVdq h t d a sc s
  | .vld h sp sz d a off => Sys2Proof.Machine.execVld h sp sz d a off s
  | .vst h sp sz d a off => Sys2Proof.Machine.execVst h sp sz d a off s
  | .sld h sp sz d a off => Sys2Proof.Machine.execSld h sp sz d a off s
  | .sst h sp sz d a off => Sys2Proof.Machine.execSst h sp sz d a off s
  | .vpf h l2 a off => Sys2Proof.Machine.execVpf h l2 a off s
  | .lwb h a off => Sys2Proof.Machine.execLwb h a off s
  | .linv h a off => Sys2Proof.Machine.execLinv h a off s
  | .fence h k sc => Sys2Proof.Machine.execFence h k sc s
  | .dfence h => Sys2Proof.Machine.execDfence h s
  | .ifence h sc => Sys2Proof.Machine.execIfence h sc s
  | .vatom h op wide sc d a b c => Sys2Proof.Machine.execVatom h op wide sc d a b c s
  | .satom h op wide sc d a b c => Sys2Proof.Machine.execSatom h op wide sc d a b c s
  | .cmb h d a b k => Sys2Proof.Machine.execCmb h d a b k s
  | .ccommit h k => Sys2Proof.Machine.execCcommit h k s
  | .ccommitNw h => Sys2Proof.Machine.execCcommitNw h s
  | .creply h a => Sys2Proof.Machine.execCreply h a s
  | .cend h => Sys2Proof.Machine.execCend h s
  | .barArr h x => Sys2Proof.Machine.execBarArr h x s
  | .barWait h x => Sys2Proof.Machine.execBarWait h x s
  | .barSync h x => Sys2Proof.Machine.execBarSync h x s
  | .barExp h x a => Sys2Proof.Machine.execBarExp h x a s
  | .barTx h x a => Sys2Proof.Machine.execBarTx h x a s
  | .barTest h pr x => Sys2Proof.Machine.execBarTest h pr x s
  | .waitf h k n => Sys2Proof.Machine.execWaitf h k n s
  | .cpy h dsp ssp d a b o => Sys2Proof.Machine.execCpy h dsp ssp d a b o s
  | .cpytLd h sp d a b o => Sys2Proof.Machine.execCpytLd h sp d a b o s
  | .cpytSt h sp d a b o => Sys2Proof.Machine.execCpytSt h sp d a b o s
  | .cpyg h sp d a b o => Sys2Proof.Machine.execCpyg h sp d a b o s
  | .cpys h sp d a b o => Sys2Proof.Machine.execCpys h sp d a b o s
  | .cred h op ty d a b o => Sys2Proof.Machine.execCred h op ty d a b o s
  | .spawn h pr a n => Sys2Proof.Machine.execSpawn h pr a n s
  | .mlds h t g a sp sc o => Sys2Proof.Machine.execMlds h t g a sp sc o s
  | .mms h t g slot swap done z sc a b o => Sys2Proof.Machine.execMms h t g slot swap done z sc a b o s
  | .mzero h slot => Sys2Proof.Machine.execMzero h slot s
  | .mdrain h t g slot add rm a b o => Sys2Proof.Machine.execMdrain h t g slot add rm a b o s
  | .mldacc h t g slot a b o => Sys2Proof.Machine.execMldacc h t g slot a b o s
  | .aalloc h pr k => Sys2Proof.Machine.execAalloc h pr k s
  | .afree h k => Sys2Proof.Machine.execAfree h k s
  | .tmark h a => Sys2Proof.Machine.execTmark h a s
  | .capst h c => Sys2Proof.Machine.execCapst h c s
  | .capsp h c => Sys2Proof.Machine.execCapsp h c s
  | .rgn h => Sys2Proof.Machine.execRgn h s
  | .noiseStartupPass start => Sys2Proof.Machine.execNoiseStartupPass start s
  | .issueSelect cid quad => Sys2Proof.Machine.execIssueSelect cid quad s
  | .waveOverdue wave => Sys2Proof.Machine.execWaveOverdue wave s
  | .fixedResultReady wave op => Sys2Proof.Machine.execFixedResultReady wave op s
  | .longOpComplete wave op => Sys2Proof.Machine.execLongOpComplete wave op s
  | .yieldEnd wave => Sys2Proof.Machine.execYieldEnd wave s
  | .sleepEnd wave => Sys2Proof.Machine.execSleepEnd wave s
  | .waveRetire wave => Sys2Proof.Machine.execWaveRetire wave s
  | .blockRetire block => Sys2Proof.Machine.execBlockRetire block s
  | .loadDataReturn wave op => Sys2Proof.Machine.execLoadDataReturn wave op s
  | .storeVisible wave op => Sys2Proof.Machine.execStoreVisible wave op s
  | .homeSliceAccess req => Sys2Proof.Machine.execHomeSliceAccess req s
  | .atomicGroup req => Sys2Proof.Machine.execAtomicGroup req s
  | .l1Eviction cid line => Sys2Proof.Machine.execL1Eviction cid line s
  | .l1DirtyTimeout cid line => Sys2Proof.Machine.execL1DirtyTimeout cid line s
  | .l1CleanTimeout cid line => Sys2Proof.Machine.execL1CleanTimeout cid line s
  | .l2Writeback line => Sys2Proof.Machine.execL2Writeback line s
  | .checkDeltaDrain stripe q => Sys2Proof.Machine.execCheckDeltaDrain stripe q s
  | .stripeDecode stripe => Sys2Proof.Machine.execStripeDecode stripe s
  | .pageWalk cid pasid va k => Sys2Proof.Machine.execPageWalk cid pasid va k s
  | .deferredFaultArrive src cls reason pc mask addr => Sys2Proof.Machine.execDeferredFaultArrive src cls reason pc mask addr s
  | .trapDeliver wave => Sys2Proof.Machine.execTrapDeliver wave s
  | .coreDump block => Sys2Proof.Machine.execCoreDump block s
  | .regionRestart wave => Sys2Proof.Machine.execRegionRestart wave s
  | .barrierWake wave => Sys2Proof.Machine.execBarrierWake wave s
  | .copyCmdStart cid => Sys2Proof.Machine.execCopyCmdStart cid s
  | .copyBytesVisible cid cmd units => Sys2Proof.Machine.execCopyBytesVisible cid cmd units s
  | .copyCmdComplete cid cmd => Sys2Proof.Machine.execCopyCmdComplete cid cmd s
  | .matrixCmdStart cid => Sys2Proof.Machine.execMatrixCmdStart cid s
  | .planeRelease cid => Sys2Proof.Machine.execPlaneRelease cid s
  | .matrixCmdComplete cid cmd => Sys2Proof.Machine.execMatrixCmdComplete cid cmd s
  | .cmbRequestArrive req => Sys2Proof.Machine.execCmbRequestArrive req s
  | .batchWindowExpire batch => Sys2Proof.Machine.execBatchWindowExpire batch s
  | .batchDispatch pid => Sys2Proof.Machine.execBatchDispatch pid s
  | .batchTimeout batch => Sys2Proof.Machine.execBatchTimeout batch s
  | .cmbStatusArrive wave op => Sys2Proof.Machine.execCmbStatusArrive wave op s
  | .chuMtloadDone pid => Sys2Proof.Machine.execChuMtloadDone pid s
  | .launchStart pid queue => Sys2Proof.Machine.execLaunchStart pid queue s
  | .blockPlace pid => Sys2Proof.Machine.execBlockPlace pid s
  | .launchComplete launch => Sys2Proof.Machine.execLaunchComplete launch s
  | .graphGo pid slot => Sys2Proof.Machine.execGraphGo pid slot s
  | .nodeLaunch pid slot node => Sys2Proof.Machine.execNodeLaunch pid slot node s
  | .nodeCopy pid slot node => Sys2Proof.Machine.execNodeCopy pid slot node s
  | .nodeSignal pid slot node => Sys2Proof.Machine.execNodeSignal pid slot node s
  | .nodeWait pid slot node => Sys2Proof.Machine.execNodeWait pid slot node s
  | .waitPoll pid slot node => Sys2Proof.Machine.execWaitPoll pid slot node s
  | .nodeCond pid slot node => Sys2Proof.Machine.execNodeCond pid slot node s
  | .nodeWhile pid slot node => Sys2Proof.Machine.execNodeWhile pid slot node s
  | .nodeSolve pid slot node => Sys2Proof.Machine.execNodeSolve pid slot node s
  | .nodeEnd pid slot node => Sys2Proof.Machine.execNodeEnd pid slot node s
  | .nodeComplete pid slot node => Sys2Proof.Machine.execNodeComplete pid slot node s
  | .graphEnd pid slot => Sys2Proof.Machine.execGraphEnd pid slot s
  | .sqsTloadDone pid => Sys2Proof.Machine.execSqsTloadDone pid s
  | .sqsStageLaunch cp => Sys2Proof.Machine.execSqsStageLaunch cp s
  | .sqsModelRun cp => Sys2Proof.Machine.execSqsModelRun cp s
  | .sqsErrorLaunch cp => Sys2Proof.Machine.execSqsErrorLaunch cp s
  | .sqsStepDecide cp => Sys2Proof.Machine.execSqsStepDecide cp s
  | .solveComplete cp => Sys2Proof.Machine.execSolveComplete cp s
  | .preemptDeadline pid => Sys2Proof.Machine.execPreemptDeadline pid s
  | .blockSave block => Sys2Proof.Machine.execBlockSave block s
  | .blockRestore pid => Sys2Proof.Machine.execBlockRestore pid s
  | .quantumExpire group => Sys2Proof.Machine.execQuantumExpire group s
  | .invpg pid pasid va count => Sys2Proof.Machine.execInvpg pid pasid va count s
  | .invpasid pid pasid => Sys2Proof.Machine.execInvpasid pid pasid s
  | .invall pid => Sys2Proof.Machine.execInvall pid s
  | .replay pid pasid va k => Sys2Proof.Machine.execReplay pid pasid va k s
  | .replayAll pid => Sys2Proof.Machine.execReplayAll pid s
  | .failCmd pid pasid va k => Sys2Proof.Machine.execFailCmd pid pasid va k s
  | .syncCmd pid rec => Sys2Proof.Machine.execSyncCmd pid rec s
  | .teardown pid pasid rec => Sys2Proof.Machine.execTeardown pid pasid rec s
  | .invalidationComplete pid => Sys2Proof.Machine.execInvalidationComplete pid s
  | .teardownDrainDone pid pasid => Sys2Proof.Machine.execTeardownDrainDone pid pasid s
  | .leaseRenew die => Sys2Proof.Machine.execLeaseRenew die s
  | .leaseLoss die => Sys2Proof.Machine.execLeaseLoss die s
  | .followerPoll die => Sys2Proof.Machine.execFollowerPoll die s
  | .traceSyncPeriod cid => Sys2Proof.Machine.execTraceSyncPeriod cid s
  | .seriesTick => Sys2Proof.Machine.execSeriesTick s
  | .raspRow chan => Sys2Proof.Machine.execRaspRow chan s
  | .rowRepair chan row => Sys2Proof.Machine.execRowRepair chan row s
  | .stackFail stack => Sys2Proof.Machine.execStackFail stack s
  | .recasterUnit die => Sys2Proof.Machine.execRecasterUnit die s
  | .lineHandoff die line => Sys2Proof.Machine.execLineHandoff die line s
  | .movedResend req => Sys2Proof.Machine.execMovedResend req s
  | .atsInvalidation pid ioPage count => Sys2Proof.Machine.execAtsInvalidation pid ioPage count s
  | .registerWrite sp off val => Sys2Proof.Machine.execRegisterWrite sp off val s
  | .peerRequestArrive link pid addr acc stamp => Sys2Proof.Machine.execPeerRequestArrive link pid addr acc stamp s
  | .hostBar2Access pid write addr bytes => Sys2Proof.Machine.execHostBar2Access pid write addr bytes s
  | .spnUpdDone => Sys2Proof.Machine.execSpnUpdDone s
  | .deviceReset => Sys2Proof.Machine.execDeviceReset s
  | .powerBudgetSet die limitW => Sys2Proof.Machine.execPowerBudgetSet die limitW s
  | .governorPeriod die dieMilliW moduleMilliW => Sys2Proof.Machine.execGovernorPeriod die dieMilliW moduleMilliW s
  | .fabricConnectionFail conn => Sys2Proof.Machine.execFabricConnectionFail conn s
  | .noiseGroupConditioned cid raw => Sys2Proof.Machine.execNoiseGroupConditioned cid raw s
  | .noiseTestFailure cid adaptive => Sys2Proof.Machine.execNoiseTestFailure cid adaptive s
  | .retest cid => Sys2Proof.Machine.execRetest cid s
  | .subKick pid queue k => Sys2Proof.Machine.execSubKick pid queue k s
  | .iqKick pid k => Sys2Proof.Machine.execIqKick pid k s
  | .preemptReq pid => Sys2Proof.Machine.execPreemptReq pid s
  | .resume pid => Sys2Proof.Machine.execResume pid s
  | .priResponse pid io ok => Sys2Proof.Machine.execPriResponse pid io ok s
  | .atsCompletion dest io present => Sys2Proof.Machine.execAtsCompletion dest io present s
  | .peerLinkFail link => Sys2Proof.Machine.execPeerLinkFail link s
  | .secureBoot die image version key sig => Sys2Proof.Machine.execSecureBoot die image version key sig s
  | .spdmRequest r => Sys2Proof.Machine.execSpdmRequest r s
  | .lockInterfaceRequest vf nonce => Sys2Proof.Machine.execLockInterfaceRequest vf nonce s
  | .startInterfaceRequest vf nonce => Sys2Proof.Machine.execStartInterfaceRequest vf nonce s
  | .stopInterfaceRequest vf => Sys2Proof.Machine.execStopInterfaceRequest vf s
  | .getDeviceInterfaceReport vf => Sys2Proof.Machine.execGetDeviceInterfaceReport vf s
  | .lockedRegisterWrite vf reg val => Sys2Proof.Machine.execLockedRegisterWrite vf reg val s
  | .flr vf => Sys2Proof.Machine.execFlr vf s
  | .ideStreamFailure vf => Sys2Proof.Machine.execIdeStreamFailure vf s
  | .partitionReset pid => Sys2Proof.Machine.execPartitionReset pid s
  | .trcCtlWrite cid val => Sys2Proof.Machine.execTrcCtlWrite cid val s
  | .trcRptrWrite cid val => Sys2Proof.Machine.execTrcRptrWrite cid val s
  | .frameRemap chan frame tchan tframe => Sys2Proof.Machine.execFrameRemap chan frame tchan tframe s
  | .channelInterfaceFail chan => Sys2Proof.Machine.execChannelInterfaceFail chan s
  | .spnUpd span => Sys2Proof.Machine.execSpnUpd span s
  | .rcsMigrate die => Sys2Proof.Machine.execRcsMigrate die s
  | .graphAbort pid slot => Sys2Proof.Machine.execGraphAbort pid slot s
  | .chuMtloadEntry pid idx => Sys2Proof.Machine.execChuMtloadEntry pid idx s
  | .fetchAhead wave va => Sys2Proof.Machine.execFetchAhead wave va s
  | .sqsTloadAll pid => Sys2Proof.Machine.execSqsTloadAll pid s
  | .sqsTloadTable pid idx => Sys2Proof.Machine.execSqsTloadTable pid idx s
  | .chuMtloadAll pid => Sys2Proof.Machine.execChuMtloadAll pid s

end Sys2Proof.Machine
end

