-- ==== Sys2Proof/Machine/Schedule.lean ====
section
/-! DEFINITION. What the device does next: the steps of its units that are due, the passage of time (R11, R38, R256, R257), and the turn of the wave that has been chosen (R52, R273). Every step listed as due does nothing where its own conditions do not hold (log 2). -/

namespace Sys2Proof.Machine

/-! The steps that are due, by unit. -/

/-- One outstanding operation of a wave (R53, R55). -/
def duePend (k now : Nat) (p : Pend) : List Instr :=
  if now < p.ready then []
  else if !p.long then [.fixedResultReady k p.id]
  else match p.kind with
    | .load .. => [.loadDataReturn k p.id]
    | .store .. => [.storeVisible k p.id]
    | .cmb .. => [.cmbStatusArrive k p.id]
    | .engine .. => []
    | _ => [.longOpComplete k p.id]

/-- A wave (R29, R30, R88, R274, R279, R382, R385). -/
def dueWave (now k : Nat) (w : Wave) : List Instr :=
  w.pend.flatMap (duePend k now)
    ++ (match w.stat with
      | .sleeping til => if til ≤ now then [.sleepEnd k] else []
      | .exiting => [.waveRetire k]
      | .barWait _ => [.barrierWake k]
      | .dumping .. => [.coreDump w.block]
      | _ => [])
    ++ (match w.yieldTil with | some t => if t ≤ now then [.yieldEnd k] else [] | none => [])
    ++ (match w.run with | some (t, n) => if !w.overdue && 8 * n ≤ now - t then [.waveOverdue k] else [] | none => [])
    ++ (if w.restart then [.regionRestart k] else [])

/-- A request in flight (R181, R219, R227, R371). -/
def dueReq (r : Nat) (q : Req) : List Instr :=
  if q.moved then [.movedResend r]
  else match q.kind with
    | .atomic .. => [.atomicGroup r]
    | .combine .. => [.cmbRequestArrive r]
    | _ => [.homeSliceAccess r]

/-- The lines of an L1 with a byte that has stood 8,192 cycles (R201). -/
def dueLines (now cid : Nat) (c : Core) : List Instr :=
  let old := fun (d : Bool) => ((c.l1.filter (fun e => e.2.dirty == d && decide (e.2.stamp + 8192 ≤ now))).map (fun e => e.1 / 128)).eraseDups
  (old true).map (fun l => .l1DirtyTimeout cid l) ++ (old false).map (fun l => .l1CleanTimeout cid l)

/-- The engines and the trace unit of a core, on a die that begins a cycle or not (R150, R153, R201, R236, R239, R258). -/
def dueCore (s : State) (ds : List Nat) (cid : Nat) (c : Core) : List Instr :=
  let now := s.cyc cid
  (if c.copy.isEmpty then [] else [.copyCmdStart cid])
    ++ c.copy.flatMap (fun x => if !x.started then [] else if x.finished then [.copyCmdComplete cid x.id] else [.copyBytesVisible cid x.id 64])
    ++ (if c.mat.cmds.isEmpty || !ds.contains (didOf cid) then [] else [.matrixCmdStart cid])
    ++ c.mat.cmds.flatMap (fun x => if x.started && !s.matBusy cid x then [.matrixCmdComplete cid x.id] else [])
    ++ (if c.mat.holder.isSome then [.planeRelease cid] else [])
    ++ dueLines now cid c
    ++ (if c.trc.en && ds.contains (didOf cid) && now % 2 ^ (c.trc.syncp + 10) = 0 then [.traceSyncPeriod cid] else [])

/-- Node steps of a type (R286). -/
def nodeEvent (p g n : Nat) : Nat → List Instr
  | 1 => [.nodeLaunch p g n]
  | 2 => [.nodeCopy p g n]
  | 3 => [.nodeSignal p g n]
  | 4 => [.nodeWait p g n]
  | 5 => [.nodeCond p g n]
  | 6 => [.nodeWhile p g n]
  | 7 => [.nodeSolve p g n]
  | 8 => [.nodeEnd p g n]
  | _ => [.nodeLaunch p g n]

/-- A graph slot (R286 to R289): the lowest ready node, the nodes that run, the end. A `WAIT` is read again at least every microsecond. -/
def dueGraph (s : State) (p g : Nat) (x : GraphSlot) : List Instr :=
  if x.stat = 0 then []
  else if x.init.isSome then [.graphGo p g]
  else
    let start := if !mayStart s p g then [] else match readyNodes s p g with
      | n :: _ => match (s.graphRead p g (some n) (s.nodeVa p g n) 64).2 with
        | .ok bs => nodeEvent p g n (nodeType bs)
        | _ => [.nodeLaunch p g n]
      | [] => []
    start ++ x.running.flatMap (fun e =>
      if e.2.ended || e.2.launch.isSome then [.nodeComplete p g e.1]
      else if nodeType e.2.bytes = 4 then (if e.2.polled + 1000 ≤ s.ns then [.waitPoll p g e.1] else [])
      else nodeEvent p g e.1 (nodeType e.2.bytes))
      ++ (if x.stat = 2 then [.graphEnd p g] else [])

/-- Submission queues with a record to fetch, device queues with an entry to start (R259, R270). -/
def dueQueues (p : Nat) (q : Part) : List Instr :=
  q.subs.flatMap (fun e => if e.2.en && decide (e.2.head ≠ e.2.kick) then [.launchStart p e.1] else [])
    ++ ((q.devq.map (·.queue)).eraseDups).map (fun n => .launchStart p (16 + n))

/-- A partition (R223, R228, R260 to R271, R293, R301 to R310, R319 to R322). -/
def duePart (s : State) (p : Nat) (q : Part) : List Instr :=
  (if q.mtbusy.isSome then [.chuMtloadDone p] else [])
    ++ (if q.tbusy.isSome then [.sqsTloadDone p] else [])
    ++ dueQueues p q
    ++ (if q.pstate = 0 && Tbl.any s.launches (fun _ l => l.pidN = p && decide (l.next < l.rc.total)) then [.blockPlace p] else [])
    ++ (if q.saved.isEmpty then [] else [.blockRestore p])
    ++ q.graphs.flatMap (fun e => dueGraph s p e.1 e.2)
    ++ (if Tbl.any s.batches (fun _ b => b.pidN = p && b.stat = .formed) then [.batchDispatch p] else [])
    ++ (if q.pstate = 1 || q.pstate = 2 then [.preemptDeadline p] else [])
    ++ (if q.group ≠ 0 then [.quantumExpire q.group] else [])
    ++ (match q.iqbusy with
      | some c => if c.op = 6 then [.syncCmd p c.rc] else if 1 ≤ c.op && c.op ≤ 3 then [.invalidationComplete p] else []
      | none => [])
    ++ (Tbl.keys q.teardown).map (fun a => .teardownDrainDone p a)

/-- A block: its retirement, or its save (R31, R304). -/
def dueBlock (s : State) (b : Nat) (x : Block) : List Instr :=
  let saving := match s.launch x.launch with | some l => decide ((s.part l.pidN).pstate = 2) | none => false
  (if x.waves.isEmpty then [.blockRetire b] else []) ++ (if saving then [.blockSave b] else [])

/-- A batch (R227, R233). -/
def dueBatch (b : Nat) (x : Batch) : List Instr :=
  match x.stat with
  | .forming => [.batchWindowExpire b]
  | .running => [.batchTimeout b]
  | .formed => []

/-- The SQS of a command processor (R296 to R300). -/
def dueSqs (cp : Nat) (l : List Solve) : List Instr :=
  match l with
  | [] => []
  | x :: _ =>
    (match x.stat with
      | .ready => [.sqsStageLaunch cp]
      | .stage .. => [.sqsModelRun cp]
      | .model _ => [.sqsStageLaunch cp, .sqsErrorLaunch cp]
      | .error _ => [.sqsStepDecide cp]
      | .deciding => [.sqsStepDecide cp]
      | _ => []) ++ [.solveComplete cp]

/-- Memory: one write-back, one drain, the Rasps whose period ends, rows to repair, a frame to remap, the Recasters (R353, R361, R364, R365, R368). -/
def dueMemory (s : State) : List Instr :=
  ((s.l2.filter (fun e => e.2.dirty ≠ 0)).map (fun e => Instr.l2Writeback e.1)).take 1
    ++ (s.deltas.map (fun e => Instr.checkDeltaDrain (e.1 / 2) (e.1 % 2 = 1))).take 1
    ++ (if s.time % 2000 = 0 then (List.range 384).filterMap (fun c =>
          if s.time / 2000 % max 1 (s.chan c).period = 0 then some (Instr.raspRow c) else none) else [])
    ++ s.chans.flatMap (fun e => if e.2.dead then [] else e.2.due.map (fun r => Instr.rowRepair e.1 r))
    ++ s.chans.flatMap (fun e => (e.2.moves.take 1).map (fun f => Instr.rowRepair e.1 (32 * f)))
    ++ s.recasters.flatMap (fun e => if e.2.busy then [Instr.recasterUnit e.1] else [])
    ++ (if s.arm.updBusy.isSome then [Instr.spnUpdDone] else [])

/-- Firmware cores act every 250 µs (R331). -/
def dueFw (s : State) (d : Nat) (f : FwCore) : List Instr :=
  match f.renewed with
  | some t => if t + leaseSpan ≤ s.time then [.leaseLoss d] else if f.polled + 500000 ≤ s.time then [.leaseRenew d] else []
  | none => if f.booted && decide (f.polled + 500000 ≤ s.time) then [.followerPoll d] else []

namespace State

/-- Every step that is due, after the dies `ds` have begun a cycle. -/
def due (s : State) (ds : List Nat) : List Instr :=
  s.waves.flatMap (fun e => dueWave (s.cyc (cidOf e.1)) e.1 e.2)
    ++ s.reqs.flatMap (fun e => dueReq e.1 e.2)
    ++ s.cores.flatMap (fun e => dueCore s ds e.1 e.2)
    ++ s.blocks.flatMap (fun e => dueBlock s e.1 e.2)
    ++ s.batches.flatMap (fun e => dueBatch e.1 e.2)
    ++ s.launches.map (fun e => Instr.launchComplete e.1)
    ++ s.parts.flatMap (fun e => duePart s e.1 e.2)
    ++ s.sqs.flatMap (fun e => dueSqs e.1 e.2)
    ++ dueMemory s
    ++ s.fw.flatMap (fun e => dueFw s e.1 e.2)
    ++ (if s.time % 2048 = 0 then [Instr.seriesTick] else [])

/-! The passage of time. -/

/-- A wave is blocked: at a barrier, in a `sleep`, or by a translation fault (R29). -/
def blockedNow (w : Wave) : Bool :=
  match w.stat with
  | .barWait _ | .sleeping _ | .faulted .. | .trapWait => true
  | _ => false

/-- A wave did not issue in the cycle that ends, and was held (R29). -/
def heldNow (s : State) (k : Nat) (w : Wave) : Bool := decide (w.lastIssue ≠ some (s.cyc (cidOf k))) && w.isReady && standing s k w = 0

/-- A wave did not issue in the cycle that ends, and was held or blocked (R29, R256). -/
def idleNow (s : State) (k : Nat) (w : Wave) : Bool :=
  s.heldNow k w || (decide (w.lastIssue ≠ some (s.cyc (cidOf k))) && blockedNow w)

/-- The captures of a wave count the cycle that ends. -/
def countCycle (s : State) (k : Nat) (w : Wave) : Wave :=
  if w.caps.isEmpty then w
  else
    let h := if s.idleNow k w then 1 else 0
    { w with caps := w.caps.map (fun c => (c.1, { c.2 with resident := c.2.resident + 1, held := c.2.held + h })) }

/-- One cycle's counts are added. -/
def addCounts (a b : List Nat) : List Nat := List.zipWith (· + ·) a b

/-- What a core's series counts of the cycle that ends: busy cycles of its quads, held and blocked cycles of its waves, of its engines (R257). -/
def seriesOf (s : State) (cid : Nat) (c : Core) : List Nat :=
  let now := s.cyc cid
  let ws := s.waves.filter (fun e => cidOf e.1 = cid)
  (List.range 4).map (fun q => if now < (Tbl.getD c.quads q {}).busy then 1 else 0)
    ++ [(ws.filter (fun e => s.heldNow e.1 e.2)).length, (ws.filter (fun e => s.idleNow e.1 e.2 && blockedNow e.2)).length,
        if c.mat.cmds.any (fun x => matResource x.instr = 0 && s.matBusy cid x) then 1 else 0, if c.copy.any (fun x => x.started && !x.finished) then 1 else 0]

/-- The dies whose arithmetic clock ends a cycle in the present half nanosecond (R11): MHz/2000 of a cycle goes by. -/
def ticking (s : State) : List Nat := (List.range 3).filter (fun d => 2000 ≤ (s.die d).phase + (s.die d).mhz)

/-- The counters of the dies that end a cycle (R256, R257). -/
def countAll (s : State) (ds : List Nat) : State :=
  { s with
    waves := Tbl.mapVal (fun k w => if ds.contains (didOf (cidOf k)) then s.countCycle k w else w) s.waves
    cores := Tbl.mapVal (fun cid (c : Core) =>
      if ds.contains (didOf cid) then { c with series := addCounts c.series (s.seriesOf cid c) } else c) s.cores }

/-- Half a nanosecond passes on every die. -/
def advance (s : State) : State :=
  (List.range 3).foldl (fun (s : State) d => s.modDie d (fun x =>
    let p := x.phase + x.mhz
    if 2000 ≤ p then { x with phase := p - 2000, cyc := x.cyc + 1 } else { x with phase := p })) { s with time := s.time + 1 }

/-- The invalidation queues take their next commands (R320). -/
def takeCommands (s : State) : State × List Instr :=
  (Tbl.keys s.parts).foldl (fun (r : State × List Instr) p =>
    let t := r.1.iqTake p
    (t.1, r.2 ++ t.2.toList)) (s, [])

/-- Time goes on by half a nanosecond: clocks, counters, and the steps that are due; the quads of the dies that begin a cycle choose after those. -/
def tick (s : State) : State :=
  let ds := s.ticking
  let s := s.flushLog
  let s := (s.cores.filter (fun e => ds.contains (didOf e.1))).foldl (fun (s : State) e => s.flushTrace e.1) s
  let s := (s.countAll ds).advance
  let due := s.due ds
  let r := s.takeCommands
  { r.1 with fresh := ds, inbox := s.heldIn ++ r.2 ++ r.1.inbox ++ due, heldIn := [] }

/-- The trace units of the dies that begin a cycle and drop packets resume if they can, before anything issues (R254). -/
def resumeTraces (s : State) : State :=
  (s.cores.filter (fun e => s.fresh.contains (didOf e.1) && e.2.trc.dropping)).foldl (fun (s : State) e => s.traceResume e.1) s

/-- The quads of the dies that have begun a cycle, those with a wave. -/
def listQuads (s : State) : State :=
  let t := s.resumeTraces
  { t with
    fresh := []
    todo := t.cores.flatMap (fun e => if s.fresh.contains (didOf e.1) then
      (List.range 4).filterMap (fun q => if (Tbl.getD e.2.quads q {}).all.isEmpty then none else some (e.1, q)) else []) }

/-! The turn of a chosen wave. -/

/-- A deferred fault is delivered before the wave's next instruction (R185, R339, R342). -/
def deliverDeferred (s : State) (k : Nat) (w : Wave) (d : DFault) (rest : List DFault) : State :=
  { (s.modWave k (fun w => { w with deferred := rest })).deliverTrap k
      { cls := d.cls, reason := d.reason, mask := d.mask, addr := d.addr, ipc := d.pc, epc := w.pc, deferred := true, seq := d.seq } with cur := none }

/-- R59: the first check that fails of a word that no wave could run: those of the word, and those that depend on the wave that meets it. -/
def wordReason (s : State) (k : Nat) (w : Wave) (word : IWord) : Option Nat :=
  let c : Ctx := { s := s, k := k, w := w, h := (Fields.ofWord word).h, act := 0, id := 0 }
  firstReason (illegalReason w.vregs w.sregs word) (match lenient word with
    | some l => match l.instr with
      | .vidx _ d _ n _ => if (Fields.ofWord word).b.toNat < 16 then vidxIllegal d n.toNat c else none
      | .vshfl _ _ x _ _ _ => shflIllegal x c
      | _ => none
    | none => none)

/-- The chosen wave's turn: the state, and the instruction that it executes, if its fetch gives one (R52, R59, R338). -/
def waveTurn (s : State) (k : Nat) : State × Option Instr :=
  match s.wave k with
  | none => ({ s with cur := none }, none)
  | some w =>
    if !w.isReady then ({ s with cur := none }, none)
    else match w.deferred, w.inHandler with
      | d :: rest, false => (s.deliverDeferred k w d rest, none)
      | _, _ =>
        match s.fetch k w with
        | (s, .trap r) => ({ s.deliverTrap k (preciseTrap w 1 r allLanes) with cur := none }, none)
        | (s, .miss lvl page) => ({ s.blockFetch k w lvl page with cur := none }, none)
        | (s, .word word) =>
          match decode word with
          | some i => (s, some i)
          | none => ({ s.trapIssue k w (preciseTrap w 2 ((s.wordReason k w word).getD 1) allLanes) with cur := none }, none)

/-- What comes next (log 2): a step of a unit, the chosen wave's turn, the choice of a quad, or the passage of time. -/
def turn (s : State) : State × Option Instr :=
  match s.inbox with
  | i :: rest => ({ s with inbox := rest }, some i)
  | [] =>
    match s.cur with
    | some k => s.waveTurn k
    | none =>
      match s.todo with
      | (cid, q) :: _ => (s, some (.issueSelect cid q))
      | [] => (if s.fresh.isEmpty then s.tick else s.listQuads, none)

end State

end Sys2Proof.Machine
end

