-- ==== Sys2Proof/Machine/Step.lean ====
section
/-! DEFINITION. One step of the device, and a state whose next step runs a given instruction word. -/

namespace Sys2Proof.Machine

/-- One step: what comes next, and the instruction or unit step that it runs, if any. -/
def step (s : State) : Host.Outcome State Fault Refusal :=
  match s.turn with
  | (t, some i) => exec i t
  | (t, none) => .next t

/-- R49, R326: a page of partition 0 at virtual address 0, in the address space 0, that a core's TLB holds. -/
def fetchPage : TlbE := { pasid := 0, va := 0, log := 16, loc := 0, peer := 0, base := 0, w := true, x := true }

/-- The state with an instruction placed where a chosen wave fetches next (log 1): wave 0 of core 0 stands at virtual address 0, whose page and line are present, and it has been chosen. -/
def State.withFetchWord (s : State) (nbits w : Nat) : State :=
  let bytes := bytesOfWord (BitVec.ofNat 96 (w % 2 ^ nbits))
  let wave : Wave := { pidN := 0, pasid := 0, vregs := 512, sregs := 128 }
  { s with
    waves := Tbl.set s.waves 0 wave
    cores := Tbl.set s.cores 0 { s.core 0 with tlb := fetchPage :: (s.core 0).tlb, icache := (s.core 0).icache.filter (fun e => !(e.1 = 0 && e.2.1 = 0)) }
    arm := { s.arm with spans := Tbl.set s.arm.spans 0 { layout := 0, stat := 1, owner := 0 }, layouts := Tbl.set s.arm.layouts 0 (List.range 10) }
    mem := Memory.writeBytes s.mem 0 bytes
    l2 := Tbl.set s.l2 0 { old := Memory.readBytes s.mem 0 128 }
    badLines := s.badLines.filter (· ≠ 0)
    cur := some 0, inbox := [] }

end Sys2Proof.Machine
end

