-- ==== Sys2Proof/Laws/Decode.lean ====
section
/-! SUPPORT. The codes of R43 to R51 read back what was written, field by field, and when a word decodes. -/

namespace Sys2Proof
theorem Fields.ofWord_toWord (f : Fields) : Fields.ofWord f.toWord = f := by
  obtain ⟨opc, mod, d, a, b, c, ⟨fh, lut, ga, gb, gc, stall, yld, wait, set⟩⟩ := f
  simp only [Fields.ofWord, Fields.toWord, Fields.mk.injEq, Hints.mk.injEq]
  refine ⟨?_, ?_, ?_, ?_, ?_, ?_, ?_, ?_, ?_, ?_, ?_, ?_, ?_, ?_, ?_⟩ 
  case refine_13 => simp only [BitVec.getLsbD_cast, BitVec.getLsbD_append]; simp
  all_goals
    apply BitVec.eq_of_getLsbD_eq
    intro i hi
    simp only [BitVec.getLsbD_extractLsb', BitVec.getLsbD_cast, BitVec.getLsbD_append, hi, decide_true, Bool.true_and]
    repeat rw [if_neg (by omega)]
    first | (rw [if_pos (by omega)]; congr 1; omega) | (congr 1; omega)
end Sys2Proof
namespace Sys2Proof
@[simp] theorem Opd.ofCode_code (o : Opd) : Opd.ofCode o.code = some o := by
  cases o with
  | v n =>
    have h : (BitVec.ofNat 10 n.val).toNat = n.val := by simp; omega
    simp [Opd.code, Opd.ofCode, h]
  | s n =>
    have h : (BitVec.ofNat 10 (0x200 + n.val)).toNat = 0x200 + n.val := by simp; omega
    have := n.isLt
    simp only [Opd.code, Opd.ofCode, h]
    rw [dif_neg (by omega), dif_pos (by omega)]
    simp
  | int n => revert n; decide
  | fp n => revert n; decide
  | _ => simp [Opd.code, Opd.ofCode]
@[simp] theorem opd_code (o : Opd) : opd o.code = o := by simp [opd, Opd.ofCode_code]
@[simp] theorem Ty.ofCode_code (t : Ty) : Ty.ofCode t.code = t := by cases t <;> rfl
@[simp] theorem PairF.ofCode_code (p : PairF) : PairF.ofCode p.code = p := by
  obtain ⟨x, y, z⟩ := p
  revert x y z; decide
@[simp] theorem FCtl.ofCode_code (p : FCtl) : FCtl.ofCode p.code = p := by
  obtain ⟨x, y, z⟩ := p
  revert x y z; decide
@[simp] theorem EngOrd.ofCode_code (p : EngOrd) : EngOrd.ofCode p.code = p := by
  obtain ⟨x, y, z⟩ := p
  revert x y z; decide
@[simp] theorem BarF.ofCode_code (p : BarF) : BarF.ofCode p.code = p := by
  obtain ⟨x, y⟩ := p
  revert x y; decide

@[simp] theorem Space.ofCode_code (p : Space) : Space.ofCode p.code = p := by cases p <;> rfl
@[simp] theorem MSize.ofCode_code (p : MSize) : MSize.ofCode p.code = some p := by cases p <;> rfl
@[simp] theorem Scope.ofCode_code (p : Scope) : Scope.ofCode p.code = some p := by cases p <;> rfl
@[simp] theorem FenceK.ofCode_code (p : FenceK) : FenceK.ofCode p.code = some p := by cases p <;> rfl
@[simp] theorem ShflMode.ofCode_code (p : ShflMode) : ShflMode.ofCode p.code = p := by cases p <;> rfl
@[simp] theorem AOp.ofCode_code (p : AOp) : AOp.ofCode p.code = some p := by cases p <;> rfl

@[simp] theorem rawBits_raw {n : Nat} (_h : n ≤ 10) (x : BitVec n) : rawBits n (raw x) = x := by
  apply BitVec.eq_of_getLsbD_eq
  intro i hi
  simp [rawBits, raw, hi]; intro; omega
@[simp] theorem rawZero_raw {n : Nat} (_h : n ≤ 10) (x : BitVec n) : rawZero n (raw x) = true := by
  have := x.isLt
  simp [rawZero, raw, BitVec.toNat_setWidth]
  exact Nat.lt_of_le_of_lt (Nat.mod_le ..) this
@[simp] theorem imm_split (x : BitVec 20) : (immHi x ++ immLo x).cast (by decide : 10 + 10 = 20) = x := by
  apply BitVec.eq_of_getLsbD_eq
  intro i hi
  simp only [immHi, immLo, BitVec.getLsbD_cast, BitVec.getLsbD_append, BitVec.getLsbD_extractLsb']
  split
  · simp [*]
  · rw [show 10 + (i - 10) = i from by omega]; simp; omega

/-- `lenient` on fields. -/
def lenientF (f : Fields) : Option Lenient :=
  let o := f.opc.toNat
  if o < 0x40 then f.scalarRow
  else if o < 0x60 then f.predRow
  else if o < 0x80 then f.controlRow
  else if o < 0x99 then f.vecRow
  else if o < 0xE0 then f.laneRow
  else if o < 0x100 then f.floatRow
  else if o < 0x1A8 then f.memRow
  else if 0x1B0 ≤ o && o < 0x1B8 then f.memRow
  else if o < 0x1D0 then f.syncRow
  else f.engineRow

theorem decode_toWord {f : Fields} {l : Lenient} {i : Instr} (hwf : i.wf = true) (hl : lenientF f = some l) (hi : l.instr = i) (hm : l.mod = true)
    (hr : l.raw = true) (hu : l.used.all (fun c => (Opd.ofCode c).isSome) = true) (hn : l.unused.all (· == 0x3FF) = true)
    (hh : i.hints = some f.h) : decode f.toWord = some i := by
  have h1 : lenient f.toWord = some l := by
    unfold lenient; rw [Fields.ofWord_toWord]; exact hl
  subst hi
  have hw : l.instr.illegal 512 128 = none := by simpa [Instr.wf] using hwf
  have h2 : ¬ 12 < f.h.set.toNat ∧ l.instr.modOk = true := by
    unfold Instr.illegal at hw
    rw [hh] at hw
    simp only at hw
    split at hw
    · cases hw
    · rename_i h3
      split at hw
      · cases hw
      · rename_i h4; exact ⟨h3, by simpa using h4⟩
  have h3 : illegalReason 512 128 f.toWord = none := by
    unfold illegalReason
    rw [h1, Fields.ofWord_toWord]
    have hu' : l.used.any (fun c => (Opd.ofCode c).isNone) = false := by
      rw [List.any_eq_false]; intro c hc
      have := List.all_eq_true.1 hu c hc
      cases h : Opd.ofCode c <;> simp_all
    have hn' : l.unused.any (fun c => c != 0x3FF) = false := by
      rw [List.any_eq_false]; intro c hc
      have := List.all_eq_true.1 hn c hc
      simp_all
    simp only [h2.1, h2.2, hm, hr, hu', hn', hw]; rfl
  simp [decode, h3, h1]

@[simp] theorem ext_cut (x : BitVec 4) : (ext x : BitVec 5).extractLsb' 0 4 = x := by revert x; decide
@[simp] theorem ext_getLsbD4 (x : BitVec 4) : (ext x : BitVec 5).getLsbD 4 = false := by revert x; decide
@[simp] theorem ext_getElem4 (x : BitVec 4) : (ext x : BitVec 5)[4] = false := by revert x; decide
@[simp] theorem flag4_getLsbD (b : Bool) (x : BitVec 4) : (BitVec.ofBool b ++ x).getLsbD 4 = b := by revert b x; decide
@[simp] theorem flag4_getElem (b : Bool) (x : BitVec 4) : (BitVec.ofBool b ++ x : BitVec 5)[4] = b := by revert b x; decide
@[simp] theorem flag4_cut (b : Bool) (x : BitVec 4) : (BitVec.ofBool b ++ x).extractLsb' 0 4 = x := by revert b x; decide
@[simp] theorem append_cut_lo {n m : Nat} (x : BitVec n) (y : BitVec m) : (x ++ y).extractLsb' 0 m = y := by
  apply BitVec.eq_of_getLsbD_eq; intro i hi; simp [BitVec.getLsbD_append, hi]
@[simp] theorem append_cut_hi {n m : Nat} (x : BitVec n) (y : BitVec m) : (x ++ y).extractLsb' m n = x := by
  apply BitVec.eq_of_getLsbD_eq; intro i hi; simp [BitVec.getLsbD_append, hi]
theorem all8 : ∀ x : BitVec 3, x = 0 ∨ x = 1 ∨ x = 2 ∨ x = 3 ∨ x = 4 ∨ x = 5 ∨ x = 6 ∨ x = 7 := by decide
@[simp] theorem imm_split' (x : BitVec 20) : (immHi x ++ immLo x : BitVec 20) = x := imm_split x
@[simp] theorem lo32 (x : BitVec 3) (y : BitVec 2) : (x ++ y : BitVec 5).extractLsb' 0 2 = y := by revert x y; decide
@[simp] theorem hi32 (x : BitVec 3) (y : BitVec 2) : (x ++ y : BitVec 5).extractLsb' 2 3 = x := by revert x y; decide
@[simp] theorem lo23 (x : BitVec 2) (y : BitVec 3) : (x ++ y : BitVec 5).extractLsb' 0 3 = y := by revert x y; decide
@[simp] theorem hi23 (x : BitVec 2) (y : BitVec 3) : (x ++ y : BitVec 5).extractLsb' 3 2 = x := by revert x y; decide
@[simp] theorem code433_at0 (x : BitVec 4) (y z : BitVec 3) : (x ++ y ++ z : BitVec 10).extractLsb' 0 3 = z := by revert x y z; decide
@[simp] theorem code433_at3 (x : BitVec 4) (y z : BitVec 3) : (x ++ y ++ z : BitVec 10).extractLsb' 3 3 = y := by revert x y z; decide
@[simp] theorem code433_at6 (x : BitVec 4) (y z : BitVec 3) : (x ++ y ++ z : BitVec 10).extractLsb' 6 4 = x := by revert x y z; decide
@[simp] theorem code334_at0 (x y : BitVec 3) (z : BitVec 4) : (x ++ y ++ z : BitVec 10).extractLsb' 0 4 = z := by revert x y z; decide
@[simp] theorem code334_at4 (x y : BitVec 3) (z : BitVec 4) : (x ++ y ++ z : BitVec 10).extractLsb' 4 3 = y := by revert x y z; decide
@[simp] theorem code334_at7 (x y : BitVec 3) (z : BitVec 4) : (x ++ y ++ z : BitVec 10).extractLsb' 7 3 = x := by revert x y z; decide
theorem credMod_cut (x y : BitVec 2) : (0#1 ++ x ++ y : BitVec 5).extractLsb' 0 2 = y ∧ (0#1 ++ x ++ y : BitVec 5).extractLsb' 2 2 = x ∧ (0#1 ++ x ++ y : BitVec 5)[4] = false := by revert x y; decide
theorem mldsB_cut (x : BitVec 2) (b : Bool) : (0#7 ++ BitVec.ofBool b ++ x : BitVec 10).extractLsb' 0 2 = x ∧ (0#7 ++ BitVec.ofBool b ++ x : BitVec 10)[2] = b ∧ rawZero 3 (0#7 ++ BitVec.ofBool b ++ x) = true := by revert x b; decide
theorem mmsD_cut (x : BitVec 3) (p q r s : Bool) : let w : BitVec 10 := 0#3 ++ BitVec.ofBool s ++ BitVec.ofBool r ++ BitVec.ofBool q ++ BitVec.ofBool p ++ x; w.extractLsb' 0 3 = x ∧ w[3] = p ∧ w[4] = q ∧ w[5] = r ∧ w[6] = s ∧ rawZero 7 w = true := by revert x p q r s; decide
theorem mdrainD_cut (x : BitVec 3) (p : Bool) (y : BitVec 2) : let w : BitVec 10 := 0#4 ++ y ++ BitVec.ofBool p ++ x; w.extractLsb' 0 3 = x ∧ w[3] = p ∧ w.extractLsb' 4 2 = y ∧ rawZero 6 w = true := by revert x p y; decide
@[simp] theorem raw3_cut (x : BitVec 3) : (raw x).extractLsb' 0 3 = x := by revert x; decide
@[simp] theorem flag4_literal (x : BitVec 4) : (0#1 ++ x : BitVec 5).extractLsb' 0 4 = x ∧ (1#1 ++ x : BitVec 5).extractLsb' 0 4 = x ∧ (0#1 ++ x : BitVec 5)[4] = false ∧ (1#1 ++ x : BitVec 5)[4] = true := by revert x; decide
theorem Kind.allows_unused (o : Opd) : Kind.unused.allows o = true ↔ o = .zero := by cases o <;> simp [Kind.allows, Kind.unused]
theorem allows_of_wf {i : Instr} (h : i.wf = true) : i.operands.all (fun o => o.1.allows o.2) = true := by
  have hw : i.illegal 512 128 = none := by simpa [Instr.wf] using h
  unfold Instr.illegal at hw
  split at hw
  · cases hw
  · split at hw
    · cases hw
    · split at hw
      · cases hw
      · split at hw
        · cases hw
        · rename_i h; simpa using h
theorem split85 (t : BitVec 8) : t.extractLsb' 5 3 ++ t.extractLsb' 0 5 = t := by revert t; decide
@[simp] theorem FCtl.rawZero_code (p : FCtl) : rawZero 7 p.code = true := by obtain ⟨x, y, z⟩ := p; revert x y z; decide
@[simp] theorem EngOrd.rawZero_code (p : EngOrd) : rawZero 5 p.code = true := by obtain ⟨x, y, z⟩ := p; revert x y z; decide
@[simp] theorem BarF.rawZero_code (p : BarF) : rawZero 8 p.code = true := by obtain ⟨x, y⟩ := p; revert x y; decide
end Sys2Proof
end

