-- ==== Sys2Proof/Laws/PerInstr.lean ====
section
/-! SUPPORT. The family RoundTrip: for each constructor of `Instr`, the word that the encoder gives a well-formed instruction decodes to it. -/

namespace Sys2Proof.Laws.RoundTrip

/-- The word of a well-formed instruction decodes to the instruction (R42 to R59). A step of the device has no word: the encoder answers 0 for it, which no instruction word is. -/
def Statement (i : Instr) : Prop := i.wf = true → encode i ≠ 0 → decode (encode i) = some i

set_option linter.unusedSimpArgs false

theorem nop (h : Hints) : Statement (.nop h) := by
  intro hw _
  refine decode_toWord hw rfl ?_ ?_ ?_ ?_ ?_ rfl <;> simp [Fields.ty, Fields.m4, Fields.imm]
theorem sadd (h : Hints) (t : Ty) (d : Opd) (a : Opd) (b : Opd) : Statement (.sadd h t d a b) := by
  intro hw _
  refine decode_toWord hw rfl ?_ ?_ ?_ ?_ ?_ rfl <;> simp [Fields.ty, Fields.m4, Fields.imm]
theorem saddc (h : Hints) (d : Opd) (a : Opd) (b : Opd) (k : BitVec 4) : Statement (.saddc h d a b k) := by
  intro hw _
  refine decode_toWord hw rfl ?_ ?_ ?_ ?_ ?_ rfl <;> simp [Fields.ty, Fields.m4, Fields.imm]
theorem ssub (h : Hints) (t : Ty) (d : Opd) (a : Opd) (b : Opd) : Statement (.ssub h t d a b) := by
  intro hw _
  refine decode_toWord hw rfl ?_ ?_ ?_ ?_ ?_ rfl <;> simp [Fields.ty, Fields.m4, Fields.imm]
theorem smul (h : Hints) (t : Ty) (d : Opd) (a : Opd) (b : Opd) : Statement (.smul h t d a b) := by
  intro hw _
  refine decode_toWord hw rfl ?_ ?_ ?_ ?_ ?_ rfl <;> simp [Fields.ty, Fields.m4, Fields.imm]
theorem smulh (h : Hints) (t : Ty) (d : Opd) (a : Opd) (b : Opd) : Statement (.smulh h t d a b) := by
  intro hw _
  refine decode_toWord hw rfl ?_ ?_ ?_ ?_ ?_ rfl <;> simp [Fields.ty, Fields.m4, Fields.imm]
theorem sdiv (h : Hints) (t : Ty) (d : Opd) (a : Opd) (b : Opd) : Statement (.sdiv h t d a b) := by
  intro hw _
  refine decode_toWord hw rfl ?_ ?_ ?_ ?_ ?_ rfl <;> simp [Fields.ty, Fields.m4, Fields.imm]
theorem srem (h : Hints) (t : Ty) (d : Opd) (a : Opd) (b : Opd) : Statement (.srem h t d a b) := by
  intro hw _
  refine decode_toWord hw rfl ?_ ?_ ?_ ?_ ?_ rfl <;> simp [Fields.ty, Fields.m4, Fields.imm]
theorem sand (h : Hints) (t : Ty) (d : Opd) (a : Opd) (b : Opd) : Statement (.sand h t d a b) := by
  intro hw _
  refine decode_toWord hw rfl ?_ ?_ ?_ ?_ ?_ rfl <;> simp [Fields.ty, Fields.m4, Fields.imm]
theorem sor (h : Hints) (t : Ty) (d : Opd) (a : Opd) (b : Opd) : Statement (.sor h t d a b) := by
  intro hw _
  refine decode_toWord hw rfl ?_ ?_ ?_ ?_ ?_ rfl <;> simp [Fields.ty, Fields.m4, Fields.imm]
theorem sxor (h : Hints) (t : Ty) (d : Opd) (a : Opd) (b : Opd) : Statement (.sxor h t d a b) := by
  intro hw _
  refine decode_toWord hw rfl ?_ ?_ ?_ ?_ ?_ rfl <;> simp [Fields.ty, Fields.m4, Fields.imm]
theorem sandn (h : Hints) (t : Ty) (d : Opd) (a : Opd) (b : Opd) : Statement (.sandn h t d a b) := by
  intro hw _
  refine decode_toWord hw rfl ?_ ?_ ?_ ?_ ?_ rfl <;> simp [Fields.ty, Fields.m4, Fields.imm]
theorem sshl (h : Hints) (t : Ty) (d : Opd) (a : Opd) (b : Opd) : Statement (.sshl h t d a b) := by
  intro hw _
  refine decode_toWord hw rfl ?_ ?_ ?_ ?_ ?_ rfl <;> simp [Fields.ty, Fields.m4, Fields.imm]
theorem sshr (h : Hints) (t : Ty) (d : Opd) (a : Opd) (b : Opd) : Statement (.sshr h t d a b) := by
  intro hw _
  refine decode_toWord hw rfl ?_ ?_ ?_ ?_ ?_ rfl <;> simp [Fields.ty, Fields.m4, Fields.imm]
theorem ssra (h : Hints) (t : Ty) (d : Opd) (a : Opd) (b : Opd) : Statement (.ssra h t d a b) := by
  intro hw _
  refine decode_toWord hw rfl ?_ ?_ ?_ ?_ ?_ rfl <;> simp [Fields.ty, Fields.m4, Fields.imm]
theorem smin (h : Hints) (t : Ty) (d : Opd) (a : Opd) (b : Opd) : Statement (.smin h t d a b) := by
  intro hw _
  refine decode_toWord hw rfl ?_ ?_ ?_ ?_ ?_ rfl <;> simp [Fields.ty, Fields.m4, Fields.imm]
theorem smax (h : Hints) (t : Ty) (d : Opd) (a : Opd) (b : Opd) : Statement (.smax h t d a b) := by
  intro hw _
  refine decode_toWord hw rfl ?_ ?_ ?_ ?_ ?_ rfl <;> simp [Fields.ty, Fields.m4, Fields.imm]
theorem sabs (h : Hints) (t : Ty) (d : Opd) (a : Opd) : Statement (.sabs h t d a) := by
  intro hw _
  refine decode_toWord hw rfl ?_ ?_ ?_ ?_ ?_ rfl <;> simp [Fields.ty, Fields.m4, Fields.imm]
theorem sbfe (h : Hints) (t : Ty) (d : Opd) (a : Opd) (b : Opd) : Statement (.sbfe h t d a b) := by
  intro hw _
  refine decode_toWord hw rfl ?_ ?_ ?_ ?_ ?_ rfl <;> simp [Fields.ty, Fields.m4, Fields.imm]
theorem sbfi (h : Hints) (d : Opd) (a : Opd) (b : Opd) (c : Opd) : Statement (.sbfi h d a b c) := by
  intro hw _
  refine decode_toWord hw rfl ?_ ?_ ?_ ?_ ?_ rfl <;> simp [Fields.ty, Fields.m4, Fields.imm]
theorem spopc (h : Hints) (t : Ty) (d : Opd) (a : Opd) : Statement (.spopc h t d a) := by
  intro hw _
  refine decode_toWord hw rfl ?_ ?_ ?_ ?_ ?_ rfl <;> simp [Fields.ty, Fields.m4, Fields.imm]
theorem sclz (h : Hints) (t : Ty) (d : Opd) (a : Opd) : Statement (.sclz h t d a) := by
  intro hw _
  refine decode_toWord hw rfl ?_ ?_ ?_ ?_ ?_ rfl <;> simp [Fields.ty, Fields.m4, Fields.imm]
theorem sffs (h : Hints) (t : Ty) (d : Opd) (a : Opd) : Statement (.sffs h t d a) := by
  intro hw _
  refine decode_toWord hw rfl ?_ ?_ ?_ ?_ ?_ rfl <;> simp [Fields.ty, Fields.m4, Fields.imm]
theorem smov (h : Hints) (t : Ty) (d : Opd) (a : Opd) : Statement (.smov h t d a) := by
  intro hw _
  refine decode_toWord hw rfl ?_ ?_ ?_ ?_ ?_ rfl <;> simp [Fields.ty, Fields.m4, Fields.imm]
theorem smovil (h : Hints) (d : Opd) (imm : BitVec 20) : Statement (.smovil h d imm) := by
  intro hw _
  refine decode_toWord hw rfl ?_ ?_ ?_ ?_ ?_ rfl <;> simp [Fields.ty, Fields.m4, Fields.imm]
theorem smovih (h : Hints) (d : Opd) (imm : BitVec 20) : Statement (.smovih h d imm) := by
  intro hw _
  refine decode_toWord hw rfl ?_ ?_ ?_ ?_ ?_ rfl <;> simp [Fields.ty, Fields.m4, Fields.imm]
theorem ssel (h : Hints) (t : Ty) (d : Opd) (a : Opd) (b : Opd) (k : BitVec 4) : Statement (.ssel h t d a b k) := by
  intro hw _
  refine decode_toWord hw rfl ?_ ?_ ?_ ?_ ?_ rfl <;> simp [Fields.ty, Fields.m4, Fields.imm]
theorem scmp (h : Hints) (ty : BitVec 2) (cond : BitVec 3) (pr : PairF) (a : Opd) (b : Opd) : Statement (.scmp h ty cond pr a b) := by
  intro hw _
  refine decode_toWord hw rfl ?_ ?_ ?_ ?_ ?_ rfl <;> simp [Fields.ty, Fields.m4, Fields.imm]
theorem pgetP (h : Hints) (d : Opd) (k : BitVec 4) : Statement (.pgetP h d k) := by
  intro hw _
  refine decode_toWord hw rfl ?_ ?_ ?_ ?_ ?_ rfl <;> simp [Fields.ty, Fields.m4, Fields.imm]
theorem pgetQ (h : Hints) (d : Opd) : Statement (.pgetQ h d) := by
  intro hw _
  refine decode_toWord hw rfl ?_ ?_ ?_ ?_ ?_ rfl <;> simp [Fields.ty, Fields.m4, Fields.imm]
theorem pputP (h : Hints) (k : BitVec 4) (a : Opd) : Statement (.pputP h k a) := by
  intro hw _
  refine decode_toWord hw rfl ?_ ?_ ?_ ?_ ?_ rfl <;> simp [Fields.ty, Fields.m4, Fields.imm]
theorem pputQ (h : Hints) (a : Opd) : Statement (.pputQ h a) := by
  intro hw _
  refine decode_toWord hw rfl ?_ ?_ ?_ ?_ ?_ rfl <;> simp [Fields.ty, Fields.m4, Fields.imm]
theorem qany (h : Hints) (d : BitVec 4) (k : BitVec 4) : Statement (.qany h d k) := by
  intro hw _
  refine decode_toWord hw rfl ?_ ?_ ?_ ?_ ?_ rfl <;> simp [Fields.ty, Fields.m4, Fields.imm]
theorem qall (h : Hints) (d : BitVec 4) (k : BitVec 4) : Statement (.qall h d k) := by
  intro hw _
  refine decode_toWord hw rfl ?_ ?_ ?_ ?_ ?_ rfl <;> simp [Fields.ty, Fields.m4, Fields.imm]
theorem pcnt (h : Hints) (d : Opd) (k : BitVec 4) : Statement (.pcnt h d k) := by
  intro hw _
  refine decode_toWord hw rfl ?_ ?_ ?_ ?_ ?_ rfl <;> simp [Fields.ty, Fields.m4, Fields.imm]
theorem elect (h : Hints) (d : BitVec 4) : Statement (.elect h d) := by
  intro hw _
  refine decode_toWord hw rfl ?_ ?_ ?_ ?_ ?_ rfl <;> simp [Fields.ty, Fields.m4, Fields.imm]
theorem setpl (h : Hints) (a : Opd) : Statement (.setpl h a) := by
  intro hw _
  refine decode_toWord hw rfl ?_ ?_ ?_ ?_ ?_ rfl <;> simp [Fields.ty, Fields.m4, Fields.imm]
theorem getpl (h : Hints) (d : Opd) : Statement (.getpl h d) := by
  intro hw _
  refine decode_toWord hw rfl ?_ ?_ ?_ ?_ ?_ rfl <;> simp [Fields.ty, Fields.m4, Fields.imm]
theorem plop (h : Hints) (t : BitVec 8) (d : BitVec 4) (a : BitVec 4) (b : BitVec 4) (c : BitVec 4) : Statement (.plop h t d a b c) := by
  intro hw _
  obtain ⟨x, y, rfl⟩ : ∃ (x : BitVec 3) (y : BitVec 5), t = x ++ y := ⟨t.extractLsb' 5 3, t.extractLsb' 0 5, (split85 t).symm⟩
  have hx : (x ++ y).extractLsb' 5 3 = x := append_cut_hi x y
  have hy : (x ++ y).extractLsb' 0 5 = y := append_cut_lo x y
  rcases (all8 x : x = 0 ∨ x = 1 ∨ x = 2 ∨ x = 3 ∨ x = 4 ∨ x = 5 ∨ x = 6 ∨ x = 7) with h | h | h | h | h | h | h | h
  all_goals
    subst h
    simp only [encode, hx, hy]
    refine decode_toWord hw rfl ?_ ?_ ?_ ?_ ?_ rfl <;> simp [Fields.table, Fields.ty, Fields.m4, Fields.imm]
theorem qlop (h : Hints) (t : BitVec 8) (d : BitVec 4) (a : BitVec 4) (b : BitVec 4) (c : BitVec 4) : Statement (.qlop h t d a b c) := by
  intro hw _
  obtain ⟨x, y, rfl⟩ : ∃ (x : BitVec 3) (y : BitVec 5), t = x ++ y := ⟨t.extractLsb' 5 3, t.extractLsb' 0 5, (split85 t).symm⟩
  have hx : (x ++ y).extractLsb' 5 3 = x := append_cut_hi x y
  have hy : (x ++ y).extractLsb' 0 5 = y := append_cut_lo x y
  rcases (all8 x : x = 0 ∨ x = 1 ∨ x = 2 ∨ x = 3 ∨ x = 4 ∨ x = 5 ∨ x = 6 ∨ x = 7) with h | h | h | h | h | h | h | h
  all_goals
    subst h
    simp only [encode, hx, hy]
    refine decode_toWord hw rfl ?_ ?_ ?_ ?_ ?_ rfl <;> simp [Fields.table, Fields.ty, Fields.m4, Fields.imm]
theorem br (h : Hints) (imm : BitVec 20) : Statement (.br h imm) := by
  intro hw _
  refine decode_toWord hw rfl ?_ ?_ ?_ ?_ ?_ rfl <;> simp [Fields.ty, Fields.m4, Fields.imm]
theorem brx (h : Hints) (a : Opd) : Statement (.brx h a) := by
  intro hw _
  refine decode_toWord hw rfl ?_ ?_ ?_ ?_ ?_ rfl <;> simp [Fields.ty, Fields.m4, Fields.imm]
theorem call (h : Hints) (d : Opd) (imm : BitVec 20) : Statement (.call h d imm) := by
  intro hw _
  refine decode_toWord hw rfl ?_ ?_ ?_ ?_ ?_ rfl <;> simp [Fields.ty, Fields.m4, Fields.imm]
theorem ret (h : Hints) (a : Opd) : Statement (.ret h a) := by
  intro hw _
  refine decode_toWord hw rfl ?_ ?_ ?_ ?_ ?_ rfl <;> simp [Fields.ty, Fields.m4, Fields.imm]
theorem bexz (h : Hints) (imm : BitVec 20) : Statement (.bexz h imm) := by
  intro hw _
  refine decode_toWord hw rfl ?_ ?_ ?_ ?_ ?_ rfl <;> simp [Fields.ty, Fields.m4, Fields.imm]
theorem exit (h : Hints) : Statement (.exit h) := by
  intro hw _
  refine decode_toWord hw rfl ?_ ?_ ?_ ?_ ?_ rfl <;> simp [Fields.ty, Fields.m4, Fields.imm]
theorem yield (h : Hints) : Statement (.yield h) := by
  intro hw _
  refine decode_toWord hw rfl ?_ ?_ ?_ ?_ ?_ rfl <;> simp [Fields.ty, Fields.m4, Fields.imm]
theorem sleep (h : Hints) (a : Opd) : Statement (.sleep h a) := by
  intro hw _
  refine decode_toWord hw rfl ?_ ?_ ?_ ?_ ?_ rfl <;> simp [Fields.ty, Fields.m4, Fields.imm]
theorem trap (h : Hints) (imm : BitVec 20) : Statement (.trap h imm) := by
  intro hw _
  refine decode_toWord hw rfl ?_ ?_ ?_ ?_ ?_ rfl <;> simp [Fields.ty, Fields.m4, Fields.imm]
theorem brk (h : Hints) (imm : BitVec 20) : Statement (.brk h imm) := by
  intro hw _
  refine decode_toWord hw rfl ?_ ?_ ?_ ?_ ?_ rfl <;> simp [Fields.ty, Fields.m4, Fields.imm]
theorem rte (h : Hints) (a : Opd) : Statement (.rte h a) := by
  intro hw _
  refine decode_toWord hw rfl ?_ ?_ ?_ ?_ ?_ rfl <;> simp [Fields.ty, Fields.m4, Fields.imm]
theorem csrr (h : Hints) (d : Opd) (n : BitVec 20) : Statement (.csrr h d n) := by
  intro hw _
  refine decode_toWord hw rfl ?_ ?_ ?_ ?_ ?_ rfl <;> simp [Fields.ty, Fields.m4, Fields.imm]
theorem csrw (h : Hints) (n : BitVec 20) (a : Opd) : Statement (.csrw h n a) := by
  intro hw _
  refine decode_toWord hw rfl ?_ ?_ ?_ ?_ ?_ rfl <;> simp [Fields.ty, Fields.m4, Fields.imm]
theorem vadd (h : Hints) (t : Ty) (sat : Bool) (d : Opd) (a : Opd) (b : Opd) : Statement (.vadd h t sat d a b) := by
  intro hw _
  refine decode_toWord hw rfl ?_ ?_ ?_ ?_ ?_ rfl <;> simp [Fields.ty, Fields.m4, Fields.imm]
theorem vsub (h : Hints) (t : Ty) (sat : Bool) (d : Opd) (a : Opd) (b : Opd) : Statement (.vsub h t sat d a b) := by
  intro hw _
  refine decode_toWord hw rfl ?_ ?_ ?_ ?_ ?_ rfl <;> simp [Fields.ty, Fields.m4, Fields.imm]
theorem vaddc (h : Hints) (d : Opd) (a : Opd) (b : Opd) (k : BitVec 4) : Statement (.vaddc h d a b k) := by
  intro hw _
  refine decode_toWord hw rfl ?_ ?_ ?_ ?_ ?_ rfl <;> simp [Fields.ty, Fields.m4, Fields.imm]
theorem vsubb (h : Hints) (d : Opd) (a : Opd) (b : Opd) (k : BitVec 4) : Statement (.vsubb h d a b k) := by
  intro hw _
  refine decode_toWord hw rfl ?_ ?_ ?_ ?_ ?_ rfl <;> simp [Fields.ty, Fields.m4, Fields.imm]
theorem vmul (h : Hints) (t : Ty) (d : Opd) (a : Opd) (b : Opd) : Statement (.vmul h t d a b) := by
  intro hw _
  refine decode_toWord hw rfl ?_ ?_ ?_ ?_ ?_ rfl <;> simp [Fields.ty, Fields.m4, Fields.imm]
theorem vmulh (h : Hints) (t : Ty) (d : Opd) (a : Opd) (b : Opd) : Statement (.vmulh h t d a b) := by
  intro hw _
  refine decode_toWord hw rfl ?_ ?_ ?_ ?_ ?_ rfl <;> simp [Fields.ty, Fields.m4, Fields.imm]
theorem vmad (h : Hints) (t : Ty) (d : Opd) (a : Opd) (b : Opd) (c : Opd) : Statement (.vmad h t d a b c) := by
  intro hw _
  refine decode_toWord hw rfl ?_ ?_ ?_ ?_ ?_ rfl <;> simp [Fields.ty, Fields.m4, Fields.imm]
theorem vdot4 (h : Hints) (t : Ty) (sat : Bool) (d : Opd) (a : Opd) (b : Opd) (c : Opd) : Statement (.vdot4 h t sat d a b c) := by
  intro hw _
  refine decode_toWord hw rfl ?_ ?_ ?_ ?_ ?_ rfl <;> simp [Fields.ty, Fields.m4, Fields.imm]
theorem vmin (h : Hints) (t : Ty) (d : Opd) (a : Opd) (b : Opd) : Statement (.vmin h t d a b) := by
  intro hw _
  refine decode_toWord hw rfl ?_ ?_ ?_ ?_ ?_ rfl <;> simp [Fields.ty, Fields.m4, Fields.imm]
theorem vmax (h : Hints) (t : Ty) (d : Opd) (a : Opd) (b : Opd) : Statement (.vmax h t d a b) := by
  intro hw _
  refine decode_toWord hw rfl ?_ ?_ ?_ ?_ ?_ rfl <;> simp [Fields.ty, Fields.m4, Fields.imm]
theorem vabs (h : Hints) (t : Ty) (sat : Bool) (d : Opd) (a : Opd) : Statement (.vabs h t sat d a) := by
  intro hw _
  refine decode_toWord hw rfl ?_ ?_ ?_ ?_ ?_ rfl <;> simp [Fields.ty, Fields.m4, Fields.imm]
theorem vshl (h : Hints) (t : Ty) (d : Opd) (a : Opd) (b : Opd) : Statement (.vshl h t d a b) := by
  intro hw _
  refine decode_toWord hw rfl ?_ ?_ ?_ ?_ ?_ rfl <;> simp [Fields.ty, Fields.m4, Fields.imm]
theorem vshr (h : Hints) (t : Ty) (d : Opd) (a : Opd) (b : Opd) : Statement (.vshr h t d a b) := by
  intro hw _
  refine decode_toWord hw rfl ?_ ?_ ?_ ?_ ?_ rfl <;> simp [Fields.ty, Fields.m4, Fields.imm]
theorem vsra (h : Hints) (t : Ty) (d : Opd) (a : Opd) (b : Opd) : Statement (.vsra h t d a b) := by
  intro hw _
  refine decode_toWord hw rfl ?_ ?_ ?_ ?_ ?_ rfl <;> simp [Fields.ty, Fields.m4, Fields.imm]
theorem vfunnelR (h : Hints) (d : Opd) (a : Opd) (b : Opd) (c : Opd) : Statement (.vfunnelR h d a b c) := by
  intro hw _
  refine decode_toWord hw rfl ?_ ?_ ?_ ?_ ?_ rfl <;> simp [Fields.ty, Fields.m4, Fields.imm]
theorem vfunnelL (h : Hints) (d : Opd) (a : Opd) (b : Opd) (c : Opd) : Statement (.vfunnelL h d a b c) := by
  intro hw _
  refine decode_toWord hw rfl ?_ ?_ ?_ ?_ ?_ rfl <;> simp [Fields.ty, Fields.m4, Fields.imm]
theorem vbfe (h : Hints) (t : Ty) (d : Opd) (a : Opd) (b : Opd) : Statement (.vbfe h t d a b) := by
  intro hw _
  refine decode_toWord hw rfl ?_ ?_ ?_ ?_ ?_ rfl <;> simp [Fields.ty, Fields.m4, Fields.imm]
theorem vbfi (h : Hints) (d : Opd) (a : Opd) (b : Opd) (c : Opd) : Statement (.vbfi h d a b c) := by
  intro hw _
  refine decode_toWord hw rfl ?_ ?_ ?_ ?_ ?_ rfl <;> simp [Fields.ty, Fields.m4, Fields.imm]
theorem vpopc (h : Hints) (t : Ty) (d : Opd) (a : Opd) : Statement (.vpopc h t d a) := by
  intro hw _
  refine decode_toWord hw rfl ?_ ?_ ?_ ?_ ?_ rfl <;> simp [Fields.ty, Fields.m4, Fields.imm]
theorem vclz (h : Hints) (t : Ty) (d : Opd) (a : Opd) : Statement (.vclz h t d a) := by
  intro hw _
  refine decode_toWord hw rfl ?_ ?_ ?_ ?_ ?_ rfl <;> simp [Fields.ty, Fields.m4, Fields.imm]
theorem vbrev (h : Hints) (d : Opd) (a : Opd) : Statement (.vbrev h d a) := by
  intro hw _
  refine decode_toWord hw rfl ?_ ?_ ?_ ?_ ?_ rfl <;> simp [Fields.ty, Fields.m4, Fields.imm]
theorem vcmp (h : Hints) (t : Ty) (clr : Bool) (pr : PairF) (a : Opd) (b : Opd) (cond : BitVec 3) : Statement (.vcmp h t clr pr a b cond) := by
  intro hw _
  refine decode_toWord hw rfl ?_ ?_ ?_ ?_ ?_ rfl <;> simp [Fields.ty, Fields.m4, Fields.imm]
theorem vsel (h : Hints) (t : Ty) (d : Opd) (a : Opd) (b : Opd) (k : BitVec 4) : Statement (.vsel h t d a b k) := by
  intro hw _
  refine decode_toWord hw rfl ?_ ?_ ?_ ?_ ?_ rfl <;> simp [Fields.ty, Fields.m4, Fields.imm]
theorem vmov (h : Hints) (t : Ty) (d : Opd) (a : Opd) : Statement (.vmov h t d a) := by
  intro hw _
  refine decode_toWord hw rfl ?_ ?_ ?_ ?_ ?_ rfl <;> simp [Fields.ty, Fields.m4, Fields.imm]
theorem vmovil (h : Hints) (d : Opd) (imm : BitVec 20) : Statement (.vmovil h d imm) := by
  intro hw _
  refine decode_toWord hw rfl ?_ ?_ ?_ ?_ ?_ rfl <;> simp [Fields.ty, Fields.m4, Fields.imm]
theorem vmovih (h : Hints) (d : Opd) (imm : BitVec 20) : Statement (.vmovih h d imm) := by
  intro hw _
  refine decode_toWord hw rfl ?_ ?_ ?_ ?_ ?_ rfl <;> simp [Fields.ty, Fields.m4, Fields.imm]
theorem vlop3 (h : Hints) (t : BitVec 8) (d : Opd) (a : Opd) (b : Opd) (c : Opd) : Statement (.vlop3 h t d a b c) := by
  intro hw _
  obtain ⟨x, y, rfl⟩ : ∃ (x : BitVec 3) (y : BitVec 5), t = x ++ y := ⟨t.extractLsb' 5 3, t.extractLsb' 0 5, (split85 t).symm⟩
  have hx : (x ++ y).extractLsb' 5 3 = x := append_cut_hi x y
  have hy : (x ++ y).extractLsb' 0 5 = y := append_cut_lo x y
  rcases (all8 x : x = 0 ∨ x = 1 ∨ x = 2 ∨ x = 3 ∨ x = 4 ∨ x = 5 ∨ x = 6 ∨ x = 7) with h | h | h | h | h | h | h | h
  all_goals
    subst h
    simp only [encode, hx, hy]
    refine decode_toWord hw rfl ?_ ?_ ?_ ?_ ?_ rfl <;> simp [Fields.table, Fields.ty, Fields.m4, Fields.imm]
theorem vidx (h : Hints) (d : Opd) (a : Opd) (k : BitVec 4) (j : BitVec 4) : Statement (.vidx h d a k j) := by
  intro hw _
  refine decode_toWord hw rfl ?_ ?_ ?_ ?_ ?_ rfl <;> simp [Fields.ty, Fields.m4, Fields.imm]
theorem vperm (h : Hints) (d : Opd) (a : Opd) (b : Opd) : Statement (.vperm h d a b) := by
  intro hw _
  refine decode_toWord hw rfl ?_ ?_ ?_ ?_ ?_ rfl <;> simp [Fields.ty, Fields.m4, Fields.imm]
theorem vbcast (h : Hints) (d : Opd) (a : Opd) (b : Opd) : Statement (.vbcast h d a b) := by
  intro hw _
  refine decode_toWord hw rfl ?_ ?_ ?_ ?_ ?_ rfl <;> simp [Fields.ty, Fields.m4, Fields.imm]
theorem vgetl (h : Hints) (d : Opd) (a : Opd) (b : Opd) : Statement (.vgetl h d a b) := by
  intro hw _
  refine decode_toWord hw rfl ?_ ?_ ?_ ?_ ?_ rfl <;> simp [Fields.ty, Fields.m4, Fields.imm]
theorem vsetl (h : Hints) (d : Opd) (a : Opd) (b : Opd) : Statement (.vsetl h d a b) := by
  intro hw _
  refine decode_toWord hw rfl ?_ ?_ ?_ ?_ ?_ rfl <;> simp [Fields.ty, Fields.m4, Fields.imm]
theorem vshfl (h : Hints) (m : ShflMode) (w : BitVec 3) (d : Opd) (a : Opd) (b : Opd) : Statement (.vshfl h m w d a b) := by
  intro hw _
  refine decode_toWord hw rfl ?_ ?_ ?_ ?_ ?_ rfl <;> simp [Fields.ty, Fields.m4, Fields.imm]
theorem vred (h : Hints) (t : Ty) (op : BitVec 3) (d : Opd) (a : Opd) : Statement (.vred h t op d a) := by
  intro hw _
  refine decode_toWord hw rfl ?_ ?_ ?_ ?_ ?_ rfl <;> simp [Fields.ty, Fields.m4, Fields.imm]
theorem vscan (h : Hints) (t : Ty) (ex : Bool) (op : BitVec 3) (d : Opd) (a : Opd) : Statement (.vscan h t ex op d a) := by
  intro hw _
  refine decode_toWord hw rfl ?_ ?_ ?_ ?_ ?_ rfl <;> simp [Fields.ty, Fields.m4, Fields.imm]
theorem vmovi (h : Hints) (d : Opd) (a : Opd) (b : Opd) : Statement (.vmovi h d a b) := by
  intro hw _
  refine decode_toWord hw rfl ?_ ?_ ?_ ?_ ?_ rfl <;> simp [Fields.ty, Fields.m4, Fields.imm]
theorem vmovo (h : Hints) (d : Opd) (a : Opd) (b : Opd) : Statement (.vmovo h d a b) := by
  intro hw _
  refine decode_toWord hw rfl ?_ ?_ ?_ ?_ ?_ rfl <;> simp [Fields.ty, Fields.m4, Fields.imm]
theorem vrand (h : Hints) (d : Opd) : Statement (.vrand h d) := by
  intro hw _
  refine decode_toWord hw rfl ?_ ?_ ?_ ?_ ?_ rfl <;> simp [Fields.ty, Fields.m4, Fields.imm]
theorem vaddF (h : Hints) (t : Ty) (c : FCtl) (d : Opd) (a : Opd) (b : Opd) : Statement (.vaddF h t c d a b) := by
  intro hw _
  refine decode_toWord hw rfl ?_ ?_ ?_ ?_ ?_ rfl <;> simp [Fields.ty, Fields.m4, Fields.imm]
theorem vsubF (h : Hints) (t : Ty) (c : FCtl) (d : Opd) (a : Opd) (b : Opd) : Statement (.vsubF h t c d a b) := by
  intro hw _
  refine decode_toWord hw rfl ?_ ?_ ?_ ?_ ?_ rfl <;> simp [Fields.ty, Fields.m4, Fields.imm]
theorem vmulF (h : Hints) (t : Ty) (c : FCtl) (d : Opd) (a : Opd) (b : Opd) : Statement (.vmulF h t c d a b) := by
  intro hw _
  refine decode_toWord hw rfl ?_ ?_ ?_ ?_ ?_ rfl <;> simp [Fields.ty, Fields.m4, Fields.imm]
theorem vfma (h : Hints) (t : Ty) (neg : Bool) (d : Opd) (a : Opd) (b : Opd) (c : Opd) : Statement (.vfma h t neg d a b c) := by
  intro hw _
  refine decode_toWord hw rfl ?_ ?_ ?_ ?_ ?_ rfl <;> simp [Fields.ty, Fields.m4, Fields.imm]
theorem vminF (h : Hints) (nan : Bool) (c : FCtl) (d : Opd) (a : Opd) (b : Opd) : Statement (.vminF h nan c d a b) := by
  intro hw _
  refine decode_toWord hw rfl ?_ ?_ ?_ ?_ ?_ rfl <;> simp [Fields.ty, Fields.m4, Fields.imm]
theorem vmaxF (h : Hints) (nan : Bool) (c : FCtl) (d : Opd) (a : Opd) (b : Opd) : Statement (.vmaxF h nan c d a b) := by
  intro hw _
  refine decode_toWord hw rfl ?_ ?_ ?_ ?_ ?_ rfl <;> simp [Fields.ty, Fields.m4, Fields.imm]
theorem vcmpF (h : Hints) (clr : Bool) (c : FCtl) (pr : PairF) (a : Opd) (b : Opd) : Statement (.vcmpF h clr c pr a b) := by
  intro hw _
  refine decode_toWord hw rfl ?_ ?_ ?_ ?_ ?_ rfl <;> simp [Fields.ty, Fields.m4, Fields.imm]
theorem vclass (h : Hints) (clr : Bool) (pr : PairF) (a : Opd) (m : BitVec 10) : Statement (.vclass h clr pr a m) := by
  intro hw _
  refine decode_toWord hw rfl ?_ ?_ ?_ ?_ ?_ rfl <;> simp [Fields.ty, Fields.m4, Fields.imm]
theorem vrnd (h : Hints) (c : FCtl) (d : Opd) (a : Opd) : Statement (.vrnd h c d a) := by
  intro hw _
  refine decode_toWord hw rfl ?_ ?_ ?_ ?_ ?_ rfl <;> simp [Fields.ty, Fields.m4, Fields.imm]
theorem vrcp (h : Hints) (c : FCtl) (d : Opd) (a : Opd) : Statement (.vrcp h c d a) := by
  intro hw _
  refine decode_toWord hw rfl ?_ ?_ ?_ ?_ ?_ rfl <;> simp [Fields.ty, Fields.m4, Fields.imm]
theorem vrsq (h : Hints) (c : FCtl) (d : Opd) (a : Opd) : Statement (.vrsq h c d a) := by
  intro hw _
  refine decode_toWord hw rfl ?_ ?_ ?_ ?_ ?_ rfl <;> simp [Fields.ty, Fields.m4, Fields.imm]
theorem vexp2 (h : Hints) (c : FCtl) (d : Opd) (a : Opd) : Statement (.vexp2 h c d a) := by
  intro hw _
  refine decode_toWord hw rfl ?_ ?_ ?_ ?_ ?_ rfl <;> simp [Fields.ty, Fields.m4, Fields.imm]
theorem vlog2 (h : Hints) (c : FCtl) (d : Opd) (a : Opd) : Statement (.vlog2 h c d a) := by
  intro hw _
  refine decode_toWord hw rfl ?_ ?_ ?_ ?_ ?_ rfl <;> simp [Fields.ty, Fields.m4, Fields.imm]
theorem vsqrt (h : Hints) (c : FCtl) (d : Opd) (a : Opd) : Statement (.vsqrt h c d a) := by
  intro hw _
  refine decode_toWord hw rfl ?_ ?_ ?_ ?_ ?_ rfl <;> simp [Fields.ty, Fields.m4, Fields.imm]
theorem vdiv (h : Hints) (c : FCtl) (d : Opd) (a : Opd) (b : Opd) : Statement (.vdiv h c d a b) := by
  intro hw _
  refine decode_toWord hw rfl ?_ ?_ ?_ ?_ ?_ rfl <;> simp [Fields.ty, Fields.m4, Fields.imm]
theorem vsinpi (h : Hints) (c : FCtl) (d : Opd) (a : Opd) : Statement (.vsinpi h c d a) := by
  intro hw _
  refine decode_toWord hw rfl ?_ ?_ ?_ ?_ ?_ rfl <;> simp [Fields.ty, Fields.m4, Fields.imm]
theorem vcospi (h : Hints) (c : FCtl) (d : Opd) (a : Opd) : Statement (.vcospi h c d a) := by
  intro hw _
  refine decode_toWord hw rfl ?_ ?_ ?_ ?_ ?_ rfl <;> simp [Fields.ty, Fields.m4, Fields.imm]
theorem vtanh (h : Hints) (c : FCtl) (d : Opd) (a : Opd) : Statement (.vtanh h c d a) := by
  intro hw _
  refine decode_toWord hw rfl ?_ ?_ ?_ ?_ ?_ rfl <;> simp [Fields.ty, Fields.m4, Fields.imm]
theorem vlgt (h : Hints) (c : FCtl) (d : Opd) (a : Opd) : Statement (.vlgt h c d a) := by
  intro hw _
  refine decode_toWord hw rfl ?_ ?_ ?_ ?_ ?_ rfl <;> simp [Fields.ty, Fields.m4, Fields.imm]
theorem vcvt (h : Hints) (t : Ty) (src : BitVec 3) (rm : BitVec 3) (e : BitVec 4) (d : Opd) (a : Opd) (r : Opd) : Statement (.vcvt h t src rm e d a r) := by
  intro hw _
  by_cases hr : rm = 4#3
  · subst hr
    refine decode_toWord hw rfl ?_ ?_ ?_ ?_ ?_ rfl <;> simp [Fields.ty, Fields.m4, Fields.imm]
  · have hz := by simpa [Instr.operands, Kind.allows_unused, hr] using allows_of_wf hw
    obtain ⟨-, -, rfl⟩ := hz
    refine decode_toWord hw rfl ?_ ?_ ?_ ?_ ?_ rfl <;> simp [hr, Fields.ty, Fields.m4, Fields.imm] <;> first | exact hr | (intro _; rfl) | rfl
theorem vcvti (h : Hints) (t : Ty) (src : BitVec 4) (rm : BitVec 3) (e : BitVec 3) (d : Opd) (a : Opd) (r : Opd) : Statement (.vcvti h t src rm e d a r) := by
  intro hw _
  by_cases hr : rm = 4#3
  · subst hr
    refine decode_toWord hw rfl ?_ ?_ ?_ ?_ ?_ rfl <;> simp [Fields.ty, Fields.m4, Fields.imm]
  · have hz := by simpa [Instr.operands, Kind.allows_unused, hr] using allows_of_wf hw
    obtain ⟨-, -, rfl⟩ := hz
    refine decode_toWord hw rfl ?_ ?_ ?_ ?_ ?_ rfl <;> simp [hr, Fields.ty, Fields.m4, Fields.imm] <;> first | exact hr | (intro _; rfl) | rfl
theorem vqz (h : Hints) (t : Ty) (sr : Bool) (d : Opd) (a : Opd) (sc : Opd) (r : Opd) : Statement (.vqz h t sr d a sc r) := by
  intro hw _
  cases sr
  · have hz := by simpa [Instr.operands, Kind.allows_unused] using allows_of_wf hw
    obtain ⟨-, -, -, rfl⟩ := hz
    refine decode_toWord hw rfl ?_ ?_ ?_ ?_ ?_ rfl <;> simp [Fields.ty, Fields.m4, Fields.imm] <;> rfl
  · refine decode_toWord hw rfl ?_ ?_ ?_ ?_ ?_ rfl <;> simp [Fields.ty, Fields.m4, Fields.imm]
theorem vdq (h : Hints) (t : Ty) (d : Opd) (a : Opd) (sc : Opd) : Statement (.vdq h t d a sc) := by
  intro hw _
  refine decode_toWord hw rfl ?_ ?_ ?_ ?_ ?_ rfl <;> simp [Fields.ty, Fields.m4, Fields.imm]
theorem vld (h : Hints) (sp : Space) (sz : MSize) (d : Opd) (a : Opd) (off : BitVec 20) : Statement (.vld h sp sz d a off) := by
  intro hw _
  refine decode_toWord hw rfl ?_ ?_ ?_ ?_ ?_ rfl <;> simp [Fields.ty, Fields.m4, Fields.imm]
theorem vst (h : Hints) (sp : Space) (sz : MSize) (d : Opd) (a : Opd) (off : BitVec 20) : Statement (.vst h sp sz d a off) := by
  intro hw _
  refine decode_toWord hw rfl ?_ ?_ ?_ ?_ ?_ rfl <;> simp [Fields.ty, Fields.m4, Fields.imm]
theorem sld (h : Hints) (sp : Space) (sz : MSize) (d : Opd) (a : Opd) (off : BitVec 20) : Statement (.sld h sp sz d a off) := by
  intro hw _
  refine decode_toWord hw rfl ?_ ?_ ?_ ?_ ?_ rfl <;> simp [Fields.ty, Fields.m4, Fields.imm]
theorem sst (h : Hints) (sp : Space) (sz : MSize) (d : Opd) (a : Opd) (off : BitVec 20) : Statement (.sst h sp sz d a off) := by
  intro hw _
  refine decode_toWord hw rfl ?_ ?_ ?_ ?_ ?_ rfl <;> simp [Fields.ty, Fields.m4, Fields.imm]
theorem vpf (h : Hints) (l2 : Bool) (a : Opd) (off : BitVec 20) : Statement (.vpf h l2 a off) := by
  intro hw _
  cases l2
  all_goals refine decode_toWord hw rfl ?_ ?_ ?_ ?_ ?_ rfl <;> simp [Fields.ty, Fields.m4, Fields.imm]
theorem lwb (h : Hints) (a : Opd) (off : BitVec 20) : Statement (.lwb h a off) := by
  intro hw _
  refine decode_toWord hw rfl ?_ ?_ ?_ ?_ ?_ rfl <;> simp [Fields.ty, Fields.m4, Fields.imm]
theorem linv (h : Hints) (a : Opd) (off : BitVec 20) : Statement (.linv h a off) := by
  intro hw _
  refine decode_toWord hw rfl ?_ ?_ ?_ ?_ ?_ rfl <;> simp [Fields.ty, Fields.m4, Fields.imm]
theorem fence (h : Hints) (k : FenceK) (sc : Scope) : Statement (.fence h k sc) := by
  intro hw _
  refine decode_toWord hw rfl ?_ ?_ ?_ ?_ ?_ rfl <;> simp [Fields.ty, Fields.m4, Fields.imm]
theorem dfence (h : Hints) : Statement (.dfence h) := by
  intro hw _
  refine decode_toWord hw rfl ?_ ?_ ?_ ?_ ?_ rfl <;> simp [Fields.ty, Fields.m4, Fields.imm]
theorem ifence (h : Hints) (sc : Scope) : Statement (.ifence h sc) := by
  intro hw _
  refine decode_toWord hw rfl ?_ ?_ ?_ ?_ ?_ rfl <;> simp [Fields.ty, Fields.m4, Fields.imm]
theorem vatom (h : Hints) (op : AOp) (wide : Bool) (sc : Scope) (d : Opd) (a : Opd) (b : Opd) (c : Opd) : Statement (.vatom h op wide sc d a b c) := by
  intro hw _
  cases sc
  all_goals
    by_cases hr : op = .cas
    · subst hr
      refine decode_toWord hw rfl ?_ ?_ ?_ ?_ ?_ rfl <;> simp [Fields.ty, Fields.m4, Fields.imm] <;> rfl
    · have hz := by simpa [Instr.operands, Kind.allows_unused, hr] using allows_of_wf hw
      obtain ⟨-, -, -, rfl⟩ := hz
      refine decode_toWord hw rfl ?_ ?_ ?_ ?_ ?_ rfl <;> simp [hr, Fields.ty, Fields.m4, Fields.imm] <;> first | exact hr | (intro _; rfl) | rfl
theorem satom (h : Hints) (op : AOp) (wide : Bool) (sc : Scope) (d : Opd) (a : Opd) (b : Opd) (c : Opd) : Statement (.satom h op wide sc d a b c) := by
  intro hw _
  cases sc
  all_goals
    by_cases hr : op = .cas
    · subst hr
      refine decode_toWord hw rfl ?_ ?_ ?_ ?_ ?_ rfl <;> simp [Fields.ty, Fields.m4, Fields.imm] <;> rfl
    · have hz := by simpa [Instr.operands, Kind.allows_unused, hr] using allows_of_wf hw
      obtain ⟨-, -, -, rfl⟩ := hz
      refine decode_toWord hw rfl ?_ ?_ ?_ ?_ ?_ rfl <;> simp [hr, Fields.ty, Fields.m4, Fields.imm] <;> first | exact hr | (intro _; rfl) | rfl
theorem cmb (h : Hints) (d : Opd) (a : Opd) (b : Opd) (k : BitVec 6) : Statement (.cmb h d a b k) := by
  intro hw _
  refine decode_toWord hw rfl ?_ ?_ ?_ ?_ ?_ rfl <;> simp [Fields.ty, Fields.m4, Fields.imm]
theorem ccommit (h : Hints) (k : BitVec 6) : Statement (.ccommit h k) := by
  intro hw _
  refine decode_toWord hw rfl ?_ ?_ ?_ ?_ ?_ rfl <;> simp [Fields.ty, Fields.m4, Fields.imm]
theorem ccommitNw (h : Hints) : Statement (.ccommitNw h) := by
  intro hw _
  refine decode_toWord hw rfl ?_ ?_ ?_ ?_ ?_ rfl <;> simp [Fields.ty, Fields.m4, Fields.imm]
theorem creply (h : Hints) (a : Opd) : Statement (.creply h a) := by
  intro hw _
  refine decode_toWord hw rfl ?_ ?_ ?_ ?_ ?_ rfl <;> simp [Fields.ty, Fields.m4, Fields.imm]
theorem cend (h : Hints) : Statement (.cend h) := by
  intro hw _
  refine decode_toWord hw rfl ?_ ?_ ?_ ?_ ?_ rfl <;> simp [Fields.ty, Fields.m4, Fields.imm]
theorem barArr (h : Hints) (x : BarF) : Statement (.barArr h x) := by
  intro hw _
  refine decode_toWord hw rfl ?_ ?_ ?_ ?_ ?_ rfl <;> simp [Fields.ty, Fields.m4, Fields.imm]
theorem barWait (h : Hints) (x : BarF) : Statement (.barWait h x) := by
  intro hw _
  refine decode_toWord hw rfl ?_ ?_ ?_ ?_ ?_ rfl <;> simp [Fields.ty, Fields.m4, Fields.imm]
theorem barSync (h : Hints) (x : BarF) : Statement (.barSync h x) := by
  intro hw _
  refine decode_toWord hw rfl ?_ ?_ ?_ ?_ ?_ rfl <;> simp [Fields.ty, Fields.m4, Fields.imm]
theorem barExp (h : Hints) (x : BarF) (a : Opd) : Statement (.barExp h x a) := by
  intro hw _
  refine decode_toWord hw rfl ?_ ?_ ?_ ?_ ?_ rfl <;> simp [Fields.ty, Fields.m4, Fields.imm]
theorem barTx (h : Hints) (x : BarF) (a : Opd) : Statement (.barTx h x a) := by
  intro hw _
  refine decode_toWord hw rfl ?_ ?_ ?_ ?_ ?_ rfl <;> simp [Fields.ty, Fields.m4, Fields.imm]
theorem barTest (h : Hints) (pr : PairF) (x : BarF) : Statement (.barTest h pr x) := by
  intro hw _
  refine decode_toWord hw rfl ?_ ?_ ?_ ?_ ?_ rfl <;> simp [Fields.ty, Fields.m4, Fields.imm]
theorem waitf (h : Hints) (k : BitVec 4) (n : BitVec 6) : Statement (.waitf h k n) := by
  intro hw _
  refine decode_toWord hw rfl ?_ ?_ ?_ ?_ ?_ rfl <;> simp [Fields.ty, Fields.m4, Fields.imm]
theorem cpy (h : Hints) (dsp : Space) (ssp : Space) (d : Opd) (a : Opd) (b : Opd) (o : EngOrd) : Statement (.cpy h dsp ssp d a b o) := by
  intro hw _
  cases dsp <;> cases ssp
  all_goals refine decode_toWord hw rfl ?_ ?_ ?_ ?_ ?_ rfl <;> simp [Space.code, Space.ofCode, Fields.ty, Fields.m4, Fields.imm]
theorem cpytLd (h : Hints) (sp : Space) (d : Opd) (a : Opd) (b : Opd) (o : EngOrd) : Statement (.cpytLd h sp d a b o) := by
  intro hw _
  cases sp
  all_goals refine decode_toWord hw rfl ?_ ?_ ?_ ?_ ?_ rfl <;> simp [Space.code, Space.ofCode, Fields.ty, Fields.m4, Fields.imm]
theorem cpytSt (h : Hints) (sp : Space) (d : Opd) (a : Opd) (b : Opd) (o : EngOrd) : Statement (.cpytSt h sp d a b o) := by
  intro hw _
  cases sp
  all_goals refine decode_toWord hw rfl ?_ ?_ ?_ ?_ ?_ rfl <;> simp [Space.code, Space.ofCode, Fields.ty, Fields.m4, Fields.imm]
theorem cpyg (h : Hints) (sp : Space) (d : Opd) (a : Opd) (b : Opd) (o : EngOrd) : Statement (.cpyg h sp d a b o) := by
  intro hw _
  cases sp
  all_goals refine decode_toWord hw rfl ?_ ?_ ?_ ?_ ?_ rfl <;> simp [Space.code, Space.ofCode, Fields.ty, Fields.m4, Fields.imm]
theorem cpys (h : Hints) (sp : Space) (d : Opd) (a : Opd) (b : Opd) (o : EngOrd) : Statement (.cpys h sp d a b o) := by
  intro hw _
  cases sp
  all_goals refine decode_toWord hw rfl ?_ ?_ ?_ ?_ ?_ rfl <;> simp [Space.code, Space.ofCode, Fields.ty, Fields.m4, Fields.imm]
theorem cred (h : Hints) (op : BitVec 2) (ty : BitVec 2) (d : Opd) (a : Opd) (b : Opd) (o : EngOrd) : Statement (.cred h op ty d a b o) := by
  intro hw _
  refine decode_toWord hw rfl ?_ ?_ ?_ ?_ ?_ rfl <;> simp [credMod_cut ty op, Fields.ty, Fields.m4, Fields.imm]
theorem spawn (h : Hints) (pr : PairF) (a : Opd) (n : BitVec 2) : Statement (.spawn h pr a n) := by
  intro hw _
  refine decode_toWord hw rfl ?_ ?_ ?_ ?_ ?_ rfl <;> simp [Fields.ty, Fields.m4, Fields.imm]
theorem mlds (h : Hints) (t : Ty) (g : Bool) (a : Opd) (sp : BitVec 2) (sc : Bool) (o : EngOrd) : Statement (.mlds h t g a sp sc o) := by
  intro hw _
  refine decode_toWord hw rfl ?_ ?_ ?_ ?_ ?_ rfl <;> simp [mldsB_cut sp sc, Fields.ty, Fields.m4, Fields.imm]
theorem mms (h : Hints) (t : Ty) (g : Bool) (slot : BitVec 3) (swap : Bool) (done : Bool) (z : Bool) (sc : Bool) (a : Opd) (b : Opd) (o : EngOrd) : Statement (.mms h t g slot swap done z sc a b o) := by
  intro hw _
  refine decode_toWord hw rfl ?_ ?_ ?_ ?_ ?_ rfl <;> simp [mmsD_cut slot swap done z sc, Fields.ty, Fields.m4, Fields.imm]
theorem mzero (h : Hints) (slot : BitVec 3) : Statement (.mzero h slot) := by
  intro hw _
  refine decode_toWord hw rfl ?_ ?_ ?_ ?_ ?_ rfl <;> simp [Fields.ty, Fields.m4, Fields.imm]
theorem mdrain (h : Hints) (t : Ty) (g : Bool) (slot : BitVec 3) (add : Bool) (rm : BitVec 2) (a : Opd) (b : Opd) (o : EngOrd) : Statement (.mdrain h t g slot add rm a b o) := by
  intro hw _
  refine decode_toWord hw rfl ?_ ?_ ?_ ?_ ?_ rfl <;> simp [mdrainD_cut slot add rm, Fields.ty, Fields.m4, Fields.imm]
theorem mldacc (h : Hints) (t : Ty) (g : Bool) (slot : BitVec 3) (a : Opd) (b : Opd) (o : EngOrd) : Statement (.mldacc h t g slot a b o) := by
  intro hw _
  refine decode_toWord hw rfl ?_ ?_ ?_ ?_ ?_ rfl <;> simp [raw3_cut, Fields.ty, Fields.m4, Fields.imm]
theorem aalloc (h : Hints) (pr : PairF) (k : BitVec 3) : Statement (.aalloc h pr k) := by
  intro hw _
  refine decode_toWord hw rfl ?_ ?_ ?_ ?_ ?_ rfl <;> simp [Fields.ty, Fields.m4, Fields.imm]
theorem afree (h : Hints) (k : BitVec 3) : Statement (.afree h k) := by
  intro hw _
  refine decode_toWord hw rfl ?_ ?_ ?_ ?_ ?_ rfl <;> simp [Fields.ty, Fields.m4, Fields.imm]
theorem tmark (h : Hints) (a : Opd) : Statement (.tmark h a) := by
  intro hw _
  refine decode_toWord hw rfl ?_ ?_ ?_ ?_ ?_ rfl <;> simp [Fields.ty, Fields.m4, Fields.imm]
theorem capst (h : Hints) (c : BitVec 2) : Statement (.capst h c) := by
  intro hw _
  refine decode_toWord hw rfl ?_ ?_ ?_ ?_ ?_ rfl <;> simp [Fields.ty, Fields.m4, Fields.imm]
theorem capsp (h : Hints) (c : BitVec 2) : Statement (.capsp h c) := by
  intro hw _
  refine decode_toWord hw rfl ?_ ?_ ?_ ?_ ?_ rfl <;> simp [Fields.ty, Fields.m4, Fields.imm]
theorem rgn (h : Hints) : Statement (.rgn h) := by
  intro hw _
  refine decode_toWord hw rfl ?_ ?_ ?_ ?_ ?_ rfl <;> simp [Fields.ty, Fields.m4, Fields.imm]
theorem noiseStartupPass (start : StartUp) : Statement (.noiseStartupPass start) := by
  exact fun _ hw => absurd rfl hw
theorem issueSelect (cid : Nat) (quad : Nat) : Statement (.issueSelect cid quad) := by
  exact fun _ hw => absurd rfl hw
theorem waveOverdue (wave : Nat) : Statement (.waveOverdue wave) := by
  exact fun _ hw => absurd rfl hw
theorem fixedResultReady (wave : Nat) (op : Nat) : Statement (.fixedResultReady wave op) := by
  exact fun _ hw => absurd rfl hw
theorem longOpComplete (wave : Nat) (op : Nat) : Statement (.longOpComplete wave op) := by
  exact fun _ hw => absurd rfl hw
theorem yieldEnd (wave : Nat) : Statement (.yieldEnd wave) := by
  exact fun _ hw => absurd rfl hw
theorem sleepEnd (wave : Nat) : Statement (.sleepEnd wave) := by
  exact fun _ hw => absurd rfl hw
theorem waveRetire (wave : Nat) : Statement (.waveRetire wave) := by
  exact fun _ hw => absurd rfl hw
theorem blockRetire (block : Nat) : Statement (.blockRetire block) := by
  exact fun _ hw => absurd rfl hw
theorem loadDataReturn (wave : Nat) (op : Nat) : Statement (.loadDataReturn wave op) := by
  exact fun _ hw => absurd rfl hw
theorem storeVisible (wave : Nat) (op : Nat) : Statement (.storeVisible wave op) := by
  exact fun _ hw => absurd rfl hw
theorem homeSliceAccess (req : Nat) : Statement (.homeSliceAccess req) := by
  exact fun _ hw => absurd rfl hw
theorem atomicGroup (req : Nat) : Statement (.atomicGroup req) := by
  exact fun _ hw => absurd rfl hw
theorem l1Eviction (cid : Nat) (line : Nat) : Statement (.l1Eviction cid line) := by
  exact fun _ hw => absurd rfl hw
theorem l1DirtyTimeout (cid : Nat) (line : Nat) : Statement (.l1DirtyTimeout cid line) := by
  exact fun _ hw => absurd rfl hw
theorem l1CleanTimeout (cid : Nat) (line : Nat) : Statement (.l1CleanTimeout cid line) := by
  exact fun _ hw => absurd rfl hw
theorem l2Writeback (line : Nat) : Statement (.l2Writeback line) := by
  exact fun _ hw => absurd rfl hw
theorem checkDeltaDrain (stripe : Nat) (q : Bool) : Statement (.checkDeltaDrain stripe q) := by
  exact fun _ hw => absurd rfl hw
theorem stripeDecode (stripe : Nat) : Statement (.stripeDecode stripe) := by
  exact fun _ hw => absurd rfl hw
theorem pageWalk (cid : Nat) (pasid : Nat) (va : Nat) (k : PKind) : Statement (.pageWalk cid pasid va k) := by
  exact fun _ hw => absurd rfl hw
theorem deferredFaultArrive (src : FaultFrom) (cls : Nat) (reason : Nat) (pc : DWord) (mask : Mask) (addr : DWord) : Statement (.deferredFaultArrive src cls reason pc mask addr) := by
  exact fun _ hw => absurd rfl hw
theorem trapDeliver (wave : Nat) : Statement (.trapDeliver wave) := by
  exact fun _ hw => absurd rfl hw
theorem coreDump (block : Nat) : Statement (.coreDump block) := by
  exact fun _ hw => absurd rfl hw
theorem regionRestart (wave : Nat) : Statement (.regionRestart wave) := by
  exact fun _ hw => absurd rfl hw
theorem barrierWake (wave : Nat) : Statement (.barrierWake wave) := by
  exact fun _ hw => absurd rfl hw
theorem copyCmdStart (cid : Nat) : Statement (.copyCmdStart cid) := by
  exact fun _ hw => absurd rfl hw
theorem copyBytesVisible (cid : Nat) (cmd : Nat) (units : Nat) : Statement (.copyBytesVisible cid cmd units) := by
  exact fun _ hw => absurd rfl hw
theorem copyCmdComplete (cid : Nat) (cmd : Nat) : Statement (.copyCmdComplete cid cmd) := by
  exact fun _ hw => absurd rfl hw
theorem matrixCmdStart (cid : Nat) : Statement (.matrixCmdStart cid) := by
  exact fun _ hw => absurd rfl hw
theorem planeRelease (cid : Nat) : Statement (.planeRelease cid) := by
  exact fun _ hw => absurd rfl hw
theorem matrixCmdComplete (cid : Nat) (cmd : Nat) : Statement (.matrixCmdComplete cid cmd) := by
  exact fun _ hw => absurd rfl hw
theorem cmbRequestArrive (req : Nat) : Statement (.cmbRequestArrive req) := by
  exact fun _ hw => absurd rfl hw
theorem batchWindowExpire (batch : Nat) : Statement (.batchWindowExpire batch) := by
  exact fun _ hw => absurd rfl hw
theorem batchDispatch (pid : Nat) : Statement (.batchDispatch pid) := by
  exact fun _ hw => absurd rfl hw
theorem batchTimeout (batch : Nat) : Statement (.batchTimeout batch) := by
  exact fun _ hw => absurd rfl hw
theorem cmbStatusArrive (wave : Nat) (op : Nat) : Statement (.cmbStatusArrive wave op) := by
  exact fun _ hw => absurd rfl hw
theorem chuMtloadDone (pid : Nat) : Statement (.chuMtloadDone pid) := by
  exact fun _ hw => absurd rfl hw
theorem launchStart (pid : Nat) (queue : Nat) : Statement (.launchStart pid queue) := by
  exact fun _ hw => absurd rfl hw
theorem blockPlace (pid : Nat) : Statement (.blockPlace pid) := by
  exact fun _ hw => absurd rfl hw
theorem launchComplete (launch : Nat) : Statement (.launchComplete launch) := by
  exact fun _ hw => absurd rfl hw
theorem graphGo (pid : Nat) (slot : Nat) : Statement (.graphGo pid slot) := by
  exact fun _ hw => absurd rfl hw
theorem nodeLaunch (pid : Nat) (slot : Nat) (node : Nat) : Statement (.nodeLaunch pid slot node) := by
  exact fun _ hw => absurd rfl hw
theorem nodeCopy (pid : Nat) (slot : Nat) (node : Nat) : Statement (.nodeCopy pid slot node) := by
  exact fun _ hw => absurd rfl hw
theorem nodeSignal (pid : Nat) (slot : Nat) (node : Nat) : Statement (.nodeSignal pid slot node) := by
  exact fun _ hw => absurd rfl hw
theorem nodeWait (pid : Nat) (slot : Nat) (node : Nat) : Statement (.nodeWait pid slot node) := by
  exact fun _ hw => absurd rfl hw
theorem waitPoll (pid : Nat) (slot : Nat) (node : Nat) : Statement (.waitPoll pid slot node) := by
  exact fun _ hw => absurd rfl hw
theorem nodeCond (pid : Nat) (slot : Nat) (node : Nat) : Statement (.nodeCond pid slot node) := by
  exact fun _ hw => absurd rfl hw
theorem nodeWhile (pid : Nat) (slot : Nat) (node : Nat) : Statement (.nodeWhile pid slot node) := by
  exact fun _ hw => absurd rfl hw
theorem nodeSolve (pid : Nat) (slot : Nat) (node : Nat) : Statement (.nodeSolve pid slot node) := by
  exact fun _ hw => absurd rfl hw
theorem nodeEnd (pid : Nat) (slot : Nat) (node : Nat) : Statement (.nodeEnd pid slot node) := by
  exact fun _ hw => absurd rfl hw
theorem nodeComplete (pid : Nat) (slot : Nat) (node : Nat) : Statement (.nodeComplete pid slot node) := by
  exact fun _ hw => absurd rfl hw
theorem graphEnd (pid : Nat) (slot : Nat) : Statement (.graphEnd pid slot) := by
  exact fun _ hw => absurd rfl hw
theorem sqsTloadDone (pid : Nat) : Statement (.sqsTloadDone pid) := by
  exact fun _ hw => absurd rfl hw
theorem sqsStageLaunch (cp : Nat) : Statement (.sqsStageLaunch cp) := by
  exact fun _ hw => absurd rfl hw
theorem sqsModelRun (cp : Nat) : Statement (.sqsModelRun cp) := by
  exact fun _ hw => absurd rfl hw
theorem sqsErrorLaunch (cp : Nat) : Statement (.sqsErrorLaunch cp) := by
  exact fun _ hw => absurd rfl hw
theorem sqsStepDecide (cp : Nat) : Statement (.sqsStepDecide cp) := by
  exact fun _ hw => absurd rfl hw
theorem solveComplete (cp : Nat) : Statement (.solveComplete cp) := by
  exact fun _ hw => absurd rfl hw
theorem preemptDeadline (pid : Nat) : Statement (.preemptDeadline pid) := by
  exact fun _ hw => absurd rfl hw
theorem blockSave (block : Nat) : Statement (.blockSave block) := by
  exact fun _ hw => absurd rfl hw
theorem blockRestore (pid : Nat) : Statement (.blockRestore pid) := by
  exact fun _ hw => absurd rfl hw
theorem quantumExpire (group : Nat) : Statement (.quantumExpire group) := by
  exact fun _ hw => absurd rfl hw
theorem invpg (pid : Nat) (pasid : Nat) (va : Nat) (count : Nat) : Statement (.invpg pid pasid va count) := by
  exact fun _ hw => absurd rfl hw
theorem invpasid (pid : Nat) (pasid : Nat) : Statement (.invpasid pid pasid) := by
  exact fun _ hw => absurd rfl hw
theorem invall (pid : Nat) : Statement (.invall pid) := by
  exact fun _ hw => absurd rfl hw
theorem replay (pid : Nat) (pasid : Nat) (va : Nat) (k : PKind) : Statement (.replay pid pasid va k) := by
  exact fun _ hw => absurd rfl hw
theorem replayAll (pid : Nat) : Statement (.replayAll pid) := by
  exact fun _ hw => absurd rfl hw
theorem failCmd (pid : Nat) (pasid : Nat) (va : Nat) (k : PKind) : Statement (.failCmd pid pasid va k) := by
  exact fun _ hw => absurd rfl hw
theorem syncCmd (pid : Nat) (rec : Nat) : Statement (.syncCmd pid rec) := by
  exact fun _ hw => absurd rfl hw
theorem teardown (pid : Nat) (pasid : Nat) (rec : Nat) : Statement (.teardown pid pasid rec) := by
  exact fun _ hw => absurd rfl hw
theorem invalidationComplete (pid : Nat) : Statement (.invalidationComplete pid) := by
  exact fun _ hw => absurd rfl hw
theorem teardownDrainDone (pid : Nat) (pasid : Nat) : Statement (.teardownDrainDone pid pasid) := by
  exact fun _ hw => absurd rfl hw
theorem leaseRenew (die : Nat) : Statement (.leaseRenew die) := by
  exact fun _ hw => absurd rfl hw
theorem leaseLoss (die : Nat) : Statement (.leaseLoss die) := by
  exact fun _ hw => absurd rfl hw
theorem followerPoll (die : Nat) : Statement (.followerPoll die) := by
  exact fun _ hw => absurd rfl hw
theorem traceSyncPeriod (cid : Nat) : Statement (.traceSyncPeriod cid) := by
  exact fun _ hw => absurd rfl hw
theorem seriesTick : Statement .seriesTick := by
  exact fun _ hw => absurd rfl hw
theorem raspRow (chan : Nat) : Statement (.raspRow chan) := by
  exact fun _ hw => absurd rfl hw
theorem rowRepair (chan : Nat) (row : Nat) : Statement (.rowRepair chan row) := by
  exact fun _ hw => absurd rfl hw
theorem stackFail (stack : Nat) : Statement (.stackFail stack) := by
  exact fun _ hw => absurd rfl hw
theorem recasterUnit (die : Nat) : Statement (.recasterUnit die) := by
  exact fun _ hw => absurd rfl hw
theorem lineHandoff (die : Nat) (line : Nat) : Statement (.lineHandoff die line) := by
  exact fun _ hw => absurd rfl hw
theorem movedResend (req : Nat) : Statement (.movedResend req) := by
  exact fun _ hw => absurd rfl hw
theorem atsInvalidation (pid : Nat) (ioPage : Nat) (count : Nat) : Statement (.atsInvalidation pid ioPage count) := by
  exact fun _ hw => absurd rfl hw
theorem registerWrite (sp : RegSpace) (off : Nat) (val : DWord) : Statement (.registerWrite sp off val) := by
  exact fun _ hw => absurd rfl hw
theorem peerRequestArrive (link : Nat) (pid : Nat) (addr : Nat) (acc : PeerAcc) (stamp : BitVec 48) : Statement (.peerRequestArrive link pid addr acc stamp) := by
  exact fun _ hw => absurd rfl hw
theorem hostBar2Access (pid : Nat) (write : Bool) (addr : Nat) (bytes : List Byte) : Statement (.hostBar2Access pid write addr bytes) := by
  exact fun _ hw => absurd rfl hw
theorem spnUpdDone : Statement .spnUpdDone := by
  exact fun _ hw => absurd rfl hw
theorem deviceReset : Statement .deviceReset := by
  exact fun _ hw => absurd rfl hw
theorem powerBudgetSet (die : Nat) (limitW : Option Nat) : Statement (.powerBudgetSet die limitW) := by
  exact fun _ hw => absurd rfl hw
theorem governorPeriod (die : Nat) (dieMilliW : Nat) (moduleMilliW : Nat) : Statement (.governorPeriod die dieMilliW moduleMilliW) := by
  exact fun _ hw => absurd rfl hw
theorem fabricConnectionFail (conn : Nat) : Statement (.fabricConnectionFail conn) := by
  exact fun _ hw => absurd rfl hw
theorem noiseGroupConditioned (cid : Nat) (raw : BitVec 512) : Statement (.noiseGroupConditioned cid raw) := by
  exact fun _ hw => absurd rfl hw
theorem noiseTestFailure (cid : Nat) (adaptive : Bool) : Statement (.noiseTestFailure cid adaptive) := by
  exact fun _ hw => absurd rfl hw
theorem retest (cid : Nat) : Statement (.retest cid) := by
  exact fun _ hw => absurd rfl hw
theorem subKick (pid : Nat) (queue : Nat) (k : BitVec 32) : Statement (.subKick pid queue k) := by
  exact fun _ hw => absurd rfl hw
theorem iqKick (pid : Nat) (k : BitVec 32) : Statement (.iqKick pid k) := by
  exact fun _ hw => absurd rfl hw
theorem preemptReq (pid : Nat) : Statement (.preemptReq pid) := by
  exact fun _ hw => absurd rfl hw
theorem resume (pid : Nat) : Statement (.resume pid) := by
  exact fun _ hw => absurd rfl hw
theorem priResponse (pid : Nat) (io : IoPage) (ok : Bool) : Statement (.priResponse pid io ok) := by
  exact fun _ hw => absurd rfl hw
theorem atsCompletion (dest : AtsFor) (io : IoPage) (present : Bool) : Statement (.atsCompletion dest io present) := by
  exact fun _ hw => absurd rfl hw
theorem peerLinkFail (link : Nat) : Statement (.peerLinkFail link) := by
  exact fun _ hw => absurd rfl hw
theorem secureBoot (die : Nat) (image : List Bool) (version : Nat) (key : BitVec 512) (sig : BitVec 512) : Statement (.secureBoot die image version key sig) := by
  exact fun _ hw => absurd rfl hw
theorem spdmRequest (r : SpdmReq) : Statement (.spdmRequest r) := by
  exact fun _ hw => absurd rfl hw
theorem lockInterfaceRequest (vf : Nat) (nonce : BitVec 256) : Statement (.lockInterfaceRequest vf nonce) := by
  exact fun _ hw => absurd rfl hw
theorem startInterfaceRequest (vf : Nat) (nonce : BitVec 256) : Statement (.startInterfaceRequest vf nonce) := by
  exact fun _ hw => absurd rfl hw
theorem stopInterfaceRequest (vf : Nat) : Statement (.stopInterfaceRequest vf) := by
  exact fun _ hw => absurd rfl hw
theorem getDeviceInterfaceReport (vf : Nat) : Statement (.getDeviceInterfaceReport vf) := by
  exact fun _ hw => absurd rfl hw
theorem lockedRegisterWrite (vf : Nat) (reg : Nat) (val : DWord) : Statement (.lockedRegisterWrite vf reg val) := by
  exact fun _ hw => absurd rfl hw
theorem flr (vf : Nat) : Statement (.flr vf) := by
  exact fun _ hw => absurd rfl hw
theorem ideStreamFailure (vf : Nat) : Statement (.ideStreamFailure vf) := by
  exact fun _ hw => absurd rfl hw
theorem partitionReset (pid : Nat) : Statement (.partitionReset pid) := by
  exact fun _ hw => absurd rfl hw
theorem trcCtlWrite (cid : Nat) (val : BitVec 32) : Statement (.trcCtlWrite cid val) := by
  exact fun _ hw => absurd rfl hw
theorem trcRptrWrite (cid : Nat) (val : BitVec 32) : Statement (.trcRptrWrite cid val) := by
  exact fun _ hw => absurd rfl hw
theorem frameRemap (chan : Nat) (frame : Nat) (tchan : Nat) (tframe : Nat) : Statement (.frameRemap chan frame tchan tframe) := by
  exact fun _ hw => absurd rfl hw
theorem channelInterfaceFail (chan : Nat) : Statement (.channelInterfaceFail chan) := by
  exact fun _ hw => absurd rfl hw
theorem spnUpd (span : Nat) : Statement (.spnUpd span) := by
  exact fun _ hw => absurd rfl hw
theorem rcsMigrate (die : Nat) : Statement (.rcsMigrate die) := by
  exact fun _ hw => absurd rfl hw
theorem graphAbort (pid : Nat) (slot : Nat) : Statement (.graphAbort pid slot) := by
  exact fun _ hw => absurd rfl hw
theorem chuMtloadEntry (pid : Nat) (idx : Nat) : Statement (.chuMtloadEntry pid idx) := by
  exact fun _ hw => absurd rfl hw
theorem fetchAhead (wave : Nat) (va : Nat) : Statement (.fetchAhead wave va) := by
  exact fun _ hw => absurd rfl hw
theorem sqsTloadAll (pid : Nat) : Statement (.sqsTloadAll pid) := by
  exact fun _ hw => absurd rfl hw
theorem sqsTloadTable (pid : Nat) (idx : Nat) : Statement (.sqsTloadTable pid idx) := by
  exact fun _ hw => absurd rfl hw
theorem chuMtloadAll (pid : Nat) : Statement (.chuMtloadAll pid) := by
  exact fun _ hw => absurd rfl hw

end Sys2Proof.Laws.RoundTrip
end

