-- ==== Sys2Proof/Safety.lean ====
section
/-! DEFINITION. What a safe run is, and the words in which claims are stated: when an instruction word executes, what it reads, what it leaves pending, and what it leaves alone. -/

namespace Sys2Proof.Machine

/-- A state from which every step of a run answers a next state. -/
def SafeFor (n : Nat) (s : State) : Prop :=
  match n with
  | 0 => True
  | n + 1 => ∃ t, step s = .next t ∧ SafeFor n t

/-- The byte memories of a state are in canonical form. -/
abbrev State.memWf (s : State) : Prop :=
  Memory.wf s.mem ∧ Memory.wf s.hbm ∧ Memory.wf s.hbmErr ∧ Memory.wf s.hostMem ∧ (∀ e ∈ s.peers, Memory.wf e.2.mem) ∧ ∀ e ∈ s.cores, Memory.wf e.2.scr

end Sys2Proof.Machine

namespace Sys2Proof.Claims

open Sys2Proof.Machine

/-! When an instruction word executes. -/

/-- The lane-level words (R70). -/
abbrev isLane (i : Instr) : Bool := i.isLane

/-- What a word sees before its guard is read: the chosen wave with no `waitf` and no `yield` standing, the next identifier for its operation, and one value taken from the counter of free values. -/
def seen (lane : Bool) (h : Hints) (s : State) (k : Nat) (w : Wave) : Ctx :=
  let w₁ : Wave := { w with waitFlag := none, yieldTil := none }
  { s := { ({ s with cur := none }).setWave k w₁ with nextId := s.nextId + 1, freeCtr := s.freeCtr + 1 }
    k := k, w := w₁, h := h, act := 0, lane := lane, id := s.nextId }

/-- What an executing word sees: the acting lanes of R70 for a lane-level instruction, all of them for a wave-level one. -/
def ctx (lane : Bool) (h : Hints) (s : State) (k : Nat) (w : Wave) : Ctx :=
  let c := seen lane h s k w
  { c with act := if lane then guardLanes c else allLanes }

/-- The flag that SET names is full, and the word would raise it: a suppressed wave-level word changes no flag (R55, R71). -/
abbrev FlagFull (lane : Bool) (h : Hints) (s : State) (k : Nat) (w : Wave) : Prop :=
  h.set ≠ 0 ∧ w.flag h.set.toNat = 63 ∧ (lane = true ∨ guardWave (seen lane h s k w) = true)

/-- The word is tried in wave `k`, which is `w`: the wave has been chosen, its flag has room (R55), no check of R59 refuses the word there,
a combiner wave executes only what R230 allows, R233 does not end the batch, and no guard field is poisoned (R74). -/
abbrev Tried (lane : Bool) (i : Instr) (h : Hints) (s : State) (k : Nat) (w : Wave) : Prop :=
  s.cur = some k ∧ s.wave k = some w ∧ ¬ FlagFull lane h s k w ∧ i.illegal w.vregs w.sregs = none
    ∧ (if w.batch.isSome then notInCombiner i else combinerOnly i) = false ∧ batchGate s w i = none ∧ guardPoison w h lane = 0

/-- The word executes: it is tried, its guard lets it (R70, R71, R73), no source is poisoned in an acting lane, and no uncorrectable error lies
in what it reads (R74). -/
abbrev Executes (lane : Bool) (i : Instr) (h : Hints) (s : State) (k : Nat) (w : Wave) : Prop :=
  Tried lane i h s k w ∧ (if lane then (ctx lane h s k w).act ≠ 0 ∨ runsEmpty i = true else guardWave (seen lane h s k w) = true)
    ∧ poisonOf w (ctx lane h s k w).act i = 0 ∧ quietErrs w (ctx lane h s k w).act i = []

/-! What it leaves. -/

/-- The result left pending by a word (R53, R55): written from the cycle `lag` after its issue on; nothing is left pending where nothing is to be written and no flag is to fall.
With no acting lane the flag of a lane-level instruction falls at the next cycle, by an operation of its own. -/
def pends (c : Ctx) (i : Instr) (now lag : Nat) (kind : PendKind) (ws : List RegW) (fst : Word) (nid : Nat) : List Pend :=
  let set := c.h.set.toNat
  let alone := c.act = 0
  let p : Pend := { id := c.id, kind := kind, ready := now + lag, long := i.lat == .long, flag := if alone then 0 else set
                    writes := ws, fst := fst, pc := c.w.pc, fh := c.h.fh.toNat }
  (if (p.long && !alone) || !ws.isEmpty || fst ≠ 0 || p.flag ≠ 0 then [p] else [])
    ++ (if alone && set ≠ 0 then [{ id := nid, kind := .alu, ready := now + 1, long := false, flag := set, writes := [] }] else [])

/-- Nothing of the wave differs but the fields that issue itself keeps: the pc, the pending results, the flags, the mask that writes to s0 to s2 of fixed latency govern at once (R35, R53),
and the wave's records of its issue (the holding word of R38, the latch of R56, the capture counters of R256, the run of R274, the region of R381, the words fetched ahead). -/
def WaveIs (w' w : Wave) (pc : DWord) (f : Words 6) (pend : List Pend) (emask : Mask) : Prop :=
  w' = { w with pc := pc, f := f, pend := pend, emask := emask, hold := w'.hold, latch := w'.latch, lastIssue := w'.lastIssue, yld := w'.yld
                run := w'.run, overdue := w'.overdue, refusedPages := w'.refusedPages, refusedHeld := w'.refusedHeld, ahead := w'.ahead, caps := w'.caps, region := w'.region }

/-- No packet of R252 leaves for this word: its wave is not traced, or it is no branch and writes none of s0 to s2. -/
def quiet (w : Wave) (i : Instr) (ws : List RegW) : Bool :=
  !w.traced || (!isBranch i && ws.all (fun r => match r with | .s n _ => decide (3 ≤ n) | _ => true))

/-- Nothing of the device differs but the wave, the time until which its core's quads are busy (R272) and the model's own choice of a wave and counters. -/
def OnlyWave (s t : State) (k : Nat) : Prop :=
  t = { s with waves := t.waves, cores := t.cores, cur := t.cur, nextId := t.nextId, freeCtr := t.freeCtr }
    ∧ (∀ j, j ≠ k → t.wave j = s.wave j) ∧ ∀ cid, t.core cid = { s.core cid with quads := (t.core cid).quads }

/-- As `OnlyWave`, but for the packets that the word leaves in the trace unit of a core (R251, R252). -/
def Beside (s t : State) (k : Nat) : Prop :=
  t = { s with waves := t.waves, cores := t.cores, cur := t.cur, nextId := t.nextId, freeCtr := t.freeCtr }
    ∧ (∀ j, j ≠ k → t.wave j = s.wave j)
    ∧ ∀ cid, t.core cid = { s.core cid with quads := (t.core cid).quads, trc := { (s.core cid).trc with queued := (t.core cid).trc.queued } }

/-- Executing, the word answers a next state in which its wave stands at the next word or at `jump`, its registers are unchanged, the writes `ws` and the `fst` bits are pending for `lag` cycles, and everything else is as before. -/
def Leaves (lane : Bool) (i : Instr) (h : Hints) (s : State) (k : Nat) (w : Wave) (lag : Nat) (ws : List RegW) (fst : Word)
    (jump : Option DWord := none) : Prop :=
  Executes lane i h s k w →
    let c := ctx lane h s k w
    ∃ t w', exec i s = .next t ∧ t.cur = none ∧ t.wave k = some w'
      ∧ WaveIs w' c.w (jump.getD (w.pc + 12)) (w.flagUp h.set.toNat).f
          (w.pend ++ pends c i (s.cyc (cidOf k)) lag .alu ws fst (s.nextId + 1))
          (if i.lat = .fixed4 ∨ i.lat = .fixed8 then (w.govern ws).emask else w.emask)
      ∧ Beside s t k ∧ (quiet w i ws = true → OnlyWave s t k)

/-- Executing, the word answers the next state that its issue makes of an effect: the operation is pending with its writes, `fst` bits, kind and latency, the wave stands at the next word or at the effect's target, and beside the wave everything is as the effect leaves it. -/
def Performs (lane : Bool) (i : Instr) (h : Hints) (s : State) (k : Nat) (w : Wave) (e : Eff) : Prop :=
  Executes lane i h s k w →
    ∃ t, exec i s = .next t ∧ t.cur = e.st.cur ∧ Beside e.st t k
      ∧ ∀ w₁, e.st.wave k = some w₁ → ∃ w', t.wave k = some w'
          ∧ WaveIs w' w₁ (e.jump.getD (w₁.pc + 12)) (w₁.flagUp h.set.toNat).f
              (w₁.pend ++ pends (ctx lane h s k w) i (e.st.cyc (cidOf k)) (State.lagOf i e.nominal) e.kind e.ws e.fst e.st.nextId)
              (if i.lat = .fixed4 ∨ i.lat = .fixed8 then (w₁.govern e.ws).emask else w₁.emask)
          ∧ (w₁.traced = w.traced → quiet w i e.ws = true → OnlyWave e.st t k)

/-- The word issues and does nothing but trap (R339, R342): its captures count it (R256), and STALL and the run of its wave count from it (R52, R274). `left` is what
the walks of its translations have left, where it made any (R316, R325). -/
def Traps (lane : Bool) (i : Instr) (h : Hints) (s : State) (k : Nat) (w : Wave) (cls reason : Nat) (mask : Mask) (addr : DWord := 0) (code : Word := 0)
    (left : Option State := none) : Prop :=
  let c := ctx lane h s k w
  exec i s = .next ((left.getD c.s).trapIssue k c.w
    { cls := cls, reason := reason, mask := mask, addr := addr, code := code, ipc := w.pc, epc := if cls = 10 then w.pc + 12 else w.pc })

/-- The writes of a scalar destination of a type (R48, R78): an even pair for a 64-bit type; nothing for literal zero. -/
def toScalar (d : Opd) (wide : Bool) (x : BitVec 64) : List RegW :=
  match d with
  | .s n => RegW.s n.val (x.setWidth 32) :: (if wide then [RegW.s (n.val + 1) (x.extractLsb' 32 32)] else [])
  | .fst => [RegW.fst (x.setWidth 32)]
  | _ => []

/-- A source of a word in a lane, at its type's width (R46 to R48, R53, R54). -/
def src (c : Ctx) (t : Ty) (field : Nat) (o : Opd) (os : List Opd) (lane : Nat := 0) : BitVec t.bits :=
  (c.valT t field o lane os).setWidth t.bits

/-- A 32-bit pattern whose bits are told one by one. -/
def IsBits (z : BitVec 64) (f : Nat → Bool) : Prop := z.toNat < 2 ^ 32 ∧ ∀ i, i < 32 → z.getLsbD i = f i

/-- R81: the offset and the width of a field descriptor. -/
def fieldAt (f : BitVec 32) : Nat × Nat :=
  let o := min (f.extractLsb' 0 8).toNat 32
  (o, min (f.extractLsb' 8 8).toNat (32 - o))

/-- R84, R112: the condition on two numbers. -/
def holds {n : Nat} (cond : BitVec 3) (signed : Bool) (x y : BitVec n) : Bool :=
  let lt := if signed then x.slt y else x.ult y
  if cond = 0 then x == y else if cond = 1 then x != y else if cond = 2 then lt else if cond = 3 then lt || x == y
  else if cond = 4 then !(lt || x == y) else !lt

/-- R75 for one lane: the new pt and pf. -/
def newPair (acc : BitVec 2) (c t f : Bool) : Bool × Bool :=
  if acc = 1 then (t && c, f || !c) else if acc = 2 then (t || c, f && !c) else (c, !c)

/-- R75, R76: the writes of a wave-level pair; a pair that names q0 writes nothing, and of a pair that names one register only pt is assigned. -/
def pairQ (c : Ctx) (pr : PairF) (cond : Bool) : List RegW :=
  let new := newPair pr.acc cond (c.rdQ 8 pr.pt.toNat) (c.rdQ 9 pr.pf.toNat)
  if pr.pt = 0 ∨ pr.pf = 0 then [] else if pr.pf = pr.pt then [.q pr.pt.toNat new.1] else [.q pr.pt.toNat new.1, .q pr.pf.toNat new.2]

/-! Lane-level results. -/

/-- R48, R72: the writes of a lane-level destination: the acting lanes of a vector register, or of an even pair, in lane order; nothing for literal zero. -/
def toVector (act : Mask) (d : Opd) (wide : Bool) (x : Nat → BitVec 64) : List RegW :=
  match d with
  | .v n => RegW.v n.val ((lanesOf act).map (fun l => (l, (x l).setWidth 32)))
      :: (if wide then [RegW.v (n.val + 1) ((lanesOf act).map (fun l => (l, (x l).extractLsb' 32 32)))] else [])
  | _ => []

/-- Element e of an operand of a type (R100, R107). -/
def elem (t : Ty) (x : BitVec 64) (e : Nat) : BitVec t.bits := x.extractLsb' (t.bits * e) t.bits

/-- R100, R107: every element of a result of a type is as `f` says. -/
def Each (t : Ty) (z : BitVec 64) (f : Nat → BitVec t.bits) : Prop := ∀ e, e < (if t.wide then 64 else 32) / t.bits → elem t z e = f e

/-- R90: the number that an integer pattern stands for. -/
def num (t : Ty) (x : BitVec t.bits) : Int := if t.isSigned then x.toInt else x.toNat

/-- R107: an exact result brought into an element: wrapped, or clamped to the range of its type. -/
def fit (t : Ty) (sat : Bool) (x : Int) : BitVec t.bits :=
  let lo : Int := if t.isSigned then -(2 ^ (t.bits - 1)) else 0
  let hi : Int := if t.isSigned then 2 ^ (t.bits - 1) - 1 else 2 ^ t.bits - 1
  BitVec.ofInt t.bits (if sat then (if x < lo then lo else if hi < x then hi else x) else x)

/-- A mask told lane by lane. -/
def IsMask (m : Mask) (f : Nat → Bool) : Prop := ∀ l, l < 96 → m.getLsbD l = f l

/-- R75, R76: the writes of a lane-level pair: two masks; without `.clr` the acting lanes, with it every lane. -/
def pairP (act : Mask) (pr : PairF) (clr : Bool) (mt mf : Mask) : List RegW :=
  let lanes := if clr then allLanes else act
  if pr.pt = 0 ∨ pr.pf = 0 then []
  else if pr.pf = pr.pt then [.p pr.pt.toNat lanes mt] else [.p pr.pt.toNat lanes mt, .p pr.pf.toNat lanes mf]

/-- R378, R379: a value gathered over the acting lanes. In a protected wave it is gathered over the even and over the odd lanes: where the two agree, that value is written; where they differ, the wave has a mismatch. -/
def Gathers {α : Type} [DecidableEq α] (i : Instr) (h : Hints) (s : State) (k : Nat) (w : Wave) (lag : Nat) (f : Mask → α) (ws : α → List RegW) (fst : Mask → Word) : Prop :=
  let c := ctx true h s k w
  let e := c.act &&& evenLanes
  let o := c.act &&& oddLanes
  (w.prot = false → Leaves true i h s k w lag (ws (f c.act)) (fst c.act))
    ∧ (w.prot = true → f e = f o → Leaves true i h s k w lag (ws (f e)) (fst e))
    ∧ (w.prot = true → f e ≠ f o → Executes true i h s k w → exec i s = .next ((c.s.issueAlone k c.w).mismatch k c.w))

/-- R100: x is element e, of width w, of the registers of a group. -/
def IsElem (x w e : Nat) (reg : Nat → Word) : Prop := x < 2 ^ w ∧ ∀ i, i < w → x.testBit i = (reg ((w * e + i) / 32)).getLsbD ((w * e + i) % 32)

/-- R100, R142: the writes that put the low w bits of each acting lane's code into slot e of the group that begins at vector register n. Every other bit
of the registers written is as `old` says. -/
def SlotWrites (act : Mask) (n w e : Nat) (old : Nat → Nat → Word) (code : Nat → Nat) (ws : List RegW) : Prop :=
  let first := w * e / 32
  ∃ z : Nat → Nat → Word,
    (∀ j l i, i < 32 → (z j l).getLsbD i =
        if w * e ≤ 32 * (first + j) + i ∧ 32 * (first + j) + i < w * e + w then (code l).testBit (32 * (first + j) + i - w * e) else (old (first + j) l).getLsbD i)
      ∧ ws = (List.range ((w * e % 32 + w + 31) / 32)).map (fun j => RegW.v (n + first + j) ((lanesOf act).map (fun l => (l, z j l))))

/-- A number times a power of two; infinities and NaNs as they are. -/
def times (x : Machine.Num) (k : Int) : Machine.Num := match x with | .fin n m e => .fin n m (e + k) | y => y

/-- The `fst` bits raised by some acting lane. -/
def orAll (act : Mask) (f : Nat → Word) : Word := (lanesOf act).foldl (fun m l => m ||| f l) 0

/-! Memory. -/

/-- A byte as the accesses of a core see it before any request is made: of device memory what its L1 holds, of the other places what lies there. -/
def byteAt (s : State) (cid : Nat) : Place → Option Byte
  | .dev a => (Tbl.get? (s.core cid).l1 a).map (·.val)
  | .host a => some (Memory.read s.hostMem a)
  | .peer d a => some (Memory.read (s.peerMem d) a)
  | .scr c o => some (Memory.read (s.core c).scr o)

/-- The place i bytes further on. -/
def further (i : Nat) : Place → Place
  | .dev a => .dev (a + i)
  | .host a => .host (a + i)
  | .peer d a => .peer d (a + i)
  | .scr c o => .scr c (o + i)

/-- The bytes that a lane's store sends. -/
def sentBytes (a : LaneAcc) : List Byte := a.got.filterMap id

/-- An access of lanes (R185, R186): it goes on where every lane has its place, traps with class 6 where a lane has a reason, or waits. -/
def Accesses (lane : Bool) (i : Instr) (h : Hints) (s : State) (k : Nat) (w : Wave) (r : Resolved) (go : State → List LaneAcc → Eff) : Prop :=
  match r with
  | .ok s' accs => Performs lane i h s k w (go s' accs)
  | .trap s' reason mask addr => Executes lane i h s k w → Traps lane i h s k w 6 reason mask (BitVec.ofNat 64 addr) 0 (some s')
  | .wait s' => Executes lane i h s k w → exec i s = .next s'

/-- R175 to R180: the address of a lane. -/
def addressOf (c : Ctx) (sp : Space) (a : Opd) (off : BitVec 20) (l : Nat) : Nat :=
  if sp = .g then (c.val64 0 a l + off.signExtend 64).toNat else (c.val 0 a l [a] + off.signExtend 32).toNat

/-- R186, R339, R379: an access whose pairs disagree: a trap of its addresses comes first, as the lower class, and so does the wait for a translation; else the wave
has a mismatch. -/
def Disagrees (i : Instr) (h : Hints) (s : State) (k : Nat) (w : Wave) (r : Resolved) : Prop :=
  let c := ctx true h s k w
  match r with
  | .trap s' reason mask addr => Executes true i h s k w → Traps true i h s k w 6 reason mask (BitVec.ofNat 64 addr) 0 (some s')
  | .wait s' => Executes true i h s k w → exec i s = .next s'
  | .ok .. => Executes true i h s k w → exec i s = .next ((c.s.issueAlone k c.w).mismatch k c.w)

/-- R379: the lanes that send: in a protected wave one of each pair. -/
def senders (w : Wave) (accs : List LaneAcc) : List LaneAcc := if w.prot then accs.filter (fun a => a.lane % 2 = 0) else accs

/-- The L1 of a core has room for the lines that some lanes store to: it holds a byte of each, or too few bytes to be full (R8, R182). -/
def RoomFor (s : State) (cid : Nat) (accs : List LaneAcc) : Prop :=
  (∀ a ∈ accs, ∀ d, a.place = .dev d → Tbl.any (s.core cid).l1 (fun x _ => x / 128 = d / 128) = true)
    ∨ (s.core cid).l1.length + (accs.map (fun a => (sentBytes a).length)).sum < 1024

/-- An engine command (R155, R246): with no reason against it, it takes an entry of its engine's queue with its operands, and its completion is pending; else it traps with the least of its reasons, class 7 for the matrix engine and 8 for the copy engine. -/
def Commands (i : Instr) (h : Hints) (s : State) (k : Nat) (w : Wave) (matrix : Bool) (reasons args : List Nat) (slot : Option Nat) (targets : List Nat) : Prop :=
  let c := ctx false h s k w
  (reasons = [] → Performs false i h s k w
      { st := State.engIssue c c.s matrix i args slot targets, kind := .engine matrix s.nextId (State.relScope i), nominal := if matrix then 4 else 64 })
    ∧ ∀ r ∈ reasons, (∀ x ∈ reasons, r ≤ x) → Executes false i h s k w → Traps false i h s k w (if matrix then 7 else 8) r allLanes

/-- The step of a word or of a unit answers a next state of which something holds. -/
abbrev Answers (i : Instr) (s : State) (P : State → Prop) : Prop := ∃ t, exec i s = .next t ∧ P t

/-- Two lists of lanes in which each lane has become what `f` says of it. -/
def LanesBecome (xs ys : List LaneAcc) (f : LaneAcc → LaneAcc → Prop) : Prop :=
  ys.length = xs.length ∧ ∀ (n : Nat) (x y : LaneAcc), xs[n]? = some x → ys[n]? = some y → f x y

/-- A pending operation of a wave before and after. -/
def OpBecomes (s t : State) (k op : Nat) (f : Pend → Pend → Prop) : Prop :=
  ∀ p, s.pend k op = some p → ∃ p', t.pend k op = some p' ∧ f p p'

/-! What comes before execution, and after it. -/

/-- The words with limits that depend on the state of their wave, their block or its owner (R59, reason 9 and the like). -/
def limited : Instr → Bool
  | .rte .. | .csrr .. | .csrw .. | .vidx .. | .vshfl .. | .barArr .. | .barWait .. | .barSync .. | .barExp .. | .barTx .. | .barTest .. => true
  | _ => false

/-- The word comes as far as its guard: it has been chosen, its flag has room, and no check refuses it (see `Tried`). -/
abbrev Reaches (i : Instr) (h : Hints) (s : State) (k : Nat) (w : Wave) : Prop :=
  i.hints = some h ∧ limited i = false ∧ s.cur = some k ∧ s.wave k = some w ∧ ¬ FlagFull i.isLane h s k w
    ∧ i.illegal w.vregs w.sregs = none ∧ (if w.batch.isSome then notInCombiner i else combinerOnly i) = false ∧ batchGate s w i = none

/-- The registers of a wave after some writes have been made in order (R33, R36, R37, R53): what is written holds the latest value written to it, what is not is unchanged; p0 and q0 keep their ones and the fixed bits of `plive` theirs. -/
def Written (w w' : Wave) (ws : List RegW) (fst : Word) : Prop :=
  (∀ n, (∀ x, RegW.s n x ∉ ws) → w'.sget n = w.sget n)
    ∧ (∀ n x before after, ws = before ++ RegW.s n x :: after → (∀ y, RegW.s n y ∉ after) → w'.sget n = x)
    ∧ (∀ n l, l < 96 → (∀ xs, RegW.v n xs ∈ ws → ∀ e ∈ xs, e.1 ≠ l) → w'.vget n l = w.vget n l)
    ∧ (∀ n l x xs before after, l < 96 → ws = before ++ RegW.v n xs :: after → (∀ ys, RegW.v n ys ∈ after → ∀ e ∈ ys, e.1 ≠ l) →
        (xs.filter (fun e => e.1 = l)).getLast? = some (l, x) → w'.vget n l = x)
    ∧ (∀ n l, n ≠ 0 → (∀ m x, RegW.p n m x ∈ ws → m.getLsbD l = false) → (w'.pget n).getLsbD l = (w.pget n).getLsbD l)
    ∧ (∀ n l m x before after, n ≠ 0 → ws = before ++ RegW.p n m x :: after → (∀ m' y, RegW.p n m' y ∉ after) → m.getLsbD l = true →
        (w'.pget n).getLsbD l = x.getLsbD l)
    ∧ (∀ n, n < 16 → n ≠ 0 → (∀ b, RegW.q n b ∉ ws) → w'.qget n = w.qget n)
    ∧ (∀ n b before after, n < 16 → n ≠ 0 → ws = before ++ RegW.q n b :: after → (∀ c, RegW.q n c ∉ after) → w'.qget n = b)
    ∧ w'.pget 0 = allLanes ∧ w'.qget 0 = true
    ∧ ((∀ x, RegW.plive x ∉ ws) → w'.plive = w.plive)
    ∧ (∀ x before after, ws = before ++ RegW.plive x :: after → (∀ y, RegW.plive y ∉ after) → w'.plive = x ||| 0x00010001)
    ∧ ((∀ x, RegW.fst x ∉ ws) → w'.fst = w.fst ||| fst.setWidth 6)
    ∧ (∀ x before after, ws = before ++ RegW.fst x :: after → (∀ y, RegW.fst y ∉ after) → w'.fst = x.setWidth 6 ||| fst.setWidth 6)

/-- Two lists of the same length whose entries stand in a relation, one by one. -/
def OneByOne {α : Type} (f : α → α → Prop) (xs ys : List α) : Prop :=
  ys.length = xs.length ∧ ∀ (n : Nat) (x y : α), xs[n]? = some x → ys[n]? = some y → f x y

/-- R54: what the completion of a result that writes `ws` leaves of another pending operation: a long one is unchanged; a fixed one loses of its writes those
that the completion overrides, value by value, and nothing else. -/
def Loses (ws : List RegW) (p q : Pend) : Prop :=
  (p.long = true → q = p)
    ∧ (p.long = false → q = { p with writes := q.writes }
      ∧ (∀ n x, RegW.s n x ∈ q.writes ↔ RegW.s n x ∈ p.writes ∧ ∀ y, RegW.s n y ∉ ws)
      ∧ (∀ n b, RegW.q n b ∈ q.writes ↔ RegW.q n b ∈ p.writes ∧ ∀ c, RegW.q n c ∉ ws)
      ∧ (∀ n l x, (∃ xs, RegW.v n xs ∈ q.writes ∧ (l, x) ∈ xs) ↔ (∃ xs, RegW.v n xs ∈ p.writes ∧ (l, x) ∈ xs) ∧ ∀ ys, RegW.v n ys ∈ ws → ∀ e ∈ ys, e.1 ≠ l)
      ∧ (∀ n l x, (∃ m, RegW.p n m x ∈ q.writes ∧ m.getLsbD l = true)
          ↔ (∃ m, RegW.p n m x ∈ p.writes ∧ m.getLsbD l = true) ∧ ∀ m y, RegW.p n m y ∈ ws → m.getLsbD l = false)
      ∧ (∀ x, RegW.plive x ∈ q.writes ↔ RegW.plive x ∈ p.writes ∧ ∀ y, RegW.plive y ∉ ws)
      ∧ (∀ x, RegW.fst x ∈ q.writes ↔ RegW.fst x ∈ p.writes ∧ ∀ y, RegW.fst y ∉ ws))

/-- The wave `w` after its pending operation `p` has ended (R53 to R56, R74): the registers that the operation names are written and their poison and errors
are gone; its flag falls by one; it is pending no more, it holds issue no more, and of the other pending operations those that it overrides lose their writes; the
mask that a result of long latency writes governs from here on; the latch serves the result where FH asks for it, and nothing that the result overwrites.
Everything else of the wave is as before. -/
def Finishes (w : Wave) (p : Pend) (w' : Wave) : Prop :=
  let ws := p.known
  let codes := ws.filterMap RegW.code
  Written w w' ws p.fst
    ∧ w' = { w with v := w'.v, s := w'.s, p := w'.p, q := w'.q, f := w'.f, plive := w'.plive, fst := w'.fst, poisonV := w'.poisonV, poisonP := w'.poisonP
                    poisonS := w'.poisonS, poisonQ := w'.poisonQ, errs := w'.errs, latch := w'.latch, pend := w'.pend, holdFor := w'.holdFor, emask := w'.emask }
    ∧ (p.flag ≠ 0 → Words.get w'.f p.flag = Words.get w.f p.flag - 1) ∧ (∀ f, f ≠ p.flag → Words.get w'.f f = Words.get w.f f)
    ∧ (∀ before after, w.pend = before ++ p :: after → (∀ x ∈ before, x.id ≠ p.id) → ∃ before' after', w'.pend = before' ++ after'
        ∧ OneByOne (Loses ws) before before'
        ∧ (p.long = false → after' = after.filter (fun x => x.id ≠ p.id))
        ∧ (p.long = true → OneByOne (Loses ws) (after.filter (fun x => x.id ≠ p.id)) after'))
    ∧ w'.holdFor = w.holdFor.filter (fun x => x ≠ p.id)
    ∧ w'.emask = (if p.long then (w.govern ws).emask else w.emask)
    ∧ (p.fh ≠ 0 → p.long = false → codes ≠ [] → w'.latch = some { codes := codes, left := p.fh })
    ∧ ((p.fh = 0 ∨ p.long = true ∨ codes = []) → ∀ l, w'.latch = some l ↔ w.latch = some l ∧ ∀ x ∈ l.codes, x ∉ codes)
    ∧ (∀ n l, l < 96 → ((Words.get w'.poisonV n).getLsbD l = true ↔
        (Words.get w.poisonV n).getLsbD l = true ∧ ∀ xs, RegW.v n xs ∈ ws → ∀ e ∈ xs, e.1 ≠ l))
    ∧ (∀ n, n < 128 → (w'.poisonS.getLsbD n = true ↔ w.poisonS.getLsbD n = true ∧ ∀ x, RegW.s n x ∉ ws))
    ∧ (∀ n l, n ≠ 0 → ((Words.get w'.poisonP n).getLsbD l = true ↔
        (Words.get w.poisonP n).getLsbD l = true ∧ ∀ m x, RegW.p n m x ∈ ws → m.getLsbD l = false))
    ∧ (∀ n, n < 16 → n ≠ 0 → (w'.poisonQ.getLsbD n = true ↔ w.poisonQ.getLsbD n = true ∧ ∀ b, RegW.q n b ∉ ws))
    ∧ w'.errs = w.errs.filter (fun e => !ws.any (fun r => r.covers e.1))

/-- A pending operation of a wave ends: the wave finishes it (see `Finishes`), and nothing else of the device differs but the MASK packet that a write to s0, s1 or s2
leaves in the trace unit of a traced wave's core (R252). -/
def Ended (s t : State) (k : Nat) (w : Wave) (p : Pend) : Prop :=
  (∃ w', t.wave k = some w' ∧ Finishes w p w') ∧ (∀ j, j ≠ k → t.wave j = s.wave j)
    ∧ t = { s with waves := t.waves, cores := t.cores }
    ∧ (∀ cid, t.core cid = { s.core cid with trc := { (s.core cid).trc with queued := (t.core cid).trc.queued } })
    ∧ (w.traced = false → t.cores = s.cores)

end Sys2Proof.Claims
end

