-- ==== Sys2Proof/Certificates/Slice0/Obligations.lean ====
section
/-! DEFINITION. The statements for the provers. Each says what an instruction word, a step of the device or the whole machine does, from the rules that its docstring names. -/

section

open Sys2Proof Sys2Proof.Machine Sys2Proof.Claims

/-- R79, R81 with R48, R53, R71, R78: a scalar instruction of two integers or patterns that executes leaves its result pending for 4 cycles and nothing else.
R79, R81: shifts, bit fields and bit counts. A shift's amount is a 32-bit operand whatever the type; an amount of the width or more gives 0, or the sign in every bit.
R75, R79, R82, R84, R87: moves, selection, the add with a carry in a q register, comparison into a pair of q registers, and `nop`. -/
def Obligations.ScalarInstructions : Prop :=
    (∀ (h : Hints) (t : Ty) (d a b : Opd) (s : State) (k : Nat) (w : Wave),
      let c := ctx false h s k w
      let x := src c t 0 a [a, b]
      let y := src c t 1 b [a, b]
      let out : BitVec t.bits → List RegW := fun z => toScalar d t.wide (z.setWidth 64)
      let less := if t.isSigned then x.slt y else x.ult y
      Leaves false (.sadd h t d a b) h s k w 4 (out (x + y)) 0
        ∧ Leaves false (.ssub h t d a b) h s k w 4 (out (x - y)) 0
        ∧ Leaves false (.smul h t d a b) h s k w 4 (out (x * y)) 0
        ∧ Leaves false (.smulh h t d a b) h s k w 4
            (toScalar d false (if t.isSigned then (x.signExtend 64 * y.signExtend 64) >>> 32 else (x.setWidth 64 * y.setWidth 64) >>> 32)) 0
        ∧ Leaves false (.sand h t d a b) h s k w 4 (out (x &&& y)) 0
        ∧ Leaves false (.sor h t d a b) h s k w 4 (out (x ||| y)) 0
        ∧ Leaves false (.sxor h t d a b) h s k w 4 (out (x ^^^ y)) 0
        ∧ Leaves false (.sandn h t d a b) h s k w 4 (out (x &&& ~~~y)) 0
        ∧ Leaves false (.smin h t d a b) h s k w 4 (out (if less then x else y)) 0
        ∧ Leaves false (.smax h t d a b) h s k w 4 (out (if less then y else x)) 0
        ∧ Leaves false (.sabs h t d a) h s k w 4 (out (let x := src c t 0 a [a]; if x.msb then -x else x)) 0) ∧
    (∀ (h : Hints) (t : Ty) (d a b e : Opd) (s : State) (k : Nat) (w : Wave),
      let c := ctx false h s k w
      let x := src c t 0 a [a, b]
      let m := (c.val 1 b 0 [a, b]).toNat
      let out : BitVec t.bits → List RegW := fun z => toScalar d t.wide (z.setWidth 64)
      let u := src c t 0 a [a]
      Leaves false (.sshl h t d a b) h s k w 4 (out (x <<< m)) 0
        ∧ Leaves false (.sshr h t d a b) h s k w 4 (out (x >>> m)) 0
        ∧ Leaves false (.ssra h t d a b) h s k w 4 (out (x.sshiftRight m)) 0
        ∧ (∃ z, IsBits z (fun i => let f := fieldAt (c.val 1 b 0 [a, b])
                if i < f.2 then (c.val 0 a 0 [a, b]).getLsbD (f.1 + i) else t.isSigned && decide (0 < f.2) && (c.val 0 a 0 [a, b]).getLsbD (f.1 + f.2 - 1))
              ∧ Leaves false (.sbfe h t d a b) h s k w 4 (toScalar d false z) 0)
        ∧ (∃ z, IsBits z (fun i => let f := fieldAt (c.val 2 e 0 [a, b, e])
                if f.1 ≤ i ∧ i < f.1 + f.2 then (c.val 1 b 0 [a, b, e]).getLsbD (i - f.1) else (c.val 0 a 0 [a, b, e]).getLsbD i)
              ∧ Leaves false (.sbfi h d a b e) h s k w 4 (toScalar d false z) 0)
        ∧ Leaves false (.spopc h t d a) h s k w 4 (toScalar d false (BitVec.ofNat 64 ((List.range t.bits).countP u.getLsbD))) 0
        ∧ (∃ n, n ≤ t.bits ∧ (∀ i, t.bits - n ≤ i → u.getLsbD i = false) ∧ (n < t.bits → u.getLsbD (t.bits - 1 - n) = true)
              ∧ Leaves false (.sclz h t d a) h s k w 4 (toScalar d false (BitVec.ofNat 64 n)) 0)
        ∧ (∃ n, (∀ i, i < n → u.getLsbD i = false) ∧ (u ≠ 0 → u.getLsbD n = true)
              ∧ Leaves false (.sffs h t d a) h s k w 4 (toScalar d false (if u = 0 then 0xFFFFFFFF else BitVec.ofNat 64 n)) 0)) ∧
    (∀ (h : Hints) (t : Ty) (d a b : Opd) (q : BitVec 4) (imm : BitVec 20) (ty : BitVec 2) (cond : BitVec 3) (pr : PairF) (s : State) (k : Nat) (w : Wave),
      let c := ctx false h s k w
      let out : BitVec t.bits → List RegW := fun z => toScalar d t.wide (z.setWidth 64)
      Leaves false (.nop h) h s k w 1 [] 0
        ∧ Leaves false (.smov h t d a) h s k w 4 (out (src c t 0 a [a])) 0
        ∧ Leaves false (.smovil h d imm) h s k w 4 (toScalar d false (imm.signExtend 64)) 0
        ∧ Leaves false (.smovih h d imm) h s k w 4 (toScalar d false (((c.val 0 d 0 [d] &&& 0xFFF) ||| (imm.setWidth 32 <<< 12)).setWidth 64)) 0
        ∧ Leaves false (.ssel h t d a b q) h s k w 4 (out (if c.rdQ 2 q.toNat then src c t 0 a [a, b] else src c t 1 b [a, b])) 0
        ∧ (let sum : BitVec 33 := (c.val 0 a 0 [a, b] .n32).setWidth 33 + (c.val 1 b 0 [a, b] .n32).setWidth 33 + (BitVec.ofBool (c.rdQ 2 q.toNat)).setWidth 33
           Leaves false (.saddc h d a b q) h s k w 4 (toScalar d false ((sum.setWidth 32).setWidth 64) ++ [.q q.toNat sum.msb]) 0)
        ∧ (let u := Ty.ofCode (ty.setWidth 4)
           Leaves false (.scmp h ty cond pr a b) h s k w 4 (pairQ c pr (holds cond u.isSigned (src c u 0 a [a, b]) (src c u 1 b [a, b]))) 0))

/-- R80: division never traps; it writes quotient or remainder and raises DZ for a zero divisor, nominally 20 or 36 cycles after issue. R55, R59: a word without SET is illegal with a reason of at most 8: 8, or that of an earlier check. -/
def Obligations.ScalarDivision : Prop :=
  ∀ (h : Hints) (t : Ty) (d a b : Opd) (s : State) (k : Nat) (w : Wave),
    let c := ctx false h s k w
    let x := src c t 0 a [a, b]
    let y := src c t 1 b [a, b]
    let out : BitVec t.bits → List RegW := fun z => toScalar d t.wide (z.setWidth 64)
    let lag := if t.wide then 36 else 20
    (∃ q r : BitVec t.bits,
      (y = 0 → q = BitVec.allOnes _ ∧ r = x)
        ∧ (t.isSigned = true → x = BitVec.intMin _ → y = -1 → q = x ∧ r = 0)
        ∧ (y ≠ 0 → t.isSigned = false → q = x / y ∧ r = x % y)
        ∧ (y ≠ 0 → t.isSigned = true → ¬(x = BitVec.intMin _ ∧ y = -1) → q.toInt = x.toInt.tdiv y.toInt ∧ r.toInt = x.toInt - y.toInt * q.toInt)
        ∧ Leaves false (.sdiv h t d a b) h s k w lag (out q) (if y = 0 then 2 else 0)
        ∧ Leaves false (.srem h t d a b) h s k w lag (out r) (if y = 0 then 2 else 0))
      ∧ (h.set = 0 → ∀ r ∈ [(Instr.sdiv h t d a b).illegal w.vregs w.sregs, (Instr.srem h t d a b).illegal w.vregs w.sregs], ∃ n, r = some n ∧ n ≤ 8)

/-- R85, R86, R378: predicate and mask instructions. A p register is read into three scalars and written from them; q registers as the bits of one word; quantifiers over the acting lanes, which act with no lane too (R73); a lane is elected; logic by a truth table. -/
def Obligations.PredicateInstructions : Prop :=
  ∀ (h : Hints) (d a : Opd) (p q m n : BitVec 4) (lut : BitVec 8) (s : State) (k : Nat) (w : Wave),
    let c := ctx false h s k w
    let l := ctx true h s k w
    let set : Mask → Nat → Bool := fun acts i => acts.getLsbD i && l.rdP 1 q.toNat i
    let table : Bool → Bool → Bool → Bool := fun x y z => lut.getLsbD (4 * x.toNat + 2 * y.toNat + z.toNat)
    (∃ x, IsMask x (fun i => c.rdP 1 q.toNat i) ∧ Leaves false (.pgetP h d q) h s k w 4
          (match d with
            | .s r => [.s r.val (x.extractLsb' 0 32), .s (r.val + 1) (x.extractLsb' 32 32), .s (r.val + 2) (x.extractLsb' 64 32)]
            | _ => []) 0)
      ∧ (∃ x, IsBits x (fun i => decide (i < 16) && c.rdQ 1 i) ∧ Leaves false (.pgetQ h d) h s k w 4 (toScalar d false x) 0)
      ∧ (∃ x, IsMask x (fun i => (c.valN 0 a (i / 32)).getLsbD (i % 32)) ∧ Leaves false (.pputP h q a) h s k w 4 [.p q.toNat allLanes x] 0)
      ∧ Leaves false (.pputQ h a) h s k w 4 ((List.range' 1 15).map (fun j => .q j ((c.val 0 a 0 [a]).getLsbD j))) 0
      ∧ Gathers (.qany h p q) h s k w 8 (fun acts => (List.range 96).any (set acts)) (fun b => [.q p.toNat b]) (fun _ => 0)
      ∧ Gathers (.qall h p q) h s k w 8 (fun acts => (List.range 96).all (fun i => !acts.getLsbD i || set acts i)) (fun b => [.q p.toNat b]) (fun _ => 0)
      ∧ Gathers (.pcnt h d q) h s k w 8 (fun acts => (List.range 96).countP (set acts)) (fun x => toScalar d false (BitVec.ofNat 64 x)) (fun _ => 0)
      ∧ (∃ x, IsMask x (fun i => (List.range 96).any (fun j => l.act.getLsbD j && (List.range j).all (fun y => !l.act.getLsbD y)
                && decide (if w.prot then i / 2 = j / 2 else i = j)))
            ∧ Leaves true (.elect h p) h s k w 8 [.p p.toNat allLanes x] 0)
      ∧ Leaves false (.setpl h a) h s k w 4 [.plive (c.val 0 a 0 [a])] 0
      ∧ Leaves false (.getpl h d) h s k w 4 (toScalar d false ((c.rdPlive 0).setWidth 64)) 0
      ∧ (∃ x, IsMask x (fun i => l.act.getLsbD i && table (l.rdP 0 q.toNat i) (l.rdP 1 m.toNat i) (l.rdP 2 n.toNat i))
            ∧ Leaves true (.plop h lut p q m n) h s k w 8 [.p p.toNat l.act x] 0)
      ∧ Leaves false (.qlop h lut p q m n) h s k w 4 [.q p.toNat (table (c.rdQ 0 q.toNat) (c.rdQ 1 m.toNat) (c.rdQ 2 n.toNat))] 0

/-- R87: branches. Targets are relative to the word's own address in units of 4 bytes, or a register's; `call` leaves the return address pending for 4 cycles; `bexz` is taken on an execution mask of zero.
R30, R88, R277: `exit` closes the open captures and makes the wave exiting; `yield` holds it back for 64 cycles; `sleep` stops it for as many cycles as its operand says; `waitf` holds it until a flag has fallen far enough. -/
def Obligations.ControlFlow : Prop :=
    (∀ (h : Hints) (imm : BitVec 20) (d a : Opd) (s : State) (k : Nat) (w : Wave),
      let target : DWord := w.pc + (imm.signExtend 64 <<< 2)
      let reg := (ctx false h s k w).val64 0 a
      Leaves false (.br h imm) h s k w 1 [] 0 (some target)
        ∧ Leaves false (.brx h a) h s k w 1 [] 0 (some reg)
        ∧ Leaves false (.call h d imm) h s k w 4 (toScalar d true (w.pc + 12)) 0 (some target)
        ∧ Leaves false (.ret h a) h s k w 1 [] 0 (some reg)
        ∧ Leaves false (.bexz h imm) h s k w 1 [] 0 (if w.emask = 0 then some target else none)) ∧
    (∀ (h : Hints) (a : Opd) (f : BitVec 4) (n : BitVec 6) (s : State) (k : Nat) (w : Wave),
      let c := ctx false h s k w
      let onWave : (Wave → Wave) → Eff := fun g => { st := c.s.modWave k g }
      let cycles := (c.val 0 a 0 [a]).toNat
      Performs false (.exit h) h s k w
          { st := ((Tbl.keys w.caps).foldl (fun s n => s.closeCapture k n true) c.s).modWave k (fun x => { x with stat := .exiting }) }
        ∧ Performs false (.yield h) h s k w (onWave (fun x => { x with yieldTil := some (s.cyc (cidOf k) + 64) }))
        ∧ Performs false (.sleep h a) h s k w
            (if cycles = 0 then { st := c.s } else onWave (fun x => { x with stat := .sleeping (s.cyc (cidOf k) + cycles) }))
        ∧ Performs false (.waitf h f n) h s k w (onWave (fun x => { x with waitFlag := some (f.toNat, n.toNat) })))

/-- R344: `trap` and `brk` raise classes 10 and 9 with their immediate as the code; the return address of a `trap` is the next word, of a `brk` the word itself.
R345: `rte` leaves the handler for its target; a target that is not a multiple of 4 is illegal; outside a handler the word is illegal whatever its guard.
R346, R347: `csrr` reads the frame address of its wave, its trap status and the status of the noise source; the seed words of 0x401 are firmware's. Every control register that a wave may name is read-only to it. -/
def Obligations.TrapsAndControlRegisters : Prop :=
    (∀ (h : Hints) (imm : BitVec 20) (s : State) (k : Nat) (w : Wave),
      (Executes false (.trap h imm) h s k w → Traps false (.trap h imm) h s k w 10 0 allLanes 0 (imm.setWidth 32))
        ∧ (Executes false (.brk h imm) h s k w → Traps false (.brk h imm) h s k w 9 0 allLanes 0 (imm.setWidth 32))) ∧
    (∀ (h : Hints) (a : Opd) (s : State) (k : Nat) (w : Wave),
      let i := Instr.rte h a
      let c := ctx false h s k w
      (w.inHandler = true → (c.val64 0 a).toNat % 4 = 0 →
          Performs false i h s k w { st := c.s.modWave k (fun x => { x with inHandler := false }), jump := some (c.val64 0 a) })
        ∧ (w.inHandler = true → (c.val64 0 a).toNat % 4 ≠ 0 → Executes false i h s k w → Traps false i h s k w 2 9 allLanes)
        ∧ (w.inHandler = false → Tried false i h s k w → Traps false i h s k w 2 9 allLanes)) ∧
    (∀ (h : Hints) (d a : Opd) (n : BitVec 20) (s : State) (k : Nat) (w : Wave),
      let frame := BitVec.ofNat 64 ((s.part w.pidN).tfbase + 64 * (64 * s.rankOf w.pidN (cidOf k) + wbOf k))
      let src := (s.core (cidOf k)).noise
      let r := Instr.csrr h d n
      let v := Instr.csrw h n a
      (n = 0x010 → Leaves false r h s k w 12 (toScalar d false (frame.extractLsb' 0 32 |>.setWidth 64)) 0)
        ∧ (n = 0x011 → Leaves false r h s k w 12 (toScalar d false (frame.extractLsb' 32 32 |>.setWidth 64)) 0)
        ∧ (n = 0x012 → Leaves false r h s k w 12
            (toScalar d false (BitVec.ofNat 64 ((if w.inHandler then 1 else 0) + (if w.deferred = [] then 0 else 2) + 256 * w.lclass))) 0)
        ∧ (n = 0x400 → Leaves false r h s k w 12
            (toScalar d false (BitVec.ofNat 64 ((if src.en then src.st else 0) + (if src.rctf then 4 else 0) + (if src.aptf then 8 else 0)
              + 256 * src.fcnt + 65536 * src.buf.length))) 0)
        ∧ (n = 0x401 → (Executes false r h s k w → Traps false r h s k w 3 2 allLanes) ∧ (Executes false v h s k w → Traps false v h s k w 3 2 allLanes))
        ∧ (n ∈ [0x010, 0x011, 0x012, 0x400] → Executes false v h s k w → Traps false v h s k w 3 1 allLanes)
        ∧ (n ∉ [0x010, 0x011, 0x012, 0x400, 0x401] →
            (Tried false r h s k w → Traps false r h s k w 2 9 allLanes) ∧ (Tried false v h s k w → Traps false v h s k w 2 9 allLanes)))

/-- R107 to R110: element-wise integer arithmetic in the acting lanes, pending for 8 cycles; saturation clamps the exact result; carries and borrows pass through a p register; `vdot4` adds four products of signed or unsigned bytes. -/
def Obligations.VectorArithmetic : Prop :=
  ∀ (h : Hints) (t : Ty) (sat : Bool) (d a b e : Opd) (q : BitVec 4) (s : State) (k : Nat) (w : Wave),
    let c := ctx true h s k w
    let x := fun (l : Nat) => c.valT t 0 a l [a, b]
    let y := fun (l : Nat) => c.valT t 1 b l [a, b]
    let x₁ := fun (l : Nat) => c.valT t 0 a l [a]
    let n := fun (f : Nat) (o : Opd) (l : Nat) => c.val f o l [a, b] .n32
    let m := fun (f : Nat) (o : Opd) (l : Nat) => c.val f o l [a, b, e]
    let carry : Nat → BitVec 33 := fun l => (BitVec.ofBool (c.rdP 2 q.toNat l)).setWidth 33
    let each : Instr → (Nat → Nat → BitVec t.bits) → Prop := fun i f =>
      ∃ z : Nat → BitVec 64, (∀ l, Each t (z l) (f l)) ∧ Leaves true i h s k w 8 (toVector c.act d t.wide z) 0
    let two : Instr → (BitVec t.bits → BitVec t.bits → BitVec t.bits) → Prop := fun i f =>
      each i (fun l j => f (elem t (x l) j) (elem t (y l) j))
    let carried : Instr → (Nat → BitVec 33) → Prop := fun i r =>
      ∃ out, IsMask out (fun l => c.act.getLsbD l && (r l).msb)
        ∧ Leaves true i h s k w 8 (toVector c.act d false (fun l => (r l).setWidth 64) ++ [.p q.toNat c.act out]) 0
    let byte : BitVec 32 → Nat → Int := fun v j => let u : BitVec 8 := v.extractLsb' (8 * j) 8; if t.isSigned then u.toInt else u.toNat
    let whole : Ty := if t.isSigned then .i32 else .n32
    two (.vadd h t sat d a b) (fun x y => fit t sat (num t x + num t y))
      ∧ two (.vsub h t sat d a b) (fun x y => fit t sat (num t x - num t y))
      ∧ two (.vmul h t d a b) (fun x y => x * y)
      ∧ two (.vmulh h t d a b) (fun x y => BitVec.ofInt _ (num t x * num t y / 2 ^ 32))
      ∧ two (.vmin h t d a b) (fun x y => if num t y < num t x then y else x)
      ∧ two (.vmax h t d a b) (fun x y => if num t x < num t y then y else x)
      ∧ each (.vabs h t sat d a) (fun l j => let v := num t (elem t (x₁ l) j); fit t sat (if v < 0 then -v else v))
      ∧ carried (.vaddc h d a b q) (fun l => (n 0 a l).setWidth 33 + (n 1 b l).setWidth 33 + carry l)
      ∧ carried (.vsubb h d a b q) (fun l => (n 0 a l).setWidth 33 - (n 1 b l).setWidth 33 - carry l)
      ∧ Leaves true (.vmad h t d a b e) h s k w 8 (toVector c.act d false (fun l => (m 0 a l * m 1 b l + m 2 e l).setWidth 64)) 0
      ∧ Leaves true (.vdot4 h t sat d a b e) h s k w 8
          (toVector c.act d false (fun l =>
            let third := m 2 e l
            let sum := (if t.isSigned then third.toInt else third.toNat) + byte (m 0 a l) 0 * byte (m 1 b l) 0 + byte (m 0 a l) 1 * byte (m 1 b l) 1
              + byte (m 0 a l) 2 * byte (m 1 b l) 2 + byte (m 0 a l) 3 * byte (m 1 b l) 3
            (fit whole sat sum).setWidth 64)) 0

/-- R111, R114: shifts, funnel shifts, bit fields, counts, reversal and the three-input logic.
R75, R76, R112, R113: comparison into a pair of p registers, which `.clr` writes in every lane; selection by a p register; moves and the two halves of a constant. -/
def Obligations.VectorBitsAndMoves : Prop :=
    (∀ (h : Hints) (t : Ty) (lut : BitVec 8) (d a b e : Opd) (s : State) (k : Nat) (w : Wave),
      let c := ctx true h s k w
      let x := fun (l : Nat) => (c.valT t 0 a l [a, b]).setWidth t.bits
      let amount := fun (l : Nat) => (c.val 1 b l [a, b]).toNat
      let u := fun (l : Nat) => (c.valT t 0 a l [a]).setWidth t.bits
      let m := fun (f : Nat) (o : Opd) (l : Nat) => c.val f o l [a, b, e]
      let m₂ := fun (f : Nat) (o : Opd) (l : Nat) => c.val f o l [a, b, .zero]
      let out : (Nat → BitVec t.bits) → List RegW := fun z => toVector c.act d t.wide (fun l => (z l).setWidth 64)
      let bits : Instr → (Nat → Nat → Bool) → Prop := fun i f =>
        ∃ z : Nat → BitVec 64, (∀ l, IsBits (z l) (f l)) ∧ Leaves true i h s k w 8 (toVector c.act d false z) 0
      Leaves true (.vshl h t d a b) h s k w 8 (out (fun l => x l <<< amount l)) 0
        ∧ Leaves true (.vshr h t d a b) h s k w 8 (out (fun l => x l >>> amount l)) 0
        ∧ Leaves true (.vsra h t d a b) h s k w 8 (out (fun l => (x l).sshiftRight (amount l))) 0
        ∧ Leaves true (.vfunnelR h d a b e) h s k w 8
            (toVector c.act d false (fun l => (m 0 a l ++ m 1 b l : BitVec 64) >>> (m 2 e l).toNat)) 0
        ∧ Leaves true (.vfunnelL h d a b e) h s k w 8
            (toVector c.act d false (fun l => ((m 0 a l ++ m 1 b l : BitVec 64) <<< (m 2 e l).toNat) >>> 32)) 0
        ∧ bits (.vbfe h t d a b) (fun l i =>
            let f := fieldAt (m₂ 1 b l)
            if i < f.2 then (m₂ 0 a l).getLsbD (f.1 + i) else t.isSigned && decide (0 < f.2) && (m₂ 0 a l).getLsbD (f.1 + f.2 - 1))
        ∧ bits (.vbfi h d a b e) (fun l i =>
            let f := fieldAt (m 2 e l)
            if f.1 ≤ i ∧ i < f.1 + f.2 then (m 1 b l).getLsbD (i - f.1) else (m 0 a l).getLsbD i)
        ∧ Leaves true (.vpopc h t d a) h s k w 8 (toVector c.act d false (fun l => BitVec.ofNat 64 ((List.range t.bits).countP (u l).getLsbD))) 0
        ∧ (∃ n : Nat → Nat, (∀ l, n l ≤ t.bits ∧ (∀ i, t.bits - n l ≤ i → (u l).getLsbD i = false) ∧ (n l < t.bits → (u l).getLsbD (t.bits - 1 - n l) = true))
              ∧ Leaves true (.vclz h t d a) h s k w 8 (toVector c.act d false (fun l => BitVec.ofNat 64 (n l))) 0)
        ∧ bits (.vbrev h d a) (fun l i => (c.val 0 a l [a]).getLsbD (31 - i))
        ∧ bits (.vlop3 h lut d a b e) (fun l i =>
            lut.getLsbD (4 * ((m 0 a l).getLsbD i).toNat + 2 * ((m 1 b l).getLsbD i).toNat + ((m 2 e l).getLsbD i).toNat))) ∧
    (∀ (h : Hints) (t : Ty) (clr : Bool) (pr : PairF) (d a b : Opd) (q : BitVec 4) (cond : BitVec 3) (imm : BitVec 20) (s : State) (k : Nat) (w : Wave),
      let c := ctx true h s k w
      let x := fun (l : Nat) => c.valT t 0 a l [a, b]
      let y := fun (l : Nat) => c.valT t 1 b l [a, b]
      let new := fun (l : Nat) => newPair pr.acc (holds cond t.isSigned ((x l).setWidth t.bits) ((y l).setWidth t.bits))
        (c.rdP 8 pr.pt.toNat l) (c.rdP 9 pr.pf.toNat l)
      (∃ mt mf, IsMask mt (fun l => c.act.getLsbD l && (new l).1) ∧ IsMask mf (fun l => c.act.getLsbD l && (new l).2)
          ∧ Leaves true (.vcmp h t clr pr a b cond) h s k w 8 (pairP c.act pr clr mt mf) 0)
        ∧ Leaves true (.vsel h t d a b q) h s k w 8 (toVector c.act d t.wide (fun l => if c.rdP 2 q.toNat l then x l else y l)) 0
        ∧ Leaves true (.vmov h t d a) h s k w 8 (toVector c.act d t.wide (fun l => c.valT t 0 a l [a])) 0
        ∧ Leaves true (.vmovil h d imm) h s k w 8 (toVector c.act d false (fun _ => imm.signExtend 64)) 0
        ∧ Leaves true (.vmovih h d imm) h s k w 8
            (toVector c.act d false (fun l => ((c.val 0 d l [d] &&& 0xFFF) ||| (imm.setWidth 32 <<< 12)).setWidth 64)) 0)

/-- R66: the parameters l and m that the assembler derives from an extent d, their bounds, and the division that they make exact.
R116: for extents with those parameters the multiplication and shift of `vidx` divide exactly, so that the coordinates are the digits of the index. `vidx` writes one register for each extent of the shape entry and a p register that tells where a quotient is left over, in the acting lanes, 8 cycles after issue; with no such entry the word is illegal with reason 9, with too few registers declared with reason 6, and with a destination that is no vector register with reason 5, or with reason 2 where its SET is 13 or more and so an earlier check of R59 fails. It takes three beats whenever a lane acts, and no beat when none acts. -/
def Obligations.IndexSplit : Prop :=
    (∀ d, 0 < d → d < 2 ^ 32 →
      let l := extentL d
      let m := extentM d
      d ≤ 2 ^ l ∧ (l = 0 ∨ 2 ^ (l - 1) < d) ∧ 2 ^ (32 + l) ≤ m * d ∧ m * d < 2 ^ (32 + l) + d ∧ m * d ≤ 2 ^ (32 + l) + 2 ^ l ∧ m < 2 ^ 33
        ∧ ∀ n, n < 2 ^ 32 → n * m / 2 ^ (32 + l) = n / d) ∧
    (∀ (es : List Extent) (x : Nat), x < 2 ^ 32 → (∀ e ∈ es, 0 < e.d ∧ e.d < 2 ^ 32 ∧ e.l = extentL e.d ∧ e.m = extentM e.d) →
      (splitIndex es x).1.length = es.length
        ∧ (∀ j, j < es.length → (splitIndex es x).1.getD j 0 = x / ((es.take j).map (·.d)).prod % (es.getD j ⟨1, 0, 0⟩).d)
        ∧ (splitIndex es x).2 = x / (es.map (·.d)).prod) ∧
    (∀ (h : Hints) (d a : Opd) (n q : BitVec 4) (s : State) (k : Nat) (w : Wave),
      let c := ctx true h s k w
      let i := Instr.vidx h d a n q
      let r := fun (es : List Extent) (l : Nat) => splitIndex es (c.val 0 a l [a]).toNat
      (∀ es, shapeOf c n.toNat = some es →
          (∀ v, d = .v v → v.val + es.length ≤ w.vregs →
            ∃ out, IsMask out (fun l => c.act.getLsbD l && decide ((r es l).2 ≠ 0))
              ∧ Leaves true i h s k w 8
                  ((List.range es.length).map (fun j => RegW.v (v.val + j) ((lanesOf c.act).map (fun l => (l, BitVec.ofNat 32 ((r es l).1.getD j 0)))))
                    ++ [.p q.toNat c.act out]) 0)
            ∧ (∀ v, d = .v v → w.vregs < v.val + es.length → Tried true i h s k w → Traps true i h s k w 2 6 allLanes))
        ∧ (shapeOf c n.toNat = none → Tried true i h s k w → Traps true i h s k w 2 9 allLanes)
        ∧ ((∀ v, d ≠ .v v) → i.illegal w.vregs w.sregs = some (if 12 < h.set.toNat then 2 else 5))
        ∧ ∀ act, beatsOf i act = if act = 0 then 0 else 3)

/-- R117 to R119, R378: instructions that read other lanes. An index of a visible lane or more gives zero; a poisoned source lane traps the lanes that read it; in a protected wave each of the two halves of the pairs reads its own, and the last segment of 32 visible lanes runs past the 48th: what `vshfl` reads there of a register or of the lane number is free (log 28).
R120, R121, R378: reductions and scans take the acting lanes in ascending order, one step a lane; an exclusive scan gives its first lane the identity of the operation. A protected wave does so over the even and over the odd lanes. -/
def Obligations.CrossLaneAndReductions : Prop :=
    (∀ (h : Hints) (m : ShflMode) (wd : BitVec 3) (d a b : Opd) (s : State) (k : Nat) (w : Wave),
      let c := ctx true h s k w
      let ix := fun (l : Nat) => (c.val 1 b l [a, b]).toNat
      let val := fun (l : Nat) => ((c.val 0 a l [a, b]).setWidth 64 : BitVec 64)
      let named : Nat → Nat → Option Nat := fun l L =>
        if w.prot then (if L < 48 then some (2 * L + l % 2) else none) else (if L < 96 then some L else none)
      let from_ : Option Nat → BitVec 64 := fun o => match o with | some l => val l | none => 0
      let bad : Mask → (Nat → Option Nat) → Nat → Bool := fun acts src l =>
        acts.getLsbD l && (match src l with | some j => lanePoison w a j | none => false)
      let reads : Instr → Mask → (Nat → Option Nat) → List RegW → Prop := fun i acts src ws =>
        ∀ mask, IsMask mask (bad acts src) →
          (mask = 0 → Leaves true i h s k w 8 ws 0) ∧ (mask ≠ 0 → Executes true i h s k w → Traps true i h s k w 4 0 mask)
      let perm := fun (l : Nat) => named l (ix l)
      let L := ix 0
      let one : Mask → Prop := fun x => IsMask x (fun l => c.act.getLsbD l && decide ((if w.prot then l / 2 else l) = L))
      let W := if wd = 5 then 96 else 2 ^ (wd.toNat + 1)
      let segment : Nat → Nat → Nat := fun v o =>
        let j := v % W
        match m with
        | .up => if o ≤ j then v - o else v
        | .down => if j + o < W then v + o else v
        | .xor => v - j + (j ^^^ (o % W))
        | .rot => v - j + (j + o) % W
      let shuffled : Nat → Option Nat := fun l =>
        if w.prot then (if segment (l / 2) (ix l) < 48 then some (2 * segment (l / 2) (ix l) + l % 2) else none) else some (segment l (ix l))
      let shuffledVal : Nat → BitVec 64 := fun l => match shuffled l with
        | some j => val j
        | none => match a with
          | .v _ | .lane => (Config.absentLane c.s.freeCtr (l / 2)).setWidth 64
          | _ => val l
      reads (.vperm h d a b) c.act perm (toVector c.act d false (fun l => from_ (perm l)))
        ∧ reads (.vbcast h d a b) c.act perm (toVector c.act d false (fun l => from_ (perm l)))
        ∧ (w.prot = true → from_ (named 0 L) ≠ from_ (named 1 L) →
            ∀ mask, IsMask mask (bad c.act (fun l => named l L)) →
              (mask = 0 → Executes true (.vgetl h d a b) h s k w → exec (.vgetl h d a b) s = .next ((c.s.issueAlone k c.w).mismatch k c.w))
                ∧ (mask ≠ 0 → Executes true (.vgetl h d a b) h s k w → Traps true (.vgetl h d a b) h s k w 4 0 mask))
        ∧ ((w.prot = true → from_ (named 0 L) = from_ (named 1 L)) →
            reads (.vgetl h d a b) c.act (fun l => named l L) (toScalar d false (from_ (named 0 L))))
        ∧ (∀ x, one x → reads (.vsetl h d a b) x some (if x = 0 then [] else toVector x d false val))
        ∧ ((w.prot = true → wd ≠ 5) → reads (.vshfl h m wd d a b) c.act shuffled (toVector c.act d false shuffledVal))
        ∧ (w.prot = true → wd = 5 → Tried true (.vshfl h m wd d a b) h s k w → Traps true (.vshfl h m wd d a b) h s k w 2 3 allLanes)) ∧
    (∀ (h : Hints) (t : Ty) (ex : Bool) (op : BitVec 3) (d a : Opd) (s : State) (k : Nat) (w : Wave),
      let c := ctx true h s k w
      let val := fun (l : Nat) => (c.valT t 0 a l [a]).toNat
      let stepped : Nat × Word → Nat → Nat × Word := fun r l => let z := redStep t op.toNat r.1 (val l); (z.1, r.2 ||| z.2)
      let chain : List Nat → Option (Nat × Word) := fun ls => match ls with | [] => none | l :: rest => some (rest.foldl stepped (val l, 0))
      let value := fun (ls : List Nat) => (chain ls).map (·.1)
      let flags := fun (ls : List Nat) => ((chain ls).map (·.2)).getD 0
      let half := fun (l : Nat) => if w.prot then c.act &&& (if l % 2 = 0 then evenLanes else oddLanes) else c.act
      let before := fun (l : Nat) => (lanesOf (half l)).takeWhile (fun j => decide (j < l))
      let used := fun (m : Mask) => lanesOf m
      Gathers (.vred h t op d a) h s k w 24 (fun m => value (lanesOf m)) (fun o => toScalar d t.wide (BitVec.ofNat 64 (o.getD 0))) (fun m => flags (lanesOf m))
        ∧ Leaves true (.vscan h t ex op d a) h s k w 24
            (toVector c.act d t.wide (fun l => BitVec.ofNat 64
              (if ex then (value (before l)).getD (redIdentity t op.toNat) else (value (before l ++ [l])).getD 0)))
            (if w.prot then flags (used (c.act &&& evenLanes)) ||| flags (used (c.act &&& oddLanes)) else flags (used c.act)))

/-- R122: indirect register access, `vmovi` reading and `vmovo` writing. Each acting lane reads or writes its own column of the register whose number is the base register's plus the lane's index; the result is pending for 8 cycles. Where the number that some acting lane names lies past the declared registers, the word takes the illegal-instruction trap with reason 9, in all 96 lanes, and nothing is written. A base that is no vector register is illegal with reason 5, or with reason 2 where SET is 13 or more and so an earlier check of R59 fails. A poisoned register that acting lanes read traps those lanes (R74). -/
def Obligations.IndirectRegisters : Prop :=
  ∀ (h : Hints) (d a b : Opd) (s : State) (k : Nat) (w : Wave),
    let c := ctx true h s k w
    let named : Opd → List Opd → Nat → Nat := fun base os l => (match base with | .v n => n.val | _ => 0) + (c.val 1 b l os).toNat
    let past := fun (base : Opd) (os : List Opd) => ∃ l, l < 96 ∧ c.act.getLsbD l = true ∧ w.vregs ≤ named base os l
    let i := Instr.vmovi h d a b
    let o := Instr.vmovo h d a b
    (past a [b] → Executes true i h s k w → Traps true i h s k w 2 9 allLanes)
      ∧ (∀ bad, IsMask bad (fun l => c.act.getLsbD l && (w.badV (named a [b] l)).getLsbD l) → ¬ past a [b] →
          (bad ≠ 0 → Executes true i h s k w → Traps true i h s k w 4 0 bad)
            ∧ (bad = 0 → Leaves true i h s k w 8 (toVector c.act d false (fun l => (c.rdV 0 (named a [b] l) l).setWidth 64)) 0))
      ∧ (past d [a, b] → Executes true o h s k w → Traps true o h s k w 2 9 allLanes)
      ∧ (¬ past d [a, b] → Leaves true o h s k w 8 ((lanesOf c.act).map (fun l => RegW.v (named d [a, b] l) [(l, c.val 0 a l [a, b])])) 0)
      ∧ ((∀ v, a ≠ .v v) → i.illegal w.vregs w.sregs = some (if 12 < h.set.toNat then 2 else 5))
      ∧ ((∀ v, d ≠ .v v) → o.illegal w.vregs w.sregs = some (if 12 < h.set.toNat then 2 else 5))

/-- R91, R96, R104, R105: every code of a floating format that is no NaN stands for a value that the format delivers as that code, in every rounding mode and raising nothing.
R101, R105: rounding to nearest even into a format with infinities. No code of the format lies nearer to the exact value than the one delivered, and of two equally near the one delivered is even. -/
def Obligations.FormatsAndRounding : Prop :=
    (∀ (t : Ty) (mode r x : Nat), t ∈ [Ty.f32, .f16, .bf16, .e4m3, .e5m2, .e2m1, .l6] → mode ≤ 4 → r < 2 ^ 16 → x < 2 ^ t.bits →
      (decodeNum t x).isNan = false → deliver t mode r (decodeNum t x) = (x, 0)) ∧
    (∀ (t : Ty) (m : Nat) (e : Int) (c : Nat), t ∈ [Ty.f32, .f16, .bf16] → m ≠ 0 → c < infCode (Ty.fmt t) →
      let got := (deliver t 0 0 (.fin false m e)).1
      got < infCode (Ty.fmt t) →
        ∀ a x : Nat, ∀ q, decodeNum t got = .fin false a q → ∀ p, decodeNum t c = .fin false x p → ∀ u, u ≤ q → u ≤ p → u ≤ e →
          let scale := fun (n : Nat) (k : Int) => (n * 2 ^ (k - u).toNat : Int)
          let near := (scale m e - scale a q).natAbs
          let other := (scale m e - scale x p).natAbs
          near ≤ other ∧ (near = other → c ≠ got → got % 2 = 0))

/-- R132 to R137: floating arithmetic, minimum and maximum in the acting lanes, pending for 8 cycles, with the `fst` bits that some acting lane raises; comparison and classification into a pair of p registers.
R133: sums and products of NaNs, infinities and zeros, and the exact sum and product of finite numbers. R134: the lesser and the greater of two operands, -0 below +0; of a NaN and a number. R135: the conditions on two finite numbers and on NaNs, and who raises IV. -/
def Obligations.FloatArithmetic : Prop :=
    (∀ (mode : Nat) (neg p q : Bool) (x y : Nat) (i j : Int) (a b e : Machine.Num),
      let none_ : Machine.Num × Word := (.nan false, fstIV)
      let quiet := fun (xs : List Machine.Num) => ((.nan false, if xs.any Machine.Num.isSignalling then fstIV else 0) : Machine.Num × Word)
      let add := Machine.Num.add mode
      let mul := Machine.Num.mul
      let fma := Machine.Num.fma
      let pick := Machine.Num.pick
      let m : Machine.Num := .fin p x i
      let n : Machine.Num := .fin q y j
      let at_ := fun (s : Bool) (v : Nat) (f u : Int) => (if s then -1 else 1) * (v * 2 ^ (f - u).toNat : Int)
      let unordered := a.isNan = true ∨ b.isNan = true
      (unordered → add a b = quiet [a, b] ∧ mul a b = quiet [a, b] ∧ fma a b e = quiet [a, b, e])
        ∧ add (.inf p) (.inf q) = (if p = q then (.inf p, 0) else none_) ∧ add (.inf p) n = (.inf p, 0) ∧ add m (.inf q) = (.inf q, 0)
        ∧ mul (.inf p) (.inf q) = (.inf (p != q), 0) ∧ mul (.inf p) n = (if y = 0 then none_ else (.inf (p != q), 0))
        ∧ mul m (.inf q) = (if x = 0 then none_ else (.inf (p != q), 0))
        ∧ mul m n = (.fin (p != q) (x * y) (i + j), 0)
        ∧ (∃ s v f, add m n = (.fin s v f, 0) ∧ (∀ u, u ≤ i → u ≤ j → u ≤ f → at_ s v f u = at_ p x i u + at_ q y j u)
            ∧ (v = 0 → s = if x = 0 ∧ y = 0 ∧ p = q then p else decide (mode = 3)))
        ∧ (¬ unordered → mul a b = none_ → fma a b e = none_)
        ∧ (∀ z, ¬ unordered → mul a b = (z, 0) → fma a b e = if e.isNan then quiet [e] else Machine.Num.add 0 z e)
        ∧ (∀ (max : Bool) (u : Int), u ≤ i → u ≤ j →
            pick max neg m n = (if decide (at_ p x i u < at_ q y j u ∨ x = 0 ∧ y = 0 ∧ p = true ∧ q = false) = max then n else m, 0))
        ∧ (∀ (max : Bool), pick max neg (.inf p) n = (if p = max then n else .inf p, 0) ∧ pick max neg m (.inf q) = (if q = max then m else .inf q, 0)
          ∧ pick max neg (.inf p) (.inf q) = (if p = q ∨ p ≠ max then .inf p else .inf q, 0)
          ∧ (unordered → pick max neg a b
              = (if neg = true ∨ (a.isNan = true ∧ b.isNan = true) then .nan false else if a.isNan then b else a, (quiet [a, b]).2)))
        ∧ (∀ (u : Int), u ≤ i → u ≤ j → let s := at_ p x i u; let t := at_ q y j u
            Machine.Num.compare 0 m n = (decide (s = t), 0) ∧ Machine.Num.compare 1 m n = (decide (s ≠ t), 0) ∧ Machine.Num.compare 2 m n = (decide (s < t), 0)
              ∧ Machine.Num.compare 3 m n = (decide (s ≤ t), 0) ∧ Machine.Num.compare 4 m n = (decide (t < s), 0) ∧ Machine.Num.compare 5 m n = (decide (t ≤ s), 0)
              ∧ Machine.Num.compare 6 m n = (true, 0) ∧ Machine.Num.compare 7 m n = (false, 0))
        ∧ (unordered → ∀ cond, cond < 8 → Machine.Num.compare cond a b
            = (decide (cond = 1 ∨ cond = 7), if 2 ≤ cond ∧ cond ≤ 5 then fstIV else (quiet [a, b]).2))) ∧
    ∀ (h : Hints) (t : Ty) (clr flag : Bool) (f : FCtl) (pr : PairF) (mask : BitVec 10) (d a b e : Opd) (s : State) (k : Nat) (w : Wave),
    let c := ctx true h s k w
    let rm := f.rm.toNat
    let lane : Instr → (Nat → Nat × Word) → Prop := fun i r =>
      Leaves true i h s k w 8 (toVector c.act d false (fun l => BitVec.ofNat 64 (r l).1)) (orAll c.act (fun l => (r l).2))
    let x := fun (l j : Nat) => elemNum t f.ma.toNat j (c.val 0 a l [a, b] t)
    let y := fun (l j : Nat) => elemNum t f.mb.toNat j (c.val 1 b l [a, b] t)
    let x₁ := fun (l : Nat) => elemNum .f32 f.ma.toNat 0 (c.val 0 a l [a, b] .f32)
    let y₁ := fun (l : Nat) => elemNum .f32 f.mb.toNat 0 (c.val 1 b l [a, b] .f32)
    let z := fun (o : Opd) (m j i l : Nat) => elemNum t m j (c.val i o l [a, b, e] t)
    let pair : Instr → (Nat → Bool) → (Nat → Word) → Prop := fun i cond raised =>
      let new := fun (l : Nat) => newPair pr.acc (cond l) (c.rdP 8 pr.pt.toNat l) (c.rdP 9 pr.pf.toNat l)
      ∃ mt mf, IsMask mt (fun l => c.act.getLsbD l && (new l).1) ∧ IsMask mf (fun l => c.act.getLsbD l && (new l).2)
        ∧ Leaves true i h s k w 8 (pairP c.act pr clr mt mf) (orAll c.act raised)
    lane (.vaddF h t f d a b) (fun l => eachElem t (fun j => finishNum t rm (Machine.Num.add rm (x l j) (y l j))))
      ∧ lane (.vsubF h t f d a b) (fun l => eachElem t (fun j => finishNum t rm (Machine.Num.add rm (x l j) (y l j).neg)))
      ∧ lane (.vmulF h t f d a b) (fun l => eachElem t (fun j => finishNum t rm (Machine.Num.mul (x l j) (y l j))))
      ∧ lane (.vfma h t flag d a b e) (fun l => eachElem t (fun j => finishNum t 0 (Machine.Num.fma (z a 0 j 0 l) (z b 0 j 1 l) (z e flag.toNat j 2 l))))
      ∧ lane (.vminF h flag f d a b) (fun l => finishNum .f32 0 (Machine.Num.pick false flag (x₁ l) (y₁ l)))
      ∧ lane (.vmaxF h flag f d a b) (fun l => finishNum .f32 0 (Machine.Num.pick true flag (x₁ l) (y₁ l)))
      ∧ lane (.vrnd h f d a) (fun l => roundIntegral rm (elemNum .f32 f.ma.toNat 0 (c.val 0 a l [a] .f32)))
      ∧ pair (.vcmpF h clr f pr a b) (fun l => (Machine.Num.compare rm (x₁ l) (y₁ l)).1) (fun l => (Machine.Num.compare rm (x₁ l) (y₁ l)).2)
      ∧ pair (.vclass h clr pr a mask) (fun l => mask.getLsbD (classOf (c.val 0 a l [a] .f32).toNat)) (fun _ => 0)

/-- R138 to R140: the special functions, division and square root; those of long latency complete nominally 20, 28 or 36 cycles after issue.
R139, R140: the operands of the special functions and of division whose results the manual lists: zeros, infinities, NaNs and negative numbers, with the `fst` bits raised; whole numbers under `vsinpi`, halves and even numbers under `vcospi`. A NaN operand of a division gives the canonical NaN, with IV if one is signalling (R133). -/
def Obligations.SpecialFunctionResults : Prop :=
    (∀ (h : Hints) (f : FCtl) (d a b : Opd) (s : State) (k : Nat) (w : Wave),
      let c := ctx true h s k w
      let x := fun (l : Nat) => elemNum .f32 f.ma.toNat 0 (c.val 0 a l [a] .f32)
      let bits := fun (l : Nat) => BitVec.ofNat 32 (deliver .f32 0 0 (x l)).1
      let lane : Instr → Nat → (Nat → Nat × Word) → Prop := fun i lag r =>
        Leaves true i h s k w lag (toVector c.act d false (fun l => BitVec.ofNat 64 (r l).1)) (orAll c.act (fun l => (r l).2))
      lane (.vrcp h f d a) 8 (fun l => fRcp (x l))
        ∧ lane (.vrsq h f d a) 8 (fun l => fRsq (x l))
        ∧ lane (.vexp2 h f d a) 8 (fun l => fExp2 (bits l) (x l))
        ∧ lane (.vlog2 h f d a) 8 (fun l => fLog2 (bits l) (x l))
        ∧ lane (.vsqrt h f d a) 20 (fun l => fSqrt (x l))
        ∧ lane (.vdiv h f d a b) 28 (fun l =>
            fDiv (elemNum .f32 f.ma.toNat 0 (c.val 0 a l [a, b] .f32)) (elemNum .f32 f.mb.toNat 0 (c.val 1 b l [a, b] .f32)))
        ∧ lane (.vsinpi h f d a) 36 (fun l => fSinpi (bits l) (x l))
        ∧ lane (.vcospi h f d a) 36 (fun l => fCospi (bits l) (x l))
        ∧ lane (.vtanh h f d a) 36 (fun l => fTanh (bits l) (x l))
        ∧ lane (.vlgt h f d a) 36 (fun l => fLgt (bits l) (x l))) ∧
    (∀ (neg sig : Bool) (bits : Word) (m n : Nat) (e e' : Int) (z : Machine.Num), m ≠ 0 →
      let sign := if neg then 0x80000000 else 0
      let both := if neg = sig then 0 else 0x80000000
      let inf := 0x7F800000
      let one := 0x3F800000
      let iv : Nat × Word := (0x7FC00000, fstIV)
      let nan : Nat × Word := (0x7FC00000, if sig then fstIV else 0)
      fRcp (.fin neg 0 e) = (inf + sign, fstDZ) ∧ fRcp (.inf neg) = (sign, 0)
        ∧ fRsq (.fin neg 0 e) = (inf + sign, fstDZ) ∧ fRsq (.inf false) = (0, 0) ∧ fRsq (.fin true m e) = iv ∧ fRsq (.inf true) = iv
        ∧ fSqrt (.fin neg 0 e) = (sign, 0) ∧ fSqrt (.inf false) = (inf, 0) ∧ fSqrt (.fin true m e) = iv ∧ fSqrt (.inf true) = iv
        ∧ fExp2 bits (.fin neg 0 e) = (one, 0) ∧ fExp2 bits (.inf neg) = (if neg then (0, 0) else (inf, 0))
        ∧ fLog2 bits (.fin neg 0 e) = (inf + 0x80000000, fstDZ) ∧ fLog2 bits (.inf false) = (inf, 0) ∧ fLog2 bits (.fin true m e) = iv ∧ fLog2 bits (.inf true) = iv
        ∧ fSinpi bits (.inf neg) = iv ∧ fCospi bits (.inf neg) = iv ∧ fSinpi bits (.fin neg 0 e) = (sign, 0) ∧ fCospi bits (.fin neg 0 e) = (one, 0)
        ∧ (0 ≤ e → fSinpi bits (.fin neg m e) = (sign, 0)) ∧ (1 ≤ e → fCospi bits (.fin neg m e) = (one, 0)) ∧ fCospi bits (.fin neg (2 * n + 1) (-1)) = (0, 0)
        ∧ fTanh bits (.inf neg) = (one + sign, 0) ∧ fTanh bits (.fin neg 0 e) = (sign, 0)
        ∧ fLgt bits (.inf neg) = (if neg then 0 else one, 0) ∧ fLgt bits (.fin neg 0 e) = (0x3F000000, 0)
        ∧ fDiv (.fin neg 0 e) (.fin sig 0 e') = iv ∧ fDiv (.inf neg) (.inf sig) = iv
        ∧ fDiv (.fin neg m e) (.fin sig 0 e') = (inf + both, fstDZ) ∧ fDiv (.fin neg 0 e) (.fin sig m e') = (both, 0)
        ∧ fDiv (.inf neg) (.fin sig n e') = (inf + both, 0) ∧ fDiv (.fin neg n e) (.inf sig) = (both, 0)
        ∧ fDiv (.nan sig) z = (0x7FC00000, if sig || z.isSignalling then fstIV else 0) ∧ fDiv z (.nan sig) = (0x7FC00000, if sig || z.isSignalling then fstIV else 0)
        ∧ (∀ f ∈ [fRcp, fRsq, fSqrt, fExp2 bits, fLog2 bits, fSinpi bits, fCospi bits, fTanh bits, fLgt bits], f (.nan sig) = nan))

/-- R100, R141 to R144: `vcvt` and `vcvti` in the acting lanes, pending for 8 cycles: the element of the source group, a 32-bit source being the operand itself, is decoded and delivered in the destination's type. A 32-bit or 64-bit result is written whole; a narrow one is put into its slot of the destination group, and every other bit of the registers written keeps its value.
R145, R146: `vqz`, nominally 24 cycles: the eight values of a block give a scale code and eight element codes. A block with a NaN has the scale code 0xFF and zeros, and raises IV where a NaN of it signals. Of any other block the scale is the least one under which its greatest finite magnitude does not exceed the greatest of the format, clamped to -127 to 127, and each element is its value divided by the scale.
R147: `vdq`, 8 cycles: the eight elements times the scale; under the scale code 0xFF the canonical NaN. That its scale may be any operand of 32 bits is a reading of the model (log 31). -/
def Obligations.ConversionsAndScales : Prop :=
    (∀ (h : Hints) (t : Ty) (src rm e₃ : BitVec 3) (e₄ src₄ : BitVec 4) (sr : Bool) (d a sc r : Opd) (s : State) (k : Nat) (w : Wave),
      let c := ctx true h s k w
      let group : Ty → Nat → Nat → Word := fun ty l j => match a with
        | .v n => c.rdV j (n.val + j) l
        | .s n => c.rdS j (n.val + j)
        | o => if j = 0 then c.val 0 o l [a, r] ty else 0
      let element := fun (l j : Nat) => match a with | .v n => c.rdV j (n.val + j) l | .s n => c.rdS j (n.val + j) | o => if j = 0 then c.val 0 o l [] t else 0
      let random := fun (l : Nat) => if rm = 4 then (c.val 2 r l [a, r]).toNat % 2 ^ 16 else 0
      let gives : Instr → Nat → (Nat → Nat × Word) → Prop := fun i e f =>
        let raised := orAll c.act (fun l => (f l).2)
        (32 ≤ t.bits → Leaves true i h s k w 8 (toVector c.act d t.wide (fun l => BitVec.ofNat 64 (f l).1)) raised)
          ∧ (∀ n, d = .v n → t.bits < 32 → ∃ ws, SlotWrites c.act n.val t.bits e (fun j l => c.rdV (8 + j) (n.val + j) l) (fun l => (f l).1) ws
              ∧ Leaves true i h s k w 8 ws raised)
          ∧ ((∀ n, d ≠ .v n) → t.bits < 32 → Leaves true i h s k w 8 [] raised)
      let values := fun (l : Nat) => (List.range 8).map (fun j => decodeNum .f32 (c.valN 0 a j l).toNat)
      let block : Nat → Nat × List Nat × Word := fun l =>
        quantise t (if sr then 4 else 0) (fun j => (c.valN 8 r (j / 2) l).toNat / 2 ^ (16 * (j % 2)) % 2 ^ 16) (values l)
      let one : Opd → Nat → (Nat → Nat) → List RegW := fun o j f =>
        match o with | .v n => [RegW.v (n.val + j) ((lanesOf c.act).map (fun l => (l, BitVec.ofNat 32 (f l))))] | _ => []
      let scale := fun (l : Nat) => (c.val 8 sc l [sc]).toNat % 256
      (∃ x : Nat → Nat, let ty := Ty.ofFloatCode src
          (∀ l, IsElem (x l) ty.bits (if ty.bits = 32 then 0 else e₄.toNat) (group ty l))
            ∧ gives (.vcvt h t src rm e₄ d a r) e₄.toNat (fun l => deliver t rm.toNat (random l) (decodeNum ty (x l))))
        ∧ (∃ x : Nat → Nat, let ty := Ty.ofCode src₄
          (∀ l, if ty.wide then x l = (c.val64 0 a l [a, r]).toNat else IsElem (x l) ty.bits (if ty.bits = 32 then 0 else e₃.toNat) (group ty l))
            ∧ gives (.vcvti h t src₄ rm e₃ d a r) e₃.toNat (fun l =>
                if t.isInt then deliverInt t rm.toNat (random l) (anyNum ty (x l)) else deliver t rm.toNat (random l) (anyNum ty (x l))))
        ∧ Leaves true (.vqz h t sr d a sc r) h s k w 24
            ((List.range (if t = .e2m1 then 1 else 2)).flatMap (fun j => one d j (fun l => streamOf t.bits (block l).2.1 / 2 ^ (32 * j)))
              ++ one sc 0 (fun l => (block l).1)) (orAll c.act (fun l => (block l).2.2))
        ∧ (∃ x : Nat → Nat → Nat, (∀ j l, IsElem (x j l) t.bits (if t.bits = 32 then 0 else j) (element l))
            ∧ let back : Nat → Nat → Nat × Word := fun j l =>
                if scale l = 0xFF then (0x7FC00000, 0) else deliver .f32 0 0 (times (decodeNum t (x j l)) ((scale l : Int) - 127))
              Leaves true (.vdq h t d a sc) h s k w 8 ((List.range 8).flatMap (fun j => one d j (fun l => (back j l).1)))
                ((List.range 8).foldl (fun m j => m ||| orAll c.act (fun l => (back j l).2)) 0))) ∧
    (∀ (t : Ty) (mode : Nat) (rand : Nat → Nat) (xs : List Machine.Num),
      let q := quantise t mode rand xs
      (xs.any Machine.Num.isNan = true → q = (0xFF, xs.map (fun _ => 0), if xs.any Machine.Num.isSignalling then fstIV else 0))
        ∧ (xs.any Machine.Num.isNan = false → ∃ (m : Nat) (e : Int),
            (∀ neg m' e', Machine.Num.fin neg m' e' ∈ xs → ∀ u : Int, u ≤ e → u ≤ e' → m' * 2 ^ (e' - u).toNat ≤ m * 2 ^ (e - u).toNat)
              ∧ (m = 0 ∨ ∃ neg, Machine.Num.fin neg m e ∈ xs)
              ∧ let k := blockScale t m e
                let element := fun (j : Nat) (x : Machine.Num) => deliver t mode (rand j) (times x (-k))
                q.1 = (k + 127).toNat ∧ q.2.1.length = xs.length ∧ (∀ j x, xs[j]? = some x → q.2.1[j]? = some (element j x).1)
                  ∧ ∀ i, q.2.2.getLsbD i = true ↔ ∃ j x, xs[j]? = some x ∧ (element j x).2.getLsbD i = true)) ∧
    (∀ (t : Ty) (m : Nat) (e : Int), t ∈ [Ty.e4m3, .e5m2, .e2m1, .l6] →
      let top := blockMax t
      let fits := fun (k : Int) => ∀ u : Int, u ≤ e → u ≤ top.2 + k → m * 2 ^ (e - u).toNat ≤ top.1 * 2 ^ (top.2 + k - u).toNat
      (m = 0 → blockScale t m e = 0)
        ∧ (m ≠ 0 → -127 ≤ blockScale t m e ∧ blockScale t m e ≤ 127
            ∧ (blockScale t m e < 127 → fits (blockScale t m e))
            ∧ (-127 < blockScale t m e → ∀ k, k < blockScale t m e → ¬ fits k)))

/-- R174 to R180, R185, R186, R189, R190: loads. Each acting lane's address is checked and translated; the bytes that are present are taken, requests go out for the others, and the operation is pending with its lanes.
R189: the registers that a load's bytes make: little-endian, sign- or zero-extended. That the bytes present are taken at issue is the model's (log 14). -/
def Obligations.LoadInstructions : Prop :=
    (∀ (h : Hints) (sp : Space) (sz : MSize) (d a : Opd) (off : BitVec 20) (s : State) (k : Nat) (w : Wave),
      let v := ctx true h s k w
      let c := ctx false h s k w
      let go : Ctx → Bool → State → List LaneAcc → Eff := fun c lane s' accs =>
        let r := sampleLoads c sp s' accs
        { st := if sp = .g then r.1.askLoad k s.nextId w.pidN r.2 else r.1, kind := .load sz lane (destReg d) r.2, nominal := accessNominal c sp r.2 }
      Accesses true (.vld h sp sz d a off) h s k w
          (resolve v sp (sizeBytes sz) true .read (fun _ => true) ((lanesOf v.act).map (fun l => (l, addressOf v sp a off l)))) (go v true)
        ∧ Accesses false (.sld h sp sz d a off) h s k w
            (resolve c sp (sizeBytes sz) true .read (fun _ => true) [(0, addressOf c sp a off 0)]) (go c false)) ∧
    (∀ (b₀ b₁ b₂ b₃ b₄ b₅ b₆ b₇ : Byte) (rest : List Byte),
      let low : Word := (b₃ ++ b₂ ++ b₁ ++ b₀ : BitVec 32)
      let high : Word := (b₇ ++ b₆ ++ b₅ ++ b₄ : BitVec 32)
      extend .i8 [b₀] = [b₀.signExtend 32] ∧ extend .n8 [b₀] = [b₀.setWidth 32]
        ∧ extend .i16 [b₀, b₁] = [(b₁ ++ b₀ : BitVec 16).signExtend 32] ∧ extend .n16 [b₀, b₁] = [(b₁ ++ b₀ : BitVec 16).setWidth 32]
        ∧ extend .b32 [b₀, b₁, b₂, b₃] = [low] ∧ extend .n64 [b₀, b₁, b₂, b₃, b₄, b₅, b₆, b₇] = [low, high]
        ∧ (rest.length = 8 → (extend .b128 ([b₀, b₁, b₂, b₃, b₄, b₅, b₆, b₇] ++ rest)).take 2 = [low, high]
            ∧ (extend .b128 ([b₀, b₁, b₂, b₃, b₄, b₅, b₆, b₇] ++ rest)).drop 2 = extend .n64 rest))

/-- R185, R186, R189, R191, R379: stores. The bytes are written at issue, requests go out for lines of device memory; in a protected wave the pairs must agree on address and data, and each pair stores once.
R182, R191: a store of lanes, where the L1 has room for its lines, changes the bytes that the winning lanes send and no other byte of any memory as the core sees it; a lane's own store leaves its bytes at its place. That the bytes are written at issue is the model's (log 14). -/
def Obligations.StoreInstructions : Prop :=
    (∀ (h : Hints) (sp : Space) (sz : MSize) (d a : Opd) (off : BitVec 20) (s : State) (k : Nat) (w : Wave),
      let v := ctx true h s k w
      let c := ctx false h s k w
      let go : Ctx → State → List LaneAcc → Eff := fun c s' accs =>
        let r := s'.storeAll (cidOf k) w.pidN ((senders w accs).map (fun x => { x with got := (storeData c sz d x.lane).map some }))
        { st := r.1.askStore k s.nextId w.pidN (r.2.filter (fun x => !x.refused)), kind := .store r.2, nominal := accessNominal c sp (senders w accs) }
      let agree := pairsAgree v.act (fun l => (addressOf v sp a off l, storeData v sz d l))
      let r := resolve v sp (sizeBytes sz) true .write (fun _ => true) ((lanesOf v.act).map (fun l => (l, addressOf v sp a off l)))
      ((w.prot = true → agree = true) → Accesses true (.vst h sp sz d a off) h s k w r (go v))
        ∧ (w.prot = true → agree = false → Disagrees (.vst h sp sz d a off) h s k w r)
        ∧ Accesses false (.sst h sp sz d a off) h s k w
            (resolve c sp (sizeBytes sz) true .write (fun _ => true) [(0, addressOf c sp a off 0)]) (go c)) ∧
    (∀ (s : State) (cid p : Nat) (accs : List LaneAcc) (a : LaneAcc),
      let t := (s.storeAll cid p accs).1
      (RoomFor s cid accs →
          (∀ pl, (∀ x ∈ State.winners accs, ∀ i, i < (sentBytes x).length → pl ≠ further i x.place) → byteAt t cid pl = byteAt s cid pl)
            ∧ t = { s with cores := t.cores, hostMem := t.hostMem, peers := t.peers, lclk := t.lclk, freeCtr := t.freeCtr }
            ∧ ∀ j, t.core j = { s.core j with scr := (t.core j).scr, scrErr := (t.core j).scrErr, l1 := (t.core j).l1 })
        ∧ (∀ u, s.storeLane cid p a = (u, true) → ∀ i, i < (sentBytes a).length → byteAt u cid (further i a.place) = (sentBytes a)[i]?))

/-- R176, R178, R185: an access to a block's own scratchpad. Aligned addresses within the allocation have their places at the allocation's base; a misaligned address traps with reason 1, one past the end with reason 2, the lower reason standing for the lanes that have it. -/
def Obligations.ScratchpadAddresses : Prop :=
  ∀ (c : Ctx) (n : Nat) (kind : PKind) (b : Block) (xs : List (Nat × Nat)), 0 < n → xs ≠ [] → c.w.batch = none → c.s.block c.w.block = some b → b.scrSize ≤ 2 ^ 18 →
    let crooked := fun (x : Nat × Nat) => decide (x.2 % n ≠ 0)
    let past := fun (x : Nat × Nat) => decide (b.scrSize < x.2 + n)
    let r := resolve c .s n true kind (fun _ => true) xs
    (xs.all (fun x => !crooked x && !past x) →
        r = .ok c.s (xs.map (fun x => { lane := x.1, addr := x.2, place := .scr b.cid (b.scrBase + x.2), n := n })))
      ∧ (∀ mask, xs.any crooked → IsMask mask (fun l => xs.any (fun x => crooked x && x.1 = l)) →
          r = .trap c.s 1 mask (((xs.find? crooked).map (·.2)).getD 0))
      ∧ (∀ mask, xs.any crooked = false → xs.any past → IsMask mask (fun l => xs.any (fun x => past x && x.1 = l)) →
          r = .trap c.s 2 mask (((xs.find? past).map (·.2)).getD 0))

/-- R193, R194: prefetch and cache control. A prefetch drops the lanes that have no place; the cache instructions ask for each line once, and fault as loads do but for alignment.
R207, R208, R213, R214: fences are pending until the operations that they wait for are done; nothing else is done at issue. -/
def Obligations.CacheAndFenceInstructions : Prop :=
    (∀ (h : Hints) (l2 : Bool) (a : Opd) (off : BitVec 20) (s : State) (k : Nat) (w : Wave),
      let c := ctx true h s k w
      let at_ := fun (l : Nat) => addressOf c .g a off l
      let found := (lanesOf c.act).foldl (fun (r : State × List LaneAcc) l =>
        let t := translateLane r.1 (cidOf k) c.w .read (fun _ => true) (at_ l)
        (t.1, match t.2 with | .at_ p => r.2 ++ [{ lane := l, addr := at_ l, place := p, n := 1 }] | _ => r.2)) (c.s, [])
      let control := fun (drop : Bool) (s' : State) (accs : List LaneAcc) =>
        ({ st := askLines c s' (.control drop) accs, kind := .cache } : Eff)
      let r := resolve c .g 1 false .read (fun _ => true) ((lanesOf c.act).map (fun l => (l, at_ l)))
      Performs true (.vpf h l2 a off) h s k w { st := askLines c found.1 (.prefetch (!l2)) found.2, kind := .cache }
        ∧ Accesses true (.lwb h a off) h s k w r (control false)
        ∧ Accesses true (.linv h a off) h s k w r (control true)) ∧
    (∀ (h : Hints) (f : FenceK) (sc : Scope) (s : State) (k : Nat) (w : Wave),
      let c := ctx false h s k w
      let among := fun (p : Pend → Bool) => (w.pend.filter p).map (·.id)
      let earlier := among (fun p => match p.kind with | .load .. | .store .. | .atomic .. | .cache | .cmb .. => true | _ => false)
      let stores := among (fun p => match p.kind with | .store .. => true | _ => false)
      Performs false (.fence h f sc) h s k w { st := c.s, kind := .fence f sc earlier, nominal := 4 }
        ∧ Performs false (.dfence h) h s k w { st := c.s, kind := .dfence stores, nominal := 8 }
        ∧ Performs false (.ifence h sc) h s k w
            { st := c.s, kind := .ifence sc, nominal := match sc with | .wave | .block => 4 | .cluster => 30 | _ => 400 })

/-- R185, R218, R219, R379: atomics. Lanes that name one address make one request, in ascending lane order; the operation is pending until the old values have returned.
R217, R219: what an atomic leaves at its location of n bits and what its lanes return: each lane the value left by the one before. The float operations leave the rounded sum of R133, and the lesser or greater of R134, of the numbers that the two words stand for; where R133 or R134 gives a NaN, the canonical one. -/
def Obligations.AtomicInstructions : Prop :=
    (∀ (h : Hints) (op : AOp) (wide : Bool) (sc : Scope) (d a b e : Opd) (s : State) (k : Nat) (w : Wave),
      let v := ctx true h s k w
      let c := ctx false h s k w
      let t := if wide then Ty.n64 else .b32
      let n := if wide then 8 else 4
      let data := fun (c : Ctx) (l : Nat) => ((c.valT t 8 b l [b, e]).toNat, (c.valT t 9 e l [b, e]).toNat)
      let go : Ctx → Bool → (Nat → Nat × Nat) → State → List LaneAcc → Eff := fun c lane data s' accs =>
        { st := askAtomic c s' op wide (senders w accs) data, kind := .atomic wide lane (destReg d) [] 0 [], nominal := atomNominal (senders w accs) }
      let agree := pairsAgree v.act (fun l => (addressOf v .g a 0 l, data v l))
      let i := Instr.vatom h op wide sc d a b e
      let r := resolve v .g n true .write (fun loc => loc ≠ 1) ((lanesOf v.act).map (fun l => (l, addressOf v .g a 0 l)))
      ((w.prot = true → agree = true) → Accesses true i h s k w r (go v true (data v)))
        ∧ (w.prot = true → agree = false → Disagrees i h s k w r)
        ∧ Accesses false (.satom h op wide sc d a b e) h s k w
            (resolve c .g n true .write (fun loc => loc ≠ 1) [(0, addressOf c .g a 0 0)]) (go c false (fun _ => data c 0))) ∧
    (∀ (n : Nat) (x b y : BitVec n) (lanes : List (Nat × Nat × Nat)) (op : AOp) (m : Nat), n = 32 ∨ n = 64 →
      let new := fun (op : AOp) => atomNew op n x.toNat b.toNat y.toNat
      let v : BitVec n → BitVec 32 := fun z => z.setWidth 32
      new .add = (x + b).toNat ∧ new .and = (x &&& b).toNat ∧ new .or = (x ||| b).toNat ∧ new .xor = (x ^^^ b).toNat ∧ new .exch = b.toNat
        ∧ new .cas = (if x = y then b else x).toNat ∧ new .minN = (if b.ult x then b else x).toNat ∧ new .maxN = (if x.ult b then b else x).toNat
        ∧ (n = 32 → new .minI = (if (v b).slt (v x) then b else x).toNat ∧ new .maxI = (if (v x).slt (v b) then b else x).toNat)
        ∧ new .inc = (if b.ule x then 0 else x + 1).toNat ∧ new .dec = (if x = 0 ∨ b.ult x then b else x - 1).toNat
        ∧ (n = 32 →
            let f := fun (z : BitVec n) => decodeNum .f32 z.toNat
            let code := fun (r : Machine.Num × Word) => (deliver .f32 0 0 r.1).1
            new .addF = code (Machine.Num.add 0 (f x) (f b)) ∧ new .minF = code (Machine.Num.pick false false (f x) (f b))
              ∧ new .maxF = code (Machine.Num.pick true false (f x) (f b))
              ∧ ((f x).isNan = true ∨ (f b).isNan = true → new .addF = 0x7FC00000)
              ∧ ((f x).isNan = true → (f b).isNan = true → new .minF = 0x7FC00000 ∧ new .maxF = 0x7FC00000))
        ∧ (atomGroup op n m lanes).1.map (·.1) = lanes.map (·.1)
        ∧ (∀ j, j < lanes.length → ((atomGroup op n m lanes).1.getD j (0, 0)).2
            = (lanes.take j).foldl (fun r l => atomNew op n r l.2.1 l.2.2) m)
        ∧ (atomGroup op n m lanes).2 = lanes.foldl (fun r l => atomNew op n r l.2.1 l.2.2) m)

/-- R224, R225, R231, R379: `cmb` writes the object's line back and sends its requests; `ccommit` and `ccommit.nw` announce the commit of the batch's object after a release; `creply` gives each request of an acting lane its first reply; `cend` ends the batch. -/
def Obligations.CombiningInstructions : Prop :=
  ∀ (h : Hints) (d a b : Opd) (m v : BitVec 6) (s : State) (k : Nat) (w : Wave),
    let l := ctx true h s k w
    let c := ctx false h s k w
    let cid := cidOf k
    let data := fun (j : Nat) => (l.valN 8 b 0 j, l.valN 8 b 1 j)
    let agree := pairsAgree l.act (fun j => (addressOf l .g a 0 j, data j))
    let lines := fun (accs : List LaneAcc) => (devLines (senders w accs)).eraseDups
    let i := Instr.cmb h d a b m
    let r := resolve l .g 4 true .write (fun loc => loc = 0) ((lanesOf l.act).map (fun j => (j, addressOf l .g a 0 j)))
    let held := fun (s' : State) (accs : List LaneAcc) => (lines accs).any (fun n => s'.lineHeld n k && !(s'.l1Dirty cid n).isEmpty)
    let batch := w.batch.bind (fun b => (Tbl.get? s.batches b).map (fun x => (b, x)))
    let commit : Instr → Batch → Nat → Option (List Word) → Prop := fun i x b words =>
      Performs false i h s k w
        { st := c.s.modBatch b (fun x => { x with commitIssued := true, commitWords := words }), kind := .commit (fenceNeeds w)
          nominal := if didOf cid = x.slice / 128 then 260 else 420 }
    (∀ s' accs, r = .ok s' accs → held s' accs = false → (w.prot = true → agree = true) →
        Performs true i h s k w
          { st := askCombine l (((lines accs).foldl (fun s n => s.flushLine cid n) s').lcTick (lcCore cid)) m.toNat (senders w accs) data
            kind := .cmb ((destReg d).getD 0) (maskOf (fun j => (senders w accs).any (fun x => x.lane = j))) [], nominal := 260 })
      ∧ (∀ s' accs, r = .ok s' accs → held s' accs = true → (w.prot = true → agree = true) → Executes true i h s k w → exec i s = .next l.s)
      ∧ (∀ s', r = .wait s' → Executes true i h s k w → exec i s = .next s')
      ∧ (∀ s' reason mask addr, r = .trap s' reason mask addr → Executes true i h s k w →
          Traps true i h s k w 6 reason mask (BitVec.ofNat 64 addr) 0 (some s'))
      ∧ (w.prot = true → agree = false → Disagrees i h s k w r)
      ∧ (∀ b x, batch = some (b, x) →
          (w.badV v.toNat &&& maskOf (· < x.ent.size + 1) = 0 →
              commit (.ccommit h v) x b (some ((List.range (x.ent.size + 1)).map (fun j => c.rdV 0 v.toNat j))))
            ∧ (∀ bad, w.badV v.toNat &&& maskOf (· < x.ent.size + 1) = bad → bad ≠ 0 → Executes false (.ccommit h v) h s k w →
                Traps false (.ccommit h v) h s k w 4 0 bad)
            ∧ commit (.ccommitNw h) x b none
            ∧ Performs true (.creply h a) h s k w
                { st := (l.s.lcTick (lcCore cid)).modBatch b (fun x => { x with reqs := x.reqs.zipIdx.map (fun e =>
                    if l.act.getLsbD e.2 && e.1.reply.isNone && !e.1.answered then { e.1 with reply := some (l.val 0 a e.2 [a]), stamp := (l.s.lcTick (lcCore cid)).lc (lcCore cid) } else e.1) })
                  kind := .reply, nominal := 12 }
            ∧ Performs false (.cend h) h s k w { st := c.s.endBatch b none })

/-- R278 to R281: barriers. `bar.arr` and the first half of `bar.sync` set out an arrival after its release; a wait passes where the phase joined has completed, and else blocks the wave; `bar.exp` sets the expected count, 1 to 65,535; `bar.tx` raises the pending bytes; `bar.test` writes a pair of q registers. A name that the owner did not declare is illegal with reason 9.
R279, R281: what the operations of a barrier do to it. A phase completes when as many have arrived as are expected and no byte is pending: the count of arrivals returns to 0 and the phase number rises. -/
def Obligations.BarriersAndPhases : Prop :=
    (∀ (h : Hints) (x : BarF) (pr : PairF) (a : Opd) (s : State) (k : Nat) (w : Wave),
      let c := ctx false h s k w
      let key := 64 * x.cls.toNat + x.num.toNat
      let n := (c.val 0 a 0 [a]).toNat
      let words := [Instr.barArr h x, .barWait h x, .barSync h x, .barExp h x a, .barTx h x a, .barTest h pr x]
      let passed := barPasses c.s c.w key
      ((s.barrierOf w.block key).isSome →
          Performs false (.barArr h x) h s k w { st := c.s.barArrive k key }
            ∧ Performs false (.barWait h x) h s k w
                { st := if passed then c.s.barObserve k key else c.s.modWave k (fun y => { y with stat := .barWait key }) }
            ∧ Performs false (.barSync h x) h s k w { st := (c.s.barArrive k key).barWaitStep k key }
            ∧ (1 ≤ n → n ≤ 65535 → Performs false (.barExp h x a) h s k w { st := c.s.barChange k key 1 n })
            ∧ (n = 0 ∨ 65535 < n → Executes false (.barExp h x a) h s k w → Traps false (.barExp h x a) h s k w 2 9 allLanes)
            ∧ Performs false (.barTx h x a) h s k w { st := c.s.barChange k key 2 n }
            ∧ Performs false (.barTest h pr x) h s k w
                { st := if passed then c.s.barObserve k key else c.s, ws := pairQ c pr passed })
        ∧ ((s.barrierOf w.block key).isNone → ∀ i ∈ words, Tried false i h s k w → Traps false i h s k w 2 9 allLanes)) ∧
    (∀ (b : Barrier) (val : Nat) (stamp : BitVec 48),
      let counts := fun (y : Barrier) => (y.e, y.a, y.t, y.phc)
      let closes := fun (e a : Nat) (t : BitVec 32) => if e ≤ a ∧ t = 0 then (e, 0, t, b.phc + 1) else (e, a, t, b.phc)
      counts (b.operate 0 val stamp) = closes b.e ((b.a + 1) % 65536) b.t
        ∧ counts (b.operate 1 val stamp) = closes val b.a b.t
        ∧ counts (b.operate 2 val stamp) = closes b.e b.a (b.t + BitVec.ofNat 32 val)
        ∧ (∀ phc ap : BitVec 16, phasePast phc ap = true ↔ ∃ n, 1 ≤ n ∧ n ≤ 2 ^ 15 ∧ phc = ap + BitVec.ofNat 16 n))

/-- R236 to R238, R240, R243 to R246: the commands of the copy engine. -/
def Obligations.CopyCommands : Prop :=
  ∀ (h : Hints) (dsp ssp sp : Space) (op ty : BitVec 2) (d a b : Opd) (o : EngOrd) (s : State) (k : Nat) (w : Wave),
    let c := ctx false h s k w
    let addr := fun (sp : Space) (f : Nat) (o : Opd) => if sp = .g then (c.val64 f o).toNat else (c.val f o).toNat
    let when_ := fun (p : Bool) (n : Nat) => if p then [n] else []
    let blocks := fun (sp : Space) (x : Nat) => if sp = .c then windowBlockId c.s (cidOf k) c.w x else []
    let arg := fun (j : Nat) => (c.valN 8 b j).toNat
    let da := addr dsp 0 d
    let sa := addr ssp 1 a
    let d₁ := (c.val 0 d).toNat
    let rec_ := (c.val64 1 a).toNat
    let s₁ := (c.val 1 a).toNat
    let tensor : Instr → Space → Prop := fun i dst =>
      Commands i h s k w false (when_ (decide (rec_ % 64 ≠ 0)) 2 ++ sideReasons c sp d₁ 0 ++ attachReasons c dst (arg 5))
        ([sideArg c sp d₁, rec_, arg 5, sideRoom c sp d₁] ++ (List.range 5).map arg) none (blocks sp d₁)
    let rows : Instr → List Nat → Prop := fun i attach =>
      Commands i h s k w false (when_ (decide (arg 1 = 0 ∨ 256 < arg 1 ∨ scrLimit c.s c.w < arg 0 + 4 * arg 1)) 1
          ++ when_ (decide (rec_ % 64 ≠ 0 ∨ arg 0 % 4 ≠ 0)) 2 ++ sideReasons c sp d₁ 0 ++ attach)
        [sideArg c sp d₁, rec_, arg 2, sideRoom c sp d₁, sideArg c .s (arg 0), arg 1] none (blocks sp d₁)
    Commands (.cpy h dsp ssp d a b o) h s k w false
        (when_ (decide (arg 0 < 4 ∨ 16777216 < arg 0)) 1 ++ when_ (decide (arg 0 % 4 ≠ 0 ∨ da % 4 ≠ 0 ∨ sa % 4 ≠ 0)) 2
          ++ sideReasons c dsp da (arg 0) ++ sideReasons c ssp sa (arg 0) ++ attachReasons c dsp (arg 1))
        [sideArg c dsp da, sideArg c ssp sa, arg 0, arg 1] none (blocks dsp da ++ blocks ssp sa)
      ∧ tensor (.cpytLd h sp d a b o) sp
      ∧ tensor (.cpytSt h sp d a b o) .g
      ∧ rows (.cpyg h sp d a b o) (attachReasons c sp (arg 2))
      ∧ rows (.cpys h sp d a b o) (when_ (decide (arg 2 ≠ 0)) 5)
      ∧ Commands (.cred h op ty d a b o) h s k w false
          (when_ (decide (arg 0 = 0 ∨ 65536 < arg 0)) 1 ++ when_ (decide (d₁ % 4 ≠ 0 ∨ s₁ % 4 ≠ 0)) 2
            ++ sideReasons c .c d₁ (4 * arg 0) ++ sideReasons c .s s₁ (4 * arg 0) ++ attachReasons c .c (arg 1))
          [sideArg c .c d₁, sideArg c .s s₁, arg 0, arg 1] none (windowBlockId c.s (cidOf k) c.w d₁)

/-- R151, R155 to R161, R164, R165: the commands of the matrix engine. A slot name without a binding is reason 1, a shape word out of range 2, a misaligned address or stride 3, a tile past the scratchpad allocation 4.
R151, R167, R168: slot names. `aalloc` binds a free name to a free physical slot, in the model the lowest (log 30), whose elements become +0, and writes the pair; with no free slot, or for a bound name, it changes nothing but the pair. `afree` unbinds a name that `aalloc` bound; for any other name it traps with class 7 and reason 5. -/
def Obligations.MatrixInstructions : Prop :=
    (∀ (h : Hints) (t : Ty) (g : Bool) (slot : BitVec 3) (swap done z sc add : Bool) (sp rm : BitVec 2) (a b : Opd) (o : EngOrd) (s : State) (k : Nat) (w : Wave),
      let c := ctx false h s k w
      let when_ := fun (p : Bool) (n : Nat) => if p then [n] else []
      let x := if g then (c.val64 0 a).toNat else (c.val 0 a).toNat
      let side := if g then x else sideArg c .s x
      let bound := ((s.block w.block).bind (fun y => Tbl.get? y.slots slot.toNat)).map (·.phys)
      let unbound := when_ bound.isNone 1
      let align := if g then 128 else 16
      let sh := (c.val 8 b).toNat
      let row := 96 * (t.bits / 8)
      let stride := strideOf sh row
      let tile := unbound ++ shapeReasons sh ++ when_ (decide (x % align ≠ 0 ∨ stride % align ≠ 0)) 3
        ++ when_ (!g && decide (scrLimit c.s c.w < x + (shapeRows sh - 1) * stride + row)) 4
      let w₀ := (c.valN 8 b 0).toNat
      let w₁ := (c.valN 8 b 1).toNat
      Commands (.mlds h t g a sp sc o) h s k w true
          (when_ (decide (x % align ≠ 0)) 3 ++ when_ (!g && decide (scrLimit c.s c.w < x + imageBytes t sp.toNat sc)) 4) [side] none []
        ∧ Commands (.mms h t g slot swap done z sc a b o) h s k w true
            (unbound ++ shapeReasons w₀ ++ when_ (decide (x % 16 ≠ 0) || (sc && decide ((x + w₁) % 8 ≠ 0))) 3) [side, w₀, w₁, x] bound []
        ∧ Commands (.mzero h slot) h s k w true unbound [] bound []
        ∧ Commands (.mdrain h t g slot add rm a b o) h s k w true tile [side, sh] bound []
        ∧ Commands (.mldacc h t g slot a b o) h s k w true tile [side, sh] bound []) ∧
    (∀ (h : Hints) (pr : PairF) (n : BitVec 3) (s : State) (k : Nat) (w : Wave),
      let c := ctx false h s k w
      let cid := cidOf k
      let bound := fun (ph : Nat) => Tbl.has (s.core cid).mat.bound ph
      let name := (s.block w.block).bind (fun b => Tbl.get? b.slots n.toNat)
      (∀ ph, ph < 8 → bound ph = false → (∀ j, j < ph → bound j = true) → name = none →
          Performs false (.aalloc h pr n) h s k w
            { st := ((c.s.modBlock w.block (fun b => { b with slots := Tbl.set b.slots n.toNat { phys := ph, placed := false } })).modMat cid
                (fun m => { m with bound := Tbl.set m.bound ph w.block })).zeroSlot cid ph
              ws := pairQ c pr true })
        ∧ ((∀ ph, ph < 8 → bound ph = true) ∨ name.isSome → Leaves false (.aalloc h pr n) h s k w 4 (pairQ c pr false) 0)
        ∧ (∀ x, name = some x → x.placed = false →
            Performs false (.afree h n) h s k w
              { st := (c.s.modBlock w.block (fun b => { b with slots := Tbl.erase b.slots n.toNat })).freeSlot cid x.phys })
        ∧ ((∀ x, name = some x → x.placed = true) → Executes false (.afree h n) h s k w → Traps false (.afree h n) h s k w 7 5 allLanes))

/-- R270, R271: `spawn` reads its 128-byte record as a load of two halves would, and its pair is pending until the dispatcher has answered. A fault names the record's address (R342) and lane 0, which the manual does not say of a wave-level access (log 17).
R249, R255, R256, R380: marks, captures and regions. Each mark and each opening or closing advances the core's logical clock; a packet leaves where the wave is traced; `rgn` opens a region at the next word in a protected wave and does nothing in another. -/
def Obligations.SpawnAndTraceInstructions : Prop :=
    (∀ (h : Hints) (pr : PairF) (a : Opd) (n : BitVec 2) (s : State) (k : Nat) (w : Wave),
      let c := ctx false h s k w
      let i := Instr.spawn h pr a n
      let va := (c.val64 0 a).toNat
      let r := resolve c .g 64 true .read (fun _ => true) [(0, va), (1, (va + 64) % 2 ^ 64)]
      (∀ s' accs, r = .ok s' accs →
          let got := accs.map (fun x => s'.loadLane (cidOf k) w.pidN x)
          let s' := (s'.loadTrips accs).lcTick (lcCore (cidOf k))
          Performs false i h s k w
            { st := s'.askLoad k s.nextId w.pidN got, kind := .spawn pr va n.toNat got (s'.lc (lcCore (cidOf k))), nominal := 32 })
        ∧ (∀ s' reason mask addr, r = .trap s' reason mask addr → Executes false i h s k w →
            Traps false i h s k w 6 reason 1 (BitVec.ofNat 64 va) 0 (some s'))
        ∧ (∀ s', r = .wait s' → Executes false i h s k w → exec i s = .next s')) ∧
    (∀ (h : Hints) (a : Opd) (n : BitVec 2) (s : State) (k : Nat) (w : Wave),
      let c := ctx false h s k w
      let s₁ := c.s.lcTick (lcCore (cidOf k))
      let stamp := leBytes 6 (s.lc (lcCore (cidOf k)) + 1).toNat
      Performs false (.tmark h a) h s k w { st := s₁.packet k 0x40 [] (stamp ++ leBytes 4 (c.val 0 a 0 [a]).toNat) }
        ∧ Performs false (.capst h n) h s k w
            { st := (s₁.packet k 0x50 [BitVec.ofNat 8 n.toNat] stamp).modWave k (fun x => { x with caps := Tbl.set x.caps n.toNat {} }) }
        ∧ Performs false (.capsp h n) h s k w { st := c.s.closeCapture k n.toNat false }
        ∧ Performs false (.rgn h) h s k w
            { st := c.s.modWave k (fun x => if x.prot then { x with region := some { entry := x.pc + 12, restarts := 0, n := x.draws } } else x) })

/-- R124 to R128, R378, R382: `vrand`. A failed source is reason 1 of class 5; a log slot too small reason 2, where the source has not failed or is not drawn on; without enough words the wave does not advance; else each acting lane, or pair, takes the next word of the buffer in lane order, and under NMODE 1 and 2 the words go to the log or come from it. The words of the buffer come from outside the model (log 8); the offsets of a protected wave's log follow log 27. -/
def Obligations.NoiseInstruction : Prop :=
  ∀ (h : Hints) (d : Opd) (s : State) (k : Nat) (w : Wave),
    let c := ctx true h s k w
    let i := Instr.vrand h d
    let src := (s.core (cidOf k)).noise
    let log := w.nmode = 1 ∨ w.nmode = 2
    let replay := w.nmode = 2 ∨ (w.nmode = 1 ∧ w.draws.toNat < w.logged)
    let short := log ∧ w.nstride < (w.draws.toNat + 1) * 384
    let failed := ¬ replay ∧ src.st = 3 ∧ src.en = true
    let unit := fun (l : Nat) => if w.prot then l / 2 else l
    let units := ((lanesOf c.act).map unit).eraseDups
    let starved := ¬ replay ∧ (src.st ≠ 1 ∨ src.en = false ∨ src.buf.length < units.length)
    let word := fun (l : Nat) => src.buf.getD (units.takeWhile (· ≠ unit l)).length 0
    let ws := match d with | .v n => if c.act = 0 then [] else [RegW.v n.val ((lanesOf c.act).map (fun l => (l, word l)))] | _ => []
    let entry := fun (l : Nat) => (l, ((w.nlog + w.gwave * w.nstride + w.draws.toNat * 384) % 2 ^ 64 + 4 * unit l) % 2 ^ 64)
    let firsts := units.filterMap (fun u => (lanesOf c.act).find? (fun l => unit l = u))
    (failed → Executes true i h s k w → Traps true i h s k w 5 1 c.act)
      ∧ (¬ failed → short → Executes true i h s k w → Traps true i h s k w 5 2 c.act)
      ∧ (¬ short → ¬ failed → starved → Executes true i h s k w → exec i s = .next c.s)
      ∧ (¬ short → ¬ failed → ¬ starved →
          (replay → Accesses true i h s k w (resolve c .g 4 true .read (fun _ => true) ((lanesOf c.act).map entry)) (fun s' accs =>
              let got := accs.map (fun x => s'.loadLane (cidOf k) w.pidN x)
              { st := (drawn c (s'.loadTrips accs) 0).askLoad k s.nextId w.pidN got, kind := .load .b32 true (destReg d) got, nominal := 40 }))
            ∧ (¬ replay → w.nmode = 1 → Accesses true i h s k w (resolve c .g 4 true .write (fun _ => true) (firsts.map entry)) (fun s' accs =>
              let r := s'.storeAll (cidOf k) w.pidN (accs.map (fun x => { x with got := (leBytes 4 (word x.lane).toNat).map some }))
              { st := (drawn c r.1 units.length).askStore k s.nextId w.pidN (r.2.filter (fun x => !x.refused)), kind := .store r.2, ws := ws, nominal := 40 }))
            ∧ (¬ replay → w.nmode ≠ 1 → Performs true i h s k w { st := drawn c c.s units.length, ws := ws, nominal := 40 }))

/-- R43 to R57, R96: an instruction that the checks of R59 accept comes back from its encoding, with every field. -/
def Obligations.EncodingRoundTrip : Prop :=
  ∀ i : Instr, i.wf = true → encode i ≠ 0 → decode (encode i) = some i

/-- R42: the words of memory: twelve bytes, the least significant at the lowest address.
R43 to R47, R50, R59 and the encodings of R87, R189, R207, R218, R280, R344, R346: words written out from the manual's encodings decode to the instructions that they stand for; the word of all zeros decodes to none and fails the first check. -/
def Obligations.WordsAndBytes : Prop :=
    (∀ w : IWord, (bytesOfWord w).length = 12 ∧ wordOfBytes (bytesOfWord w) = w
      ∧ ∀ j, j < 12 → (bytesOfWord w)[j]? = some (w.extractLsb' (8 * j) 8)) ∧
    (let h : Hints := { fh := 0, lut := 0xFF, ga := 0, gb := 0, gc := 0, stall := 0, yld := false, wait := 0, set := 0 }
    let h₁ : Hints := { h with set := 1 }
    decode 0x0080FF000FFFFFFFFFF00000 = some (.nop h)
      ∧ decode 0x4000FF0000100200FFFE0000 = some (.vadd { h with stall := 7 } .i32 false (.v 4) (.v 2) (.v 3))
      ∧ decode 0x718930120020040140600023 = some (.vfma { h with lut := 0x30, ga := 1, gb := 2, wait := 2, set := 3 } .f32 false (.v 8) (.v 4) (.v 5) (.v 6))
      ∧ decode 0x0C80FF00082BFFFFFFD00000 = some (.smovil h (.s 10) 0xFFFFD)
      ∧ decode 0x3200FF000FFFFF0000C00000 = some (.bexz h 12)
      ∧ decode 0xB011FF000018050000040001 = some (.vld { h₁ with stall := 2 } .s .b32 (.v 6) (.v 5) 0)
      ∧ decode 0xD200FF00001804F83FF00001 = some (.vatom h₁ .add false .dev (.v 6) (.v 4) (.int 0) .zero)
      ∧ decode 0xB806F0100FFFFFFFFFF00000 = some (.fence { h with lut := 0xF0, ga := 1 } .rel .block)
      ∧ decode 0xE280FF00008403FFFFF00000 = some (.barTest h { pt := 1, pf := 2, acc := 0 } { cls := 0, num := 3 })
      ∧ decode 0x3400FF000FFFFF0000500000 = some (.trap h 5)
      ∧ decode 0x3580FF000853FF0001000001 = some (.csrr h₁ (.s 20) 0x010)
      ∧ decode 0 = none ∧ (∀ v r, illegalReason v r 0 = some 1))

/-- R42, R52, R315: where a wave has been chosen and the twelve bytes at its pc decode to an instruction, the step is `exec` of that instruction. The bytes come from the words fetched ahead, from the instruction cache, or from resident lines of a page that the core's TLB holds, which the instruction cache then keeps. That a step is one instruction of one wave, and the order of the steps, is the model's choice (log 2); where the bytes of a fetch come from follows log 14. -/
def Obligations.StepRunsDecoded : Prop :=
  ∀ (s : State) (k : Nat) (w : Wave) (i : Instr) (word : IWord) (e : TlbE), s.inbox = [] → s.cur = some k → s.wave k = some w →
    w.isReady = true → (w.deferred = [] ∨ w.inHandler = true) → w.pc.toNat % 4 = 0 → decode word = some i →
      let va := w.pc.toNat
      let cid := cidOf k
      let space := asid w.pidN w.pasid
      let a := e.base + (va % 2 ^ 57 - e.va)
      (Tbl.get? w.ahead va = some word → step s = exec i s)
        ∧ (Tbl.get? w.ahead va = none → (s.core cid).cached space va = some word → step s = exec i s)
        ∧ (Tbl.get? w.ahead va = none → (s.core cid).cached space va = none → w.refusedPages = [] → canonical va = true → va % 65536 ≤ 65524 →
            (s.core cid).tlb.find? (fun e => e.covers space (va % 2 ^ 57)) = some e → e.x = true → e.loc = 0 → s.admits w.pidN a 12 false = true →
            (∀ l ∈ State.linesOf a 12, Tbl.has s.l2 l = true ∧ s.poisoned l = false) → wordOfBytes (Memory.readBytes s.mem a 12) = word →
              step s = exec i (s.modCore cid (fun c => { c with icache := ((space, va, word) :: c.icache).take 5461 })))

/-- R42, R59, R185, R338, R339: what the turn of a chosen wave does before an instruction: a deferred fault is delivered first; a pc that is no multiple of 4 traps with class 1 and reason 1, a page that the core's TLB holds without permission to execute, a page of the host or of a peer, an address outside the space and a page that the driver has failed with reason 2, a poisoned line with reason 3, a line that the home refuses with reason 4; a word that does not decode with class 2 and the first check that it fails, among those of the word and those that depend on the wave, whether the word was fetched ahead, lies in the instruction cache or comes from memory. The place of the fetch in the step is the model's (log 2); where its bytes come from follows log 14. -/
def Obligations.FetchTraps : Prop :=
  ∀ (s : State) (k : Nat) (w : Wave) (word : IWord) (e : TlbE) (d : DFault) (rest : List DFault), s.inbox = [] → s.cur = some k → s.wave k = some w → w.isReady = true →
    let va := w.pc.toNat
    let cid := cidOf k
    let space := asid w.pidN w.pasid
    let a := e.base + (va % 2 ^ 57 - e.va)
    let faults := fun (u : State) (r : Nat) => step s = .next { u.deliverTrap k { cls := 1, reason := r, mask := allLanes, ipc := w.pc, epc := w.pc } with cur := none }
    let illegal := fun (u : State) => step s = .next
      { u.trapIssue k w { cls := 2, reason := (u.wordReason k w word).getD 1, mask := allLanes, ipc := w.pc, epc := w.pc } with cur := none }
    (∀ r, illegalReason w.vregs w.sregs word = some r → ∃ m, s.wordReason k w word = some m ∧ m ≤ r) ∧
    (w.deferred = d :: rest → w.inHandler = false → step s = .next
        { (s.modWave k (fun w => { w with deferred := rest })).deliverTrap k
            { cls := d.cls, reason := d.reason, mask := d.mask, addr := d.addr, ipc := d.pc, epc := w.pc, deferred := true, seq := d.seq } with cur := none })
      ∧ ((w.deferred = [] ∨ w.inHandler = true) →
          (va % 4 ≠ 0 → faults s 1)
            ∧ (va % 4 = 0 → Tbl.get? w.ahead va = some word → decode word = none → illegal s)
            ∧ (va % 4 = 0 → Tbl.get? w.ahead va = none → (s.core cid).cached space va = some word → decode word = none → illegal s)
            ∧ (va % 4 = 0 → Tbl.get? w.ahead va = none → (s.core cid).cached space va = none →
                ((canonical va = false ∨ (va / 65536, PKind.fetch) ∈ w.refusedPages) → faults s 2)
                  ∧ (canonical va = true → (va / 65536, PKind.fetch) ∉ w.refusedPages → (s.core cid).tlb.find? (fun e => e.covers space (va % 2 ^ 57)) = some e →
                      (e.x = false ∨ e.loc ≠ 0 → faults s 2)
                        ∧ (e.x = true → e.loc = 0 → va % 65536 ≤ 65524 →
                            (s.admits w.pidN a 12 false = false → faults (s.refuse w.pidN a 12) 4)
                              ∧ (s.admits w.pidN a 12 false = true → (∀ l ∈ State.linesOf a 12, Tbl.has s.l2 l = true) →
                                  ((∃ l ∈ State.linesOf a 12, s.poisoned l = true) → faults s 3)
                                    ∧ ((∀ l ∈ State.linesOf a 12, s.poisoned l = false) → wordOfBytes (Memory.readBytes s.mem a 12) = word → decode word = none →
                                        illegal (s.modCore cid (fun c => { c with icache := ((space, va, word) :: c.icache).take 5461 }))))))))

/-- R52, R272 (log 2): the order of a step: the steps of units that are due, one at a time; the turn of the chosen wave; the choices of the quads, before which a trace unit that drops packets resumes if it can (R254); then half a nanosecond of time. This order is the model's own (log 2, log 3). -/
def Obligations.StepSchedule : Prop :=
  ∀ (s : State),
    (∀ i rest, s.inbox = i :: rest → step s = exec i { s with inbox := rest })
      ∧ (∀ cid q rest, s.inbox = [] → s.cur = none → s.todo = (cid, q) :: rest → step s = exec (.issueSelect cid q) s)
      ∧ (s.inbox = [] → s.cur = none → s.todo = [] → s.fresh ≠ [] → ∃ todo, step s = .next { s.resumeTraces with fresh := [], todo := todo }
          ∧ (∀ cid q, (cid, q) ∈ todo ↔ q < 4 ∧ ∃ c, (cid, c) ∈ s.resumeTraces.cores ∧ didOf cid ∈ s.fresh ∧ (Tbl.getD c.quads q {}).all ≠ [])
          ∧ s.resumeTraces = (s.cores.filter (fun e => decide (didOf e.1 ∈ s.fresh) && e.2.trc.dropping)).foldl (fun u e => u.traceResume e.1) s
          ∧ ((∀ e ∈ s.cores, didOf e.1 ∈ s.fresh → e.2.trc.dropping = false) → s.resumeTraces = s))
      ∧ (s.inbox = [] → s.cur = none → s.todo = [] → s.fresh = [] → ∃ t, step s = .next t ∧ t.time = s.time + 1
          ∧ (∀ d, d < 3 → 2000 * (t.die d).cyc + (t.die d).phase = 2000 * (s.die d).cyc + (s.die d).phase + (s.die d).mhz)
          ∧ (∀ d, d ∈ t.fresh ↔ d < 3 ∧ 2000 ≤ (s.die d).phase + (s.die d).mhz))

/-- R3, R12, R15, R33, R124, R251, R326, R331: the state after reset: no work anywhere, the dies at the nominal 1,200 MHz of R15 and the counters at 0, every partition without clusters, the noise sources in start-up, rings at their least sizes. That the caches, the TLBs, the scratchpads, the firmware's cores and the SPDM sessions hold nothing is the model's (log 4, log 5): the manual gives them no contents after reset. -/
def Obligations.ResetState : Prop :=
  let s := State.reset
  s.time = 0 ∧ s.waves = [] ∧ s.blocks = [] ∧ s.launches = [] ∧ s.reqs = [] ∧ s.batches = [] ∧ s.oplog = []
    ∧ (∀ d, (s.die d).mhz = 1200 ∧ (s.die d).cyc = 0 ∧ (s.die d).budget = none)
    ∧ (∀ p, (s.part p).clmask = 0 ∧ (s.part p).tvec = 0 ∧ (s.part p).elen = false ∧ (s.part p).mode = 0 ∧ (s.part p).pstate = 0 ∧ (s.part p).pdl = 100
        ∧ (s.part p).quant = 10 ∧ (s.part p).ellog2n = 8 ∧ (s.part p).chuEn = false ∧ (s.part p).tmo = 0x0100 ∧ (s.part p).subs = [] ∧ (s.part p).graphs = [])
    ∧ (∀ c, (s.core c).noise.st = 0 ∧ (s.core c).noise.buf = [] ∧ (s.core c).noise.en = true ∧ (s.core c).trc.en = false ∧ (s.core c).trc.syncp = 4
        ∧ (s.core c).scr = [] ∧ (s.core c).l1 = [] ∧ (s.core c).tlb = [])
    ∧ (∀ u, s.lc u = 0) ∧ s.fw = [] ∧ s.spdm = []

/-- The model's memories are in canonical form after reset (the model's own form of its data, log 4). A statement about the model's form of its data only. -/
def Obligations.ResetMemoryForm : Prop :=
  State.reset.memWf

/-- The invariant of the model's memories: every step keeps the canonical form of every byte memory (log 4). A statement about the model's form of its data only. -/
def Obligations.StepKeepsMemoryForm : Prop :=
  ∀ s t : State, s.memWf → step s = .next t → t.memWf

/-- R181, R183, R187, R190, R191 for resident lines: a read at the home slices gives the bytes last written and changes nothing; a write changes its own bytes, marks them dirty, and leaves every other byte of every memory. Both keep the canonical form. -/
def Obligations.HomeReadAfterWrite : Prop :=
  ∀ (s : State) (a : Nat) (bs : List Byte), (∀ l ∈ State.linesOf a bs.length, Tbl.has s.l2 l = true) →
    let t := s.homeWrite a bs
    (∀ n, (∀ l ∈ State.linesOf a n, Tbl.has s.l2 l = true) → (s.homeRead a n).1 = s ∧ (s.homeRead a n).2.1 = Memory.readBytes s.mem a n)
      ∧ (t.homeRead a bs.length).2.1 = bs
      ∧ (∀ x, x < a ∨ a + bs.length ≤ x → Memory.read t.mem x = Memory.read s.mem x)
      ∧ t = { s with mem := t.mem, l2 := t.l2 }
      ∧ (s.memWf → t.memWf)
      ∧ (∀ x, a ≤ x → x < a + bs.length → ∃ e, Tbl.get? t.l2 (x / 128) = some e ∧ e.dirty.getLsbD (x % 128 / 32) = true)

/-- R38, R46 to R48, R53, R54, R377, R378: what an operand reads. A register without a pending write reads as it stands; one with pending writes reads as it stands or as one of them will leave it; constants, literal zero and the wave's own numbers read as they are; a pair is two registers; in a protected wave both lanes of a pair have the number of their visible lane (R377, R378). Which of its allowed values an early read gives is free (log 7); that a high half read in one word with its low half belongs to the same sample, and that two high halves in one word both come from the stored sample, are readings of the model (log 28). -/
def Obligations.OperandReads : Prop :=
  ∀ (c : Ctx) (t : Ty) (f l : Nat) (v : Fin 512) (r : Fin 128) (n : Fin 16),
    let sNew := fun (m : Nat) (x : Word) => RegW.s m x ∈ c.pending
    let vNew := fun (m : Nat) (x : Word) => ∃ xs, RegW.v m xs ∈ c.pending ∧ (l, x) ∈ xs
    ((∀ x, ¬ sNew r.val x) → opdVal c t f (.s r) l = c.w.sget r.val)
      ∧ (opdVal c t f (.s r) l = c.w.sget r.val ∨ sNew r.val (opdVal c t f (.s r) l))
      ∧ ((∀ x, ¬ vNew v.val x) → opdVal c t f (.v v) l = c.w.vget v.val l)
      ∧ (opdVal c t f (.v v) l = c.w.vget v.val l ∨ vNew v.val (opdVal c t f (.v v) l))
      ∧ opdVal c t f .zero l = 0 ∧ opdVal c t f (.int n) l = BitVec.ofNat 32 (n.val + 1)
      ∧ opdVal c t f .lane l = BitVec.ofNat 32 (if c.w.prot then l / 2 else l)
      ∧ opdVal c t f .wid l = BitVec.ofNat 32 c.w.wid ∧ opdVal c t f .cid l = BitVec.ofNat 32 (c.k / 128)
      ∧ opdVal c t f .clid l = BitVec.ofNat 32 (c.k / 128 / 4) ∧ opdVal c t f .did l = BitVec.ofNat 32 (c.k / 128 / 48)
      ∧ opdVal c t f .pid l = BitVec.ofNat 32 c.w.pidN
      ∧ opdVal c t f .cyc0 l = BitVec.ofNat 32 (c.s.cyc (cidOf c.k)) ∧ opdVal c t f .lc0 l = (c.s.lc (lcCore (cidOf c.k))).setWidth 32
      ∧ c.val f .cyc1 l [.cyc0] = BitVec.ofNat 32 (c.s.cyc (cidOf c.k) / 2 ^ 32)
      ∧ c.val f .lc1 l [.lc0] = ((c.s.lc (lcCore (cidOf c.k))).setWidth 64 : BitVec 64).extractLsb' 32 32
      ∧ (∀ x, c.w.hold = some x → opdVal c t f .cyc1 l = x ∧ opdVal c t f .lc1 l = x)
      ∧ (c.pending = [] → opdVal c t f .plive l = c.w.plive ||| 0x00010001)
      ∧ ([0, 1, 2, 3, 4, 5, 6, 7].map (fun j => opdVal c .f32 f (.fp j) l)
          = [0x3F000000, 0x3F800000, 0x40000000, 0x40800000, 0xBF000000, 0xBF800000, 0xC0000000, 0xC0800000])
      ∧ ([0, 1, 2, 3, 4, 5, 6, 7].map (fun j => opdVal c .f16 f (.fp j) l)
          = [0x38003800, 0x3C003C00, 0x40004000, 0x44004400, 0xB800B800, 0xBC00BC00, 0xC000C000, 0xC400C400])
      ∧ ([0, 1, 2, 3, 4, 5, 6, 7].map (fun j => opdVal c .bf16 f (.fp j) l)
          = [0x3F003F00, 0x3F803F80, 0x40004000, 0x40804080, 0xBF00BF00, 0xBF80BF80, 0xC000C000, 0xC080C080])
      ∧ (c.pending = [] → c.val64 f (.s r) l = c.w.sget (r.val + 1) ++ c.w.sget r.val ∧ c.val64 f (.v v) l = c.w.vget (v.val + 1) l ++ c.w.vget v.val l)
      ∧ c.val64 f (.int n) l = BitVec.ofNat 64 (n.val + 1)

/-- R33, R36, R37, R53 to R56, R74: a pending result of fixed latency is written once its cycles have passed: exactly the registers that it names change, with their poison, its flag falls by one, and it is pending no more; of the other pending operations those issued before it lose the writes that it overrides, the latch takes the result where FH asks for it, and nothing else of the wave or of the device changes. Before that the step does nothing. -/
def Obligations.FixedResultsAreWritten : Prop :=
  ∀ (s : State) (k op : Nat) (w : Wave) (p : Pend), s.wave k = some w → w.pend.find? (fun x => x.id = op) = some p → p.kind = .alu → p.long = false →
    (∀ n xs, RegW.v n xs ∈ p.writes → ∀ e ∈ xs, e.1 < 96) →
      (p.ready ≤ s.cyc (cidOf k) → ∃ w', exec (.fixedResultReady k op) s = .next (s.setWave k w')
          ∧ Written w w' p.writes p.fst ∧ Finishes w p w'
          ∧ w'.pc = w.pc ∧ w'.stat = w.stat ∧ w'.emask = w.emask
          ∧ (∀ x ∈ w'.pend, x.id ≠ op))
        ∧ (s.cyc (cidOf k) < p.ready → exec (.fixedResultReady k op) s = .next s)

/-- R53, R55, R208, R213, R214: operations of long latency complete when what they wait for is done: a computed result is written and its flag falls; a fence of scope `.cluster` or wider writes the dirty bytes of its core's L1 back for a release and drops the clean ones for an acquire, behind which the dirty bytes go home too (the model's choice, log 32); `dfence` empties the descriptor cache, `ifence` the instruction caches of its scope and the words fetched ahead. An atomic whose answers are all there writes the old values of its lanes. Whatever ends is pending no more, its registers are written and its flag falls, as `Finishes` says clause by clause; a long result overrides the fixed ones still pending (DEDUCED, log 28). -/
def Obligations.LongOperationsComplete : Prop :=
  ∀ (s : State) (k op : Nat) (w : Wave) (p : Pend), s.wave k = some w → w.pend.find? (fun x => x.id = op) = some p →
    let i := Instr.longOpComplete k op
    let cid := cidOf k
    let wide : Scope → Bool := fun sc => match sc with | .wave | .block => false | _ => true
    let ends := fun (u : State) => ∃ t, exec i s = .next t ∧ ∀ x, u.wave k = some x → x.pend.find? (fun y => y.id = op) = some p → Ended u t k x p
    (∀ n xs, RegW.v n xs ∈ p.known → ∀ e ∈ xs, e.1 < 96) →
    (p.kind = .alu → p.long = true → ∃ t, exec i s = .next t ∧ Ended s t k w p)
      ∧ (p.kind = .cache → s.reqsOf k op = [] → ∃ t, exec i s = .next t ∧ Ended s t k w p)
      ∧ (∀ lane wide d rets, p.kind = .atomic wide lane d rets 0 [] → p.long = true → s.reqsOf k op = [] →
          let all := if w.prot && lane then rets.flatMap (fun e => [e, (e.1 + 1, e.2)]) else rets
          (∀ e ∈ all, e.1 < 96) →
          let word := fun (e : Nat × Nat) (j : Nat) => BitVec.ofNat 32 (e.2 / 2 ^ (32 * j))
          let reg := fun (n j : Nat) => if lane then [RegW.v n (all.map (fun e => (e.1, word e j)))] else all.map (fun e => RegW.s n (word e j))
          ∃ t, exec i s = .next t ∧ ∃ w', t.wave k = some w' ∧ Written w w' (match d with
              | none => []
              | some n => if rets = [] then [] else reg n 0 ++ if wide then reg (n + 1) 1 else []) p.fst
            ∧ (∀ x ∈ w'.pend, x.id ≠ op) ∧ (p.flag ≠ 0 → Words.get w'.f p.flag = Words.get w.f p.flag - 1) ∧ (∀ f, f ≠ p.flag → Words.get w'.f f = Words.get w.f f)
            ∧ ∀ j, j ≠ k → t.wave j = s.wave j)
      ∧ (∀ f sc needs, p.kind = .fence f sc needs → s.needsDone k needs = true → s.releaseReady k sc = true →
          ends (let s := if f ≠ .acq && wide sc then s.writeBackAll cid k else s
            if f ≠ .rel && wide sc then (s.dropClean cid).writeBackAll cid k else s))
      ∧ (∀ f sc needs, p.kind = .fence f sc needs → (s.needsDone k needs = false ∨ s.releaseReady k sc = false) → exec i s = .next s)
      ∧ (∀ needs, p.kind = .dfence needs → s.needsDone k needs = true →
          ∃ t, exec i s = .next t ∧ Ended (s.modCore cid (fun c => { c with dcache := [] })) t k w p)
      ∧ (∀ sc, p.kind = .ifence sc → ∃ t, exec i s = .next t ∧ (∃ w', t.wave k = some w' ∧ Finishes { w with ahead := [] } p w') ∧ (∀ j, j ≠ k → t.wave j = s.wave j)
          ∧ (∀ x ∈ t.cores, State.fetchScope cid sc x.1 = true → x.2.icache = [])
          ∧ (∀ w', t.wave k = some w' → w'.ahead = []))

/-- R59: a word that a check refuses traps with class 2 and the reason of the first check that it fails, whatever its guard; only `vidx` and `vshfl` have checks of the wave that may come before.
R74, R339: a poisoned guard field traps with class 4 and the lanes that read it; so does a poisoned source of an acting lane, unless the word itself traps with a lower class.
An uncorrectable error that an executing `vmov` finds in a value it does not use is no error any more but a poisoned value, with a record of KIND 2, and the word goes on. That an error in a value that is not used becomes poison, and whose values a word reads, are readings of the model (log 31), as is the place of poison among the faults of one word (log 16). -/
def Obligations.IllegalAndPoisonedWords : Prop :=
    (∀ (i : Instr) (h : Hints) (s : State) (k : Nat) (w : Wave) (r : Nat), i.hints = some h → s.cur = some k → s.wave k = some w →
      ¬ FlagFull (isLane i) h s k w → i.illegal w.vregs w.sregs = some r →
        ∃ n, n ≤ r ∧ Traps (isLane i) i h s k w 2 n allLanes ∧ (limited i = false → n = r)) ∧
    (∀ (i : Instr) (h : Hints) (s : State) (k : Nat) (w : Wave), Reaches i h s k w →
      let c := ctx (isLane i) h s k w
      let g := guardPoison w h (isLane i)
      let p := poisonOf w c.act i
      (g ≠ 0 → Traps (isLane i) i h s k w 4 0 g)
        ∧ (g = 0 → (if isLane i then c.act ≠ 0 ∨ runsEmpty i = true else guardWave c = true) → p ≠ 0 →
            ∃ cls reason mask addr code, Traps (isLane i) i h s k w cls reason mask addr code ∧ cls ≤ 4 ∧ (cls = 4 → mask &&& p = p))) ∧
    (∀ (h : Hints) (t : Ty) (d a : Opd) (s : State) (k : Nat) (w : Wave), let i := Instr.vmov h t d a
      let c := ctx true h s k w
      let xs := quietErrs w c.act i
      Tried true i h s k w → c.act ≠ 0 → poisonOf w c.act i = 0 → xs ≠ [] → Answers i s (fun u =>
        let w₁ : Wave := { xs.foldl Wave.poison c.w with errs := c.w.errs.filter (fun e => ¬ e.1 ∈ xs) }
        let logged := ((c.s.setWave k w₁).logPart w.pidN { src := cidOf k, kind := 2, wb := wbOf k, addr := w.pc.toNat }).1
        u.mem = logged.mem ∧ u.parts = logged.parts ∧ ∃ w', u.wave k = some w' ∧ w'.pc = w.pc + 12 ∧ w'.errs = w₁.errs
          ∧ w'.poisonV = w₁.poisonV ∧ w'.poisonS = w₁.poisonS ∧ w'.poisonP = w₁.poisonP ∧ w'.poisonQ = w₁.poisonQ))

/-- R71, R73: a word that its guard stops only advances the pc. A lane-level word with no acting lane raises its flag, which falls at the next cycle. -/
def Obligations.GuardedWordsAdvance : Prop :=
  ∀ (i : Instr) (h : Hints) (s : State) (k : Nat) (w : Wave), Reaches i h s k w → guardPoison w h (isLane i) = 0 →
    let c := ctx (isLane i) h s k w
    let raised := isLane i && decide (h.set ≠ 0)
    (if isLane i then c.act = 0 ∧ runsEmpty i = false else guardWave c = false) →
      ∃ t w', exec i s = .next t ∧ t.cur = none ∧ t.wave k = some w' ∧ Beside s t k ∧ (quiet w i [] = true → OnlyWave s t k)
        ∧ WaveIs w' c.w (w.pc + 12) (if raised then (w.flagUp h.set.toNat).f else w.f)
            (w.pend ++ if raised then [{ id := s.nextId, kind := .alu, ready := s.cyc (cidOf k) + 1, long := false, flag := h.set.toNat, writes := [] }] else [])
            w.emask

/-- R342: the frame of a trap: EPC, IPC, class, whether it was deferred, reason, code, the 96-bit mask, the address of a class 6 trap, and the SEQ of its error record.
R339, R342: taking an exception. With a handler set, outside a handler and with a frame page that translates and takes the store, the wave stands ready at the handler with its class latched; only its own wave changes after the store. In a handler, with no handler or with a frame that cannot be stored the trap is fatal; a frame page that is missing blocks the wave until it is resolved; in a combiner wave the batch ends. The SEQ field of a handled trap follows log 17; that pages refused to an instruction whose turn a deferred fault takes stay refused to it is log 23. -/
def Obligations.ExceptionEntry : Prop :=
    (∀ t : TrapRec, t.cls < 256 → t.reason < 2 ^ 16 →
      let f := State.frameBytes t
      let field := fun (off n : Nat) => leNat ((f.drop off).take n)
      f.length = 64 ∧ field 0 8 = t.epc.toNat ∧ field 8 8 = t.ipc.toNat ∧ field 16 1 = t.cls ∧ field 17 1 = (if t.deferred then 1 else 0)
        ∧ field 18 2 = t.reason ∧ field 20 4 = t.code.toNat ∧ field 24 12 = t.mask.toNat ∧ field 36 4 = 0
        ∧ field 40 8 = (if t.cls = 6 then t.addr.toNat else 0) ∧ field 48 4 = t.seq.toNat ∧ field 52 12 = 0) ∧
    (∀ (s : State) (k : Nat) (w : Wave) (t : TrapRec), s.wave k = some w →
      let q := s.part w.pidN
      let cid := cidOf k
      let va := (q.tfbase + 64 * (64 * s.rankOf w.pidN cid + wbOf k)) % 2 ^ 64
      let s₁ := s.setWave k w.settle
      let may := w.batch = none ∧ q.tvec ≠ 0 ∧ w.inHandler = false ∧ canonical va = true ∧ (va / 65536, PKind.write) ∉ w.refusedPages
      (∀ s₂ e s₃, may → s₁.translate cid w.pidN w.pasid va .write = (s₂, .ok e) → s₂.storeFrame k w t (e.place (va % 2 ^ 57)) = (s₃, true) →
          let u := s.deliverTrap k t
          (∀ j, j ≠ k → u.wave j = s₃.wave j) ∧ u = { s₃ with waves := u.waves }
            ∧ ∀ x, s₃.wave k = some x → ∃ y, u.wave k = some y ∧ y.inHandler = true ∧ y.pc = BitVec.ofNat 64 (s₃.part x.pidN).tvec ∧ y.lclass = t.cls
              ∧ y.stat = .ready ∧ y.trapPend = none ∧ y.latch = none ∧ y.region = none
              ∧ y = { x with inHandler := true, pc := y.pc, lclass := t.cls, stat := .ready, trapPend := none, latch := none, region := none, restart := false, refusedPages := []
                             run := none, overdue := false, refusedHeld := if t.deferred = true ∧ x.refusedPages ≠ [] then some (x.pc, x.refusedPages) else none })
        ∧ (∀ s₂ e s₃, may → s₁.translate cid w.pidN w.pasid va .write = (s₂, .ok e) → s₂.storeFrame k w t (e.place (va % 2 ^ 57)) = (s₃, false) →
            s.deliverTrap k t = s₃.fatalTrap k t)
        ∧ (∀ s₂ level, may → s₁.translate cid w.pidN w.pasid va .write = (s₂, .notValid level) →
            s.deliverTrap k t = (s₂.faultRecord w.pidN w.pasid va .write level cid 0 (lcCore cid)).modWave k
              (fun w => { w with stat := .trapWait, trapPend := some t }))
        ∧ (w.batch = none → (q.tvec = 0 ∨ w.inHandler = true) → s.deliverTrap k t = s₁.fatalTrap k t)
        ∧ (∀ b, w.batch = some b → s.deliverTrap k t = s.endBatch b (some (t.cls, t.reason, t.ipc.toNat))))

/-- R343, R348, R385: a fatal trap: an error record of KIND 1 with the fatal flag enters the partition's ring at PUT, or is counted where the ring is full or not enabled, and SEQ rises either way; the launch's status becomes 32 and every wave of the block is gone; other waves stay. With core dumps enabled and none under way, the waves of the block stop for the dump instead. -/
def Obligations.FatalTraps : Prop :=
  ∀ (s : State) (k : Nat) (w : Wave) (b : Block) (t : TrapRec), s.wave k = some w → s.block w.block = some b → k ∈ b.waves →
    let q := s.part w.pidN
    let u := s.fatalTrap k t
    let dump := q.dmen = true ∧ q.dmbusy = false
    (∀ l, s.launch b.launch = some l → u.launch b.launch = some { l with status := 32 })
      ∧ (∀ j, j ∉ b.waves → u.wave j = s.wave j)
      ∧ (¬ dump → ∀ j ∈ b.waves, u.wave j = none)
      ∧ (dump → (u.part w.pidN).dmbusy = true ∧ ∀ j ∈ b.waves, ∀ x, s.wave j = some x → ∃ y st bar, u.wave j = some y ∧ y.stat = .dumping st bar ∧ (j = k → y.trapPend = some t) ∧ (j ≠ k → y.trapPend = none))
      ∧ (let n := 2 ^ q.ellog2n
        let a := q.elbase + 32 * (q.elput.toNat % n)
        let key := 16 * cidOf k + w.pidN
        let full := n ≤ (q.elput - q.elget).toNat
        (w.pidN < 12 → cidOf k < 144 → Words.get u.seqs key = Words.get s.seqs key + 1)
          ∧ (w.pidN < 12 → cidOf k < 144 → t.cls < 256 → t.reason < 2 ^ 16 → q.elen = true → ¬ full → s.ringOk w.pidN q.elbase a 32 = true →
              (∀ l ∈ State.linesOf a 32, Tbl.has s.l2 l = true ∧ s.lineHeld l 0xFFFFFFFF = false) →
                let field := fun (off m : Nat) => leNat (Memory.readBytes u.mem (a + off) m)
                field 0 4 = (Words.get s.seqs key).toNat ∧ field 4 2 = cidOf k ∧ field 6 1 = 1 ∧ field 7 1 = t.cls ∧ field 8 2 = t.reason ∧ field 10 1 = wbOf k
                  ∧ field 11 1 = 1 ∧ field 12 4 = t.code.toNat ∧ field 16 8 = t.ipc.toNat ∧ field 24 8 = (s.lc (lcCore (cidOf k))).toNat
                  ∧ (∀ x, x < a ∨ a + 32 ≤ x → Memory.read u.mem x = Memory.read s.mem x) ∧ (u.part w.pidN).elput = q.elput + 1)
          ∧ (q.elen = false ∨ full → u.mem = s.mem ∧ (u.part w.pidN).elput = q.elput ∧ (u.part w.pidN).eldrop = min (q.eldrop + 1) (2 ^ 32 - 1)))

/-- R379, R382, R383: a mismatch of a protected wave: outside a region it traps with class 11 and reason 2; in a region restarted fewer than three times it asks for a restart; else it traps with reason 1 at the region's entry.
R186, R279, R281, R342, R382, R385: the steps by which a stopped wave goes on: the delivery of a trap that waited for its frame page, the dump of a block, which waits while another party holds a line of it (log 32), the restart of a region at its entry with its draw count, the wake of a wave at a barrier.
R386, R387: what a dump holds: the fields of its header; behind it, for waves of one shape, the headers, the scalars, the predicates, the poison bits and the vector registers of every wave in this order; the bytes are written in order, page by page, up to SIZE; a page that cannot be written stops the dump; last of all the header is written again with STATUS and ABORT, and the registers follow. -/
def Obligations.MismatchesAndStoppedWaves : Prop :=
    (∀ (s : State) (k : Nat) (w : Wave) (r : Region),
      (w.region = none → s.mismatch k w = s.deliverTrap k { cls := 11, reason := 2, mask := allLanes, ipc := w.pc, epc := w.pc })
        ∧ (w.region = some r → r.restarts < 3 → s.mismatch k w = s.modWave k (fun w => { w with restart := true }))
        ∧ (w.region = some r → 3 ≤ r.restarts → s.mismatch k w = s.deliverTrap k { cls := 11, reason := 1, mask := allLanes, ipc := w.pc, epc := r.entry })) ∧
    (∀ (s : State) (k b key : Nat) (w : Wave) (blk : Block) (t : TrapRec) (r : Region), s.wave k = some w →
      (w.stat = .trapWait → w.trapPend = some t → exec (.trapDeliver k) s = .next (s.deliverTrap k t))
        ∧ (s.block b = some blk → (∀ j ∈ blk.waves, ∀ y, s.wave j = some y → y.trapPend.isSome = true → j = k) → k ∈ blk.waves → w.trapPend = some t →
            (∀ st bar, w.stat = .dumping st bar → (s.dumpHeld k w = false → exec (.coreDump b) s = .next ((s.writeDump k w blk t).killBlockWaves b))
              ∧ (s.dumpHeld k w = true → exec (.coreDump b) s = .next s)))
        ∧ (w.region = some r → w.restart = true → w.pend = [] → ∃ u y, exec (.regionRestart k) s = .next u ∧ u.wave k = some y
            ∧ y = { w with pc := r.entry, draws := r.n, restart := false, region := some { r with restarts := r.restarts + 1 } }
            ∧ (u.part w.pidN).plrst = min ((s.part w.pidN).plrst + 1) (2 ^ 32 - 1) ∧ u = { s with waves := u.waves, parts := u.parts } ∧ ∀ j, j ≠ k → u.wave j = s.wave j)
        ∧ (w.stat = .barWait key → barPasses s w key = true →
            exec (.barrierWake k) s = .next ((s.modWave k (fun w => { w with stat := .ready })).barObserve k key))
        ∧ (w.stat = .barWait key → barPasses s w key = false → exec (.barrierWake k) s = .next s)) ∧
    (∀ (status width need missing abort recVa lin k lc : Nat) (t : TrapRec) (x : Wave),
      status < 256 → width < 256 → need < 2 ^ 64 → missing < 2 ^ 64 → abort < 2 ^ 64 → recVa < 2 ^ 64 → lin < 2 ^ 32 → t.cls < 256 → t.reason < 2 ^ 16 →
        x.vregs < 2 ^ 16 → x.sregs < 256 → lc < 2 ^ 48 →
      let f := dumpHeader status width need missing abort recVa lin t k x lc
      let field := fun (off n : Nat) => leNat ((f.drop off).take n)
      f.length = 128 ∧ field 0 2 = 0x0101 ∧ field 2 1 = status ∧ field 3 1 = width ∧ field 4 4 = 0 ∧ field 8 8 = need ∧ field 16 8 = missing ∧ field 24 8 = abort
        ∧ field 32 8 = recVa ∧ field 40 4 = lin ∧ field 44 1 = t.cls ∧ field 45 1 = wbOf k ∧ field 46 2 = t.reason ∧ field 48 8 = t.ipc.toNat
        ∧ field 56 2 = x.vregs ∧ field 58 1 = x.sregs ∧ field 59 1 = (livePreds x).length ∧ field 60 4 = 0 ∧ field 64 8 = lc ∧ field 72 56 = 0) ∧
    (∀ (ws : List (Nat × Wave)) (nv ns npl : Nat), (∀ e ∈ ws, e.2.vregs = nv ∧ e.2.sregs = ns ∧ (livePreds e.2).length = npl ∧ e.2.errs = [] ∧ nv ≤ 512 ∧ ns ≤ 128 ∧ e.2.wid < 256 ∧ e.2.stateCode < 128) →
      let width := ws.length
      let field := fun (off n : Nat) => leNat (((dumpBody ws).drop off).take n)
      let scalars := 64 * width
      let preds := scalars + 4 * ns * width
      let poison := preds + (4 + 12 * npl) * width
      let vectors := poison + (20 + 12 * npl + 12 * nv) * width
      (dumpBody ws).length = vectors + 384 * nv * width
        ∧ ∀ (i k : Nat) (x : Wave), ws[i]? = some (k, x) →
            field (64 * i) 2 = 1 ∧ field (64 * i + 2) 1 = wbOf k ∧ field (64 * i + 3) 1 = x.wid ∧ field (64 * i + 4) 2 = nv ∧ field (64 * i + 6) 1 = ns
              ∧ field (64 * i + 7) 1 = x.stateCode + (if x.inHandler then 128 else 0) ∧ field (64 * i + 8) 8 = x.pc.toNat ∧ field (64 * i + 16) 4 = (x.plive ||| 0x00010001).toNat
              ∧ field (64 * i + 20) 4 = x.fst.toNat ∧ field (64 * i + 24) 4 = x.draws.toNat ∧ field (64 * i + 28) 4 = (x.hold.getD 0).toNat
              ∧ (∀ f, f < 12 → field (64 * i + 32 + f) 1 = x.flag (f + 1)) ∧ field (64 * i + 44) 1 = (if x.hold.isSome then 1 else 0)
              ∧ (∀ n, n < ns → field (scalars + 4 * ns * i + 4 * n) 4 = (x.sget n).toNat)
              ∧ (∀ n, n < 16 → (field (preds + (4 + 12 * npl) * i) 4).testBit n = (decide (n ≠ 0) && x.plive.getLsbD (16 + n) && x.qget n))
              ∧ (∀ j n, (livePreds x)[j]? = some n → field (preds + (4 + 12 * npl) * i + 4 + 12 * j) 12 = (x.pget n).toNat
                  ∧ field (poison + (20 + 12 * npl + 12 * nv) * i + 20 + 12 * j) 12 = (Words.get x.poisonP n).toNat)
              ∧ field (poison + (20 + 12 * npl + 12 * nv) * i) 16 = x.poisonS.toNat
              ∧ (∀ n, n < 16 → (field (poison + (20 + 12 * npl + 12 * nv) * i + 16) 4).testBit n = (decide (n ≠ 0) && x.plive.getLsbD (16 + n) && x.poisonQ.getLsbD n))
              ∧ (∀ n, n < nv → field (poison + (20 + 12 * npl + 12 * nv) * i + 20 + 12 * npl + 12 * n) 12 = (Words.get x.poisonV n).toNat
                  ∧ ∀ l, l < 96 → field (vectors + 384 * nv * i + 384 * n + 4 * l) 4 = (x.vget n l).toNat)) ∧
    (∀ (s : State) (cid done va n a : Nat) (w : Wave) (rest : List (Nat × Nat)) (bs : List Byte), n ≤ bs.length →
      let u := s.dumpWrite cid w ((va, n) :: rest) bs done
      let r := s.translate cid w.pidN w.pasid va .write
      s.dumpWrite cid w [] bs done = (s, done)
        ∧ (canonical va = false → u = (s, done))
        ∧ (canonical va = true → (∀ e, r.2 ≠ .ok e) → u = (r.1, done))
        ∧ (∀ e, canonical va = true → r.2 = .ok e → e.place (va % 2 ^ 57) = .dev a → (∀ l ∈ State.linesOf a n, r.1.lineHeld l 0xFFFFFFFF = false) →
            (∀ l ∈ State.linesOf a n, Tbl.any (r.1.core cid).l1 (fun x _ => x / 128 = l) = false) →
              (r.1.admits w.pidN a n true = true → (∀ l ∈ State.linesOf a n, Tbl.has r.1.l2 l = true) →
                  ∃ v : State, u = State.dumpWrite v cid w rest (bs.drop n) (done + n)
                    ∧ Memory.readBytes v.mem a n = bs.take n ∧ (∀ x, x < a ∨ a + n ≤ x → Memory.read v.mem x = Memory.read r.1.mem x) ∧ v.parts = r.1.parts)
                ∧ (r.1.admits w.pidN a n true = false → u.2 = done ∧ u.1.mem = r.1.mem))) ∧
    (∀ (s : State) (k : Nat) (w : Wave) (b : Block) (t : TrapRec) (l : Launch), s.launch b.launch = some l →
      let q := s.part w.pidN
      ∃ ws : List (Nat × Wave), ws.Pairwise (fun x y => x.2.wid ≤ y.2.wid) ∧ (∀ e, e ∈ ws ↔ e.1 ∈ b.waves ∧ s.wave e.1 = some e.2)
        ∧ let need := 128 + (dumpBody ws).length
          let head := fun (st abort : Nat) => dumpHeader st l.desc.w need (need - q.dmsize) abort (l.recVa.getD 0) b.lin t k w (s.lc (lcCore (cidOf k))).toNat
          let bytes := (head 0 0 ++ dumpBody ws).take q.dmsize
          let r := s.dumpWrite (cidOf k) w (rangeParts 65536 q.dmbase bytes.length) bytes 0
          let status := if r.2 < bytes.length then 3 else if q.dmsize < need then 2 else 1
          let abort := if r.2 < bytes.length then r.2 else 0
          let f := r.1.dumpWrite (cidOf k) w (rangeParts 65536 q.dmbase 128) (head status abort) 0
          let u := s.writeDump k w b t
          u.mem = f.1.mem ∧ (u.part w.pidN).dmbusy = false ∧ (u.part w.pidN).dmoff = abort ∧ (u.part w.pidN).dmstat = (if f.2 < 128 then 3 else status))

/-- R29, R30, R88, R274: the timers of a wave and its retirement. A yielded wave may be chosen again, a sleeping one becomes ready, one that could have issued for 8·N cycles is overdue; an exiting wave with no flag up and no operation of long latency outstanding leaves its core, and one with such an operation or a flag up stays. -/
def Obligations.WaveTimers : Prop :=
  ∀ (s : State) (k til from_ n : Nat) (w : Wave), s.wave k = some w →
    let now := s.cyc (cidOf k)
    let only : Host.Outcome State Fault Refusal → Wave → Prop := fun o w' =>
      ∃ t, o = .next t ∧ t.wave k = some w' ∧ t = { s with waves := t.waves } ∧ ∀ j, j ≠ k → t.wave j = s.wave j
    (w.yieldTil = some til → til ≤ now → only (exec (.yieldEnd k) s) { w with yieldTil := none })
      ∧ (w.yieldTil = some til → now < til → only (exec (.yieldEnd k) s) w)
      ∧ (w.stat = .sleeping til → til ≤ now → only (exec (.sleepEnd k) s) { w with stat := .ready })
      ∧ (w.stat = .sleeping til → now < til → only (exec (.sleepEnd k) s) w)
      ∧ (w.run = some (from_, n) → w.isReady = true → 8 * n ≤ now - from_ → only (exec (.waveOverdue k) s) { w with overdue := true })
      ∧ (w.stat = .exiting → (∀ p ∈ w.pend, p.long = false) → (∀ f, f ≤ 12 → w.flag f = 0) →
          ∃ t, exec (.waveRetire k) s = .next t ∧ t.wave k = none ∧ (∀ j, j ≠ k → t.wave j = s.wave j)
            ∧ (∀ b, s.block w.block = some b → t.block w.block = some { b with waves := b.waves.filter (· ≠ k) })
            ∧ t = { s with waves := t.waves, cur := t.cur, blocks := t.blocks, cores := t.cores })
      ∧ (w.stat = .exiting → ((∃ p ∈ w.pend, p.long = true) ∨ ∃ f, f ≤ 12 ∧ w.flag f ≠ 0) → exec (.waveRetire k) s = .next s)

/-- R272, R273: ISSUE_SELECT, where no wave has been chosen and the quad's waves have no release to perform (R202): the quad is taken from those still to choose. It chooses at most one wave, of its own lists, which stands ready to issue in this cycle (standing 2: R29, R52, R55, R272); it chooses none where no wave does, and some where a wave that is in no `yield` does. Registers, memory and everything but the records of the choice (the run and overdue mark of R274, YLD of R56, the pointers of R273) stay.
R273: with no wave of the quad overdue, yielding or held back by YLD, the wave chosen is one of the highest priority that has an eligible wave, and the first of its rotation list from the pointer on.
R29, R52, R55, R71, R88, R208, R272, R277: how a wave whose next word is known stands. It is not eligible where it is not in state ready, has issued in this cycle, waits in `waitf`, or where its word's STALL, WAIT or SET is not met, SET at 63 only where the word would raise the flag; then a deferred fault comes in the word's place; else a pending fence holds a memory word, an unfinished `ccommit` or `creply` a `cend`, `bar.exp` every word, a full queue an engine command, a noise source without words a `vrand`; the busy datapath of the quad only refuses a word that runs beats (standing 1: ready and not held); every other wave is eligible. A suppressed word is held by STALL and WAIT alone. -/
def Obligations.IssueRules : Prop :=
  (∀ (s : State) (k : Nat) (w : Wave) (word : IWord) (i : Instr) (h : Hints), (s.fetch k w).2 = .word word → decode word = some i → i.hints = some h →
    let now := s.cyc (cidOf k)
    let c := s.core (cidOf k)
    let x : Ctx := { s := { s with freeCtr := s.freeCtr + 1 }, k := k, w := w, h := h, act := 0, id := 0 }
    let acts := i.isLane = true ∨ guardWave x = true
    let ready := w.stat = .ready ∧ w.restart = false ∧ w.saving = false ∧ (∀ f n, w.waitFlag = some (f, n) → w.flag f ≤ n) ∧ (∀ t, w.lastIssue = some t → t < now)
    let hints := (∀ t, w.lastIssue = some t → t + h.stall.toNat + 1 ≤ now) ∧ (∀ f, f < 12 → h.wait.getLsbD f = true → w.flag (f + 1) = 0)
      ∧ (acts → h.set ≠ 0 → w.flag h.set.toNat < 63)
    let faults := w.deferred ≠ [] ∧ w.inHandler = false
    let fenced := (∃ p ∈ w.pend, ∃ f sc needs, p.kind = .fence f sc needs) ∧ (isMemory i = true ∨ ∃ o, engOrd i = some o ∧ o.acq = true)
    let ending := (∃ p ∈ w.pend, p.kind = .reply ∨ ∃ needs, p.kind = .commit needs) ∧ ∃ h', i = .cend h'
    let expects := ∃ p ∈ w.pend, ∃ key val needs stamp, p.kind = .bar key 1 val needs stamp
    let queued := guardWave x = true ∧ ((isCopyCmd i = true ∧ 16 ≤ c.copy.length) ∨ (isMatrixCmd i = true ∧ (16 ≤ c.mat.cmds.length
      ∨ (c.mat.holder ≠ some w.block ∧ 12 ≤ (c.mat.cmds.filter (fun e => c.mat.holder ≠ some e.block)).length))))
    let starved := (match i with | .vrand .. => true | _ => false) = true ∧ noiseTrap w c.noise = none ∧ noiseHeld w c.noise (guardLanes x) = true
    let busy := now < (Tbl.getD c.quads (quadOf k) {}).busy ∧ runsBeats i = true ∧ beatsOf i (guardLanes x) ≠ 0
    let held := (acts ∧ (fenced ∨ ending)) ∨ expects ∨ queued ∨ starved
    (¬ (ready ∧ hints) → standing s k w = 0)
      ∧ (ready → hints → faults → standing s k w = 2)
      ∧ (ready → hints → ¬ faults → held → standing s k w = 0)
      ∧ (ready → hints → ¬ faults → ¬ held → busy → standing s k w = 1)
      ∧ (ready → hints → ¬ faults → ¬ held → ¬ busy → standing s k w = 2)) ∧
  ∀ (s : State) (cid quad : Nat), s.cur = none →
    let s₀ := { s with todo := s.todo.filter (fun e => !(e.1 = cid && e.2 = quad)) }
    let q := Tbl.getD (s.core cid).quads quad {}
    let order := fun (p : Nat) => rotated (Tbl.getD q.rot p []) (Tbl.getD q.ptr p 0)
    let eligible := fun (j : Nat) => ∃ w, s.wave j = some w ∧ standing s₀ j w = 2
    let all := fun (P : Wave → Prop) => ∀ j ∈ q.all, ∀ w, s.wave j = some w → P w
    (all (fun w => w.relOn = []) → ∃ t, exec (.issueSelect cid quad) s = .next t
        ∧ (∀ k, t.cur = some k → k ∈ q.all ∧ eligible k)
        ∧ ((∀ j ∈ q.all, ¬ eligible j) → t.cur = none)
        ∧ (∀ j ∈ q.all, eligible j → (∀ w, s.wave j = some w → w.yieldTil = none) → t.cur ≠ none)
        ∧ t = { s₀ with cur := t.cur, waves := t.waves, cores := t.cores }
        ∧ (∀ j, t.core j = { s.core j with quads := (t.core j).quads })
        ∧ (∀ j, j ∉ q.all → t.wave j = s.wave j)
        ∧ (∀ j w, s.wave j = some w → ∃ w', t.wave j = some w' ∧ w' = { w with run := w'.run, overdue := w'.overdue, yld := w'.yld }))
      ∧ (all (fun w => w.relOn = [] ∧ w.overdue = false ∧ w.yld = false ∧ w.yieldTil = none ∧ w.run = none) → (∃ j ∈ q.all, eligible j) →
          ∃ t k p before after, exec (.issueSelect cid quad) s = .next t ∧ t.cur = some k ∧ p < 4 ∧ order p = before ++ k :: after ∧ eligible k
            ∧ (∀ j ∈ before, ¬ eligible j) ∧ ∀ p', p < p' → p' < 4 → ∀ j ∈ order p', ¬ eligible j)

/-- R181, R183, R190, R191, R193, R194, R219, R325, R371: what a request does at the home slice of its line. Sent to another slice it is answered moved, and its sender sends it again; on a held line it waits. A load's lanes take the missing bytes from device memory, and the other loads of its core that are on their way to the line take theirs with it; a store's dirty bytes reach device memory and are clean in the L1; cache control drops the line; a group of atomics leaves its last value and gives each lane the value before it. A span of another owner refuses the access, and it is counted: the lanes of a load or a store are marked refused, a store's dirty bytes are dropped, an atomic gives its lanes nothing but the refusal. That the loads of a core take their values together, and the loads and the dirty bytes of the core before a group of atomics, are the model's mechanisms (log 32). A step whose conditions do not hold does nothing (log 12). -/
def Obligations.RequestsAtTheirHome : Prop :=
  ∀ (s : State) (r : Nat) (q : Req), Tbl.get? s.reqs r = some q →
    let dpa := 128 * q.line
    let i := Instr.homeSliceAccess r
    let plain := (match q.kind with | .atomic .. | .combine .. => false | _ => true) = true
    let here := q.moved = false ∧ q.home = s.homeNow q.line ∧ s.lineHeld q.line q.wave = false ∧ s.lineHeld q.line 0xFFFFFFFF = false
    let alone := s.reqs.filter (fun e => e.2.cid = q.cid && e.2.line = q.line && (match e.2.kind with | .load _ => true | _ => false)) = [(r, q)]
    let counted := fun (s t : State) (a : Nat) => (t.part q.pidN).ovaddr = a ∧ (t.part q.pidN).ovcnt = min ((s.part q.pidN).ovcnt + 1) (2 ^ 32 - 1)
      ∧ t.oplog.length + t.opWait.length = s.oplog.length + s.opWait.length + 1
    let only := fun (t : State) (q' : Req) => Tbl.get? t.reqs r = some q' ∧ (∀ j, j ≠ r → Tbl.get? t.reqs j = Tbl.get? s.reqs j) ∧ t = { s with reqs := t.reqs }
    (q.moved = true → Answers (.movedResend r) s (fun t => only t { q with moved := false, home := s.homeNow q.line }))
      ∧ (plain → q.moved = false → q.home ≠ s.homeNow q.line → Answers i s (fun t => only t { q with moved := true }))
      ∧ (plain → q.moved = false → q.home = s.homeNow q.line → s.lineHeld q.line q.wave = true → exec i s = .next s)
      ∧ (∀ offs, q.kind = .load offs → here →
          (s.admits q.pidN dpa 128 false = true → Tbl.has s.l2 q.line = true → Answers i s (fun t => Tbl.get? t.reqs r = none ∧ t.mem = s.mem
              ∧ OpBecomes s t q.wave q.op (fun p p' => LanesBecome p.kind.accs p'.kind.accs (fun a b => ∀ d, a.place = .dev d → a.got.length = a.n →
                  (∀ j : Nat, j < a.n → a.got[j]? = some none → (d + j) / 128 = q.line → b.got[j]? = some (some (Memory.read s.mem (d + j))))
                    ∧ (∀ (j : Nat) (x : Byte), a.got[j]? = some (some x) → b.got[j]? = some (some x))))))
            ∧ (∀ r' q' offs', Tbl.get? s.reqs r' = some q' → q'.kind = .load offs' → q'.cid = q.cid → q'.line = q.line → s.admits q'.pidN dpa 128 false = true →
                Tbl.has s.l2 q.line = true → Answers i s (fun t => Tbl.get? t.reqs r' = none ∧ t.mem = s.mem
                  ∧ OpBecomes s t q'.wave q'.op (fun p p' => LanesBecome p.kind.accs p'.kind.accs (fun a b => ∀ d, a.place = .dev d → a.got.length = a.n →
                    (∀ j : Nat, j < a.n → a.got[j]? = some none → (d + j) / 128 = q.line → b.got[j]? = some (some (Memory.read s.mem (d + j))))
                      ∧ (∀ (j : Nat) (x : Byte), a.got[j]? = some (some x) → b.got[j]? = some (some x))))))
            ∧ (s.owner dpa ≠ some q.pidN → alone → Answers i s (fun t => Tbl.get? t.reqs r = none ∧ t.mem = s.mem
              ∧ counted s t dpa
              ∧ OpBecomes s t q.wave q.op (fun p p' => LanesBecome p.kind.accs p'.kind.accs (fun a b => State.onLine a q.line = true → b = { a with refused := true })))))
      ∧ (∀ offs, q.kind = .store offs → here → s.owner dpa ≠ some q.pidN → Answers i s (fun t => Tbl.get? t.reqs r = none ∧ t.mem = s.mem ∧ counted s t dpa
          ∧ (∀ o, o < 128 → ∀ b, Tbl.get? (s.core q.cid).l1 (dpa + o) = some b →
              Tbl.get? (t.core q.cid).l1 (dpa + o) = if b.dirty = true ∧ o ∈ offs then none else some b)
          ∧ OpBecomes s t q.wave q.op (fun p p' => LanesBecome p.kind.accs p'.kind.accs (fun a b => State.onLine a q.line = true → b = { a with refused := true }))))
      ∧ (∀ offs, q.kind = .store offs → here → s.admits q.pidN dpa 128 true = true → s.partOfCore q.cid = q.pidN → Tbl.has s.l2 q.line = true →
          Answers i s (fun t => Tbl.get? t.reqs r = none
            ∧ (∀ o ∈ offs, o < 128 → ∀ b, Tbl.get? (s.core q.cid).l1 (dpa + o) = some b → b.dirty = true →
                Memory.read t.mem (dpa + o) = b.val ∧ Tbl.get? (t.core q.cid).l1 (dpa + o) = some { b with dirty := false })
            ∧ (∀ a, a / 128 ≠ q.line → Memory.read t.mem a = Memory.read s.mem a)))
      ∧ (q.kind = .prefetch true → here → s.admits q.pidN dpa 128 false = true → Tbl.has s.l2 q.line = true → (s.core q.cid).l1Full q.line = false →
          Answers i s (fun t => Tbl.get? t.reqs r = none ∧ t.mem = s.mem ∧ ∀ o, o < 128 → ∃ b, Tbl.get? (t.core q.cid).l1 (dpa + o) = some b
            ∧ (Tbl.get? (s.core q.cid).l1 (dpa + o) = none → b.val = Memory.read s.mem (dpa + o) ∧ b.dirty = false)))
      ∧ (∀ drop, q.kind = .control drop → here →
          Answers i s (fun t => Tbl.get? t.reqs r = none ∧ (drop = true → ∀ o, o < 128 → Tbl.get? (t.core q.cid).l1 (dpa + o) = none)))
      ∧ (∀ op wide a va lanes, q.kind = .atomic op wide (.dev a) va lanes → here →
          let n := if wide then 8 else 4
          let u := (s.takeLoads q.cid q.line).flushFor q.cid q.wave q.line
          let g := atomGroup op (8 * n) (leNat (Memory.readBytes u.mem a n)) lanes
          (u.owner a ≠ some q.pidN → Answers (.atomicGroup r) s (fun t => Tbl.get? t.reqs r = none ∧ t.mem = u.mem ∧ counted u t a
              ∧ OpBecomes u t q.wave q.op (fun p p' => ∀ wd ln d rets bad refused, p.kind = .atomic wd ln d rets bad refused →
                  p' = { p with kind := .atomic wd ln d rets bad (refused ++ lanes.map (fun l => (l.1, va))) }))) ∧
          (u.admits q.pidN a n true = true → (∀ l ∈ State.linesOf a n, Tbl.has u.l2 l = true ∧ u.poisoned l = false) →
            Answers (.atomicGroup r) s (fun t => Tbl.get? t.reqs r = none ∧ Memory.readBytes t.mem a n = leBytes n g.2
              ∧ (∀ x, x < a ∨ a + n ≤ x → Memory.read t.mem x = Memory.read u.mem x)
              ∧ OpBecomes u t q.wave q.op (fun p p' => ∀ wd ln d rets bad refused, p.kind = .atomic wd ln d rets bad refused →
                  p' = { p with kind := .atomic wd ln d (rets ++ g.1) bad refused }))))
      ∧ (∀ op wide pl va lanes, q.kind = .atomic op wide pl va lanes → q.moved = true → exec (.atomicGroup r) s = .next s)

/-- R30, R53, R55, R185, R187, R190, R191, R226, R349: what comes back to a wave. With no request of the operation left, a load writes its registers and a store is visible: the flag falls and the operation is gone. Refused lanes send their deferred fault. A fault is held for its wave, of those that arrive in one cycle the one of an earlier issue first, and ends its sleep; for a wave that has exited an error record is written instead. A status writes its lanes. A step whose conditions do not hold does nothing (log 12). -/
def Obligations.OperationsReturn : Prop :=
  ∀ (s : State) (k op : Nat) (w : Wave) (p : Pend), s.wave k = some w → w.pend.find? (fun x => x.id = op) = some p → p.long = true → s.reqsOf k op = [] →
    let bad := fun (accs : List LaneAcc) => accs.filter (·.refused)
    let faults := fun (accs : List LaneAcc) => if bad accs = [] then s.inbox
      else Instr.deferredFaultArrive ⟨k, p.id, 0xFFFFFFFF⟩ 6 8 p.pc (maskOf (fun l => (bad accs).any (fun a => a.lane = l))) (BitVec.ofNat 64 (((bad accs).head?.map (·.addr)).getD 0)) :: s.inbox
    let ends := fun (w' : Wave) => (∀ x ∈ w'.pend, x.id ≠ op) ∧ w'.pc = w.pc ∧ w'.stat = w.stat
      ∧ (p.flag ≠ 0 → Words.get w'.f p.flag = Words.get w.f p.flag - 1) ∧ ∀ f, f ≠ p.flag → Words.get w'.f f = Words.get w.f f
    (∀ sz lane d accs, p.kind = .load sz lane d accs → w.traced = false → (∀ a ∈ accs, a.poison = false) → (∀ n xs, RegW.v n xs ∈ p.known → ∀ e ∈ xs, e.1 < 96) →
        Answers (.loadDataReturn k op) s (fun t => t.inbox = faults accs ∧ t = { s with waves := t.waves, inbox := t.inbox } ∧ (∀ j, j ≠ k → t.wave j = s.wave j)
          ∧ ∃ w', t.wave k = some w' ∧ Written w w' p.known p.fst ∧ ends w'))
      ∧ (∀ accs, p.kind = .store accs → w.traced = false → p.writes = [] → p.fst = 0 →
          Answers (.storeVisible k op) s (fun t => t.inbox = faults accs ∧ t = { s with waves := t.waves, inbox := t.inbox } ∧ (∀ j, j ≠ k → t.wave j = s.wave j)
            ∧ ∃ w', t.wave k = some w' ∧ Written w w' [] 0 ∧ ends w'))
      ∧ (∀ from_ cls reason pc mask addr seq,
          let now := s.cyc (cidOf k)
          let f : DFault := { cls := cls, reason := reason, pc := pc, mask := mask, addr := addr, seq := seq, op := from_, when_ := now }
          let later := fun (e : DFault) => e.when_ = now ∧ from_ < e.op
          let i := Instr.deferredFaultArrive ⟨k, from_, seq⟩ cls reason pc mask addr
          (w.stat ≠ .exiting → Answers i s (fun t => t = { s with waves := t.waves } ∧ (∀ j, j ≠ k → t.wave j = s.wave j) ∧ ∃ w', t.wave k = some w'
              ∧ w' = { w with deferred := w'.deferred, stat := w'.stat }
              ∧ (∃ before after, w.deferred = before ++ after ∧ w'.deferred = before ++ f :: after ∧ (∀ e ∈ before, ¬ later e) ∧ ∀ e ∈ after.head?, later e)
              ∧ w'.stat = (match w.stat with | .sleeping til => if w.inHandler then .sleeping til else .ready | x => x)))
            ∧ (w.stat = .exiting → exec i s = .next
                (s.logPart w.pidN { src := cidOf k, kind := 5, cls := cls, reason := reason, wb := wbOf k, addr := pc.toNat }).1))
      ∧ (∀ d wait lane status reply stamp, p.kind = .cmb d wait [{ lane := lane, status := status, reply := reply, stamp := stamp }] → w.prot = false → lane < 96 → w.traced = false →
          p.writes = [] → p.fst = 0 → maskOf (fun l => l = lane) = wait →
          Answers (.cmbStatusArrive k op) s (fun t => t.lc (lcCore (cidOf k)) = lcMax (s.lc (lcCore (cidOf k))) stamp + 1 ∧ ∃ w', t.wave k = some w'
            ∧ w'.vget (d + 1) lane = BitVec.ofNat 32 status ∧ (status = 0 → ∀ x, reply = some x → w'.vget d lane = x) ∧ (∀ x ∈ w'.pend, x.id ≠ op)
            ∧ ∀ n l, n ≠ d → n ≠ d + 1 → l < 96 → w'.vget n l = w.vget n l))

/-- R42, R89, R182, R201, R315, R316, R317, R340: the caches of a core. An eviction writes the dirty bytes of a line back and drops the line; a dirty byte of 8,192 cycles is written back, a clean one is dropped, no younger byte. A page walk puts a permitted leaf into both TLBs and records a missing translation. A word fetched ahead is kept for its wave; a fault then is recorded and traps nothing. A step whose conditions do not hold does nothing (log 12). -/
def Obligations.CachesOfACore : Prop :=
  ∀ (s : State) (cid line k va pasid : Nat) (kind : PKind),
    let p := s.partOfCore cid
    let at_ := fun (t : State) (a : Nat) => Tbl.get? (t.core cid).l1 a
    let old := fun (b : L1Byte) => b.stamp + 8192 ≤ s.cyc cid
    let served := s.admits p (128 * line) 128 true = true ∧ Tbl.has s.l2 line = true
    (lineFree s cid line = true →
        Answers (.l1Eviction cid line) s (fun t => (∀ o, o < 128 → at_ t (128 * line + o) = none) ∧ (∀ a, a / 128 ≠ line → at_ t a = at_ s a)
            ∧ (served → ∀ o, o < 128 → ∀ b, at_ s (128 * line + o) = some b → b.dirty = true → Memory.read t.mem (128 * line + o) = b.val))
          ∧ Answers (.l1DirtyTimeout cid line) s (fun t => (∀ a, a / 128 ≠ line → at_ t a = at_ s a)
            ∧ ∀ o, o < 128 → ∀ b, at_ s (128 * line + o) = some b →
                (b.dirty = true → old b → served → Memory.read t.mem (128 * line + o) = b.val ∧ at_ t (128 * line + o) = some { b with dirty := false })
                  ∧ (s.loadPending cid line = false → b.dirty = false ∨ ¬ old b → at_ t (128 * line + o) = some b)))
      ∧ (lineFree s cid line = false → exec (.l1Eviction cid line) s = .next s ∧ exec (.l1DirtyTimeout cid line) s = .next s)
      ∧ Answers (.l1CleanTimeout cid line) s (fun t => (∀ a b, at_ s a = some b → at_ t a = if a / 128 = line ∧ b.dirty = false ∧ old b then none else some b)
          ∧ t = { s with cores := t.cores } ∧ ∀ c, t.core c = { s.core c with l1 := (t.core c).l1 })
      ∧ (canonical va = true → ∀ u, (∀ e, s.translate cid p pasid va kind = (u, .ok e) → exec (.pageWalk cid pasid va kind) s = .next u)
          ∧ (∀ e, (s.core cid).tlb.find? (fun e => e.covers (asid p pasid) (va % 2 ^ 57)) = none →
              (Tbl.getD s.tlb2 (clidOf cid) []).find? (fun e => e.covers (asid p pasid) (va % 2 ^ 57)) = none → s.walk p pasid va = (u, .ok e) → e.permits kind = true → e.loc = 0 →
                Answers (.pageWalk cid pasid va kind) s (fun t => ((t.core cid).tlb.head? = some e) ∧ ((Tbl.getD t.tlb2 (clidOf cid) []).head? = some e) ∧ t.mem = u.mem))
          ∧ (∀ level, s.translate cid p pasid va kind = (u, .notValid level) → (⟨pasid, va / 65536, kind⟩ : FaultKey) ∉ (u.part p).keys →
              ((u.part p).fbput + 1) % 4096 ≠ (u.part p).fbget → u.ringOk p (u.part p).fbbase ((u.part p).fbbase + 32 * (u.part p).fbput) 32 = true →
                Answers (.pageWalk cid pasid va kind) s (fun t => (t.part p).keys = ⟨pasid, va / 65536, kind⟩ :: (u.part p).keys
                  ∧ (t.part p).fbput = ((u.part p).fbput + 1) % 4096 ∧ (t.part p).fbseq = (u.part p).fbseq + 1)))
      ∧ (canonical va = false → exec (.pageWalk cid pasid va kind) s = .next s)
      ∧ (∀ w, s.wave k = some w → va % 4 = 0 → Tbl.get? w.ahead va = none →
          (∀ word, (s.core (cidOf k)).cached (asid w.pidN w.pasid) va = some word →
              Answers (.fetchAhead k va) s (fun t => t.wave k = some { w with ahead := Tbl.set w.ahead va word } ∧ t = { s with waves := t.waves } ∧ ∀ j, j ≠ k → t.wave j = s.wave j))
            ∧ (∀ u reason, (s.core (cidOf k)).cached (asid w.pidN w.pasid) va = none → s.fetchMemory k w va = (u, .trap reason) → u.wave k = some w →
              Answers (.fetchAhead k va) s (fun t => t.wave k = some w
                ∧ ((u.part w.pidN).elen = true → ((u.part w.pidN).elput - (u.part w.pidN).elget).toNat < 2 ^ (u.part w.pidN).ellog2n →
                    u.ringOk w.pidN (u.part w.pidN).elbase ((u.part w.pidN).elbase + 32 * ((u.part w.pidN).elput.toNat % 2 ^ (u.part w.pidN).ellog2n)) 32 = true →
                    (t.part w.pidN).elput = (u.part w.pidN).elput + 1))))

/-- R353, R354, R360, R362 to R365: lines on their way to HBM and what becomes of faulty memory. A write-back leaves the dirty sectors in HBM and the line clean, and merges the change into both check lines; a buffered delta is XORed into its check line; a line that cannot be read is rebuilt from the nine others of its stripe and written back. The Rasp goes on row by row; a repair uses one spare row, and with none left every frame that touches the row is due for remapping; a remapped frame keeps its contents; a stripe with a third erasure makes its span LOST; a channel without its interface is dead. How errors stand in the state is the model's (log 10), and firmware chooses the targets of a remap, and which spare frame it takes is the model's choice (log 22). -/
def Obligations.StorageOfLines : Prop :=
  ∀ (s : State) (line sp st ch row f tch tf : Nat) (q : Bool),
    let dpa := 128 * line
    let cell := fun (t : State) (x : Nat) => Memory.read t.hbm x
    let bytes := fun (t : State) (x n : Nat) => Memory.readBytes t.hbm x n
    let zeros := List.replicate 128 (0 : Byte)
    let delta := fun (t : State) (sp st : Nat) (n : Nat) => Tbl.getD t.deltas (State.deltaKey sp st n) zeros
    (∀ e a, Tbl.get? s.l2 line = some e → e.old.length = 128 → e.dirty ≠ 0 → s.phys (spanOf dpa) (stripeOf dpa) ((stripeOf dpa + dataOf dpa) % 10) = some a →
        s.deltaRoom (spanOf dpa) (stripeOf dpa) 0 = true → s.deltaRoom (spanOf dpa) (stripeOf dpa) 1 = true → Answers (.l2Writeback line) s (fun t =>
          let new := Memory.readBytes s.mem dpa 128
          let δ := List.zipWith (· ^^^ ·) e.old new
          Tbl.get? t.l2 line = some { dirty := 0, old := new } ∧ t.mem = s.mem
            ∧ (∀ n, n < 4 → e.dirty.getLsbD n = true → bytes t (a + 32 * n) 32 = (new.drop (32 * n)).take 32)
            ∧ (∀ x, (∀ n, n < 4 → e.dirty.getLsbD n = true → x < a + 32 * n ∨ a + 32 * n + 32 ≤ x) → cell t x = cell s x)
            ∧ (s.phys (spanOf dpa) (stripeOf dpa) ((stripeOf dpa + 8) % 10) ≠ none →
                delta t (spanOf dpa) (stripeOf dpa) 0 = List.zipWith (· ^^^ ·) (delta s (spanOf dpa) (stripeOf dpa) 0) δ)
            ∧ (s.phys (spanOf dpa) (stripeOf dpa) ((stripeOf dpa + 9) % 10) ≠ none →
                delta t (spanOf dpa) (stripeOf dpa) 1 = List.zipWith (· ^^^ ·) (delta s (spanOf dpa) (stripeOf dpa) 1)
                  (δ.map (fun (b : Byte) => BitVec.ofNat 8 (gfMul (gfPow (dataOf dpa)) b.toNat))))))
      ∧ (∀ e, Tbl.get? s.l2 line = some e → e.dirty = 0 → exec (.l2Writeback line) s = .next s)
      ∧ (∀ a δ, st < 8192 → s.hbmErr = [] → Tbl.get? s.deltas (State.deltaKey sp st q.toNat) = some δ → δ.length = 128 → s.phys sp st ((st + 8 + q.toNat) % 10) = some a →
          Answers (.checkDeltaDrain (8192 * sp + st) q) s (fun t => bytes t a 128 = List.zipWith (· ^^^ ·) (bytes s a 128) δ
            ∧ (∀ x, x < a ∨ a + 128 ≤ x → cell t x = cell s x) ∧ Tbl.get? t.deltas (State.deltaKey sp st q.toNat) = none))
      ∧ (∀ (a : Nat → Nat) (j : Nat), st < 8192 → j < 8 → (∀ n, n < 10 → s.phys sp st n = some (a n) ∧ a n % 32 = 0) →
          (∀ m n, m < 10 → n < 10 → m ≠ n → a m + 128 ≤ a n ∨ a n + 128 ≤ a m) →
          Tbl.get? s.deltas (State.deltaKey sp st 0) = none → Tbl.get? s.deltas (State.deltaKey sp st 1) = none →
          (∀ n, n < 10 → n ≠ (st + j) % 10 → ∀ x ∈ s.rawLine (some (a n)), x.isSome = true) → (∀ x ∈ s.rawLine (some (a ((st + j) % 10))), x = none) →
          Answers (.stripeDecode (8192 * sp + st)) s (fun t =>
            let sym := fun (n b : Nat) => ((s.rawLine (some (a n))).getD b none).getD 0
            ∀ b, b < 128 → (cell t (a ((st + j) % 10) + b)).toNat = (List.range 9).foldl (fun x i => x ^^^ sym ((st + i) % 10) b) 0))
      ∧ (ch < 384 → (s.chan ch).en = true → (s.chan ch).dead = false → s.hbmErr = [] → (s.chan ch).outer = false → Answers (.raspRow ch) s (fun t =>
          t = { s with chans := t.chans } ∧ (∀ j, j ≠ ch → t.chan j = s.chan j)
            ∧ ((s.chan ch).pos + 1 < 2097152 → t.chan ch = { s.chan ch with pos := (s.chan ch).pos + 1 })
            ∧ (2097152 ≤ (s.chan ch).pos + 1 → t.chan ch = { s.chan ch with pos := 0, pass := (s.chan ch).pass + 1, ue := 0, rows := [], bank := [], seen := [] })))
      ∧ (∀ e, st < 8192 → s.spanE sp = some e → e.stat ≠ 4 → e.stat ≠ 5 → Tbl.get? s.deltas (State.deltaKey sp st 0) = none → Tbl.get? s.deltas (State.deltaKey sp st 1) = none →
          (∃ b, b < 128 ∧ 3 ≤ ((List.range 10).filter (fun n => ((s.rawLine (s.phys sp st n)).getD b none).isNone)).length) →
          Answers (.stripeDecode (8192 * sp + st)) s (fun t => Tbl.get? t.arm.spans sp = some { e with stat := 5 }))
      ∧ ((s.chan ch).dead = true → exec (.raspRow ch) s = .next s ∧ (row / 32 ∉ (s.chan ch).moves → exec (.rowRepair ch row) s = .next s))
      ∧ (row / 32 ∉ (s.chan ch).moves → (s.chan ch).dead = false → (s.chan ch).ppr ≠ 0 → row ∈ (s.chan ch).due → s.hbmErr = [] → Answers (.rowRepair ch row) s (fun t =>
          t.chan ch = { s.chan ch with ppr := (s.chan ch).ppr - 1, due := (s.chan ch).due.filter (· ≠ row), rows := Tbl.erase (s.chan ch).rows row }
            ∧ (∀ x, cell t x = cell s x) ∧ t.oplog.length + t.opWait.length = s.oplog.length + s.opWait.length + 1))
      ∧ (row / 32 ∉ (s.chan ch).moves → (s.chan ch).dead = false → (s.chan ch).ppr = 0 → row ∈ (s.chan ch).due → Answers (.rowRepair ch row) s (fun t =>
          (t.chan ch).due = (s.chan ch).due.filter (· ≠ row) ∧ t.hbm = s.hbm
            ∧ (∀ n, (n, row / 32) ∈ s.arm.frames → n / 72089 = ch / 32 → Tbl.has (s.chan ch).remap (row / 32) = false → row / 32 ∈ (t.chan ch).moves)
            ∧ ∀ i g, i < 32 → (g, (ch % 32, row / 32)) ∈ (s.chan (32 * (ch / 32) + i)).remap → g ∈ (t.chan (32 * (ch / 32) + i)).moves))
      ∧ (row ∉ (s.chan ch).due → row / 32 ∉ (s.chan ch).moves → exec (.rowRepair ch row) s = .next s)
      ∧ (row / 32 ∈ (s.chan ch).moves → (∀ x, s.spareFrame ch = some x → exec (.rowRepair ch row) s = exec (.frameRemap ch (row / 32) x.1 x.2) s)
          ∧ (s.spareFrame ch = none → exec (.rowRepair ch row) s = .next s))
      ∧ (ch < 384 → f < 65536 → tch < 32 → tf < 65536 →
          let t₀ := ch / 32
          s.targetUsed t₀ tch tf = false → (s.chan (32 * t₀ + tch)).dead = false →
            (Tbl.has (s.chan ch).remap f = false → (s.chan ch).remap.length < 4096 → s.hbmErr = [] → (s.chan ch).dead = false → s.stackOk t₀ = true →
                (∀ i, i < 256 → s.lineAt ch (32768 * f + 128 * i) ≠ none) →
                Answers (.frameRemap ch f tch tf) s (fun t => Tbl.get? (t.chan ch).remap f = some (tch, tf)
                  ∧ ∀ i, i < 32768 → cell t ((32 * t₀ + tch) * 2 ^ 31 + 32768 * tf + i) = cell s (ch * 2 ^ 31 + 32768 * f + i)))
              ∧ (Tbl.has (s.chan ch).remap f = false → 4096 ≤ (s.chan ch).remap.length → Answers (.frameRemap ch f tch tf) s (fun t => (t.chan ch).dead = true)))
      ∧ (ch < 384 → (s.chan ch).dead = false → Answers (.channelInterfaceFail ch) s (fun t => t.chan ch = { s.chan ch with dead := true }
          ∧ (∀ j, j ≠ ch → t.chan j = s.chan j) ∧ t.oplog.length + t.opWait.length = s.oplog.length + s.opWait.length + 1
          ∧ t.inbox = s.inbox ++ (if 3 ≤ ((List.range 32).filter (fun i => (s.chan (32 * (ch / 32) + i)).dead)).length then [Instr.stackFail (ch / 32)] else [])))
      ∧ (ch < 384 → (s.chan ch).dead = true → exec (.channelInterfaceFail ch) s = .next s)

/-- R356, R361, R363, R368 to R370, R373: the Armature and the Recasters. A failed stack is marked, and every span takes the state that the number of its failed stacks gives. An update takes the span's entry from memory into the caches and is done once no access routed by an old entry is left. A migration starts at unit 0 under the layout that the table in memory holds, goes on unit by unit and ends with the new layout; it waits while answers of the span's last migration are still to be sent again; a command that is refused sets the error bit; a unit on which a batch runs is held. The moments at which spans change state follow log 22. -/
def Obligations.ArmatureAndRecasters : Prop :=
  ∀ (s : State) (n sp k line : Nat) (e : SpanE),
    let r := s.recaster k
    let i := Instr.recasterUnit k
    (n < 12 → s.stackOk n = true → Answers (.stackFail n) s (fun t => t.arm.stk = s.arm.stk ||| ((1 : BitVec 24) <<< (2 * n))
        ∧ (Tbl.Sorted s.arm.spans → Tbl.get? s.arm.spans sp = some e → s.spanE sp = some e → e.stat ≠ 4 → e.stat ≠ 5 →
            let failed := ((s.layout e.layout).filter (fun x => x = n || !s.stackOk x)).length
            Tbl.get? t.arm.spans sp = some { e with stat := if failed = 0 then 1 else if failed = 1 then 2 else if failed = 2 then 3 else 5 })
        ∧ (Tbl.get? s.arm.spans sp = none → Tbl.get? t.arm.spans sp = none)))
      ∧ (n < 12 → s.stackOk n = false → exec (.stackFail n) s = .next s)
      ∧ (sp < 72089 → (∀ x, Tbl.get? s.arm.spans sp = some x → x.stat ≠ 4) → Answers (.spnUpd sp) s (fun t =>
          let x := (s.armRead (s.arm.stbase + 4 * sp) 4).2
          t.arm.updBusy = some sp
            ∧ Tbl.get? t.arm.spans sp = some { layout := bitsOf x 11 0, stat := bitsOf x 14 12, owner := bitsOf x 18 15, cursor := bitsOf x 28 19 }
            ∧ ∀ j, j ≠ sp → Tbl.get? t.arm.spans j = Tbl.get? s.arm.spans j))
      ∧ (Tbl.get? s.arm.spans sp = some e → e.stat = 4 → exec (.spnUpd sp) s = .next s)
      ∧ (s.arm.updBusy.isSome = true → (∀ q ∈ s.reqs, q.2.moved = true ∨ q.2.home = s.homeNow q.2.line) →
          exec .spnUpdDone s = .next { s with arm := { s.arm with updBusy := none } })
      ∧ (∀ q ∈ s.reqs, q.2.moved = false → q.2.home ≠ s.homeNow q.2.line → exec .spnUpdDone s = .next s)
      ∧ (k < 3 → let lay := (s.readLayout r.layout).2
          (s.rcsRefused r lay = false → s.spanE r.span = some e → Answers (.rcsMigrate k) s (fun t =>
              t.recaster k = { r with busy := true, unit := 0, hold := false, handed := [], lostSpan := false }
                ∧ Tbl.get? t.arm.spans r.span = some { e with stat := 4, cursor := 0 } ∧ t.lc (lcRecaster k) = s.lc (lcRecaster k) + 1
                ∧ Tbl.get? t.arm.layouts r.layout = some lay))
            ∧ (s.rcsRefused r lay = true → Answers (.rcsMigrate k) s (fun t => t.recaster k = { r with err := true } ∧ t.arm.spans = s.arm.spans)))
      ∧ (k < 3 → (r.busy = true ∨ 72089 ≤ r.span ∨ s.spanE r.span = none ∨ (∃ x, s.spanE r.span = some x ∧ (x.stat = 4 ∨ x.stat = 5))
          ∨ layoutValid (s.readLayout r.layout).2 = false ∨ ∃ j x, (j, x) ∈ s.recasters ∧ x.busy = true ∧ x.span = r.span) ↔ s.rcsRefused r (s.readLayout r.layout).2 = true)
      ∧ (r.busy = true → r.unit = 0 → r.handed = [] → (∃ q ∈ s.reqs, (q.2.moved = true ∨ q.2.resent = true) ∧ spanOf (128 * q.2.line) = r.span) → exec i s = .next s)
      ∧ (r.busy = true → Tbl.get? s.arm.spans r.span = some e → s.rcsWaits r = false →
          ((s.movingLines k).any s.batchRuns = true → Answers i s (fun t => t.recaster k = { r with hold := true } ∧ t.arm = s.arm ∧ t.mem = s.mem))
            ∧ ((s.movingLines k).any s.batchRuns = false → r.unit < 1023 → Answers i s (fun t => (t.recaster k).unit = r.unit + 1 ∧ (t.recaster k).busy = true
                ∧ (t.recaster k).hold = false ∧ Tbl.get? t.arm.spans r.span = some { e with cursor := r.unit + 1 }))
            ∧ ((s.movingLines k).any s.batchRuns = false → 1023 ≤ r.unit → Answers i s (fun t => (t.recaster k).busy = false ∧ (t.recaster k).done = r.done + 1
                ∧ ∃ stat, Tbl.get? t.arm.spans r.span = some { e with layout := r.layout, stat := stat, cursor := 0 } ∧ (r.lostSpan = true → stat = 5))))
      ∧ (r.busy = false → exec i s = .next s)
      ∧ (r.busy = true → line ∉ r.handed → line ∈ s.movingLines k → s.batchRuns line = false → Answers (.lineHandoff k line) s (fun t =>
          line ∈ (t.recaster k).handed ∧ (t.recaster k).hold = true ∧ (∀ q ∈ t.reqs, q.2.line = line → q.2.moved = true)
            ∧ (∀ x, Tbl.get? s.l2 line = some x → Tbl.get? t.l2 line = if x.dirty = 0 then none else some x)
            ∧ ∀ b ∈ t.batches, b.2.dpa / 128 = line → b.2.stat = .running))
      ∧ (line ∈ r.handed → exec (.lineHandoff k line) s = .next s)

/-- R222, R223, R225 to R229, R231, R233: the steps of combining. A request joins the batch of its object and method or opens one; refused, it gets status 1 and leaves no batch. A batch forms when it is full or its window ends; the first formed batch whose line is free starts on a free combiner slot with its requests in the lanes and the object in v4; one over its limit is killed, behind a `ccommit` that has issued once that has been performed. A `ccommit` is performed once its release is: the object takes its words in one step, before the replies leave. A load of the method table takes the entries from memory; a write of CHU_MTLOAD while one is under way has no effect. Choices that the manual leaves open follow log 19. -/
def Obligations.CombiningSteps : Prop :=
  ∀ (s : State) (r b p cid n lane : Nat) (q : Req) (x : Batch),
    (∀ dpa va method pasid a0 a1, Tbl.get? s.reqs r = some q → q.kind = .combine dpa va method pasid [(lane, a0, a1)] → q.moved = false → q.home = s.homeNow q.line →
        s.recHeld q.line = false → chuPending s q.home < 1536 → (∀ e ∈ s.reqs, e.2.wave = q.wave → q.op ≤ e.2.op) → s.admits q.pidN (128 * q.line) 128 true = true →
          let i := Instr.cmbRequestArrive r
          let ent := Tbl.getD (s.part q.pidN).methods method {}
          let one : BReq := { cid := q.cid, wave := q.wave, op := q.op, lane := lane, a0 := a0, a1 := a1, req := r, stamp := q.stamp }
          (formingFor s q.pidN dpa method = none → chuRefusal (s.part q.pidN) ent pasid va = none → Tbl.get? s.batches s.nextId = none → Answers i s (fun t =>
              Tbl.get? t.reqs r = none ∧ t.lc (lcChu q.home) = lcMax (s.lc (lcChu q.home)) q.stamp + 1
                ∧ ∃ y, Tbl.get? t.batches s.nextId = some y ∧ y.reqs = [one] ∧ y.ent = ent ∧ y.dpa = dpa ∧ y.method = method ∧ y.pidN = q.pidN ∧ y.opened = s.cyc q.cid
                  ∧ y.stat = if ent.batch ≤ 1 ∨ ent.window = 0 then .formed else .forming))
            ∧ (formingFor s q.pidN dpa method = some (b, x) → Tbl.get? s.batches b = some x → chuRefusal (s.part q.pidN) x.ent pasid va = none → Answers i s (fun t =>
              Tbl.get? t.reqs r = none ∧ ∃ y, Tbl.get? t.batches b = some y ∧ y.reqs = x.reqs ++ [one] ∧ y.ent = x.ent
                ∧ y.stat = if x.ent.batch ≤ x.reqs.length + 1 ∨ x.ent.window = 0 then .formed else .forming))
            ∧ (∀ reason, formingFor s q.pidN dpa method = none → chuRefusal (s.part q.pidN) ent pasid va = some reason → Answers i s (fun t =>
              Tbl.get? t.reqs r = none ∧ t.batches = s.batches
                ∧ ∀ pd d wait rets, s.pend q.wave q.op = some pd → pd.kind = .cmb d wait rets → (t.part q.pidN).nrefuse = (s.part q.pidN).nrefuse + 1
                  ∧ ∃ pd' ret, t.pend q.wave q.op = some pd' ∧ pd'.kind = .cmb d wait (rets ++ [ret]) ∧ ret.lane = lane ∧ ret.status = 1 ∧ ret.reply = none)))
      ∧ (Tbl.get? s.batches b = some x → x.stat = .forming →
          (x.opened + x.ent.window ≤ batchNow s x → Answers (.batchWindowExpire b) s (fun t => Tbl.get? t.batches b = some { x with stat := .formed, formSeq := s.nextId }
              ∧ t = { s with batches := t.batches, nextId := s.nextId + 1 } ∧ ∀ j, j ≠ b → Tbl.get? t.batches j = Tbl.get? s.batches j))
            ∧ (batchNow s x < x.opened + x.ent.window → exec (.batchWindowExpire b) s = .next s))
      ∧ (s.holds p = true → (formedBatches s p).find? (fun e => !lineRuns s e.2) = some (b, x) → Tbl.get? s.batches b = some x →
          combinerFor s x = some cid → x.reqs.length ≤ 96 → x.ent.size < 32 → Answers (.batchDispatch p) s (fun t =>
            let words := (s.homeRead x.dpa (4 * (x.ent.size + 1))).2.1
            Tbl.get? t.batches b = some { x with stat := .running, wave := some (combinerKey cid), started := s.cyc cid }
              ∧ ∃ w, t.wave (combinerKey cid) = some w ∧ w.pc = BitVec.ofNat 64 x.ent.code ∧ w.batch = some b ∧ w.pidN = x.pidN ∧ w.pasid = x.ent.pasid ∧ w.prio = 3
                ∧ w.emask = maskOf (· < x.reqs.length) ∧ w.execMask = w.emask ∧ w.sget 12 = BitVec.ofNat 32 x.reqs.length ∧ w.sget 13 = BitVec.ofNat 32 x.method
                ∧ (∀ j, j < 96 → w.vget 0 j = BitVec.ofNat 32 j)
                ∧ (∀ (j : Nat) (y : BReq), x.reqs[j]? = some y → (1 ≤ x.ent.args → w.vget 1 j = y.a0) ∧ (2 ≤ x.ent.args → w.vget 2 j = y.a1))
                ∧ (∀ j, j ≤ x.ent.size → w.vget 4 j = BitVec.ofNat 32 (leNat ((words.drop (4 * j)).take 4)))))
      ∧ (s.holds p = false → exec (.batchDispatch p) s = .next s)
      ∧ (∀ k, Tbl.get? s.batches b = some x → x.wave = some k →
          let limit := 256 * max (s.part x.pidN).tmo 1
          let ending := ∃ w, s.wave k = some w ∧ w.stat = .ending
          (x.started + limit < s.cyc (cidOf k) → (x.commitIssued = false ∨ x.committed = true) → ¬ ending → Answers (.batchTimeout b) s (fun t =>
              Tbl.get? t.batches b = none ∧ t.wave k = none ∧ (t.part x.pidN).nbatch = (s.part x.pidN).nbatch + 1))
            ∧ (∀ w, x.started + limit < s.cyc (cidOf k) → x.commitIssued = true → x.committed = false → ¬ ending → s.wave k = some w → Answers (.batchTimeout b) s (fun t =>
              Tbl.get? t.batches b = some x ∧ t.wave k = some { w with stat := .ending } ∧ ∀ j, j ≠ k → t.wave j = s.wave j))
            ∧ (ending → exec (.batchTimeout b) s = .next s)
            ∧ (s.cyc (cidOf k) ≤ x.started + limit → exec (.batchTimeout b) s = .next s))
      ∧ (∀ k op w pd needs, s.wave k = some w → w.pend.find? (fun y => y.id = op) = some pd → pd.kind = .commit needs → w.batch = some b → Tbl.get? s.batches b = some x →
          let u := s.writeBackAll (cidOf k) k
          ((s.needsDone k needs = false ∨ s.releaseReady k .dev = false) → exec (.longOpComplete k op) s = .next s)
            ∧ (∀ ws : List Word, s.needsDone k needs = true → s.releaseReady k .dev = true → x.committed = false → x.commitWords = some ws → x.wave = some k → s.later = [] →
                s.admits x.pidN x.dpa (4 * ws.length) true = true → (∀ l ∈ State.linesOf x.dpa (4 * ws.length), Tbl.has u.l2 l = true) →
                Answers (.longOpComplete k op) s (fun t => Memory.readBytes t.mem x.dpa (4 * ws.length) = ws.flatMap (fun y => leBytes 4 y.toNat)
                  ∧ (∀ a, a < x.dpa ∨ x.dpa + 4 * ws.length ≤ a → Memory.read t.mem a = Memory.read u.mem a)
                  ∧ (w.stat ≠ .ending → Tbl.get? t.batches b = some { x with committed := true })
                  ∧ (w.stat = .ending → Tbl.get? t.batches b = none ∧ t.wave k = none))))
      ∧ (∀ k op w pd, s.wave k = some w → w.pend.find? (fun y => y.id = op) = some pd → pd.kind = .reply → w.batch = some b → Tbl.get? s.batches b = some x →
          x.committed = false → exec (.longOpComplete k op) s = .next s)
      ∧ ((s.part p).mtbusy = none →
          Answers (.chuMtloadEntry p n) s (fun t => t.part p = { s.part p with mtbusy := some (some (n % 64)) } ∧ t = { s with parts := t.parts })
            ∧ Answers (.chuMtloadAll p) s (fun t => t.part p = { s.part p with mtbusy := some none } ∧ t = { s with parts := t.parts })
            ∧ exec (.chuMtloadDone p) s = .next s)
      ∧ ((s.part p).mtbusy = some (some n) →
          let a := (s.part p).mtb / 1024 * 1024 + 16 * n
          Answers (.chuMtloadDone p) s (fun t => (t.part p).mtbusy = none
              ∧ Tbl.get? (t.part p).methods n = some (if s.admits p a 16 false then methodOf (leNat (s.homeRead a 16).2.1) else {})
              ∧ ∀ j, j ≠ n → Tbl.get? (t.part p).methods j = Tbl.get? (s.part p).methods j)
            ∧ ∀ t, exec (.chuMtloadEntry p n) s = .next t → t.part p = s.part p)

/-- R150, R152 to R155, R164, R168, R236, R239, R240, R245, R246, R249: the steps of the two engines. The command of highest priority, then the oldest, starts, at most four in the copy engine; its words move in order, lower the pending bytes of the barrier that it names and count as done; a finished command leaves its queue, its wave sees the completion, keeps the release of a REL until it observes the fall, and a refusal arrives as a deferred fault. That a command's effects start with its START step is the model's (log 13). A step whose conditions do not hold does nothing (log 12). -/
def Obligations.EngineSteps : Prop :=
  ∀ (s : State) (cid id : Nat) (c : EngCmd),
    let queue := (s.core cid).copy
    let mat := (s.core cid).mat
    let scr := fun (t : State) (a : Nat) => t.scrRead (a / 2 ^ 20) (a % 2 ^ 20) 4
    let ends := fun (matrix : Bool) (t : State) => t.cmd cid matrix id = none
      ∧ (∀ w p, s.wave c.wave = some w → w.pend.find? (fun x => x.id = c.op) = some p → p.long = true → w.traced = false →
          ∃ w', t.wave c.wave = some w' ∧ (∀ x ∈ w'.pend, x.id ≠ c.op) ∧ (p.flag ≠ 0 → Words.get w'.f p.flag = Words.get w.f p.flag - 1)
            ∧ t.inbox = (match c.fault with
              | some r => [Instr.deferredFaultArrive ⟨c.wave, c.op, c.seq⟩ (if matrix then 7 else 8) r c.pc allLanes 0]
              | none => []) ++ s.inbox
            ∧ w'.relOn = w.relOn ++ (match State.relScope c.instr with | some sc => if p.flag = 0 then [] else [(p.flag, sc)] | none => []))
    let clear := (∀ o, engOrd c.instr = some o → o.acq = false) ∨ c.clear = true
    let whole := fun (a : Nat) => s.scrBad (a / 2 ^ 20) (a % 2 ^ 20) 4 = false
    (4 ≤ (queue.filter (·.started)).length → exec (.copyCmdStart cid) s = .next s)
      ∧ ((queue.filter (·.started)).length < 4 → State.firstCmd (queue.filter (s.copyStartable cid)) = some c → s.cmd cid false c.id = some c →
          (∀ o, engOrd c.instr = some o → o.acq = false) → c.finished = false → Answers (.copyCmdStart cid) s (fun t =>
            (cid < 144 → t.lc (lcCopy cid) = lcMax (s.lc (lcCopy cid)) c.stamp + 1) ∧ ∃ c', t.cmd cid false c.id = some c' ∧ c'.started = true
              ∧ (c.ready = false → ∀ h op ty d a b o, c.instr = .cred h op ty d a b o → c' = { c with started := true, ready := true, began := s.cyc cid })))
      ∧ (s.cmd cid false id = some c → c.id = id → c.started = true → c.ready = true → c.finished = false → c.waiting = none → s.copyBehind cid c = false → c.attach = none → clear → c.fault = none →
          let k := c.done
          let more := { c with done := k + 1, finished := decide (c.units ≤ k + 1) }
          (∀ h d a b o, c.instr = .cpy h .s .s d a b o → c.list = [] → whole (c.arg 1 + 4 * k) → (c.arg 0 + 4 * k) % 2 ^ 20 + 4 ≤ 2 ^ 20 → (c.arg 1 + 4 * k) % 2 ^ 20 + 4 ≤ 2 ^ 20 →
              Answers (.copyBytesVisible cid id 1) s (fun t => scr t (c.arg 0 + 4 * k) = scr s (c.arg 1 + 4 * k) ∧ t.cmd cid false id = some more ∧ t.mem = s.mem
                ∧ ∀ j x, (j ≠ (c.arg 0 + 4 * k) / 2 ^ 20 ∨ x < (c.arg 0 + 4 * k) % 2 ^ 20 ∨ (c.arg 0 + 4 * k) % 2 ^ 20 + 4 ≤ x) →
                    Memory.read (t.core j).scr x = Memory.read (s.core j).scr x))
            ∧ (∀ h op ty d a b o, c.instr = .cred h op ty d a b o → whole (c.arg 1 + 4 * k) → whole (c.arg 0 + 4 * k) → Answers (.copyBytesVisible cid id 1) s (fun t =>
                let x := leNat (scr s (c.arg 1 + 4 * k))
                let y := leNat (scr s (c.arg 0 + 4 * k))
                let z := leNat (scr t (c.arg 0 + 4 * k))
                t.cmd cid false id = some more ∧ (ty.toNat < 2 → op = 0 → z = (y + x) % 2 ^ 32) ∧ (ty = 1 → op = 1 → z = min y x) ∧ (ty = 1 → op = 2 → z = max y x)
                  ∧ (ty = 0 → op = 1 → z = (if (BitVec.ofNat 32 x).slt (BitVec.ofNat 32 y) then x else y))
                  ∧ (ty = 0 → op = 2 → z = (if (BitVec.ofNat 32 y).slt (BitVec.ofNat 32 x) then x else y)))))
      ∧ (∀ key b, s.cmd cid false id = some c → c.id = id → c.started = true → c.ready = true → c.finished = false → c.waiting = none → s.copyBehind cid c = false →
          c.attach = some key → clear → whole (c.arg 1 + 4 * c.done) → whole (c.arg 0 + 4 * c.done) → s.barrierOf c.block key = some b → ∀ h op ty d a b' o, c.instr = .cred h op ty d a b' o →
            Answers (.copyBytesVisible cid id 1) s (fun t => ∃ b₁, t.barrierOf c.block key = some b₁
              ∧ (b.a < b.e ∨ b.t ≠ 4 → b₁ = { b with t := b.t - 4 }) ∧ (b.e ≤ b.a → b.t = 4 → b₁.t = 0 ∧ b₁.a = 0 ∧ b₁.phc = b.phc + 1)))
      ∧ (s.cmd cid false id = some c → c.id = id → c.finished = true → Answers (.copyCmdComplete cid id) s (ends false))
      ∧ (s.cmd cid false id = some c → c.finished = false → exec (.copyCmdComplete cid id) s = .next s)
      ∧ ((∀ x ∈ mat.cmds, x.started = true → x.finished = true) → State.firstCmd (mat.cmds.filter (s.servable cid)) = some c → s.cmd cid true c.id = some c →
          (∀ o, engOrd c.instr = some o → o.acq = false) → c.finished = false → c.waiting = none → Answers (.matrixCmdStart cid) s (fun t =>
            (cid < 144 → t.lc (lcMatrix cid) = lcMax (s.lc (lcMatrix cid)) c.stamp + 1) ∧ ∃ c', t.cmd cid true c.id = some c' ∧ c'.started = true
              ∧ (∀ h k, c.instr = .mzero h k → c'.finished = true ∧ ∀ n, n < 9216 → Words.get (t.core cid).mat.acc (9216 * c.slot.getD 0 + n) = 0)))
      ∧ ((∀ x ∈ mat.cmds, x.started = true → x.finished = true) → mat.cmds.filter (s.servable cid) = [] → exec (.matrixCmdStart cid) s = .next s)
      ∧ (mat.cmds.find? State.releasing = some c → s.cmd cid true c.id = some c → Answers (.planeRelease cid) s (fun t =>
          (t.core cid).mat.holder = none ∧ (t.core cid).mat.active.valid = false ∧ (t.core cid).mat.shadow.valid = false
            ∧ t.cmd cid true c.id = some { c with released := true } ∧ (t.core cid).mat.acc = mat.acc))
      ∧ (mat.cmds.find? State.releasing = none → exec (.planeRelease cid) s = .next s)
      ∧ (s.cmd cid true id = some c → c.id = id → c.finished = true → Answers (.matrixCmdComplete cid id) s (ends true))
      ∧ (s.cmd cid true id = some c → c.finished = false → exec (.matrixCmdComplete cid id) s = .next s)

/-- R23, R31, R33, R176, R259 to R269: from a kick to the completion of a launch. A kick is taken where it lies ahead of the last and within the ring. The next record of a queue starts as a launch, with the reason of its refusal as its status; an unreadable record is only counted. A block takes its place with its waves at their entry, their scalars set and its scratchpad zero. A block with no wave and no command left leaves the directories of its cluster; once no command admitted against it is left it gives its resources back and is counted. A drained launch writes its record, and its queue counts it. Choices that the manual leaves open follow log 30. -/
def Obligations.LaunchSteps : Prop :=
  ∀ (s : State) (p q lid cid : Nat) (k : BitVec 32),
    let u := Tbl.getD (s.part p).subs q {}
    let ring := 2 ^ (if 4 ≤ u.log2n ∧ u.log2n ≤ 16 then u.log2n else 4)
    let ahead := 1 ≤ (k - u.kick).toNat ∧ (k - u.kick).toNat < 2 ^ 31
    let fits := (k - u.head).toNat ≤ ring
    let subOf := fun (t : State) => Tbl.getD (t.part p).subs q {}
    let unit := walkerOf (lcDispatcher (s.cpOf p)) 0 q
    Answers (.subKick p q k) s (fun t => t = { s with parts := t.parts }
        ∧ (ahead ∧ fits → subOf t = { u with kick := k }) ∧ (¬ fits → (subOf t).kick = u.kick ∧ (subOf t).ovf = true) ∧ (¬ ahead → (subOf t).kick = u.kick ∧ (subOf t).back = true))
      ∧ (q < 16 → (s.part p).pstate = 0 → s.holds p = true → u.en = true → u.stat ≠ 2 → u.head ≠ u.kick → (u.ord = true → s.queueBusy p q = false) →
          let va := (u.base + 128 * (u.head.toNat % ring)) % 2 ^ 64
          (∀ v bs v' d, s.cpRead p u.pasid unit va 128 = (v, .ok bs) → v.readDesc p u.pasid unit (lrecOf bs) = (v', .ok d) → Answers (.launchStart p q) s (fun t =>
              (subOf t).head = (Tbl.getD (v'.part p).subs q {}).head + 1
                ∧ ∃ l, t.launch v'.nextId = some l ∧ l.pidN = p ∧ l.pasid = u.pasid ∧ l.src = .sub q u.head.toNat ∧ l.rc = lrecOf bs ∧ l.prio = u.prio ∧ l.live = 0 ∧ l.fin = false
                  ∧ (∀ reason, v'.launchReason p u.pasid (lrecOf bs) d = some reason → l.status = reason ∧ l.next = (lrecOf bs).total)
                  ∧ (v'.launchReason p u.pasid (lrecOf bs) d = none → l.status = 0 ∧ l.next = (lrecOf bs).next)))
            ∧ (∀ v, s.cpRead p u.pasid unit va 128 = (v, .bad) → let e := (v.logPart p { src := 0x500 + v.cpOf p, kind := 16, addr := va }).1
                Answers (.launchStart p q) s (fun t => t.launches = e.launches ∧ t.mem = e.mem
                  ∧ (subOf t).head = (Tbl.getD (e.part p).subs q {}).head + 1 ∧ (subOf t).done = (Tbl.getD (e.part p).subs q {}).done + 1))
            ∧ (∀ v, s.cpRead p u.pasid unit va 128 = (v, .wait) → exec (.launchStart p q) s = .next v))
      ∧ (q < 16 → (u.en = false ∨ u.head = u.kick ∨ (s.part p).pstate ≠ 0 ∨ s.holds p = false) → exec (.launchStart p q) s = .next s)
      ∧ (∀ e d v', (s.part p).pstate = 0 → s.holds p = true → (s.part p).devq.find? (fun e => e.queue = q) = some e → s.readDesc p e.pasid (walkerOf (lcDispatcher (s.cpOf p)) 1 q) (lrecOf e.bytes) = (v', .ok d) →
          Answers (.launchStart p (16 + q)) s (fun t => (t.part p).devq = (v'.part p).devq.erase e ∧ ∃ l, t.launch v'.nextId = some l ∧ l.src = .dev q 0 ∧ l.rc = lrecOf e.bytes ∧ l.stamp = e.stamp))
      ∧ (∀ l rest f, placeOrder s p = (lid, l) :: rest → s.launch lid = some l → l.rc.cor = false → l.desc.g = 1 → l.desc.ncb = 0 → (s.part p).pstate = 0 → s.holds p = true → (s.part p).saved = [] →
          (∀ τ, (s.part p).lastPlace = some τ → τ + 4 ≤ s.cyc (48 * s.cpOf p)) → s.spotFor p l (energyOk s l) = some [(cid, f)] → f.slots.Nodup → Answers (.blockPlace p) s (fun t =>
            let size := scratchSize l.desc.scratch
            t.launch lid = some { l with next := l.next + 1, live := l.live + 1, placedAt := Tbl.set l.placedAt (clidOf cid) (Tbl.getD l.placedAt (clidOf cid) 0 + 1) }
              ∧ (∃ b, t.block s.nextId = some b ∧ b.launch = lid ∧ b.lin = l.next ∧ b.cid = cid ∧ b.waves = f.slots.map (fun i => 128 * cid + i) ∧ b.scrBase = f.scr ∧ b.scrSize = size)
              ∧ (∀ x, f.scr ≤ x → x < f.scr + size → Memory.read (t.core cid).scr x = 0 ∧ x ∉ (t.core cid).scrErr)
              ∧ ∀ (n slot : Nat), f.slots[n]? = some slot → ∃ w, t.wave (128 * cid + slot) = some w ∧ w.pidN = l.pidN ∧ w.pasid = l.pasid ∧ w.block = s.nextId ∧ w.wid = n ∧ w.stat = .ready
                ∧ w.pc = BitVec.ofNat 64 (l.rc.text + l.desc.entry) ∧ w.vregs = l.desc.vregs ∧ w.sregs = l.desc.sregs ∧ w.pend = [] ∧ w.prot = l.prot
                ∧ w.execMask = allLanes ∧ w.sget 3 = BitVec.ofNat 32 l.next ∧ w.sget 4 = BitVec.ofNat 32 (l.next % l.rc.x) ∧ w.sget 5 = BitVec.ofNat 32 (l.next / l.rc.x % l.rc.y)
                ∧ w.sget 6 = BitVec.ofNat 32 (l.next / (l.rc.x * l.rc.y)) ∧ w.sget 7 = BitVec.ofNat 32 n ∧ w.sget 8 = BitVec.ofNat 32 l.rc.args ∧ w.sget 9 = BitVec.ofNat 32 (l.rc.args / 2 ^ 32)
                ∧ (l.prot = false → ∀ j, j < 96 → w.vget 0 j = BitVec.ofNat 32 (96 * n + j))))
      ∧ (placeOrder s p = [] → exec (.blockPlace p) s = .next s)
      ∧ (∀ b x l, s.block b = some x → s.launch x.launch = some l → s.blockDone b x = true → Answers (.blockRetire b) s (fun t => t.block b = none
          ∧ t.launch x.launch = some { l with live := l.live - 1, retiredAt := Tbl.set l.retiredAt (clidOf x.cid) (Tbl.getD l.retiredAt (clidOf x.cid) 0 + 1) }
          ∧ (∀ e ∈ (t.core x.cid).mat.bound, e.2 ≠ b) ∧ ((s.core x.cid).mat.holder = some b → (t.core x.cid).mat.holder = none) ∧ t.waves = s.waves))
      ∧ (∀ b x, s.block b = some x → s.blockOver b x = true → s.blockDone b x = false → Answers (.blockRetire b) s (fun t => t = { s with blocks := t.blocks } ∧ t.block b = some { x with leaving := true }))
      ∧ (∀ b x, s.block b = some x → s.blockOver b x = false → exec (.blockRetire b) s = .next s)
      ∧ (∀ l, s.launch lid = some l → l.fin = false → launchDrained s lid l = true → s.partReleasable l.pidN = true →
          let u := lcDispatcher (s.cpOf l.pidN)
          let done := fun (v t : State) => t.lc u = v.lc u + 1 ∧ (∀ j n, l.src = .sub j n → t.launch lid = none
              ∧ (Tbl.getD (t.part l.pidN).subs j {}).done = (Tbl.getD (v.part l.pidN).subs j {}).done + 1)
            ∧ (∀ g n, l.src = .graph g n → v.launch lid = some l → t.launch lid = some { l with fin := true })
          (l.rc.done = 0 → Answers (.launchComplete lid) s (done (s.partRelease l.pidN)))
            ∧ (∀ v, l.rc.done ≠ 0 → l.rc.done % 16 = 0 →
                (s.partRelease l.pidN).cpWrite l.pidN l.pasid (walkerOf u 2 l.seq) l.rc.done
                    (leBytes 8 l.rc.doneval ++ leBytes 4 l.status ++ leBytes 4 0) = (v, .ok ()) →
                  Answers (.launchComplete lid) s (fun t => done v t ∧ t.mem = v.mem)))
      ∧ (∀ l, s.launch lid = some l → (l.next < l.rc.total ∨ l.live ≠ 0) → exec (.launchComplete lid) s = .next s)

/-- R284 to R292: the walker of task graphs. GO reads the header, clears every NSTATE and gives ENTRY its token. The lowest ready node starts, its threshold taken from its tokens. `LAUNCH` starts its record or fails the graph where it cannot be read; `COPY` moves its bytes part by part, each word of an overlapping one as it stood or as it was written; `SIGNAL` writes or adds its word; `WAIT` ends where its word compares; `COND` and `WHILE` choose one successor; a node whose effect has taken place gives its tokens and is idle. `END` or a failure ends the graph, whose completion is written and counted once no node runs. Each clause asks what the walker's accesses find in the state: a page that is missing lets them wait. Choices that the manual leaves open follow log 26. -/
def Obligations.GraphSteps : Prop :=
  ∀ (s : State) (p g n : Nat) (r : NodeRun),
    let x := s.graph p g
    let node := fun (t : State) => Tbl.get? (t.graph p g).running n
    let runs := fun (ty : Nat) => node s = some r ∧ r.ended = false ∧ nodeType r.bytes = ty
    let addr := nodeAddr r.bytes
    let v := bodyAt r.bytes 8 8
    let both := nodeSucc r.bytes 0 ++ nodeSucc r.bytes 1
    let fails := fun (t : State) (reason : Nat) => (t.graph p g).stat = 2 ∧ node t = none ∧ (x.fail = 0 → (t.graph p g).fail = reason ∧ (t.graph p g).failNode = BitVec.ofNat 32 n)
    let starts := [(1, Instr.nodeLaunch p g n), (2, .nodeCopy p g n), (3, .nodeSignal p g n), (4, .nodeWait p g n), (5, .nodeCond p g n), (6, .nodeWhile p g n),
      (7, .nodeSolve p g n), (8, .nodeEnd p g n)]
    let ends := fun (i : Instr) (a : State) (succ : List Nat) =>
      Answers i s (fun t => t.mem = a.mem ∧ t.hostMem = a.hostMem ∧ node t = some { r with ended := true, succ := succ })
    let givesOn := fun (i : Instr) (a : State) (succ : List Nat) => exec i s = .next ((a.endNode p g n succ).completeNode p g n)
      ∧ (succ = [] → Answers i s (fun t => node t = none ∧ t.mem = a.mem))
    -- GO: the state with the graph begun; the header, and the states after each NSTATE is cleared
    (∀ a bs, x.stat = 0 →
        let begun := s.modGraph p g (fun x => { x with stat := 1, init := some 0, nnode := 0, done := 0, doneval := 0, fail := 0, failNode := 0xFFFFFFFF, limit := false, cand := [], mtok := [], lastStart := none, running := [] })
        let nnode := fieldAt bs 0 4
        let entry := fieldAt bs 4 4
        (begun.graphRead p g none x.base 64 = (a, .bad) → Answers (.graphGo p g) s (fun t => (t.graph p g).stat = 2 ∧ (t.graph p g).fail = 4 ∧ (t.graph p g).init = none))
          ∧ (begun.graphRead p g none x.base 64 = (a, .ok bs) →
            (headerInvalid bs = true → Answers (.graphGo p g) s (fun t => (t.graph p g).stat = 2 ∧ (t.graph p g).fail = 1 ∧ (t.graph p g).init = none ∧ t.mem = a.mem))
              ∧ (headerInvalid bs = false → ∀ (u : Nat → State) (b : State),
                  u 0 = a.modGraph p g (fun x => { x with nnode := nnode, entry := entry, done := fieldAt bs 8 8, doneval := fieldAt bs 16 8, init := some 1 }) →
                  (∀ m, m < nnode → ∃ c, (u m).graphWrite p g none (s.nodeVa p g m + 12) (leBytes 4 0) = (c, .ok ()) ∧ u (m + 1) = c.modGraph p g (fun x => { x with init := some (m + 2) })) →
                  (u nnode).giveToken p g entry false none = (b, true) → (b.graph p g).stat = 1 →
                    Answers (.graphGo p g) s (fun t => (t.graph p g).stat = 1 ∧ (t.graph p g).init = none ∧ (t.graph p g).cand = [entry] ∧ (t.graph p g).running = []
                      ∧ (t.graph p g).nnode = nnode ∧ (t.graph p g).done = fieldAt bs 8 8 ∧ (t.graph p g).doneval = fieldAt bs 16 8 ∧ t.mem = b.mem))))
      ∧ (x.stat = 1 → x.init = none → exec (.graphGo p g) s = .next s)
      ∧ (x.stat ≠ 0 → Answers (.graphAbort p g) s (fun t => (t.graph p g).stat = 2 ∧ (t.graph p g).fail = (if x.fail = 0 then 15 else x.fail) ∧ (t.graph p g).init = none
          ∧ (t.graph p g).running = x.running ∧ t = { s with parts := t.parts }))
      ∧ (x.stat = 0 → exec (.graphAbort p g) s = .next s)
      -- the start of a node
      ∧ (∀ ty i, (ty, i) ∈ starts → node s = none →
          let rd := s.graphRead p g (some n) (s.nodeVa p g n) 64
          (mayStart s p g = false ∨ (readyNodes s p g).head? ≠ some n → exec i s = .next s)
            ∧ (∀ a bs b, mayStart s p g = true → (readyNodes s p g).head? = some n → rd = (a, .ok bs) → nodeInvalid bs (a.graph p g).nnode = false → nodeType bs = ty →
                a.graphWrite p g (some n) (s.nodeVa p g n + 12) (leBytes 4 (nodeState bs - nodePred bs)) = (b, .ok ()) →
                  ∃ c, exec i s = exec i c ∧ (c.graph p g).lastStart = some (b.cyc (48 * b.cpOf p)) ∧ c.mem = b.mem
                    ∧ ∃ r', node c = some r' ∧ r'.bytes = bs ∧ r'.ended = false ∧ r'.launch = none)
            ∧ (∀ a bs, mayStart s p g = true → (readyNodes s p g).head? = some n → rd = (a, .ok bs) →
                nodeInvalid bs (a.graph p g).nnode = true → (a.graph p g).fail = 0 → Answers i s (fun t => (t.graph p g).stat = 2 ∧ (t.graph p g).fail = 2 ∧ t.mem = a.mem)))
      -- LAUNCH
      ∧ (∀ a, runs 1 → r.launch = none → (s.part p).pstate = 0 → s.holds p = true →
          (∀ bs b d, s.graphRead p g (some n) addr 128 = (a, .ok bs) → a.readDesc p x.pasid (a.graphWalker p g (some n)) (lrecOf bs) = (b, .ok d) →
              Answers (.nodeLaunch p g n) s (fun t => node t = some { r with launch := some b.nextId } ∧ t.mem = b.mem
                ∧ ∃ l, t.launch b.nextId = some l ∧ l.pidN = p ∧ l.pasid = x.pasid ∧ l.src = .graph g n ∧ l.rc = lrecOf bs ∧ l.prio = x.prio
                  ∧ l.status = (b.launchReason p x.pasid (lrecOf bs) d).getD 0))
            ∧ (s.graphRead p g (some n) addr 128 = (a, .bad) → Answers (.nodeLaunch p g n) s (fun t => fails t 3)))
      ∧ (runs 1 → (r.launch ≠ none ∨ (s.part p).pstate ≠ 0 ∨ s.holds p = false) → exec (.nodeLaunch p g n) s = .next s)
      -- COPY: its last part; any part; an overlapping one
      ∧ (runs 2 →
          let len := bodyAt r.bytes 16 4
          let meet : Prop := addr < v + len ∧ v < addr + len ∧ addr ≠ v
          let from_ := addr + r.prog
          let onto := v + r.prog
          (len ≤ r.prog → ends (.nodeCopy p g n) s both)
            ∧ (∀ a bs b, r.prog < len → ¬ meet → let m := min (len - r.prog) (min (65536 - from_ % 65536) (65536 - onto % 65536))
                s.graphRead p g (some n) from_ m = (a, .ok bs) → a.graphWrite p g (some n) onto bs = (b, .ok ()) →
                  exec (.nodeCopy p g n) s = .next ((b.modRun p g n (fun r => { r with prog := r.prog + m })).copyNode p g n 4194399)
                    ∧ (r.prog + m = len → Answers (.nodeCopy p g n) s (fun t => t.mem = b.mem ∧ t.hostMem = b.hostMem ∧ node t = some { r with ended := true, succ := both, prog := len })))
            ∧ (∀ a bs, r.prog < len → meet → r.old = [] → addr % 4 = 0 → v % 4 = 0 → s.graphRead p g (some n) addr len = (a, .ok bs) →
                ∃ ws b, exec (.nodeCopy p g n) s = .next (b.copyNode p g n 4194399) ∧ node b = some { r with old := ws } ∧ b.mem = a.mem ∧ ws.length = len / 4
                  ∧ ∀ k, k < len / 4 → ws.getD k 0 = fieldAt bs (4 * k) 4 ∨ ∃ j, j < len / 4 ∧ v + 4 * j = addr + 4 * k ∧ ws.getD k 0 = ws.getD j 0))
      -- SIGNAL, WAIT
      ∧ (∀ a bs b, runs 3 → (if bodyAt r.bytes 16 1 = 1 then s.graphRead p g (some n) addr 8 = (a, .ok bs) else a = s ∧ bs = leBytes 8 0) →
          a.graphWrite p g (some n) addr (leBytes 8 ((leNat bs + v) % 2 ^ 64)) = (b, .ok ()) →
            ends (.nodeSignal p g n) b both ∧ Answers (.nodeSignal p g n) s (fun t => t.lc (b.walker p) = b.lc (b.walker p) + 1
              ∧ ∀ pl, (b.lcTick (b.walker p)).signalKey p g n addr = some pl → t.signalAt pl = some (b.lc (b.walker p) + 1)))
      ∧ (∀ a bs i, i = Instr.nodeWait p g n ∨ i = .waitPoll p g n → runs 4 → s.graphRead p g (some n) addr 8 = (a, .ok bs) →
          let met : Prop := if bodyAt r.bytes 16 1 = 0 then leNat bs = v else v ≤ leNat bs
          (met → ends i a both ∧ Answers i s (fun t =>
              t.lc (a.walker p) = lcMax (a.lc (a.walker p)) (((a.signalKey p g n addr).bind a.signalAt).getD (a.lc (a.walker p))) + 1))
            ∧ (¬ met → Answers i s (fun t => node t = some { r with polled := a.ns } ∧ t.mem = a.mem)))
      -- COND, WHILE
      ∧ (∀ a bs, runs 5 → s.graphRead p g (some n) addr 4 = (a, .ok bs) → givesOn (.nodeCond p g n) a (nodeSucc r.bytes (if leNat bs = 0 then 1 else 0)))
      ∧ (∀ a bs b ns c, runs 6 → s.graphRead p g (some n) addr 4 = (a, .ok bs) → a.graphRead p g (some n) (s.nodeVa p g n + 12) 4 = (b, .ok ns) →
          let count := leNat ns / 65536
          let again : Prop := leNat bs ≠ 0 ∧ count < bodyAt r.bytes 8 4
          b.graphWrite p g (some n) (s.nodeVa p g n + 12) (leBytes 4 ((if again then (count + 1) % 65536 else 0) * 65536 + leNat ns % 65536)) = (c, .ok ()) →
            givesOn (.nodeWhile p g n) (if leNat bs ≠ 0 ∧ ¬ again then c.modGraph p g (fun x => { x with limit := true }) else c) (nodeSucc r.bytes (if again then 0 else 1)))
      ∧ (∀ a ty i, (ty, i) ∈ starts → 3 ≤ ty → ty ≤ 6 → runs ty → (ty = 3 → bodyAt r.bytes 16 1 = 1) →
          s.graphRead p g (some n) addr (if ty ≤ 4 then 8 else 4) = (a, .bad) → Answers i s (fun t => fails t 4 ∧ t.mem = a.mem))
      -- END
      ∧ (runs 8 → (bodyAt r.bytes 0 1 = 1 ↔ r.model = true) →
          (r.model = false → Answers (.nodeEnd p g n) s (fun t => (t.graph p g).stat = 2 ∧ node t = none ∧ (t.graph p g).fail = x.fail ∧ t = { s with parts := t.parts }))
            ∧ (r.model = true → Answers (.nodeEnd p g n) s (fun t => (t.graph p g).stat = x.stat ∧ node t = none ∧ t = { s with parts := t.parts, sqs := t.sqs }
                ∧ ∀ y rest, Tbl.get? s.sqs (s.cpOf p) = some (y :: rest) → y.pidN = p → y.slot = g → Tbl.get? t.sqs (s.cpOf p) = some ({ y with modelEnd := true } :: rest))))
      ∧ (runs 8 → ¬ (bodyAt r.bytes 0 1 = 1 ↔ r.model = true) → Answers (.nodeEnd p g n) s (fun t => fails t 5))
      -- the end of a node and of the graph
      ∧ (∀ lid l, node s = some r → r.launch = some lid → s.launch lid = some l →
          (l.fin = false → exec (.nodeComplete p g n) s = .next s)
            ∧ (l.fin = true → l.status ≠ 0 → Answers (.nodeComplete p g n) s (fun t => fails t 3 ∧ t.launch lid = none))
            ∧ (l.fin = true → l.status = 0 → ∃ a, exec (.nodeComplete p g n) s = .next (a.completeNode p g n) ∧ a.launch lid = none ∧ a.mem = s.mem
                ∧ node a = some { r with launch := none, ended := true, succ := both }
                ∧ (both = [] → Answers (.nodeComplete p g n) s (fun t => node t = none ∧ t.launch lid = none ∧ (t.graph p g).stat = x.stat))))
      ∧ (∀ m ms bs a b, node s = some r → r.launch = none → r.ended = true → r.succ = m :: ms → s.graphRead p g (some n) (s.nodeVa p g m + 12) 4 = (a, .ok bs) →
          a.graphWrite p g (some n) (s.nodeVa p g m + 12) (leBytes 4 (leNat bs / 65536 * 65536 + (leNat bs + 1) % 65536)) = (b, .ok ()) →
            ∃ c, exec (.nodeComplete p g n) s = .next (c.giveTokens p g n r.model ms) ∧ c.mem = b.mem ∧ node c = some { r with succ := ms } ∧ m ∈ (c.graph p g).cand
              ∧ (r.model = true → m ∈ (c.graph p g).mtok)
              ∧ (ms = [] → Answers (.nodeComplete p g n) s (fun t => node t = none ∧ t.mem = b.mem ∧ m ∈ (t.graph p g).cand)))
      ∧ (x.stat = 2 → x.running = [] → s.partReleasable p = true →
          let u := s.partRelease p
          let word := x.fail + if x.limit then 2 ^ 31 else 0
          let counted := fun (t : State) => (t.graph p g).stat = 0 ∧ (t.graph p g).reason = x.fail ∧ (t.graph p g).node = (if x.fail = 0 then x.node else x.failNode)
            ∧ (t.graph p g).ndone = x.ndone + 1 ∧ (t.graph p g).cand = []
          (x.done = 0 → Answers (.graphEnd p g) s (fun t => counted t ∧ t.mem = u.mem))
            ∧ (∀ b, x.done ≠ 0 → x.done % 16 = 0 → u.graphWrite p g none x.done (leBytes 8 x.doneval ++ leBytes 4 word ++ leBytes 4 x.failNode.toNat) = (b, .ok ()) →
                Answers (.graphEnd p g) s (fun t => counted t ∧ t.mem = b.mem ∧ t.hostMem = b.hostMem)))
      ∧ (x.stat ≠ 2 ∨ x.running ≠ [] → exec (.graphEnd p g) s = .next s)

/-- R291, R293, R294, R296, R298 to R300, R324, R393: the solver sequencer. A table load takes the images and marks the valid ones; one that cannot be read leaves its table invalid, with a record of KIND 16. A `SOLVE` node joins the queue of its sequencer, reads its descriptor and its table, or fails with its reason; at its turn its samples are prepared. At the start of a step the first stage is launched over the active samples, after a stage the model runs, after the last the error kernel; a template that cannot be read fails the node with reason 9. Each active sample is then decided: accepted where its error, computed from its partials, is at most 1, and never where that is NaN; the new step is the step at the start of this one times the factor of the error's index, within its limits and what is left of the interval; a rejected sample whose new step would fall below HMIN has stalled. While a launch of the model subgraph runs nothing is written. A step is counted once its writes are made, and a solve once no sample is active; a failed kernel fails the node. Each clause asks what the sequencer's accesses find in the state. Choices that the manual leaves open follow log 26. -/
def Obligations.SolverSteps : Prop :=
  ∀ (s : State) (p cp n l j g : Nat) (x : Solve) (rest : List Solve) (r : NodeRun),
    let q := s.part p
    let head := fun (t : State) => (Tbl.getD t.sqs cp []).head?
    let first := Tbl.get? s.sqs cp = some (x :: rest)
    let live := (s.graph x.pidN x.slot).stat = 1 ∧ (s.part x.pidN).pstate = 0 ∧ s.holds x.pidN = true
    let quiet := s.modelRuns x = false
    let d := sqsDesc x.desc
    let gx := s.graph x.pidN x.slot
    let u := s.solveWalker x.pidN x.slot x.node
    let xRuns := Tbl.get? gx.running x.node = some r
    let tables := s.loadWalker p
    let pasid₀ := (s.graph p 0).pasid
    let failed := fun (t : State) (reason : Nat) => Tbl.get? t.sqs cp = some rest ∧ (t.graph x.pidN x.slot).stat = 2 ∧ (gx.fail = 0 → (t.graph x.pidN x.slot).fail = reason)
      ∧ Tbl.get? (t.graph x.pidN x.slot).running x.node = none
    let launches : Instr → Nat → Nat → Nat → (Nat → SqsStat) → Prop := fun i kind stage va next =>
      (∀ a bs b kd c, s.cpRead x.pidN gx.pasid u va 128 = (a, .ok bs) →
        let rc := { lrecOf bs with y := x.active.length, kbase := d.kpage, ksize := 256, next := 0, done := 0 }
        a.readDesc x.pidN gx.pasid u rc = (b, .ok kd) → b.cpWrite x.pidN gx.pasid u d.kpage (constPage d x.table kind stage x.active.length x.n) = (c, .ok ()) →
          Answers i s (fun t => head t = some { x with stat := next c.nextId, modelEnd := false } ∧ t.mem = c.mem
            ∧ ∃ y, t.launch c.nextId = some y ∧ y.rc = rc ∧ y.pidN = x.pidN ∧ y.pasid = gx.pasid ∧ y.src = .sqs cp))
      ∧ (∀ a, s.cpRead x.pidN gx.pasid u va 128 = (a, .bad) → Answers i s (fun t => failed t 9))
    -- table loads
    (Answers (.sqsTloadTable p n) s (fun t => t.part p = if q.tbusy = none then { q with tbusy := some (some (n % 16)) } else q)
        ∧ Answers (.sqsTloadAll p) s (fun t => t.part p = if q.tbusy = none then { q with tbusy := some none } else q)
        ∧ (q.tbusy = none → exec (.sqsTloadDone p) s = .next s))
      ∧ (q.tbusy = some (some n) → n < 16 → let va := (q.tbase + 640 * n) % 2 ^ 64
          (∀ a bs, s.cpRead p pasid₀ tables va 640 = (a, .ok bs) → Answers (.sqsTloadDone p) s (fun t =>
            (t.part p).tbusy = none ∧ Tbl.get? (t.part p).tables n = some bs ∧ (t.part p).tvalid.getLsbD n = tableValid bs
              ∧ ∀ m, m ≠ n → (t.part p).tvalid.getLsbD m = q.tvalid.getLsbD m))
          ∧ (∀ a, s.cpRead p pasid₀ tables va 640 = (a, .bad) → Answers (.sqsTloadDone p) s (fun t => (t.part p).tbusy = none ∧ (t.part p).tables = q.tables
              ∧ t.mem = ((a.logPart p { src := 0x500 + a.cpOf p, kind := 16, addr := va }).1).mem
              ∧ (t.part p).tvalid.getLsbD n = false ∧ ∀ m, m ≠ n → (t.part p).tvalid.getLsbD m = q.tvalid.getLsbD m)))
      ∧ (∀ a images, q.tbusy = some none → s.cpReads p pasid₀ tables ((List.range 16).map (fun k => ((q.tbase + 640 * k) % 2 ^ 64, 640))) = (a, .ok images) →
          Answers (.sqsTloadDone p) s (fun t => (t.part p).tbusy = none ∧ ∀ m, m < 16 → Tbl.get? (t.part p).tables m = images[m]?
            ∧ (t.part p).tvalid.getLsbD m = (images[m]?).elim false tableValid))
      -- a SOLVE node
      ∧ (Tbl.get? (s.graph p g).running n = some r → r.ended = false → nodeType r.bytes = 7 →
          let cpu := s.cpOf p
          let queue := Tbl.getD s.sqs cpu []
          let new : Solve := { pidN := p, slot := g, node := n, desc := [], table := [], stat := .queued }
          let joined := { s with sqs := Tbl.set s.sqs cpu (queue ++ [new]) }
          (r.model = true → Answers (.nodeSolve p g n) s (fun t => (t.graph p g).stat = 2 ∧ t.sqs = s.sqs ∧ ((s.graph p g).fail = 0 → (t.graph p g).fail = 5)))
            ∧ (r.model = false → (∀ y ∈ queue, y.isOf p g n = false) → (s.graph p g).stat = 1 → ∀ a bs,
                (joined.cpRead p (s.graph p g).pasid (s.solveWalker p g n) (nodeAddr r.bytes) 256 = (a, .ok bs) →
                  (∀ reason, sqsReason bs q.tvalid (s.graph p g).nnode = some reason → Answers (.nodeSolve p g n) s (fun t => (t.graph p g).stat = 2
                      ∧ Tbl.getD t.sqs cpu [] = queue ∧ ((s.graph p g).fail = 0 → (t.graph p g).fail = reason)))
                    ∧ (sqsReason bs q.tvalid (s.graph p g).nnode = none → Answers (.nodeSolve p g n) s (fun t => (t.graph p g).stat = 1 ∧ t.mem = a.mem
                      ∧ Tbl.getD t.sqs cpu [] = queue ++ [{ new with desc := bs, table := Tbl.getD q.tables (sqsDesc bs).tbl [], stat := .waiting }])))
                ∧ (joined.cpRead p (s.graph p g).pasid (s.solveWalker p g n) (nodeAddr r.bytes) 256 = (a, .wait) → exec (.nodeSolve p g n) s = .next a)))
      ∧ (∀ a recs b left, first → gx.stat = 1 → cp = s.cpOf x.pidN → x.stat = .waiting → xRuns → r.ended = false → nodeType r.bytes = 7 → r.model = false →
          s.cpReads x.pidN gx.pasid u ((List.range d.nsamp).map (fun k => (sampleVa d k, 32))) = (a, .ok recs) →
            let new := recs.map (sampleStart d)
            let active := (new.zipIdx.filter (fun e => sampleStatus e.1 = 0)).map (·.2)
            a.cpWrites x.pidN gx.pasid u (((recs.zip new).zipIdx.filter (fun e => sampleStatus e.1.1 = 0)).map (fun e => (sampleVa d e.2, e.1.2)) ++ (if active = [] then [] else [(d.act, activeBytes active)])) = (b, left, .ok ()) →
              Answers (.nodeSolve x.pidN x.slot x.node) s (fun t => t.mem = b.mem ∧ head t = some { x with active := active, start := startOf (new.zipIdx.map (fun e => (e.2, e.1))), stat := if active = [] then .finished else .ready }))
      ∧ (∀ bs, bs.length = 32 → let out := sampleStart d bs
          (sampleStatus bs ≠ 0 → out = bs)
            ∧ (sampleStatus bs = 0 → (fpFinite (sampleT bs) = false ∨ fpPositive (sampleH bs) = false) → sampleStatus out = 4)
            ∧ (sampleStatus bs = 0 → fpFinite (sampleT bs) = true → fpPositive (sampleH bs) = true →
                (fpGe (sampleT bs) d.tend = true → sampleStatus out = 1 ∧ sampleT out = d.tend % 2 ^ 32 ∧ sampleH out = sampleH bs)
                  ∧ (fpGe (sampleT bs) d.tend = false → sampleStatus out = 0 ∧ sampleT out = sampleT bs
                    ∧ sampleH out = fpMin (fpMin (fpMax (sampleH bs) d.hmin) d.hmax) (fpSub d.tend (sampleT bs)) % 2 ^ 32)))
      ∧ (∀ (all : List (Nat × List Byte)) k bs, (all.map (·.1)).Nodup → (k, bs) ∈ all → sampleStatus bs = 0 → Tbl.get? (startOf all) k = some (sampleT bs, sampleH bs))
      ∧ (∀ (tbl : Tbl (Nat × Nat)) k a b bs, Tbl.get? tbl k = some (a, b) → bs.length = 32 → sampleT (atStart tbl k bs) = a % 2 ^ 32 ∧ sampleH (atStart tbl k bs) = b % 2 ^ 32
          ∧ (atStart tbl k bs).drop 8 = bs.drop 8)
      -- its kernels
      ∧ (first → live → quiet → x.stat = .ready → launches (.sqsStageLaunch cp) 0 0 d.stage (.stage 0))
      ∧ (first → live → x.stat = .model j → s.modelDone x = true → j + 1 < fieldAt x.table 0 1 → launches (.sqsStageLaunch cp) 0 (j + 1) d.stage (.stage (j + 1)))
      ∧ (first → live → x.stat = .model j → s.modelDone x = true → fieldAt x.table 0 1 ≤ j + 1 → launches (.sqsErrorLaunch cp) 1 0 d.err .error)
      ∧ (first → live → x.stat = .ready → exec (.sqsErrorLaunch cp) s = .next s ∧ exec (.sqsModelRun cp) s = .next s)
      ∧ (∀ y, first → live → x.stat = .stage j l → s.launch l = some y →
          (y.fin = false → exec (.sqsModelRun cp) s = .next s)
            ∧ (∀ a bs b, y.fin = true → y.status = 0 → let walker := s.graphWalker x.pidN x.slot (some x.node)
              let va := s.nodeVa x.pidN x.slot d.model + 12
              s.cpRead x.pidN gx.pasid walker va 4 = (a, .ok bs) →
                a.cpWrite x.pidN gx.pasid walker va (leBytes 4 (leNat bs / 65536 * 65536 + (leNat bs + 1) % 65536)) = (b, .ok ()) →
                  Answers (.sqsModelRun cp) s (fun t => head t = some { x with stat := .model j, modelEnd := false } ∧ t.launch l = none ∧ t.mem = b.mem
                    ∧ d.model ∈ (t.graph x.pidN x.slot).cand ∧ d.model ∈ (t.graph x.pidN x.slot).mtok))
            ∧ (y.fin = true → y.status ≠ 0 → Answers (.sqsModelRun cp) s (fun t => t.launch l = none ∧ failed t (if y.status = 32 then 3 else 9))))
      -- the decisions
      ∧ (∀ y a ls b left, first → live → quiet → x.stat = .error l → s.launch l = some y → y.fin = true → y.status = 0 →
          s.cpReads x.pidN gx.pasid u (x.active.flatMap (fun k => [(sampleVa d k, 32), ((d.errbuf + 4 * d.nslot * k) % 2 ^ 64, 4 * d.nslot)])) = (a, .ok ls) →
            let out := fun (k i : Nat) => decideSample d x.table (atStart x.start k (ls.getD (2 * i) [])) ((List.range d.nslot).map (fun k => fieldAt (ls.getD (2 * i + 1) []) (4 * k) 4))
            let rs := x.active.zipIdx.map (fun e => (e.1, out e.1 e.2))
            let active := (rs.filter (fun e => sampleStatus e.2.1 = 0)).map (·.1)
            let accepted := rs.countP (fun e => e.2.2)
            let stop : Prop := d.maxStep ≠ 0 ∧ x.n + 1 = d.maxStep
            let ws := rs.map (fun e => (sampleVa d e.1, if stop ∧ sampleStatus e.2.1 = 0 then e.2.1.take 12 ++ leBytes 1 3 ++ e.2.1.drop 13 else e.2.1))
              ++ (if active = [] then [] else [(d.act, activeBytes active)])
              ++ (if d.evt = 0 then [] else [((d.evt + 16 * (x.n % 2 ^ d.log2e)) % 2 ^ 64,
                    leBytes 4 x.n ++ leBytes 4 active.length ++ leBytes 4 accepted ++ leBytes 4 (rs.length - accepted))])
            let x₁ := { x with stat := .deciding, active := if stop then [] else active, start := startOf (rs.map (fun e => (e.1, e.2.1))), writes := ws }
            (a.modSolve cp (fun _ => x₁)).cpWrites x.pidN gx.pasid u ws = (b, left, .ok ()) → Answers (.sqsStepDecide cp) s (fun t => t.mem = b.mem ∧ t.launch l = none
              ∧ (t.part x.pidN).nstep = (s.part x.pidN).nstep + 1
              ∧ head t = some { x₁ with writes := [], n := x.n + 1, stat := if x₁.active = [] then .finished else .ready }))
      ∧ (∀ y, first → live → x.stat = .error l → s.launch l = some y → y.fin = true → y.status ≠ 0 →
          Answers (.sqsStepDecide cp) s (fun t => t.launch l = none ∧ failed t (if y.status = 32 then 3 else 9)))
      ∧ (first → (x.stat = .ready ∨ x.stat = .deciding) → s.modelRuns x = true → exec (.sqsStageLaunch cp) s = .next s ∧ exec (.sqsStepDecide cp) s = .next s)
      ∧ (∀ a left, first → quiet → x.stat = .deciding → s.cpWrites x.pidN gx.pasid u x.writes = (a, left, .ok ()) → Answers (.sqsStepDecide cp) s (fun t =>
          head t = some { x with writes := [], n := x.n + 1, stat := if x.active = [] then .finished else .ready }
            ∧ (t.part x.pidN).nstep = (s.part x.pidN).nstep + 1 ∧ t.mem = a.mem))
      ∧ (∀ bs ps, let err := sampleErr d.dvs ps
          let h := sampleH bs
          let out := (decideSample d x.table bs ps).1
          let accept := (decideSample d x.table bs ps).2
          let t₀ := sampleT bs
          let idx := errIndex err
          let factor := fpMul h (fieldAt x.table (384 + 4 * idx) 4)
          let g := fpMin (fpMax factor (fpMul h (fieldAt x.table 16 4))) (fpMul h (fieldAt x.table 20 4))
          let next := fun (a : Nat) => fpMin (fpMin (fpMax g d.hmin) d.hmax) (fpSub d.tend a) % 2 ^ 32
          let t₁ := if fpGe h (fpSub d.tend t₀) then d.tend else fpAdd t₀ h
          bs.length = 32 → (fpLt err 0x3F800000 = true → accept = true) ∧ (fpLt 0x3F800000 err = true → accept = false) ∧ out.length = 32
            ∧ (err = 0x3F800000 → accept = true) ∧ ((fpOf err).isNan = true → accept = false)
            ∧ (∀ a xs, ps = a :: xs → err = fpSqrt (fpDiv (xs.foldl fpAdd a) d.dvs))
            ∧ (((fpOf err).isNan = true ∨ fpGe err 0x47800000 = true) → idx = 63)
            ∧ ((fpOf err).isNan = false → fpGe err 0x47800000 = false → fpLt err 0x37800000 = true → idx = 0)
            ∧ ((fpOf err).isNan = false → fpGe err 0x47800000 = false → fpLt err 0x37800000 = false → idx = 2 * (err / 2 ^ 23 % 256 - 111) + err / 2 ^ 22 % 2)
            ∧ (accept = true → fieldAt out 13 1 = fieldAt bs 13 1 ^^^ 1
                ∧ (fpGe t₁ d.tend = true → sampleStatus out = 1 ∧ sampleT out = d.tend % 2 ^ 32 ∧ sampleH out = h)
                ∧ (fpGe t₁ d.tend = false → sampleStatus out = 0 ∧ sampleT out = t₁ % 2 ^ 32 ∧ sampleH out = next t₁))
            ∧ (accept = false → (fpLt g d.hmin = true → sampleStatus out = 2 ∧ sampleH out = h) ∧ (fpLt g d.hmin = false → sampleStatus out = 0 ∧ sampleH out = next t₀))
            ∧ fieldAt out 8 4 = err % 2 ^ 32 ∧ fieldAt out 24 8 = fieldAt bs 24 8
            ∧ (accept = true → fieldAt out 16 4 = (fieldAt bs 16 4 + 1) % 2 ^ 32 ∧ fieldAt out 20 4 = fieldAt bs 20 4 ∧ (sampleStatus out = 0 ∨ sampleStatus out = 1))
            ∧ (accept = false → fieldAt out 16 4 = fieldAt bs 16 4 ∧ fieldAt out 20 4 = (fieldAt bs 20 4 + 1) % 2 ^ 32 ∧ sampleT out = sampleT bs ∧ fieldAt out 13 1 = fieldAt bs 13 1
                ∧ (sampleStatus out = 0 ∨ sampleStatus out = 2) ∧ (sampleStatus out = 2 → sampleH out = h)))
      ∧ (first → x.stat = .finished → xRuns → ∃ a : State, exec (.solveComplete cp) s = .next (a.completeNode x.pidN x.slot x.node)
          ∧ Tbl.get? a.sqs cp = some rest ∧ (a.part x.pidN).nsolve = (s.part x.pidN).nsolve + 1 ∧ a.mem = s.mem
          ∧ Tbl.get? (a.graph x.pidN x.slot).running x.node = some { r with ended := true, succ := nodeSucc r.bytes 0 ++ nodeSucc r.bytes 1 }
          ∧ (nodeSucc r.bytes 0 = [] → nodeSucc r.bytes 1 = [] → Answers (.solveComplete cp) s (fun t =>
              Tbl.get? t.sqs cp = some rest ∧ (t.part x.pidN).nsolve = (s.part x.pidN).nsolve + 1 ∧ Tbl.get? (t.graph x.pidN x.slot).running x.node = none)))
      ∧ (∀ y, first → x.stat = .stage j l ∨ x.stat = .error l → gx.stat ≠ 1 → s.launch l = some y →
          (y.fin = false → exec (.solveComplete cp) s = .next s)
            ∧ (y.fin = true → Answers (.solveComplete cp) s (fun t => Tbl.get? t.sqs cp = some rest ∧ t.launch l = none ∧ (t.part x.pidN).nsolve = (s.part x.pidN).nsolve
              ∧ Tbl.get? (t.graph x.pidN x.slot).running x.node = none)))
      ∧ (first → x.stat = .ready → gx.stat ≠ 1 → Answers (.solveComplete cp) s (fun t => Tbl.get? t.sqs cp = some rest ∧ (t.part x.pidN).nsolve = (s.part x.pidN).nsolve
          ∧ Tbl.get? (t.graph x.pidN x.slot).running x.node = none))
      ∧ (first → x.stat = .ready → gx.stat = 1 → exec (.solveComplete cp) s = .next s)

/-- R301 to R304, R308, R310, R324, R331, R335: pre-emption. A request starts a drain, or sets ERR where the save area is not the partition's; at the deadline every wave still resident stops for its save, or under MODE 1 is killed; a drained block is saved and leaves its core; RESUME runs the partition again with what it kept of its cores' trace registers and counts, unless another member of its group runs (R324) or its interface is in ERROR (R335), and its first saved block goes back with its waves. The leader ends a quantum by a request of MODE 0, stops all but the lowest of several members that run, and gives a free turn to the next member with work whose interface is not in ERROR. What follows where no member of a group has work that has started, and where a member runs without a quantum, is the model's (log 21); that an interface in ERROR keeps its partition stopped against RESUME and the turns is the model's reading of R335 (log 18), and that what a save writes and reads waits behind a hold is its mechanism for R228 and R368 (log 32). -/
def Obligations.PreemptionSteps : Prop :=
  ∀ (s : State) (p b g k : Nat) (x : Block) (l : Launch) (y : Saved),
    let q := s.part p
    let resident := (b, x) ∈ s.residentBlocks p ∧ s.block b = some x
    let due := q.mode = 2 ∨ ∃ til, q.deadline = some til ∧ til ≤ s.time
    (q.pstate ≠ 0 → exec (.preemptReq p) s = .next s)
      ∧ (q.pstate = 0 → s.saveAreaOk p = false → Answers (.preemptReq p) s (fun t => t.part p = { q with perr := true } ∧ t = { s with parts := t.parts }))
      ∧ (q.pstate = 0 → s.saveAreaOk p = true → resident → Answers (.preemptReq p) s (fun t => (t.part p).pstate = 1 ∧ (t.part p).ndrain = 0
          ∧ (t.part p).deadline = some (s.time + 2000 * max 1 q.pdl) ∧ t.waves = s.waves ∧ t.blocks = s.blocks))
      ∧ (q.pstate = 0 → s.saveAreaOk p = true → s.residentBlocks p = [] → s.unplaced p = [] → (∀ e ∈ s.batches, e.2.pidN = p → e.2.stat ≠ .running) → q.group = 0 → q.packed = true →
          Answers (.preemptReq p) s (fun t => (t.part p).pstate = 3 ∧ (t.part p).deadline = none))
      ∧ (q.pstate = 1 → q.nextPend = [] → q.packed = true → resident → ¬ due → exec (.preemptDeadline p) s = .next s)
      ∧ (q.pstate = 1 → q.nextPend = [] → resident → due → Answers (.preemptDeadline p) s (fun t => (t.part p).pstate = 2
          ∧ (q.mode = 1 → (dumpingWave s x = none → ∀ j ∈ x.waves, t.wave j = none) ∧ (t.part p).nsave = min (s.residentBlocks p).length 65535)
          ∧ (q.mode ≠ 1 → (∀ j ∈ x.waves, ∀ w, s.wave j = some w → t.wave j = some { w with saving := true }) ∧ (t.part p).nsave = 0)))
      ∧ (s.block b = some x → s.launch x.launch = some l → l.pidN = p → q.pstate = 2 → q.packed = true → s.saveHeld p b x l = false → (∀ e ∈ s.together b x, s.blockDrained e.1 e.2 = true) →
          (∀ n ∈ s.dirtyLines x.cid, s.lineHeld n 0xFFFFFFFF = false) → Answers (.blockSave b) s (fun t => t.block b = none ∧ (∀ j ∈ x.waves, t.wave j = none)
            ∧ (t.part p).nsave = min (q.nsave + 1) 65535 ∧ ∃ sv, (t.part p).saved = q.saved ++ [sv] ∧ sv.cid = x.cid ∧ sv.lin = x.lin ∧ sv.launch = x.launch ∧ sv.rank = x.rank))
      ∧ (s.block b = some x → s.launch x.launch = some l → (s.part l.pidN).pstate ≠ 2 → exec (.blockSave b) s = .next s)
      ∧ (let taken : Prop := q.group ≠ 0 ∧ ∃ j, j < 12 ∧ j ≠ p ∧ (s.part j).group = q.group ∧ (s.part j).pstate ≠ 3;
          (q.pstate = 3 → ¬ taken → s.hostOk p = true → Answers (.resume p) s (fun t => t = { s with parts := t.parts, cores := t.cores } ∧ (∀ j, j ≠ p → t.part j = s.part j)
              ∧ t.part p = { q with pstate := 0, quantEnd := if q.group = 0 then none else some (s.time + 200000 * max 1 q.quant), kept := [] }
              ∧ (∀ cid, cid ∉ q.kept.map (·.1) → t.core cid = s.core cid)
              ∧ ((q.kept.map (·.1)).Nodup → ∀ e ∈ q.kept, t.core e.1 = { s.core e.1 with trc := e.2.trc, series := e.2.series, marks := e.2.marks })))
            ∧ (q.pstate ≠ 3 ∨ taken ∨ s.hostOk p = false → exec (.resume p) s = .next s))
      ∧ (∀ rest f, q.pstate = 0 → s.holds p = true → q.saved = y :: rest → s.savedSet p y = [y] → s.recordHeld y = false → s.headHeld p (y.cid / 4 * 4) = false → y.group = none → s.launch y.launch = some l → s.restoreFit y l = some f → (y.waves.map (·.key)).Nodup →
          Answers (.blockRestore p) s (fun t => (t.part p).saved = q.saved.filter (· ≠ y)
            ∧ (∃ z, t.block s.nextId = some z ∧ z.launch = y.launch ∧ z.lin = y.lin ∧ z.cid = y.cid ∧ z.waves = y.waves.map (·.key) ∧ z.scrBase = f.scr)
            ∧ ∀ v ∈ y.waves, ∃ w, t.wave v.key = some w ∧ w.wid = v.wid ∧ w.block = s.nextId ∧ w.pidN = l.pidN ∧ w.lclass = v.lclass ∧ w.pend = [] ∧ w.saving = false))
      ∧ (q.pstate = 0 → q.saved = [] → exec (.blockRestore p) s = .next s)
      ∧ (leader s = none ∨ g = 0 → exec (.quantumExpire g) s = .next s)
      ∧ (let running := (List.range 12).filter (fun j => (s.part j).group = g ∧ (s.part j).pstate ≠ 3)
          ∀ d, leader s = some d → g ≠ 0 →
            (∀ til, running = [p] → q.pstate = 0 → q.quantEnd = some til →
                (til ≤ s.time → exec (.quantumExpire g) s = exec (.preemptReq p) (s.modPart p (fun q => { q with mode := 0 }))) ∧ (s.time < til → exec (.quantumExpire g) s = .next s))
              ∧ (running = [p] → q.pstate = 0 → q.quantEnd = none → exec (.quantumExpire g) s = exec (.preemptReq p) (s.modPart p (fun q => { q with mode := 0 })))
              ∧ (running = [p] → q.pstate ≠ 0 → exec (.quantumExpire g) s = .next s)
              ∧ (∀ j, running = [p, j] → exec (.quantumExpire g) s = exec (.preemptReq j) s)
              ∧ (∀ last, running = [] → last < 12 → (s.part last).group = g → (∀ j, j < 12 → (s.part j).group = g → (s.part j).heldAt ≤ (s.part last).heldAt ∧ (last < j → (s.part j).heldAt < (s.part last).heldAt)) →
                  (((s.turnAfter g last).filter s.hostOk).find? s.hasWork = some k →
                      Answers (.quantumExpire g) s (fun t => (t.part k).pstate = 0 ∧ ∀ j, j ≠ k → t.part j = s.part j))))

/-- R315 to R317, R319 to R322, R328, R335: the invalidation queue and the answers of the host. An invalidation removes exactly the entries that it names from every TLB and completes once the accesses in flight that used them have ended; `REPLAY` releases keys and what waits for the page walks again at once: a wave that lacks no page is ready, one that lacks it still waits, one that may not access it traps at its instruction; `FAIL` refuses every access that waits; `SYNC` writes its record after a release; a teardown ends what runs under its PASID and is done after the drain. A page request that the host answers wakes or refuses what waits for the page under its PASID; what arrives for an address space in teardown is discarded. A function that serves nobody answers an ATS invalidation as unsupported. Choices that the manual leaves open follow log 23; writes that wait behind a hold are part of what a command waits for (log 32). -/
def Obligations.InvalidationSteps : Prop :=
  ∀ (s : State) (p pasid va count rc n io d : Nat) (kind : PKind) (pages : List Nat) (hosts : List (Nat × Nat)) (kick : BitVec 32) (w : Wave) (cmd : IqCmd),
    let q := s.part p
    let drops := fun (i : Instr) (gone : TlbE → Bool) (waits lates : List Nat) => Answers i s (fun t =>
      (∀ cid e, e ∈ (t.core cid).tlb ↔ e ∈ (s.core cid).tlb ∧ gone e = false) ∧ (∀ cl e, e ∈ Tbl.getD t.tlb2 cl [] ↔ e ∈ Tbl.getD s.tlb2 cl [] ∧ gone e = false)
        ∧ (q.iqbusy = some cmd → (t.part p).iqbusy = some { cmd with waits := waits, lates := lates }) ∧ t.mem = s.mem ∧ t.waves = s.waves)
    let next := fun (t : State) => (t.part p).iqbusy = none ∧ (q.iqbusy = some cmd → (t.part p).iqhead = q.iqhead + 1)
    let here : FaultKey := { pasid := pasid, page := va / 65536, kind := kind }
    let record := leBytes 4 cmd.idx ++ leBytes 4 0 ++ leBytes 8 0
    let ring := 2 ^ (if 4 ≤ q.iqlog2n ∧ q.iqlog2n ≤ 12 then q.iqlog2n else 4)
    let named := fun (e : TlbE) => e.pasid = asid p pasid && (e.va < va % 2 ^ 57 + 65536 * count && va % 2 ^ 57 < e.va + 2 ^ e.log)
    let h : HostPage := { pid := p, pasid := pasid, page := io }
    let torn := (Tbl.get? q.teardown pasid).isSome
    let freed := fun (ks : List FaultKey) => s.modPart p (fun q => { q with keys := ks })
    let kept := q.keys.filter (· ≠ here)
    let walk := fun (ks : List FaultKey) => ((freed ks).translate (cidOf n) p pasid (va / 65536 * 65536) kind).2
    let after := fun (x : Walk) => match x with
      | .ok _ => { w with stat := .ready }
      | .notValid _ => w
      | .hostAbsent j => { w with stat := .faulted pasid [] [(j, va / 65536)] kind }
      | _ => { w with stat := .ready, refusedPages := (va / 65536, kind) :: w.refusedPages }
    let alone := s.waves = [(n, w)] ∧ w.stat = .faulted pasid [va / 65536] [] kind ∧ w.pidN = p ∧ q.cpWait = [] ∧ ∀ c ∈ s.cores, c.2.copy = [] ∧ c.2.mat.cmds = []
    let walked := fun (t : State) => ∃ w', t.wave n = some w' ∧ w' = { w with stat := w'.stat, refusedPages := w'.refusedPages }
      ∧ (w'.stat = .ready ∨ ∃ ps hs, w'.stat = .faulted pasid ps hs kind ∧ (ps ≠ [] ∨ hs ≠ []) ∧ ∀ page ∈ ps, page ∈ pages)
    let cpAfter := fun (u : Nat) (t : State) => match ((freed kept).translateCp p pasid (va / 65536 * 65536) kind).2 with
      | .ok e => (t.part p).cpWait = [] ∧ (t.part p).cpMade = q.cpMade ++ [(u, here, e)]
      | .notValid _ => (t.part p).cpWait = [(u, here)]
      | .hostAbsent j => (t.part p).cpWait = [] ∧ (t.part p).cpHost = q.cpHost ++ [(j, u, here)]
      | _ => (t.part p).cpWait = [] ∧ (t.part p).cpRefused = q.cpRefused ++ [(u, here)]
    (∀ used : Nat → Bool, (∀ page, used page = true ↔ (va / 65536 ≤ page ∧ page < va / 65536 + count)
          ∨ ∃ e, ((∃ c ∈ s.cores, e ∈ c.2.tlb) ∨ ∃ c ∈ s.tlb2, e ∈ c.2) ∧ named e = true ∧ e.covers (asid p pasid) (page * 65536 % 2 ^ 57) = true) →
        drops (.invpg p pasid va count) named (s.reqsUnder p (some pasid) used) (s.lateUnder p (some pasid) used))
      ∧ drops (.invpasid p pasid) (fun e => e.pasid = asid p pasid) (s.reqsUnder p (some pasid)) (s.lateUnder p (some pasid))
      ∧ drops (.invall p) (fun e => e.pasid / 2 ^ 20 = p) (s.reqsUnder p none) (s.lateUnder p none)
      ∧ (q.iqbusy = some cmd → 1 ≤ cmd.op → cmd.op ≤ 3 → ((∀ r ∈ cmd.waits, s.outstanding r = false) → (∀ x ∈ cmd.lates, ∀ e ∈ s.later, e.id ≠ x) → Answers (.invalidationComplete p) s next)
          ∧ (∀ r ∈ cmd.waits, s.outstanding r = true → exec (.invalidationComplete p) s = .next s)
          ∧ (∀ e ∈ s.later, e.id ∈ cmd.lates → exec (.invalidationComplete p) s = .next s))
      ∧ (s.wave n = some w → w.stat = .faulted pasid pages hosts kind → va / 65536 ∈ pages → w.pidN = p →
          Answers (.replay p pasid va kind) s (fun t => next t ∧ walked t ∧ ∀ x ∈ kept, x ∈ (t.part p).keys)
            ∧ Answers (.replayAll p) s (fun t => next t ∧ walked t)
            ∧ Answers (.failCmd p pasid va kind) s (fun t => next t ∧ here ∉ (t.part p).keys ∧ ∃ w', t.wave n = some w'
              ∧ w' = { w with stat := .ready, refusedPages := w'.refusedPages } ∧ (va / 65536, kind) ∈ w'.refusedPages ∧ ∀ x ∈ w.refusedPages, x ∈ w'.refusedPages))
      ∧ (alone → Answers (.replay p pasid va kind) s (fun t => next t ∧ t.wave n = some (after (walk kept)) ∧ ((∃ e, walk kept = .ok e) → (t.part p).keys = kept))
          ∧ Answers (.replayAll p) s (fun t => next t ∧ t.wave n = some (after (walk [])) ∧ ((∃ e, walk [] = .ok e) → (t.part p).keys = [])))
      ∧ (∀ u, (s.waves = [] → s.cores = [] → q.cpWait = [(u, here)] → Answers (.replay p pasid va kind) s (fun t => next t ∧ cpAfter u t))
          ∧ ((u, here) ∈ q.cpWait → Answers (.failCmd p pasid va kind) s (fun t => (u, here) ∉ (t.part p).cpWait ∧ (u, here) ∈ (t.part p).cpRefused)))
      ∧ (q.iqbusy = some cmd → s.partReleasable p = true → let u := s.partRelease p
          (u.admits p rc 16 true = true → rc ≠ 0 → u.rangeHeld rc 16 = false → Answers (.syncCmd p rc) s (fun t => next t ∧ Memory.readBytes t.mem rc 16 = record))
            ∧ Answers (.syncCmd p 0) s (fun t => next t ∧ t.mem = u.mem))
      ∧ (s.partReleasable p = false → exec (.syncCmd p rc) s = .next s)
      ∧ (q.iqbusy = some cmd → Answers (.teardown p pasid rc) s (fun t => Tbl.get? (t.part p).teardown pasid = some (rc, cmd.idx, s.reqsUnder p (some pasid))
          ∧ (∀ j, j < 16 → (Tbl.getD q.subs j {}).pasid = pasid → ∃ d, Tbl.get? (t.part p).subs j = some { Tbl.getD q.subs j {} with stat := 2, done := d })
          ∧ (∀ e ∈ (t.part p).devq, e.pasid ≠ pasid) ∧ (∀ x ∈ (t.part p).keys, x.pasid ≠ pasid) ∧ (t.part p).iqhead = q.iqhead
          ∧ (∀ x ∈ (t.part p).cpWait, x.2.pasid ≠ pasid) ∧ (∀ j e, t.launch j = some e → e.pidN = p → e.pasid ≠ pasid)))
      ∧ (∀ waits, Tbl.get? q.teardown pasid = some (rc, cmd.idx, waits) → q.iqbusy = some cmd →
          ((∀ r ∈ waits, s.outstanding r = false) → (∀ x ∈ s.priWait, x.pid = p → x.pasid ≠ pasid) → s.lateUnder p (some pasid) = [] → s.partReleasable p = true → rc = 0 →
              Answers (.teardownDrainDone p pasid) s (fun t => next t ∧ Tbl.get? (t.part p).teardown pasid = none
                ∧ (∀ cid, ∀ e ∈ (t.core cid).tlb, e.pasid ≠ asid p pasid)
                ∧ (∀ j u, Tbl.get? q.subs j = some u → u.pasid = pasid → u.stat = 2 → Tbl.get? (t.part p).subs j = some { u with stat := 0, en := false })))
            ∧ ((∃ r ∈ waits, s.outstanding r = true) ∨ (∃ x ∈ s.priWait, x.pid = p ∧ x.pasid = pasid) ∨ s.lateUnder p (some pasid) ≠ [] → exec (.teardownDrainDone p pasid) s = .next s))
      ∧ Answers (.iqKick p kick) s (fun t => t = { s with parts := t.parts }
          ∧ (1 ≤ (kick - q.iqkick).toNat → (kick - q.iqkick).toNat < 2 ^ 31 → (kick - q.iqhead).toNat ≤ ring → t.part p = { q with iqkick := kick })
          ∧ (kick = q.iqkick ∨ 2 ^ 31 ≤ (kick - q.iqkick).toNat ∨ ring < (kick - q.iqhead).toNat → t.part p = q))
      ∧ (s.wave n = some w → w.stat = .faulted pasid pages hosts kind → (va / 65536, io) ∈ hosts → w.pidN = p → h ∈ s.priWait → torn = false →
          Answers (.priResponse p ⟨pasid, io⟩ true) s (fun t => h ∉ t.priWait ∧ h ∉ t.hostAbsent ∧ t.wave n = some { w with stat := .ready })
            ∧ Answers (.priResponse p ⟨pasid, io⟩ false) s (fun t => h ∉ t.priWait
              ∧ ∃ w', t.wave n = some w' ∧ w' = { w with stat := .ready, refusedPages := w'.refusedPages } ∧ (va / 65536, kind) ∈ w'.refusedPages))
      ∧ (h ∈ s.priWait → torn = true → ∀ ok, Answers (.priResponse p ⟨pasid, io⟩ ok) s (fun t => h ∉ t.priWait ∧ t = { s with priWait := t.priWait, hostAbsent := t.hostAbsent }))
      ∧ (h ∉ s.priWait → ∀ ok, exec (.priResponse p ⟨pasid, io⟩ ok) s = .next s)
      ∧ (torn = false → d < 3 → Answers (.atsCompletion ⟨d, p⟩ ⟨pasid, io⟩ true) s (fun t => (d, h) ∈ t.ats ∧ h ∉ t.hostAbsent ∧ t = { s with ats := t.ats, hostAbsent := t.hostAbsent }))
      ∧ (torn = false → d < 3 → (s.priWait.filter (fun x => x.pid = p)).length < 512 → Answers (.atsCompletion ⟨d, p⟩ ⟨pasid, io⟩ false) s (fun t =>
          (∀ j, (j, h) ∉ t.ats) ∧ h ∈ t.hostAbsent ∧ h ∈ t.priWait ∧ t = { s with ats := t.ats, hostAbsent := t.hostAbsent, priWait := t.priWait }))
      ∧ (torn = true → ∀ present, Answers (.atsCompletion ⟨d, p⟩ ⟨pasid, io⟩ present) s (fun t => t = { s with hostAbsent := t.hostAbsent }))
      ∧ (s.vfServes p = false → Answers (.atsInvalidation p io count) s (fun t => t = { s with sent := s.sent ++ [.completion (p + 1) false false []] }))
      ∧ (s.vfServes p = true → Answers (.atsInvalidation p io count) s (fun t => (∀ j x, (j, x) ∈ t.ats ↔ (j, x) ∈ s.ats ∧ ¬ (x.pid = p ∧ io ≤ x.page ∧ x.page < io + count))
          ∧ (s.hostPending p = false → t.sent = s.sent ++ [.atsDone (p + 1) io count]) ∧ (s.hostPending p = true → t.sent = s.sent ∧ t.heldIn = s.heldIn ++ [.atsInvalidation p io count])))

/-- R324, R327, R328, R331 to R337: firmware. The leader renews its lease from the word that it wrote; a follower takes one that has lapsed for 1 ms under the next term, and sessions end; a leader that has not renewed for 750 µs leads no more. A boot ROM accepts an image that its checks pass, and else asks for recovery. The leader answers SPDM and TDISP requests; nobody does while leadership is vacant. A lock asks for three accepted images, a session and a keyed stream. A write, an FLR or a lost stream of a locked interface puts it in ERROR and stops its partition; a function that serves nobody answers a request as unsupported (R324, R328, R332, R335). A partition reset ends its launches and empties what its cores hold. SM2 and SM3 are uninterpreted (log 9); the place of the lease, the numbers of SPDM and which of the leader's duties need a leader follow log 18. -/
def Obligations.FirmwareSteps : Prop :=
  ∀ (s : State) (d v p reg n : Nat) (image : List Bool) (version : Nat) (key sig : BitVec 512) (nonce : BitVec 256) (val : DWord),
    let f := Tbl.getD s.fw d {}
    let fw := fun (t : State) => Tbl.getD t.fw d {}
    let x := s.vf v
    let led := ∃ c, leader s = some c
    let vf := 1 ≤ v ∧ v ≤ 12
    let serves := s.vfServes (v - 1) = true
    -- the line of the lease is resident, or lies in no storage
    let kept := s.spanE (spanOf State.leaseDpa) = none ∨ Tbl.has s.l2 (State.leaseDpa / 128) = true
    let word := fun (t : State) (term : Nat) => (fw t).renewed = some s.time ∧ (fw t).word.toNat % 2 ^ 48 = s.ns % 2 ^ 48 ∧ (fw t).word.toNat / 2 ^ 48 % 256 = d
      ∧ (fw t).word.toNat / 2 ^ 56 = term % 256 ∧ (kept → t.lease = (fw t).word) ∧ t.opWait = []
    let tells := fun (t : State) (m : HostMsg) => t.sent = s.sent ++ [m]
    let answers := fun (r : SpdmReq) (m : HostMsg) => Answers (.spdmRequest r) s (fun t => t = { s with sent := s.sent ++ [m] })
    let errs := fun (i : Instr) (served : Prop) => (served → x.tdi = .locked ∨ x.tdi = .run → Answers i s (fun t => (t.vf v).tdi = .error ∧ (t.part (v - 1)).pstate ≠ 0 ∧ (t.part (v - 1)).mode = 1))
      ∧ (x.tdi = .unlocked ∨ x.tdi = .error → Answers i s (fun t => (t.vf v).tdi = x.tdi ∧ t.parts = s.parts ∧ t.waves = s.waves))
    (d < 3 → leads s d = true → (s.lease = f.word → Answers (.leaseRenew d) s (fun t => word t (s.lease.toNat / 2 ^ 56)))
        ∧ (s.lease ≠ f.word → Answers (.leaseRenew d) s (fun t => (fw t).renewed = none ∧ t.mem = s.mem)))
      ∧ (leads s d = false → exec (.leaseRenew d) s = .next s)
      ∧ (∀ c, f.renewed = some c → (c + 1500000 ≤ s.time → Answers (.leaseLoss d) s (fun t => fw t = { f with renewed := none } ∧ t.mem = s.mem))
          ∧ (s.time < c + 1500000 → exec (.leaseLoss d) s = .next s))
      ∧ (d < 3 → f.booted = true → f.renewed = none → let age := (s.ns % 2 ^ 48 + 2 ^ 48 - s.lease.toNat % 2 ^ 48) % 2 ^ 48
          (1000000 ≤ age → Answers (.followerPoll d) s (fun t => word t (s.lease.toNat / 2 ^ 56 + 1) ∧ t.spdm = []))
            ∧ (age < 1000000 → Answers (.followerPoll d) s (fun t => fw t = { f with polled := s.time } ∧ t.mem = s.mem ∧ t.spdm = s.spdm)))
      ∧ (d < 3 → f.booted = false → f.rejected = false → Answers (.secureBoot d image version key sig) s (fun t =>
          if acceptsImage s image version key sig = true then fw t = { f with booted := true, image := Config.sm3 image, version := version } ∧ t.sent = s.sent
          else fw t = { f with rejected := true } ∧ tells t .recovery))
      ∧ (f.booted = true → exec (.secureBoot d image version key sig) s = .next s)
      ∧ (led → answers .getVersion (.spdm true [0x12, 0x13] 0) ∧ answers .getCertificate (.spdm true s.identity 0)
          ∧ Answers (.spdmRequest .getAlgorithms) s (fun t => ∃ l, tells t (.spdm true l 0) ∧ t.spdm = s.spdm)
          ∧ (∀ c m, leader s = some c → s.measurement c n = some m → answers (.getMeasurement n) (.spdm true [n] m))
          ∧ Answers (.spdmRequest (.openSession n)) s (fun t => (∀ j, j ∈ t.spdm ↔ j = n ∨ j ∈ s.spdm) ∧ tells t (.spdm true [n] 0))
          ∧ Answers (.spdmRequest (.endSession n)) s (fun t => (∀ j, j ∈ t.spdm ↔ j ≠ n ∧ j ∈ s.spdm) ∧ tells t (.spdm (decide (n ∈ s.spdm)) [n] 0))
          ∧ (n ∈ s.spdm → vf → Answers (.spdmRequest (.keyStream n v)) s (fun t => (t.vf v) = { x with keyed := true } ∧ tells t (.spdm true [v] 0)))
          ∧ (n ∉ s.spdm → answers (.keyStream n v) (.spdm false [v] 0)))
      ∧ (leader s = none → ∀ r, exec (.spdmRequest r) s = .next s)
      ∧ (led → vf → (s.bootOk = true → x.tdi = .unlocked → s.spdm ≠ [] → x.keyed = true → Answers (.lockInterfaceRequest v nonce) s (fun t =>
              t.vf v = { x with tdi := .locked, nonce := nonce, atLock := (x.bar0, x.bar2, x.msixCtl) } ∧ tells t (.tdisp v true nonce)))
          ∧ (s.bootOk = false ∨ x.tdi ≠ .unlocked ∨ s.spdm = [] ∨ x.keyed = false → Answers (.lockInterfaceRequest v nonce) s (fun t => t.vf v = x ∧ tells t (.tdisp v false 0)))
          ∧ (s.bootOk = true → x.tdi = .locked → x.nonce = nonce → Answers (.startInterfaceRequest v nonce) s (fun t => t.vf v = { x with tdi := .run } ∧ tells t (.tdisp v true 0)))
          ∧ (s.bootOk = false ∨ x.tdi ≠ .locked ∨ x.nonce ≠ nonce → Answers (.startInterfaceRequest v nonce) s (fun t => t.vf v = x ∧ tells t (.tdisp v false 0)))
          ∧ Answers (.stopInterfaceRequest v) s (fun t => t.vf v = { x with tdi := .unlocked } ∧ tells t (.tdisp v true 0)
            ∧ (∀ cid, ∀ e ∈ (t.core cid).tlb, e.pasid / 2 ^ 20 ≠ v - 1)
            ∧ (∀ a e, s.spanE (spanOf a) = some e → (e.owner = v - 1 → Memory.read t.mem a = 0) ∧ (e.owner ≠ v - 1 → Memory.read t.mem a = Memory.read s.mem a))
            ∧ (s.holds (v - 1) = true → ∀ cid ∈ s.coresOf (v - 1), (t.core cid).scr = [] ∧ (t.core cid).l1 = [] ∧ (t.core cid).icache = [] ∧ (t.core cid).mat.acc = [])
            ∧ (s.holds (v - 1) = false → ∀ cid ∈ s.coresOf (v - 1), ∀ e ∈ (t.core cid).scr, ∃ b ∈ s.blocks, b.2.cid = cid ∧ b.2.scrBase ≤ e.1 ∧ e.1 < b.2.scrBase + b.2.scrSize)
            ∧ (∀ e ∈ t.later, e ∈ s.later ∧ ∀ y, s.spanE (spanOf e.addr) = some y → y.owner ≠ v - 1))
          ∧ (s.spdm ≠ [] → x.tdi = .locked ∨ x.tdi = .run → Answers (.getDeviceInterfaceReport v) s (fun t => tells t (.report v true (s.reportFields v)) ∧ t.vf v = x))
          ∧ (s.spdm = [] ∨ x.tdi = .unlocked ∨ x.tdi = .error → Answers (.getDeviceInterfaceReport v) s (fun t => tells t (.report v false []))))
      ∧ (leader s = none → ∀ i ∈ [Instr.lockInterfaceRequest v nonce, .startInterfaceRequest v nonce, .stopInterfaceRequest v, .getDeviceInterfaceReport v], exec i s = .next s)
      ∧ (vf → reg < 5 → errs (.lockedRegisterWrite v reg val) (reg = 4 ∨ serves) ∧ (serves → x.tdi = .unlocked → Answers (.lockedRegisterWrite v 0 val) s (fun t => (t.vf v).bar0 = val.toNat))
          ∧ (¬ serves → reg ≠ 4 → Answers (.lockedRegisterWrite v reg val) s (fun t => t = { s with sent := s.sent ++ [.completion v false false []] }))
          ∧ (x.tdi = .error → reg ≠ 4 → Answers (.lockedRegisterWrite v reg val) s (fun t => tells t (.completion v false false []) ∧ t.vf v = x)))
      ∧ (vf → errs (.flr v) serves ∧ errs (.ideStreamFailure v) True
          ∧ (¬ serves → Answers (.flr v) s (fun t => t = { s with sent := s.sent ++ [.completion v false false []] })) ∧ Answers (.ideStreamFailure v) s (fun t => (t.vf v).keyed = false))
      ∧ (p < 12 → Answers (.partitionReset p) s (fun t => (∀ l e, t.launch l = some e → e.pidN ≠ p)
          ∧ (∀ cid, (∀ e ∈ (t.core cid).tlb, e.pasid / 2 ^ 20 ≠ p) ∧ ∀ e ∈ (t.core cid).dcache, e.pasid / 2 ^ 20 ≠ p)
          ∧ (t.part p).saved = [] ∧ (t.part p).devq = [] ∧ (t.part p).keys = [] ∧ ((s.vf (p + 1)).tdi = .run → (t.vf (p + 1)).tdi = .error)
          ∧ (s.holds p = true → ∀ cid ∈ s.coresOf p, (t.core cid).scr = [])))

/-- R124, R125, R251, R252, R254, R257, R258: trace units and noise sources. CTL and RPTR are written; at a multiple of the period each traced wave gets a SYNC of 24 bytes; at a tick of its series a core writes a record of 48 bytes with what it has counted since the one before. A start-up passes where no 41 equal samples follow one another and fewer than 840 of the 1,024 equal the first. A running source keeps 8 words of each group that passes, up to 1,024, and fails with the third failure of one start-up; a retest begins another. Both tests failing on one sample show in both sticky bits. Raw bits come from outside the model and SM3 is uninterpreted (log 8, log 9); that a retest leaves the source in STATE 2 is read by inference (log 26), also while EN is 0 (log 8), and that TRC_RPTR keeps all 32 bits is the model's (log 25). -/
def Obligations.TraceAndNoiseSteps : Prop :=
  ∀ (s : State) (cid k : Nat) (x : BitVec 32) (raw : BitVec 512) (start : BitVec 1024) (adaptive : Bool),
    let c := s.core cid
    let u := c.trc
    let n := c.noise
    let now := fun (t : State) => (t.core cid).trc
    let alone := fun (t : State) => t = { s with cores := t.cores } ∧ ∀ j, j ≠ cid → t.core j = s.core j
    let noise := fun (i : Instr) (y : Noise) => Answers i s (fun t => t.core cid = { c with noise := y } ∧ alone t)
    let at_ := s.cyc cid % 2 ^ (u.syncp + 10) = 0
    let calm := u.dropping = false ∧ u.queued = []
    let counted := List.zipWith (· - ·) c.series (Tbl.getD c.marks u.tsk (List.replicate 8 0))
    let failed := fun (y : Noise) (fails : Nat) => { n with rctf := y.rctf, aptf := y.aptf, fcnt := min (n.fcnt + 1) 255, fails := fails, st := if fails = 3 then 3 else 2, runLen := 0, winSeen := 0, winSame := 0 }
    let bad : Prop := (∃ i, i + 41 ≤ 1024 ∧ ∀ j, j < 41 → start.getLsbD (i + j) = start.getLsbD i) ∨ 840 ≤ (List.range 1024).countP (fun j => start.getLsbD j = start.getLsbD 0)
    (calm → (x.getLsbD 0 = false ∨ u.en = true ∨ s.tracedWaves cid = []) → Answers (.trcCtlWrite cid x) s (fun t =>
        now t = { u with en := x.getLsbD 0, syncp := (x.extractLsb' 8 4).toNat, tsk := (x.extractLsb' 16 5).toNat } ∧ t = { s with cores := t.cores }))
      ∧ (calm → Answers (.trcRptrWrite cid x) s (fun t => now t = { u with rptr := x.toNat } ∧ t = { s with cores := t.cores }))
      ∧ ((u.en = false ∨ ¬ at_) → exec (.traceSyncPeriod cid) s = .next s)
      ∧ (∀ w v, u.en = true → at_ → u.dropping = false → s.tracedWaves cid = [k] → s.wave k = some w → cidOf k = cid → 24 < State.ringFree u.size u.wptr u.rptr →
          s.ringWrite cid u.base u.size u.wptr ([0x10, BitVec.ofNat 8 (wbOf k)] ++ leBytes 8 w.pc.toNat ++ leBytes 8 (s.cyc cid) ++ leBytes 6 (s.lc (lcCore cid)).toNat) = (v, true) →
            Answers (.traceSyncPeriod cid) s (fun t => now t = { u with wptr := (u.wptr + 24) % u.size, last := s.cyc cid, syncoff := u.wptr } ∧ t.mem = v.mem))
      ∧ (s.ns % 1024 ≠ 0 → Answers .seriesTick s (fun t => t = { s with cores := t.cores } ∧ ∀ j, t.core j = s.core j))
      ∧ (∀ y, s.cores = [(cid, y)] → 10 ≤ u.tsk → u.tsk ≤ 24 → s.ns % 2 ^ u.tsk = 0 → counted.length = 8 →
          (State.ringFree u.tssize u.tswptr u.tsrptr ≤ 48 → Answers .seriesTick s (fun t => (t.core cid).series = c.series ∧ Tbl.get? (t.core cid).marks u.tsk = some c.series
              ∧ now t = { u with tslost := min (u.tslost + 1) (2 ^ 32 - 1) } ∧ t.mem = s.mem))
            ∧ (∀ v, 48 < State.ringFree u.tssize u.tswptr u.tsrptr →
              s.ringWrite cid u.tsbase u.tssize u.tswptr (leBytes 8 (s.ns / 2 ^ u.tsk) ++ leBytes 2 cid ++ [1, 8] ++ leBytes 4 0 ++ counted.flatMap (fun n => leBytes 4 (min n (2 ^ 32 - 1)))) = (v, true) →
                Answers .seriesTick s (fun t => now t = { u with tswptr := (u.tswptr + 48) % u.tssize } ∧ (t.core cid).series = c.series
                  ∧ Tbl.get? (t.core cid).marks u.tsk = some c.series ∧ t.mem = v.mem)))
      ∧ (n.en = true → (n.st = 0 ∨ n.st = 2) → Answers (.noiseStartupPass ⟨cid, start⟩) s (fun t => alone t ∧ let y := (t.core cid).noise
          y.buf = n.buf ∧ (¬ bad → y.st = 1 ∧ y.fails = 0 ∧ y.fcnt = n.fcnt) ∧ (bad → y = failed y (n.fails + 1) ∧ (y.rctf = true ∨ y.aptf = true))))
      ∧ ((n.en = false ∨ n.st = 1 ∨ n.st = 3) → noise (.noiseStartupPass ⟨cid, start⟩) n)
      ∧ (n.en = true → n.st = 1 → Answers (.noiseGroupConditioned cid raw) s (fun t => alone t ∧ let y := (t.core cid).noise
          let tests := n.tested.samples ((List.range 512).map raw.getLsbD)
          (tests.2 = none → y.st = 1 ∧ y.fcnt = n.fcnt ∧ y.buf = (n.buf ++ conditioned raw).take 1024 ∧ (conditioned raw).length = 8 ∧ y.tested = tests.1)
            ∧ (∀ r a, tests.2 = some (r, a) → y = failed { n with rctf := n.rctf || r, aptf := n.aptf || a } 0)))
      ∧ (∀ (m : NoiseTest) (b : Bool), let r := m.sample b
          NoiseTest.samples m [b] = (r, if 41 ≤ r.run ∨ 840 ≤ r.same then some (decide (41 ≤ r.run), decide (840 ≤ r.same)) else none)
            ∧ r.run = (if m.run ≠ 0 ∧ m.last = b then m.run + 1 else 1) ∧ (r.seen = 1 → r.same = 1) ∧ (m.seen ≠ 0 → m.seen ≠ 1024 → r.seen = m.seen + 1 ∧ r.same = m.same + if m.first = b then 1 else 0))
      ∧ (n.st ≠ 1 → noise (.noiseGroupConditioned cid raw) n)
      ∧ (n.en = true → n.st ≠ 3 → noise (.noiseTestFailure cid adaptive)
          { failed n (if n.st = 1 then 0 else n.fails + 1) with rctf := n.rctf || !adaptive, aptf := n.aptf || adaptive })
      ∧ (n.en = false ∨ n.st = 3 → noise (.noiseTestFailure cid adaptive) n)
      ∧ (n.st = 3 → noise (.retest cid) { n with st := 2, fails := 0, runLen := 0, winSeen := 0, winSame := 0 })
      ∧ (n.st ≠ 3 → noise (.retest cid) n)

/-- R3, R125, R301, R323, R325, R328 to R330, R332, R335, R341, R373, R394, R395: accesses from outside. A function that serves nobody, and an access of a span of another owner, end as unsupported; a write to a register leaves its value in the field, and a read gives the field back, zero where no register lies; what reads and writes memory does so at the home slices, and waits behind a held line. A peer's access carries its sender's stamp; its atomic is one step that answers the old value. A failed link refuses from then on. A write of link 12 to 15 to an entry of the peer table leaves that field as it was, and its other fields take effect (R394). The addresses of firmware's and the operator's registers that the manual does not place are the model's (log 25); accesses complete at once (log 11); that accesses are not matched against base registers and MSE, that a register is written whole, that held accesses of a function go on in posted order, when a function serves requests, and that the operator's log takes a record only under a leader, follow log 18. -/
def Obligations.OutsideAccesses : Prop :=
  ∀ (s : State) (p l off a c : Nat) (x : DWord) (bytes : List Byte) (stamp : BitVec 48),
    let q := s.part p
    let i := Instr.registerWrite (.bar0 p) off x
    let open_ := s.vfServes p = true ∧ s.fnWaits p = false
    let v := x.toNat
    let now := fun (t : State) => t.part p
    let tells := fun (i : Instr) (m : HostMsg) => Answers i s (fun t => t = { s with sent := s.sent ++ [m] })
    let reg := fun (off : Nat) (y : Part) => open_ → Answers (.registerWrite (.bar0 p) off x) s (fun t => now t = y ∧ t = { s with parts := t.parts } ∧ ∀ j, j ≠ p → t.part j = s.part j)
    let rd := fun (off val : Nat) => open_ → tells (.registerWrite (.bar0Read p) off x) (.completion (p + 1) true false (leBytes 8 val))
    let lines := State.linesOf a bytes.length
    let held := fun (n : Nat) => s.rangeHeld a n = true
    let read := Instr.hostBar2Access p false a bytes
    let write := Instr.hostBar2Access p true a bytes
    let unsupported := HostMsg.completion (p + 1) false false []
    let link := fun (t : State) => t.lc (lcLink l) = lcMax (s.lc (lcLink l)) stamp + 1 + 1
    (s.vfServes p = false → tells i unsupported ∧ tells (.registerWrite (.bar0Read p) off x) unsupported ∧ tells write unsupported ∧ tells read unsupported)
      ∧ (s.vfServes p = true → s.fnWaits p = true → Answers i s (fun t => t = { s with heldIn := s.heldIn ++ [i] }))
      ∧ (q.iqen = false → reg 0x010 { q with ptbase := v / 4096 * 4096 }) ∧ (q.iqen = true → reg 0x010 q)
      ∧ reg 0x044 { q with fbget := v % 2 ^ 32 % 4096 } ∧ (q.pstate = 0 → reg 0x104 { q with pdl := v % 2 ^ 32 % 65536 }) ∧ (q.pstate ≠ 0 → reg 0x104 q)
      ∧ (q.pstate = 0 → reg 0x108 { q with csbase := v / 2 ^ 21 * 2 ^ 21 }) ∧ reg 0x120 { q with tvec := v / 4 * 4 } ∧ reg 0x128 { q with tfbase := v / 4096 * 4096 }
      ∧ (q.elen = true → reg 0x130 q) ∧ reg 0x140 { q with elget := x.setWidth 32 } ∧ reg 0x148 { q with plmSq := x.setWidth 16, plmGs := x.extractLsb' 16 4, plmSpw := x.getLsbD 20 }
      ∧ (q.dmbusy = false → reg 0x15C { q with dmen := x.getLsbD 0 }) ∧ reg 0x00C q
      ∧ rd 0x000 p ∧ rd 0x010 q.ptbase ∧ rd 0x040 q.fbput ∧ rd 0x050 q.ovaddr ∧ rd 0x058 q.ovcnt ∧ rd 0x100 (2 * q.mode + 16 * q.pstate + 64 * q.perr.toNat) ∧ rd 0x108 q.csbase
      ∧ rd 0x120 q.tvec ∧ rd 0x13C q.elput.toNat ∧ rd 0x144 q.eldrop ∧ rd 0x14C q.plrst ∧ rd 0x00C 0
      ∧ (open_ → ∀ n, n < 16 → exec (.registerWrite (.bar0 p) (0x1000 + 0x40 * n + 0x0C) x) s = exec (.subKick p n (x.setWidth 32)) s)
      ∧ (c < 3 → Answers (.registerWrite (.firmware c) 0x024 x) s (fun t => t.arm = { s.arm with release := v % 2 ^ 32 } ∧ t = { s with arm := t.arm })
          ∧ tells (.registerWrite (.firmwareRead c) 0x024 x) (.register s.arm.release))
      ∧ (∀ cid, c < 3 → cid < 144 → cid / 48 = c → x.getLsbD 1 = false → Answers (.registerWrite (.firmware c) (2 ^ 41 + cid) x) s (fun t =>
          t.core cid = { s.core cid with noise := { (s.core cid).noise with en := x.getLsbD 0 } } ∧ t = { s with cores := t.cores } ∧ ∀ j, j ≠ cid → t.core j = s.core j))
      ∧ (p < 12 → let m := x.setWidth 36
          let mates : Nat → Prop := fun j => j = p ∨ (q.group ≠ 0 ∧ (s.part j).group = q.group)
          ((∀ j, j < 12 → mates j → (s.part j).pstate = 3) → (∀ j, j < 12 → j ≠ p → (s.part j).clmask &&& m = 0) → (m = 0 ∨ ∀ j, j < p → ¬ mates j) →
            Answers (.registerWrite .operator (0x1000 * p + 8) x) s (fun t => now t = { q with clmask := m }))
          ∧ ((∃ j, j < 12 ∧ mates j ∧ (s.part j).pstate ≠ 3) → exec (.registerWrite .operator (0x1000 * p + 8) x) s = .next s)
          ∧ tells (.registerWrite .operatorRead (0x1000 * p + 8) x) (.register q.clmask.toNat))
      ∧ (c < 12 → (v % 16 < 12 → Answers (.registerWrite .operator (0x100000 + 8 * c) x) s (fun t =>
            Tbl.getD t.peers c {} = { Tbl.getD s.peers c {} with present := x.getLsbD 63, link := v % 16 } ∧ t = { s with peers := t.peers }))
          ∧ (12 ≤ v % 16 → Answers (.registerWrite .operator (0x100000 + 8 * c) x) s (fun t =>
            Tbl.getD t.peers c {} = { Tbl.getD s.peers c {} with present := x.getLsbD 63 } ∧ t = { s with peers := t.peers })))
      ∧ (open_ → a + bytes.length ≤ 2 ^ 40 → ¬ held bytes.length →
          (s.admits p a bytes.length false = true → (∀ n ∈ lines, Tbl.has s.l2 n = true ∧ s.poisoned n = false) →
              tells read (.completion (p + 1) true false (Memory.readBytes s.mem a bytes.length)))
            ∧ (s.admits p a bytes.length true = true → Answers write s (fun t => Memory.readBytes t.mem a bytes.length = bytes ∧ t.sent = s.sent))
            ∧ (bytes ≠ [] → s.owner (128 * (a / 128)) ≠ some p → Answers write s (fun t => t.mem = s.mem ∧ t.sent = s.sent ++ [unsupported]
              ∧ (now t).ovaddr = a ∧ (now t).ovcnt = min (q.ovcnt + 1) (2 ^ 32 - 1)))
            ∧ (s.admits p a bytes.length true = false → (∀ n ∈ lines, s.owner (128 * n) = some p) → tells write unsupported))
      ∧ (open_ → a + bytes.length ≤ 2 ^ 40 → held bytes.length → Answers write s (fun t => t = { s with heldIn := s.heldIn ++ [write] }) ∧ Answers read s (fun t => t = { s with heldIn := s.heldIn ++ [read] }))
      ∧ (l < 12 → l ∉ s.linksDown →
          (∀ acc, p < 12 → held (accSize acc) → Answers (.peerRequestArrive l p a acc stamp) s (fun t => t = { s with heldIn := s.heldIn ++ [.peerRequestArrive l p a acc stamp] }))
            ∧ (p < 12 → ¬ held bytes.length → s.admits p a bytes.length true = true → Answers (.peerRequestArrive l p a (.write bytes) stamp) s (fun t => Memory.readBytes t.mem a bytes.length = bytes
              ∧ t.sent = s.sent ++ [.peerDone l true false []] ∧ link t))
            ∧ (∀ op wide b d, p < 12 → let n := if wide = true then 8 else 4
                ¬ held n → s.admits p a n true = true → (∀ j ∈ State.linesOf a n, Tbl.has s.l2 j = true ∧ s.poisoned j = false) → let old := Memory.readBytes s.mem a n
                Answers (.peerRequestArrive l p a (.atomic op wide b d) stamp) s (fun t => Memory.readBytes t.mem a n = leBytes n (atomNew op (8 * n) (leNat old) b d)
                  ∧ t.sent = s.sent ++ [.peerDone l true false old] ∧ link t))
            ∧ (∀ acc, 12 ≤ p → Answers (.peerRequestArrive l p a acc stamp) s (fun t => t.mem = s.mem ∧ t.sent = s.sent ++ [.peerDone l false false []] ∧ link t))
            ∧ Answers (.peerLinkFail l) s (fun t => t.linksDown = l :: s.linksDown ∧ t.oplog.length + t.opWait.length = s.oplog.length + s.opWait.length + 1 ∧ t.mem = s.mem))
      ∧ (l ∈ s.linksDown → exec (.peerLinkFail l) s = .next s ∧ ∀ acc, exec (.peerRequestArrive l p a acc stamp) s = .next s)

/-- R3, R10 to R15, R19, R327, R331: reset, clocks, budgets and the fabric. A reset leaves every unit in its reset state and the contents of memory as they are. A die's budget is a third of the module's limit, of which no more than 1,800 W counts; at the end of a period the clock falls by 50 MHz with no headroom or once the module has been over its limit for two periods on end, rises by 50 MHz from 15 W of headroom on, and stays between 1,200 and 2,000 MHz. The first lost connection is recoverable, the second fatal, and the failure of a command processor reaches every partition on its die. What a reset leaves of memory and board is the model's (log 24); that the time over the limit is one for the module, whichever governors find it so, is read by inference (log 3). Setting a budget is a duty of the leader and pauses without one (R331): that the step then changes nothing, and that the operator's log takes a record only under a leader, follow log 18; that a number of a connection stands for the failure of a command processor is the model's (log 22). -/
def Obligations.DeviceSteps : Prop :=
  ∀ (s : State) (d c dieMw moduleMw : Nat) (read : Option Nat) (w : Nat),
    let x := s.die d
    let limit := if s.orderM then 1800 else read.getD 1800
    let room : Int := (w * 1000 : Nat) - (dieMw : Nat)
    let beyond := min s.moduleW 1800 * 1000 < moduleMw
    let start := s.overFrom.getD x.since
    let forced := beyond ∧ start + 20000 ≤ x.since
    Answers .deviceReset s (fun t => t.mem = s.mem ∧ t.hbm = s.hbm ∧ t.hostMem = s.hostMem ∧ (∀ j, s.peerMem j = t.peerMem j) ∧ t.waves = [] ∧ t.blocks = [] ∧ t.launches = [] ∧ t.batches = []
        ∧ t.reqs = [] ∧ t.parts = [] ∧ t.cores = [] ∧ t.dies = [] ∧ t.arm = {} ∧ t.time = 0 ∧ t.lclk = [] ∧ t.signals = [] ∧ t.spdm = [] ∧ t.l2 = [] ∧ t.fw = [] ∧ t.vfs = [] ∧ t.cur = none)
      ∧ (d < 3 → (leader s).isSome = true →
          (x.budget = none → Answers (.powerBudgetSet d read) s (fun t => t.moduleW = limit ∧ t.die d = { x with budget := some (min limit 1800 / 3), since := s.time }))
            ∧ (x.budget.isSome = true → Answers (.powerBudgetSet d read) s (fun t => t.moduleW = limit ∧ t.die d = { x with pending := some (min limit 1800 / 3) })))
      ∧ (leader s = none → exec (.powerBudgetSet d read) s = .next s)
      ∧ (d < 3 → x.budget = some w → x.since + 20000 ≤ s.time → 1200 ≤ x.mhz → x.mhz ≤ 2000 → Answers (.governorPeriod d dieMw moduleMw) s (fun t =>
          (t.die d).since = x.since + 20000 ∧ (t.die d).budget = some (x.pending.getD w) ∧ (t.die d).pending = none ∧ ((t.die d).negative = true ↔ room < 0)
            ∧ (t.die d).cyc = x.cyc ∧ 1200 ≤ (t.die d).mhz ∧ (t.die d).mhz ≤ 2000 ∧ (t.die d).mhz ≤ x.mhz + 50 ∧ x.mhz ≤ (t.die d).mhz + 50
            ∧ t.overFrom = (if beyond then some start else none) ∧ (∀ j, j ≠ d → t.die j = s.die j)
            ∧ (room < 0 ∨ forced → (t.die d).mhz = max (x.mhz - 50) 1200)
            ∧ (¬ forced → 0 ≤ room → room < 15000 → (t.die d).mhz = x.mhz)
            ∧ (¬ forced → 15000 ≤ room → (t.die d).mhz = min (x.mhz + 50) 2000)))
      ∧ (x.budget = none ∨ s.time < x.since + 20000 → exec (.governorPeriod d dieMw moduleMw) s = .next s)
      ∧ (c < 3 → c ∉ s.fabricDown → (s.fabricDown = [] → Answers (.fabricConnectionFail c) s (fun t => t.fabricDown = [c] ∧ t.oplog.length + t.opWait.length = s.oplog.length + s.opWait.length + 1 ∧ t.parts = s.parts))
          ∧ (s.fabricDown ≠ [] → Answers (.fabricConnectionFail c) s (fun t => t.fabricDown = c :: s.fabricDown ∧ s.oplog.length + s.opWait.length < t.oplog.length + t.opWait.length
            ∧ ∀ p, p < 12 → s.clusters p ≠ 0 → (s.part p).elen = false → (t.part p).eldrop = min ((s.part p).eldrop + 1) (2 ^ 32 - 1))))
      ∧ (c < 3 → c + 3 ∉ s.fabricDown → Answers (.fabricConnectionFail (c + 3)) s (fun t => t.fabricDown = s.fabricDown
          ∧ s.oplog.length + s.opWait.length < t.oplog.length + t.opWait.length
          ∧ ∀ p, p < 12 → (∃ j, j < 36 ∧ j / 12 = c ∧ (s.clusters p).getLsbD j = true) → (s.part p).elen = false → (t.part p).eldrop = min ((s.part p).eldrop + 1) (2 ^ 32 - 1)))
      ∧ (c ∈ s.fabricDown → exec (.fabricConnectionFail c) s = .next s)

end
end

