-- ==== Sys2Proof/Laws/State.lean ====
section
/-! SUPPORT. What each elementary update of the state leaves in each field: one lemma for each field and update, so that no proof unfolds a record update. -/

namespace Sys2Proof.Machine.State

variable (s : State)

@[simp] theorem setWave_time (k : Nat) (w : Wave) : (s.setWave k w).time = s.time := rfl
@[simp] theorem setWave_dies (k : Nat) (w : Wave) : (s.setWave k w).dies = s.dies := rfl
@[simp] theorem setWave_orderM (k : Nat) (w : Wave) : (s.setWave k w).orderM = s.orderM := rfl
@[simp] theorem setWave_moduleW (k : Nat) (w : Wave) : (s.setWave k w).moduleW = s.moduleW := rfl
@[simp] theorem setWave_overFrom (k : Nat) (w : Wave) : (s.setWave k w).overFrom = s.overFrom := rfl
@[simp] theorem setWave_fabricDown (k : Nat) (w : Wave) : (s.setWave k w).fabricDown = s.fabricDown := rfl
@[simp] theorem setWave_waves (k : Nat) (w : Wave) : (s.setWave k w).waves = Tbl.set s.waves k w := rfl
@[simp] theorem setWave_blocks (k : Nat) (w : Wave) : (s.setWave k w).blocks = s.blocks := rfl
@[simp] theorem setWave_groups (k : Nat) (w : Wave) : (s.setWave k w).groups = s.groups := rfl
@[simp] theorem setWave_launches (k : Nat) (w : Wave) : (s.setWave k w).launches = s.launches := rfl
@[simp] theorem setWave_cores (k : Nat) (w : Wave) : (s.setWave k w).cores = s.cores := rfl
@[simp] theorem setWave_tlb2 (k : Nat) (w : Wave) : (s.setWave k w).tlb2 = s.tlb2 := rfl
@[simp] theorem setWave_mem (k : Nat) (w : Wave) : (s.setWave k w).mem = s.mem := rfl
@[simp] theorem setWave_l2 (k : Nat) (w : Wave) : (s.setWave k w).l2 = s.l2 := rfl
@[simp] theorem setWave_badLines (k : Nat) (w : Wave) : (s.setWave k w).badLines = s.badLines := rfl
@[simp] theorem setWave_hbm (k : Nat) (w : Wave) : (s.setWave k w).hbm = s.hbm := rfl
@[simp] theorem setWave_hbmErr (k : Nat) (w : Wave) : (s.setWave k w).hbmErr = s.hbmErr := rfl
@[simp] theorem setWave_deltas (k : Nat) (w : Wave) : (s.setWave k w).deltas = s.deltas := rfl
@[simp] theorem setWave_reqs (k : Nat) (w : Wave) : (s.setWave k w).reqs = s.reqs := rfl
@[simp] theorem setWave_batches (k : Nat) (w : Wave) : (s.setWave k w).batches = s.batches := rfl
@[simp] theorem setWave_later (k : Nat) (w : Wave) : (s.setWave k w).later = s.later := rfl
@[simp] theorem setWave_toLog (k : Nat) (w : Wave) : (s.setWave k w).toLog = s.toLog := rfl
@[simp] theorem setWave_hostMem (k : Nat) (w : Wave) : (s.setWave k w).hostMem = s.hostMem := rfl
@[simp] theorem setWave_hostAbsent (k : Nat) (w : Wave) : (s.setWave k w).hostAbsent = s.hostAbsent := rfl
@[simp] theorem setWave_priWait (k : Nat) (w : Wave) : (s.setWave k w).priWait = s.priWait := rfl
@[simp] theorem setWave_ats (k : Nat) (w : Wave) : (s.setWave k w).ats = s.ats := rfl
@[simp] theorem setWave_peers (k : Nat) (w : Wave) : (s.setWave k w).peers = s.peers := rfl
@[simp] theorem setWave_linksDown (k : Nat) (w : Wave) : (s.setWave k w).linksDown = s.linksDown := rfl
@[simp] theorem setWave_parts (k : Nat) (w : Wave) : (s.setWave k w).parts = s.parts := rfl
@[simp] theorem setWave_arm (k : Nat) (w : Wave) : (s.setWave k w).arm = s.arm := rfl
@[simp] theorem setWave_chans (k : Nat) (w : Wave) : (s.setWave k w).chans = s.chans := rfl
@[simp] theorem setWave_recasters (k : Nat) (w : Wave) : (s.setWave k w).recasters = s.recasters := rfl
@[simp] theorem setWave_sqs (k : Nat) (w : Wave) : (s.setWave k w).sqs = s.sqs := rfl
@[simp] theorem setWave_fw (k : Nat) (w : Wave) : (s.setWave k w).fw = s.fw := rfl
@[simp] theorem setWave_spdm (k : Nat) (w : Wave) : (s.setWave k w).spdm = s.spdm := rfl
@[simp] theorem setWave_vfs (k : Nat) (w : Wave) : (s.setWave k w).vfs = s.vfs := rfl
@[simp] theorem setWave_oplog (k : Nat) (w : Wave) : (s.setWave k w).oplog = s.oplog := rfl
@[simp] theorem setWave_opWait (k : Nat) (w : Wave) : (s.setWave k w).opWait = s.opWait := rfl
@[simp] theorem setWave_seqs (k : Nat) (w : Wave) : (s.setWave k w).seqs = s.seqs := rfl
@[simp] theorem setWave_lclk (k : Nat) (w : Wave) : (s.setWave k w).lclk = s.lclk := rfl
@[simp] theorem setWave_signals (k : Nat) (w : Wave) : (s.setWave k w).signals = s.signals := rfl
@[simp] theorem setWave_sent (k : Nat) (w : Wave) : (s.setWave k w).sent = s.sent := rfl
@[simp] theorem setWave_cur (k : Nat) (w : Wave) : (s.setWave k w).cur = s.cur := rfl
@[simp] theorem setWave_todo (k : Nat) (w : Wave) : (s.setWave k w).todo = s.todo := rfl
@[simp] theorem setWave_fresh (k : Nat) (w : Wave) : (s.setWave k w).fresh = s.fresh := rfl
@[simp] theorem setWave_inbox (k : Nat) (w : Wave) : (s.setWave k w).inbox = s.inbox := rfl
@[simp] theorem setWave_heldIn (k : Nat) (w : Wave) : (s.setWave k w).heldIn = s.heldIn := rfl
@[simp] theorem setWave_nextId (k : Nat) (w : Wave) : (s.setWave k w).nextId = s.nextId := rfl
@[simp] theorem setWave_lateSeq (k : Nat) (w : Wave) : (s.setWave k w).lateSeq = s.lateSeq := rfl
@[simp] theorem setWave_freeCtr (k : Nat) (w : Wave) : (s.setWave k w).freeCtr = s.freeCtr := rfl

@[simp] theorem modWave_time (k : Nat) (f : Wave → Wave) : (s.modWave k f).time = s.time := rfl
@[simp] theorem modWave_dies (k : Nat) (f : Wave → Wave) : (s.modWave k f).dies = s.dies := rfl
@[simp] theorem modWave_orderM (k : Nat) (f : Wave → Wave) : (s.modWave k f).orderM = s.orderM := rfl
@[simp] theorem modWave_moduleW (k : Nat) (f : Wave → Wave) : (s.modWave k f).moduleW = s.moduleW := rfl
@[simp] theorem modWave_overFrom (k : Nat) (f : Wave → Wave) : (s.modWave k f).overFrom = s.overFrom := rfl
@[simp] theorem modWave_fabricDown (k : Nat) (f : Wave → Wave) : (s.modWave k f).fabricDown = s.fabricDown := rfl
@[simp] theorem modWave_waves (k : Nat) (f : Wave → Wave) : (s.modWave k f).waves = Tbl.modify s.waves k f := rfl
@[simp] theorem modWave_blocks (k : Nat) (f : Wave → Wave) : (s.modWave k f).blocks = s.blocks := rfl
@[simp] theorem modWave_groups (k : Nat) (f : Wave → Wave) : (s.modWave k f).groups = s.groups := rfl
@[simp] theorem modWave_launches (k : Nat) (f : Wave → Wave) : (s.modWave k f).launches = s.launches := rfl
@[simp] theorem modWave_cores (k : Nat) (f : Wave → Wave) : (s.modWave k f).cores = s.cores := rfl
@[simp] theorem modWave_tlb2 (k : Nat) (f : Wave → Wave) : (s.modWave k f).tlb2 = s.tlb2 := rfl
@[simp] theorem modWave_mem (k : Nat) (f : Wave → Wave) : (s.modWave k f).mem = s.mem := rfl
@[simp] theorem modWave_l2 (k : Nat) (f : Wave → Wave) : (s.modWave k f).l2 = s.l2 := rfl
@[simp] theorem modWave_badLines (k : Nat) (f : Wave → Wave) : (s.modWave k f).badLines = s.badLines := rfl
@[simp] theorem modWave_hbm (k : Nat) (f : Wave → Wave) : (s.modWave k f).hbm = s.hbm := rfl
@[simp] theorem modWave_hbmErr (k : Nat) (f : Wave → Wave) : (s.modWave k f).hbmErr = s.hbmErr := rfl
@[simp] theorem modWave_deltas (k : Nat) (f : Wave → Wave) : (s.modWave k f).deltas = s.deltas := rfl
@[simp] theorem modWave_reqs (k : Nat) (f : Wave → Wave) : (s.modWave k f).reqs = s.reqs := rfl
@[simp] theorem modWave_batches (k : Nat) (f : Wave → Wave) : (s.modWave k f).batches = s.batches := rfl
@[simp] theorem modWave_later (k : Nat) (f : Wave → Wave) : (s.modWave k f).later = s.later := rfl
@[simp] theorem modWave_toLog (k : Nat) (f : Wave → Wave) : (s.modWave k f).toLog = s.toLog := rfl
@[simp] theorem modWave_hostMem (k : Nat) (f : Wave → Wave) : (s.modWave k f).hostMem = s.hostMem := rfl
@[simp] theorem modWave_hostAbsent (k : Nat) (f : Wave → Wave) : (s.modWave k f).hostAbsent = s.hostAbsent := rfl
@[simp] theorem modWave_priWait (k : Nat) (f : Wave → Wave) : (s.modWave k f).priWait = s.priWait := rfl
@[simp] theorem modWave_ats (k : Nat) (f : Wave → Wave) : (s.modWave k f).ats = s.ats := rfl
@[simp] theorem modWave_peers (k : Nat) (f : Wave → Wave) : (s.modWave k f).peers = s.peers := rfl
@[simp] theorem modWave_linksDown (k : Nat) (f : Wave → Wave) : (s.modWave k f).linksDown = s.linksDown := rfl
@[simp] theorem modWave_parts (k : Nat) (f : Wave → Wave) : (s.modWave k f).parts = s.parts := rfl
@[simp] theorem modWave_arm (k : Nat) (f : Wave → Wave) : (s.modWave k f).arm = s.arm := rfl
@[simp] theorem modWave_chans (k : Nat) (f : Wave → Wave) : (s.modWave k f).chans = s.chans := rfl
@[simp] theorem modWave_recasters (k : Nat) (f : Wave → Wave) : (s.modWave k f).recasters = s.recasters := rfl
@[simp] theorem modWave_sqs (k : Nat) (f : Wave → Wave) : (s.modWave k f).sqs = s.sqs := rfl
@[simp] theorem modWave_fw (k : Nat) (f : Wave → Wave) : (s.modWave k f).fw = s.fw := rfl
@[simp] theorem modWave_spdm (k : Nat) (f : Wave → Wave) : (s.modWave k f).spdm = s.spdm := rfl
@[simp] theorem modWave_vfs (k : Nat) (f : Wave → Wave) : (s.modWave k f).vfs = s.vfs := rfl
@[simp] theorem modWave_oplog (k : Nat) (f : Wave → Wave) : (s.modWave k f).oplog = s.oplog := rfl
@[simp] theorem modWave_opWait (k : Nat) (f : Wave → Wave) : (s.modWave k f).opWait = s.opWait := rfl
@[simp] theorem modWave_seqs (k : Nat) (f : Wave → Wave) : (s.modWave k f).seqs = s.seqs := rfl
@[simp] theorem modWave_lclk (k : Nat) (f : Wave → Wave) : (s.modWave k f).lclk = s.lclk := rfl
@[simp] theorem modWave_signals (k : Nat) (f : Wave → Wave) : (s.modWave k f).signals = s.signals := rfl
@[simp] theorem modWave_sent (k : Nat) (f : Wave → Wave) : (s.modWave k f).sent = s.sent := rfl
@[simp] theorem modWave_cur (k : Nat) (f : Wave → Wave) : (s.modWave k f).cur = s.cur := rfl
@[simp] theorem modWave_todo (k : Nat) (f : Wave → Wave) : (s.modWave k f).todo = s.todo := rfl
@[simp] theorem modWave_fresh (k : Nat) (f : Wave → Wave) : (s.modWave k f).fresh = s.fresh := rfl
@[simp] theorem modWave_inbox (k : Nat) (f : Wave → Wave) : (s.modWave k f).inbox = s.inbox := rfl
@[simp] theorem modWave_heldIn (k : Nat) (f : Wave → Wave) : (s.modWave k f).heldIn = s.heldIn := rfl
@[simp] theorem modWave_nextId (k : Nat) (f : Wave → Wave) : (s.modWave k f).nextId = s.nextId := rfl
@[simp] theorem modWave_lateSeq (k : Nat) (f : Wave → Wave) : (s.modWave k f).lateSeq = s.lateSeq := rfl
@[simp] theorem modWave_freeCtr (k : Nat) (f : Wave → Wave) : (s.modWave k f).freeCtr = s.freeCtr := rfl

@[simp] theorem modCore_time (c : Nat) (f : Core → Core) : (s.modCore c f).time = s.time := rfl
@[simp] theorem modCore_dies (c : Nat) (f : Core → Core) : (s.modCore c f).dies = s.dies := rfl
@[simp] theorem modCore_orderM (c : Nat) (f : Core → Core) : (s.modCore c f).orderM = s.orderM := rfl
@[simp] theorem modCore_moduleW (c : Nat) (f : Core → Core) : (s.modCore c f).moduleW = s.moduleW := rfl
@[simp] theorem modCore_overFrom (c : Nat) (f : Core → Core) : (s.modCore c f).overFrom = s.overFrom := rfl
@[simp] theorem modCore_fabricDown (c : Nat) (f : Core → Core) : (s.modCore c f).fabricDown = s.fabricDown := rfl
@[simp] theorem modCore_waves (c : Nat) (f : Core → Core) : (s.modCore c f).waves = s.waves := rfl
@[simp] theorem modCore_blocks (c : Nat) (f : Core → Core) : (s.modCore c f).blocks = s.blocks := rfl
@[simp] theorem modCore_groups (c : Nat) (f : Core → Core) : (s.modCore c f).groups = s.groups := rfl
@[simp] theorem modCore_launches (c : Nat) (f : Core → Core) : (s.modCore c f).launches = s.launches := rfl
@[simp] theorem modCore_cores (c : Nat) (f : Core → Core) : (s.modCore c f).cores = Tbl.set s.cores c (f (s.core c)) := rfl
@[simp] theorem modCore_tlb2 (c : Nat) (f : Core → Core) : (s.modCore c f).tlb2 = s.tlb2 := rfl
@[simp] theorem modCore_mem (c : Nat) (f : Core → Core) : (s.modCore c f).mem = s.mem := rfl
@[simp] theorem modCore_l2 (c : Nat) (f : Core → Core) : (s.modCore c f).l2 = s.l2 := rfl
@[simp] theorem modCore_badLines (c : Nat) (f : Core → Core) : (s.modCore c f).badLines = s.badLines := rfl
@[simp] theorem modCore_hbm (c : Nat) (f : Core → Core) : (s.modCore c f).hbm = s.hbm := rfl
@[simp] theorem modCore_hbmErr (c : Nat) (f : Core → Core) : (s.modCore c f).hbmErr = s.hbmErr := rfl
@[simp] theorem modCore_deltas (c : Nat) (f : Core → Core) : (s.modCore c f).deltas = s.deltas := rfl
@[simp] theorem modCore_reqs (c : Nat) (f : Core → Core) : (s.modCore c f).reqs = s.reqs := rfl
@[simp] theorem modCore_batches (c : Nat) (f : Core → Core) : (s.modCore c f).batches = s.batches := rfl
@[simp] theorem modCore_later (c : Nat) (f : Core → Core) : (s.modCore c f).later = s.later := rfl
@[simp] theorem modCore_toLog (c : Nat) (f : Core → Core) : (s.modCore c f).toLog = s.toLog := rfl
@[simp] theorem modCore_hostMem (c : Nat) (f : Core → Core) : (s.modCore c f).hostMem = s.hostMem := rfl
@[simp] theorem modCore_hostAbsent (c : Nat) (f : Core → Core) : (s.modCore c f).hostAbsent = s.hostAbsent := rfl
@[simp] theorem modCore_priWait (c : Nat) (f : Core → Core) : (s.modCore c f).priWait = s.priWait := rfl
@[simp] theorem modCore_ats (c : Nat) (f : Core → Core) : (s.modCore c f).ats = s.ats := rfl
@[simp] theorem modCore_peers (c : Nat) (f : Core → Core) : (s.modCore c f).peers = s.peers := rfl
@[simp] theorem modCore_linksDown (c : Nat) (f : Core → Core) : (s.modCore c f).linksDown = s.linksDown := rfl
@[simp] theorem modCore_parts (c : Nat) (f : Core → Core) : (s.modCore c f).parts = s.parts := rfl
@[simp] theorem modCore_arm (c : Nat) (f : Core → Core) : (s.modCore c f).arm = s.arm := rfl
@[simp] theorem modCore_chans (c : Nat) (f : Core → Core) : (s.modCore c f).chans = s.chans := rfl
@[simp] theorem modCore_recasters (c : Nat) (f : Core → Core) : (s.modCore c f).recasters = s.recasters := rfl
@[simp] theorem modCore_sqs (c : Nat) (f : Core → Core) : (s.modCore c f).sqs = s.sqs := rfl
@[simp] theorem modCore_fw (c : Nat) (f : Core → Core) : (s.modCore c f).fw = s.fw := rfl
@[simp] theorem modCore_spdm (c : Nat) (f : Core → Core) : (s.modCore c f).spdm = s.spdm := rfl
@[simp] theorem modCore_vfs (c : Nat) (f : Core → Core) : (s.modCore c f).vfs = s.vfs := rfl
@[simp] theorem modCore_oplog (c : Nat) (f : Core → Core) : (s.modCore c f).oplog = s.oplog := rfl
@[simp] theorem modCore_opWait (c : Nat) (f : Core → Core) : (s.modCore c f).opWait = s.opWait := rfl
@[simp] theorem modCore_seqs (c : Nat) (f : Core → Core) : (s.modCore c f).seqs = s.seqs := rfl
@[simp] theorem modCore_lclk (c : Nat) (f : Core → Core) : (s.modCore c f).lclk = s.lclk := rfl
@[simp] theorem modCore_signals (c : Nat) (f : Core → Core) : (s.modCore c f).signals = s.signals := rfl
@[simp] theorem modCore_sent (c : Nat) (f : Core → Core) : (s.modCore c f).sent = s.sent := rfl
@[simp] theorem modCore_cur (c : Nat) (f : Core → Core) : (s.modCore c f).cur = s.cur := rfl
@[simp] theorem modCore_todo (c : Nat) (f : Core → Core) : (s.modCore c f).todo = s.todo := rfl
@[simp] theorem modCore_fresh (c : Nat) (f : Core → Core) : (s.modCore c f).fresh = s.fresh := rfl
@[simp] theorem modCore_inbox (c : Nat) (f : Core → Core) : (s.modCore c f).inbox = s.inbox := rfl
@[simp] theorem modCore_heldIn (c : Nat) (f : Core → Core) : (s.modCore c f).heldIn = s.heldIn := rfl
@[simp] theorem modCore_nextId (c : Nat) (f : Core → Core) : (s.modCore c f).nextId = s.nextId := rfl
@[simp] theorem modCore_lateSeq (c : Nat) (f : Core → Core) : (s.modCore c f).lateSeq = s.lateSeq := rfl
@[simp] theorem modCore_freeCtr (c : Nat) (f : Core → Core) : (s.modCore c f).freeCtr = s.freeCtr := rfl

@[simp] theorem modDie_time (d : Nat) (f : Die → Die) : (s.modDie d f).time = s.time := rfl
@[simp] theorem modDie_dies (d : Nat) (f : Die → Die) : (s.modDie d f).dies = Tbl.set s.dies d (f (s.die d)) := rfl
@[simp] theorem modDie_orderM (d : Nat) (f : Die → Die) : (s.modDie d f).orderM = s.orderM := rfl
@[simp] theorem modDie_moduleW (d : Nat) (f : Die → Die) : (s.modDie d f).moduleW = s.moduleW := rfl
@[simp] theorem modDie_overFrom (d : Nat) (f : Die → Die) : (s.modDie d f).overFrom = s.overFrom := rfl
@[simp] theorem modDie_fabricDown (d : Nat) (f : Die → Die) : (s.modDie d f).fabricDown = s.fabricDown := rfl
@[simp] theorem modDie_waves (d : Nat) (f : Die → Die) : (s.modDie d f).waves = s.waves := rfl
@[simp] theorem modDie_blocks (d : Nat) (f : Die → Die) : (s.modDie d f).blocks = s.blocks := rfl
@[simp] theorem modDie_groups (d : Nat) (f : Die → Die) : (s.modDie d f).groups = s.groups := rfl
@[simp] theorem modDie_launches (d : Nat) (f : Die → Die) : (s.modDie d f).launches = s.launches := rfl
@[simp] theorem modDie_cores (d : Nat) (f : Die → Die) : (s.modDie d f).cores = s.cores := rfl
@[simp] theorem modDie_tlb2 (d : Nat) (f : Die → Die) : (s.modDie d f).tlb2 = s.tlb2 := rfl
@[simp] theorem modDie_mem (d : Nat) (f : Die → Die) : (s.modDie d f).mem = s.mem := rfl
@[simp] theorem modDie_l2 (d : Nat) (f : Die → Die) : (s.modDie d f).l2 = s.l2 := rfl
@[simp] theorem modDie_badLines (d : Nat) (f : Die → Die) : (s.modDie d f).badLines = s.badLines := rfl
@[simp] theorem modDie_hbm (d : Nat) (f : Die → Die) : (s.modDie d f).hbm = s.hbm := rfl
@[simp] theorem modDie_hbmErr (d : Nat) (f : Die → Die) : (s.modDie d f).hbmErr = s.hbmErr := rfl
@[simp] theorem modDie_deltas (d : Nat) (f : Die → Die) : (s.modDie d f).deltas = s.deltas := rfl
@[simp] theorem modDie_reqs (d : Nat) (f : Die → Die) : (s.modDie d f).reqs = s.reqs := rfl
@[simp] theorem modDie_batches (d : Nat) (f : Die → Die) : (s.modDie d f).batches = s.batches := rfl
@[simp] theorem modDie_later (d : Nat) (f : Die → Die) : (s.modDie d f).later = s.later := rfl
@[simp] theorem modDie_toLog (d : Nat) (f : Die → Die) : (s.modDie d f).toLog = s.toLog := rfl
@[simp] theorem modDie_hostMem (d : Nat) (f : Die → Die) : (s.modDie d f).hostMem = s.hostMem := rfl
@[simp] theorem modDie_hostAbsent (d : Nat) (f : Die → Die) : (s.modDie d f).hostAbsent = s.hostAbsent := rfl
@[simp] theorem modDie_priWait (d : Nat) (f : Die → Die) : (s.modDie d f).priWait = s.priWait := rfl
@[simp] theorem modDie_ats (d : Nat) (f : Die → Die) : (s.modDie d f).ats = s.ats := rfl
@[simp] theorem modDie_peers (d : Nat) (f : Die → Die) : (s.modDie d f).peers = s.peers := rfl
@[simp] theorem modDie_linksDown (d : Nat) (f : Die → Die) : (s.modDie d f).linksDown = s.linksDown := rfl
@[simp] theorem modDie_parts (d : Nat) (f : Die → Die) : (s.modDie d f).parts = s.parts := rfl
@[simp] theorem modDie_arm (d : Nat) (f : Die → Die) : (s.modDie d f).arm = s.arm := rfl
@[simp] theorem modDie_chans (d : Nat) (f : Die → Die) : (s.modDie d f).chans = s.chans := rfl
@[simp] theorem modDie_recasters (d : Nat) (f : Die → Die) : (s.modDie d f).recasters = s.recasters := rfl
@[simp] theorem modDie_sqs (d : Nat) (f : Die → Die) : (s.modDie d f).sqs = s.sqs := rfl
@[simp] theorem modDie_fw (d : Nat) (f : Die → Die) : (s.modDie d f).fw = s.fw := rfl
@[simp] theorem modDie_spdm (d : Nat) (f : Die → Die) : (s.modDie d f).spdm = s.spdm := rfl
@[simp] theorem modDie_vfs (d : Nat) (f : Die → Die) : (s.modDie d f).vfs = s.vfs := rfl
@[simp] theorem modDie_oplog (d : Nat) (f : Die → Die) : (s.modDie d f).oplog = s.oplog := rfl
@[simp] theorem modDie_opWait (d : Nat) (f : Die → Die) : (s.modDie d f).opWait = s.opWait := rfl
@[simp] theorem modDie_seqs (d : Nat) (f : Die → Die) : (s.modDie d f).seqs = s.seqs := rfl
@[simp] theorem modDie_lclk (d : Nat) (f : Die → Die) : (s.modDie d f).lclk = s.lclk := rfl
@[simp] theorem modDie_signals (d : Nat) (f : Die → Die) : (s.modDie d f).signals = s.signals := rfl
@[simp] theorem modDie_sent (d : Nat) (f : Die → Die) : (s.modDie d f).sent = s.sent := rfl
@[simp] theorem modDie_cur (d : Nat) (f : Die → Die) : (s.modDie d f).cur = s.cur := rfl
@[simp] theorem modDie_todo (d : Nat) (f : Die → Die) : (s.modDie d f).todo = s.todo := rfl
@[simp] theorem modDie_fresh (d : Nat) (f : Die → Die) : (s.modDie d f).fresh = s.fresh := rfl
@[simp] theorem modDie_inbox (d : Nat) (f : Die → Die) : (s.modDie d f).inbox = s.inbox := rfl
@[simp] theorem modDie_heldIn (d : Nat) (f : Die → Die) : (s.modDie d f).heldIn = s.heldIn := rfl
@[simp] theorem modDie_nextId (d : Nat) (f : Die → Die) : (s.modDie d f).nextId = s.nextId := rfl
@[simp] theorem modDie_lateSeq (d : Nat) (f : Die → Die) : (s.modDie d f).lateSeq = s.lateSeq := rfl
@[simp] theorem modDie_freeCtr (d : Nat) (f : Die → Die) : (s.modDie d f).freeCtr = s.freeCtr := rfl

@[simp] theorem modPart_time (p : Nat) (f : Part → Part) : (s.modPart p f).time = s.time := rfl
@[simp] theorem modPart_dies (p : Nat) (f : Part → Part) : (s.modPart p f).dies = s.dies := rfl
@[simp] theorem modPart_orderM (p : Nat) (f : Part → Part) : (s.modPart p f).orderM = s.orderM := rfl
@[simp] theorem modPart_moduleW (p : Nat) (f : Part → Part) : (s.modPart p f).moduleW = s.moduleW := rfl
@[simp] theorem modPart_overFrom (p : Nat) (f : Part → Part) : (s.modPart p f).overFrom = s.overFrom := rfl
@[simp] theorem modPart_fabricDown (p : Nat) (f : Part → Part) : (s.modPart p f).fabricDown = s.fabricDown := rfl
@[simp] theorem modPart_waves (p : Nat) (f : Part → Part) : (s.modPart p f).waves = s.waves := rfl
@[simp] theorem modPart_blocks (p : Nat) (f : Part → Part) : (s.modPart p f).blocks = s.blocks := rfl
@[simp] theorem modPart_groups (p : Nat) (f : Part → Part) : (s.modPart p f).groups = s.groups := rfl
@[simp] theorem modPart_launches (p : Nat) (f : Part → Part) : (s.modPart p f).launches = s.launches := rfl
@[simp] theorem modPart_cores (p : Nat) (f : Part → Part) : (s.modPart p f).cores = s.cores := rfl
@[simp] theorem modPart_tlb2 (p : Nat) (f : Part → Part) : (s.modPart p f).tlb2 = s.tlb2 := rfl
@[simp] theorem modPart_mem (p : Nat) (f : Part → Part) : (s.modPart p f).mem = s.mem := rfl
@[simp] theorem modPart_l2 (p : Nat) (f : Part → Part) : (s.modPart p f).l2 = s.l2 := rfl
@[simp] theorem modPart_badLines (p : Nat) (f : Part → Part) : (s.modPart p f).badLines = s.badLines := rfl
@[simp] theorem modPart_hbm (p : Nat) (f : Part → Part) : (s.modPart p f).hbm = s.hbm := rfl
@[simp] theorem modPart_hbmErr (p : Nat) (f : Part → Part) : (s.modPart p f).hbmErr = s.hbmErr := rfl
@[simp] theorem modPart_deltas (p : Nat) (f : Part → Part) : (s.modPart p f).deltas = s.deltas := rfl
@[simp] theorem modPart_reqs (p : Nat) (f : Part → Part) : (s.modPart p f).reqs = s.reqs := rfl
@[simp] theorem modPart_batches (p : Nat) (f : Part → Part) : (s.modPart p f).batches = s.batches := rfl
@[simp] theorem modPart_later (p : Nat) (f : Part → Part) : (s.modPart p f).later = s.later := rfl
@[simp] theorem modPart_toLog (p : Nat) (f : Part → Part) : (s.modPart p f).toLog = s.toLog := rfl
@[simp] theorem modPart_hostMem (p : Nat) (f : Part → Part) : (s.modPart p f).hostMem = s.hostMem := rfl
@[simp] theorem modPart_hostAbsent (p : Nat) (f : Part → Part) : (s.modPart p f).hostAbsent = s.hostAbsent := rfl
@[simp] theorem modPart_priWait (p : Nat) (f : Part → Part) : (s.modPart p f).priWait = s.priWait := rfl
@[simp] theorem modPart_ats (p : Nat) (f : Part → Part) : (s.modPart p f).ats = s.ats := rfl
@[simp] theorem modPart_peers (p : Nat) (f : Part → Part) : (s.modPart p f).peers = s.peers := rfl
@[simp] theorem modPart_linksDown (p : Nat) (f : Part → Part) : (s.modPart p f).linksDown = s.linksDown := rfl
@[simp] theorem modPart_parts (p : Nat) (f : Part → Part) : (s.modPart p f).parts = Tbl.set s.parts p (f (s.part p)) := rfl
@[simp] theorem modPart_arm (p : Nat) (f : Part → Part) : (s.modPart p f).arm = s.arm := rfl
@[simp] theorem modPart_chans (p : Nat) (f : Part → Part) : (s.modPart p f).chans = s.chans := rfl
@[simp] theorem modPart_recasters (p : Nat) (f : Part → Part) : (s.modPart p f).recasters = s.recasters := rfl
@[simp] theorem modPart_sqs (p : Nat) (f : Part → Part) : (s.modPart p f).sqs = s.sqs := rfl
@[simp] theorem modPart_fw (p : Nat) (f : Part → Part) : (s.modPart p f).fw = s.fw := rfl
@[simp] theorem modPart_spdm (p : Nat) (f : Part → Part) : (s.modPart p f).spdm = s.spdm := rfl
@[simp] theorem modPart_vfs (p : Nat) (f : Part → Part) : (s.modPart p f).vfs = s.vfs := rfl
@[simp] theorem modPart_oplog (p : Nat) (f : Part → Part) : (s.modPart p f).oplog = s.oplog := rfl
@[simp] theorem modPart_opWait (p : Nat) (f : Part → Part) : (s.modPart p f).opWait = s.opWait := rfl
@[simp] theorem modPart_seqs (p : Nat) (f : Part → Part) : (s.modPart p f).seqs = s.seqs := rfl
@[simp] theorem modPart_lclk (p : Nat) (f : Part → Part) : (s.modPart p f).lclk = s.lclk := rfl
@[simp] theorem modPart_signals (p : Nat) (f : Part → Part) : (s.modPart p f).signals = s.signals := rfl
@[simp] theorem modPart_sent (p : Nat) (f : Part → Part) : (s.modPart p f).sent = s.sent := rfl
@[simp] theorem modPart_cur (p : Nat) (f : Part → Part) : (s.modPart p f).cur = s.cur := rfl
@[simp] theorem modPart_todo (p : Nat) (f : Part → Part) : (s.modPart p f).todo = s.todo := rfl
@[simp] theorem modPart_fresh (p : Nat) (f : Part → Part) : (s.modPart p f).fresh = s.fresh := rfl
@[simp] theorem modPart_inbox (p : Nat) (f : Part → Part) : (s.modPart p f).inbox = s.inbox := rfl
@[simp] theorem modPart_heldIn (p : Nat) (f : Part → Part) : (s.modPart p f).heldIn = s.heldIn := rfl
@[simp] theorem modPart_nextId (p : Nat) (f : Part → Part) : (s.modPart p f).nextId = s.nextId := rfl
@[simp] theorem modPart_lateSeq (p : Nat) (f : Part → Part) : (s.modPart p f).lateSeq = s.lateSeq := rfl
@[simp] theorem modPart_freeCtr (p : Nat) (f : Part → Part) : (s.modPart p f).freeCtr = s.freeCtr := rfl

@[simp] theorem modChan_time (c : Nat) (f : Chan → Chan) : (s.modChan c f).time = s.time := rfl
@[simp] theorem modChan_dies (c : Nat) (f : Chan → Chan) : (s.modChan c f).dies = s.dies := rfl
@[simp] theorem modChan_orderM (c : Nat) (f : Chan → Chan) : (s.modChan c f).orderM = s.orderM := rfl
@[simp] theorem modChan_moduleW (c : Nat) (f : Chan → Chan) : (s.modChan c f).moduleW = s.moduleW := rfl
@[simp] theorem modChan_overFrom (c : Nat) (f : Chan → Chan) : (s.modChan c f).overFrom = s.overFrom := rfl
@[simp] theorem modChan_fabricDown (c : Nat) (f : Chan → Chan) : (s.modChan c f).fabricDown = s.fabricDown := rfl
@[simp] theorem modChan_waves (c : Nat) (f : Chan → Chan) : (s.modChan c f).waves = s.waves := rfl
@[simp] theorem modChan_blocks (c : Nat) (f : Chan → Chan) : (s.modChan c f).blocks = s.blocks := rfl
@[simp] theorem modChan_groups (c : Nat) (f : Chan → Chan) : (s.modChan c f).groups = s.groups := rfl
@[simp] theorem modChan_launches (c : Nat) (f : Chan → Chan) : (s.modChan c f).launches = s.launches := rfl
@[simp] theorem modChan_cores (c : Nat) (f : Chan → Chan) : (s.modChan c f).cores = s.cores := rfl
@[simp] theorem modChan_tlb2 (c : Nat) (f : Chan → Chan) : (s.modChan c f).tlb2 = s.tlb2 := rfl
@[simp] theorem modChan_mem (c : Nat) (f : Chan → Chan) : (s.modChan c f).mem = s.mem := rfl
@[simp] theorem modChan_l2 (c : Nat) (f : Chan → Chan) : (s.modChan c f).l2 = s.l2 := rfl
@[simp] theorem modChan_badLines (c : Nat) (f : Chan → Chan) : (s.modChan c f).badLines = s.badLines := rfl
@[simp] theorem modChan_hbm (c : Nat) (f : Chan → Chan) : (s.modChan c f).hbm = s.hbm := rfl
@[simp] theorem modChan_hbmErr (c : Nat) (f : Chan → Chan) : (s.modChan c f).hbmErr = s.hbmErr := rfl
@[simp] theorem modChan_deltas (c : Nat) (f : Chan → Chan) : (s.modChan c f).deltas = s.deltas := rfl
@[simp] theorem modChan_reqs (c : Nat) (f : Chan → Chan) : (s.modChan c f).reqs = s.reqs := rfl
@[simp] theorem modChan_batches (c : Nat) (f : Chan → Chan) : (s.modChan c f).batches = s.batches := rfl
@[simp] theorem modChan_later (c : Nat) (f : Chan → Chan) : (s.modChan c f).later = s.later := rfl
@[simp] theorem modChan_toLog (c : Nat) (f : Chan → Chan) : (s.modChan c f).toLog = s.toLog := rfl
@[simp] theorem modChan_hostMem (c : Nat) (f : Chan → Chan) : (s.modChan c f).hostMem = s.hostMem := rfl
@[simp] theorem modChan_hostAbsent (c : Nat) (f : Chan → Chan) : (s.modChan c f).hostAbsent = s.hostAbsent := rfl
@[simp] theorem modChan_priWait (c : Nat) (f : Chan → Chan) : (s.modChan c f).priWait = s.priWait := rfl
@[simp] theorem modChan_ats (c : Nat) (f : Chan → Chan) : (s.modChan c f).ats = s.ats := rfl
@[simp] theorem modChan_peers (c : Nat) (f : Chan → Chan) : (s.modChan c f).peers = s.peers := rfl
@[simp] theorem modChan_linksDown (c : Nat) (f : Chan → Chan) : (s.modChan c f).linksDown = s.linksDown := rfl
@[simp] theorem modChan_parts (c : Nat) (f : Chan → Chan) : (s.modChan c f).parts = s.parts := rfl
@[simp] theorem modChan_arm (c : Nat) (f : Chan → Chan) : (s.modChan c f).arm = s.arm := rfl
@[simp] theorem modChan_chans (c : Nat) (f : Chan → Chan) : (s.modChan c f).chans = Tbl.set s.chans c (f (s.chan c)) := rfl
@[simp] theorem modChan_recasters (c : Nat) (f : Chan → Chan) : (s.modChan c f).recasters = s.recasters := rfl
@[simp] theorem modChan_sqs (c : Nat) (f : Chan → Chan) : (s.modChan c f).sqs = s.sqs := rfl
@[simp] theorem modChan_fw (c : Nat) (f : Chan → Chan) : (s.modChan c f).fw = s.fw := rfl
@[simp] theorem modChan_spdm (c : Nat) (f : Chan → Chan) : (s.modChan c f).spdm = s.spdm := rfl
@[simp] theorem modChan_vfs (c : Nat) (f : Chan → Chan) : (s.modChan c f).vfs = s.vfs := rfl
@[simp] theorem modChan_oplog (c : Nat) (f : Chan → Chan) : (s.modChan c f).oplog = s.oplog := rfl
@[simp] theorem modChan_opWait (c : Nat) (f : Chan → Chan) : (s.modChan c f).opWait = s.opWait := rfl
@[simp] theorem modChan_seqs (c : Nat) (f : Chan → Chan) : (s.modChan c f).seqs = s.seqs := rfl
@[simp] theorem modChan_lclk (c : Nat) (f : Chan → Chan) : (s.modChan c f).lclk = s.lclk := rfl
@[simp] theorem modChan_signals (c : Nat) (f : Chan → Chan) : (s.modChan c f).signals = s.signals := rfl
@[simp] theorem modChan_sent (c : Nat) (f : Chan → Chan) : (s.modChan c f).sent = s.sent := rfl
@[simp] theorem modChan_cur (c : Nat) (f : Chan → Chan) : (s.modChan c f).cur = s.cur := rfl
@[simp] theorem modChan_todo (c : Nat) (f : Chan → Chan) : (s.modChan c f).todo = s.todo := rfl
@[simp] theorem modChan_fresh (c : Nat) (f : Chan → Chan) : (s.modChan c f).fresh = s.fresh := rfl
@[simp] theorem modChan_inbox (c : Nat) (f : Chan → Chan) : (s.modChan c f).inbox = s.inbox := rfl
@[simp] theorem modChan_heldIn (c : Nat) (f : Chan → Chan) : (s.modChan c f).heldIn = s.heldIn := rfl
@[simp] theorem modChan_nextId (c : Nat) (f : Chan → Chan) : (s.modChan c f).nextId = s.nextId := rfl
@[simp] theorem modChan_lateSeq (c : Nat) (f : Chan → Chan) : (s.modChan c f).lateSeq = s.lateSeq := rfl
@[simp] theorem modChan_freeCtr (c : Nat) (f : Chan → Chan) : (s.modChan c f).freeCtr = s.freeCtr := rfl

@[simp] theorem modBlock_time (b : Nat) (f : Block → Block) : (s.modBlock b f).time = s.time := rfl
@[simp] theorem modBlock_dies (b : Nat) (f : Block → Block) : (s.modBlock b f).dies = s.dies := rfl
@[simp] theorem modBlock_orderM (b : Nat) (f : Block → Block) : (s.modBlock b f).orderM = s.orderM := rfl
@[simp] theorem modBlock_moduleW (b : Nat) (f : Block → Block) : (s.modBlock b f).moduleW = s.moduleW := rfl
@[simp] theorem modBlock_overFrom (b : Nat) (f : Block → Block) : (s.modBlock b f).overFrom = s.overFrom := rfl
@[simp] theorem modBlock_fabricDown (b : Nat) (f : Block → Block) : (s.modBlock b f).fabricDown = s.fabricDown := rfl
@[simp] theorem modBlock_waves (b : Nat) (f : Block → Block) : (s.modBlock b f).waves = s.waves := rfl
@[simp] theorem modBlock_blocks (b : Nat) (f : Block → Block) : (s.modBlock b f).blocks = Tbl.modify s.blocks b f := rfl
@[simp] theorem modBlock_groups (b : Nat) (f : Block → Block) : (s.modBlock b f).groups = s.groups := rfl
@[simp] theorem modBlock_launches (b : Nat) (f : Block → Block) : (s.modBlock b f).launches = s.launches := rfl
@[simp] theorem modBlock_cores (b : Nat) (f : Block → Block) : (s.modBlock b f).cores = s.cores := rfl
@[simp] theorem modBlock_tlb2 (b : Nat) (f : Block → Block) : (s.modBlock b f).tlb2 = s.tlb2 := rfl
@[simp] theorem modBlock_mem (b : Nat) (f : Block → Block) : (s.modBlock b f).mem = s.mem := rfl
@[simp] theorem modBlock_l2 (b : Nat) (f : Block → Block) : (s.modBlock b f).l2 = s.l2 := rfl
@[simp] theorem modBlock_badLines (b : Nat) (f : Block → Block) : (s.modBlock b f).badLines = s.badLines := rfl
@[simp] theorem modBlock_hbm (b : Nat) (f : Block → Block) : (s.modBlock b f).hbm = s.hbm := rfl
@[simp] theorem modBlock_hbmErr (b : Nat) (f : Block → Block) : (s.modBlock b f).hbmErr = s.hbmErr := rfl
@[simp] theorem modBlock_deltas (b : Nat) (f : Block → Block) : (s.modBlock b f).deltas = s.deltas := rfl
@[simp] theorem modBlock_reqs (b : Nat) (f : Block → Block) : (s.modBlock b f).reqs = s.reqs := rfl
@[simp] theorem modBlock_batches (b : Nat) (f : Block → Block) : (s.modBlock b f).batches = s.batches := rfl
@[simp] theorem modBlock_later (b : Nat) (f : Block → Block) : (s.modBlock b f).later = s.later := rfl
@[simp] theorem modBlock_toLog (b : Nat) (f : Block → Block) : (s.modBlock b f).toLog = s.toLog := rfl
@[simp] theorem modBlock_hostMem (b : Nat) (f : Block → Block) : (s.modBlock b f).hostMem = s.hostMem := rfl
@[simp] theorem modBlock_hostAbsent (b : Nat) (f : Block → Block) : (s.modBlock b f).hostAbsent = s.hostAbsent := rfl
@[simp] theorem modBlock_priWait (b : Nat) (f : Block → Block) : (s.modBlock b f).priWait = s.priWait := rfl
@[simp] theorem modBlock_ats (b : Nat) (f : Block → Block) : (s.modBlock b f).ats = s.ats := rfl
@[simp] theorem modBlock_peers (b : Nat) (f : Block → Block) : (s.modBlock b f).peers = s.peers := rfl
@[simp] theorem modBlock_linksDown (b : Nat) (f : Block → Block) : (s.modBlock b f).linksDown = s.linksDown := rfl
@[simp] theorem modBlock_parts (b : Nat) (f : Block → Block) : (s.modBlock b f).parts = s.parts := rfl
@[simp] theorem modBlock_arm (b : Nat) (f : Block → Block) : (s.modBlock b f).arm = s.arm := rfl
@[simp] theorem modBlock_chans (b : Nat) (f : Block → Block) : (s.modBlock b f).chans = s.chans := rfl
@[simp] theorem modBlock_recasters (b : Nat) (f : Block → Block) : (s.modBlock b f).recasters = s.recasters := rfl
@[simp] theorem modBlock_sqs (b : Nat) (f : Block → Block) : (s.modBlock b f).sqs = s.sqs := rfl
@[simp] theorem modBlock_fw (b : Nat) (f : Block → Block) : (s.modBlock b f).fw = s.fw := rfl
@[simp] theorem modBlock_spdm (b : Nat) (f : Block → Block) : (s.modBlock b f).spdm = s.spdm := rfl
@[simp] theorem modBlock_vfs (b : Nat) (f : Block → Block) : (s.modBlock b f).vfs = s.vfs := rfl
@[simp] theorem modBlock_oplog (b : Nat) (f : Block → Block) : (s.modBlock b f).oplog = s.oplog := rfl
@[simp] theorem modBlock_opWait (b : Nat) (f : Block → Block) : (s.modBlock b f).opWait = s.opWait := rfl
@[simp] theorem modBlock_seqs (b : Nat) (f : Block → Block) : (s.modBlock b f).seqs = s.seqs := rfl
@[simp] theorem modBlock_lclk (b : Nat) (f : Block → Block) : (s.modBlock b f).lclk = s.lclk := rfl
@[simp] theorem modBlock_signals (b : Nat) (f : Block → Block) : (s.modBlock b f).signals = s.signals := rfl
@[simp] theorem modBlock_sent (b : Nat) (f : Block → Block) : (s.modBlock b f).sent = s.sent := rfl
@[simp] theorem modBlock_cur (b : Nat) (f : Block → Block) : (s.modBlock b f).cur = s.cur := rfl
@[simp] theorem modBlock_todo (b : Nat) (f : Block → Block) : (s.modBlock b f).todo = s.todo := rfl
@[simp] theorem modBlock_fresh (b : Nat) (f : Block → Block) : (s.modBlock b f).fresh = s.fresh := rfl
@[simp] theorem modBlock_inbox (b : Nat) (f : Block → Block) : (s.modBlock b f).inbox = s.inbox := rfl
@[simp] theorem modBlock_heldIn (b : Nat) (f : Block → Block) : (s.modBlock b f).heldIn = s.heldIn := rfl
@[simp] theorem modBlock_nextId (b : Nat) (f : Block → Block) : (s.modBlock b f).nextId = s.nextId := rfl
@[simp] theorem modBlock_lateSeq (b : Nat) (f : Block → Block) : (s.modBlock b f).lateSeq = s.lateSeq := rfl
@[simp] theorem modBlock_freeCtr (b : Nat) (f : Block → Block) : (s.modBlock b f).freeCtr = s.freeCtr := rfl

@[simp] theorem modGroup_time (g : Nat) (f : Group → Group) : (s.modGroup g f).time = s.time := rfl
@[simp] theorem modGroup_dies (g : Nat) (f : Group → Group) : (s.modGroup g f).dies = s.dies := rfl
@[simp] theorem modGroup_orderM (g : Nat) (f : Group → Group) : (s.modGroup g f).orderM = s.orderM := rfl
@[simp] theorem modGroup_moduleW (g : Nat) (f : Group → Group) : (s.modGroup g f).moduleW = s.moduleW := rfl
@[simp] theorem modGroup_overFrom (g : Nat) (f : Group → Group) : (s.modGroup g f).overFrom = s.overFrom := rfl
@[simp] theorem modGroup_fabricDown (g : Nat) (f : Group → Group) : (s.modGroup g f).fabricDown = s.fabricDown := rfl
@[simp] theorem modGroup_waves (g : Nat) (f : Group → Group) : (s.modGroup g f).waves = s.waves := rfl
@[simp] theorem modGroup_blocks (g : Nat) (f : Group → Group) : (s.modGroup g f).blocks = s.blocks := rfl
@[simp] theorem modGroup_groups (g : Nat) (f : Group → Group) : (s.modGroup g f).groups = Tbl.modify s.groups g f := rfl
@[simp] theorem modGroup_launches (g : Nat) (f : Group → Group) : (s.modGroup g f).launches = s.launches := rfl
@[simp] theorem modGroup_cores (g : Nat) (f : Group → Group) : (s.modGroup g f).cores = s.cores := rfl
@[simp] theorem modGroup_tlb2 (g : Nat) (f : Group → Group) : (s.modGroup g f).tlb2 = s.tlb2 := rfl
@[simp] theorem modGroup_mem (g : Nat) (f : Group → Group) : (s.modGroup g f).mem = s.mem := rfl
@[simp] theorem modGroup_l2 (g : Nat) (f : Group → Group) : (s.modGroup g f).l2 = s.l2 := rfl
@[simp] theorem modGroup_badLines (g : Nat) (f : Group → Group) : (s.modGroup g f).badLines = s.badLines := rfl
@[simp] theorem modGroup_hbm (g : Nat) (f : Group → Group) : (s.modGroup g f).hbm = s.hbm := rfl
@[simp] theorem modGroup_hbmErr (g : Nat) (f : Group → Group) : (s.modGroup g f).hbmErr = s.hbmErr := rfl
@[simp] theorem modGroup_deltas (g : Nat) (f : Group → Group) : (s.modGroup g f).deltas = s.deltas := rfl
@[simp] theorem modGroup_reqs (g : Nat) (f : Group → Group) : (s.modGroup g f).reqs = s.reqs := rfl
@[simp] theorem modGroup_batches (g : Nat) (f : Group → Group) : (s.modGroup g f).batches = s.batches := rfl
@[simp] theorem modGroup_later (g : Nat) (f : Group → Group) : (s.modGroup g f).later = s.later := rfl
@[simp] theorem modGroup_toLog (g : Nat) (f : Group → Group) : (s.modGroup g f).toLog = s.toLog := rfl
@[simp] theorem modGroup_hostMem (g : Nat) (f : Group → Group) : (s.modGroup g f).hostMem = s.hostMem := rfl
@[simp] theorem modGroup_hostAbsent (g : Nat) (f : Group → Group) : (s.modGroup g f).hostAbsent = s.hostAbsent := rfl
@[simp] theorem modGroup_priWait (g : Nat) (f : Group → Group) : (s.modGroup g f).priWait = s.priWait := rfl
@[simp] theorem modGroup_ats (g : Nat) (f : Group → Group) : (s.modGroup g f).ats = s.ats := rfl
@[simp] theorem modGroup_peers (g : Nat) (f : Group → Group) : (s.modGroup g f).peers = s.peers := rfl
@[simp] theorem modGroup_linksDown (g : Nat) (f : Group → Group) : (s.modGroup g f).linksDown = s.linksDown := rfl
@[simp] theorem modGroup_parts (g : Nat) (f : Group → Group) : (s.modGroup g f).parts = s.parts := rfl
@[simp] theorem modGroup_arm (g : Nat) (f : Group → Group) : (s.modGroup g f).arm = s.arm := rfl
@[simp] theorem modGroup_chans (g : Nat) (f : Group → Group) : (s.modGroup g f).chans = s.chans := rfl
@[simp] theorem modGroup_recasters (g : Nat) (f : Group → Group) : (s.modGroup g f).recasters = s.recasters := rfl
@[simp] theorem modGroup_sqs (g : Nat) (f : Group → Group) : (s.modGroup g f).sqs = s.sqs := rfl
@[simp] theorem modGroup_fw (g : Nat) (f : Group → Group) : (s.modGroup g f).fw = s.fw := rfl
@[simp] theorem modGroup_spdm (g : Nat) (f : Group → Group) : (s.modGroup g f).spdm = s.spdm := rfl
@[simp] theorem modGroup_vfs (g : Nat) (f : Group → Group) : (s.modGroup g f).vfs = s.vfs := rfl
@[simp] theorem modGroup_oplog (g : Nat) (f : Group → Group) : (s.modGroup g f).oplog = s.oplog := rfl
@[simp] theorem modGroup_opWait (g : Nat) (f : Group → Group) : (s.modGroup g f).opWait = s.opWait := rfl
@[simp] theorem modGroup_seqs (g : Nat) (f : Group → Group) : (s.modGroup g f).seqs = s.seqs := rfl
@[simp] theorem modGroup_lclk (g : Nat) (f : Group → Group) : (s.modGroup g f).lclk = s.lclk := rfl
@[simp] theorem modGroup_signals (g : Nat) (f : Group → Group) : (s.modGroup g f).signals = s.signals := rfl
@[simp] theorem modGroup_sent (g : Nat) (f : Group → Group) : (s.modGroup g f).sent = s.sent := rfl
@[simp] theorem modGroup_cur (g : Nat) (f : Group → Group) : (s.modGroup g f).cur = s.cur := rfl
@[simp] theorem modGroup_todo (g : Nat) (f : Group → Group) : (s.modGroup g f).todo = s.todo := rfl
@[simp] theorem modGroup_fresh (g : Nat) (f : Group → Group) : (s.modGroup g f).fresh = s.fresh := rfl
@[simp] theorem modGroup_inbox (g : Nat) (f : Group → Group) : (s.modGroup g f).inbox = s.inbox := rfl
@[simp] theorem modGroup_heldIn (g : Nat) (f : Group → Group) : (s.modGroup g f).heldIn = s.heldIn := rfl
@[simp] theorem modGroup_nextId (g : Nat) (f : Group → Group) : (s.modGroup g f).nextId = s.nextId := rfl
@[simp] theorem modGroup_lateSeq (g : Nat) (f : Group → Group) : (s.modGroup g f).lateSeq = s.lateSeq := rfl
@[simp] theorem modGroup_freeCtr (g : Nat) (f : Group → Group) : (s.modGroup g f).freeCtr = s.freeCtr := rfl

@[simp] theorem modLaunch_time (l : Nat) (f : Launch → Launch) : (s.modLaunch l f).time = s.time := rfl
@[simp] theorem modLaunch_dies (l : Nat) (f : Launch → Launch) : (s.modLaunch l f).dies = s.dies := rfl
@[simp] theorem modLaunch_orderM (l : Nat) (f : Launch → Launch) : (s.modLaunch l f).orderM = s.orderM := rfl
@[simp] theorem modLaunch_moduleW (l : Nat) (f : Launch → Launch) : (s.modLaunch l f).moduleW = s.moduleW := rfl
@[simp] theorem modLaunch_overFrom (l : Nat) (f : Launch → Launch) : (s.modLaunch l f).overFrom = s.overFrom := rfl
@[simp] theorem modLaunch_fabricDown (l : Nat) (f : Launch → Launch) : (s.modLaunch l f).fabricDown = s.fabricDown := rfl
@[simp] theorem modLaunch_waves (l : Nat) (f : Launch → Launch) : (s.modLaunch l f).waves = s.waves := rfl
@[simp] theorem modLaunch_blocks (l : Nat) (f : Launch → Launch) : (s.modLaunch l f).blocks = s.blocks := rfl
@[simp] theorem modLaunch_groups (l : Nat) (f : Launch → Launch) : (s.modLaunch l f).groups = s.groups := rfl
@[simp] theorem modLaunch_launches (l : Nat) (f : Launch → Launch) : (s.modLaunch l f).launches = Tbl.modify s.launches l f := rfl
@[simp] theorem modLaunch_cores (l : Nat) (f : Launch → Launch) : (s.modLaunch l f).cores = s.cores := rfl
@[simp] theorem modLaunch_tlb2 (l : Nat) (f : Launch → Launch) : (s.modLaunch l f).tlb2 = s.tlb2 := rfl
@[simp] theorem modLaunch_mem (l : Nat) (f : Launch → Launch) : (s.modLaunch l f).mem = s.mem := rfl
@[simp] theorem modLaunch_l2 (l : Nat) (f : Launch → Launch) : (s.modLaunch l f).l2 = s.l2 := rfl
@[simp] theorem modLaunch_badLines (l : Nat) (f : Launch → Launch) : (s.modLaunch l f).badLines = s.badLines := rfl
@[simp] theorem modLaunch_hbm (l : Nat) (f : Launch → Launch) : (s.modLaunch l f).hbm = s.hbm := rfl
@[simp] theorem modLaunch_hbmErr (l : Nat) (f : Launch → Launch) : (s.modLaunch l f).hbmErr = s.hbmErr := rfl
@[simp] theorem modLaunch_deltas (l : Nat) (f : Launch → Launch) : (s.modLaunch l f).deltas = s.deltas := rfl
@[simp] theorem modLaunch_reqs (l : Nat) (f : Launch → Launch) : (s.modLaunch l f).reqs = s.reqs := rfl
@[simp] theorem modLaunch_batches (l : Nat) (f : Launch → Launch) : (s.modLaunch l f).batches = s.batches := rfl
@[simp] theorem modLaunch_later (l : Nat) (f : Launch → Launch) : (s.modLaunch l f).later = s.later := rfl
@[simp] theorem modLaunch_toLog (l : Nat) (f : Launch → Launch) : (s.modLaunch l f).toLog = s.toLog := rfl
@[simp] theorem modLaunch_hostMem (l : Nat) (f : Launch → Launch) : (s.modLaunch l f).hostMem = s.hostMem := rfl
@[simp] theorem modLaunch_hostAbsent (l : Nat) (f : Launch → Launch) : (s.modLaunch l f).hostAbsent = s.hostAbsent := rfl
@[simp] theorem modLaunch_priWait (l : Nat) (f : Launch → Launch) : (s.modLaunch l f).priWait = s.priWait := rfl
@[simp] theorem modLaunch_ats (l : Nat) (f : Launch → Launch) : (s.modLaunch l f).ats = s.ats := rfl
@[simp] theorem modLaunch_peers (l : Nat) (f : Launch → Launch) : (s.modLaunch l f).peers = s.peers := rfl
@[simp] theorem modLaunch_linksDown (l : Nat) (f : Launch → Launch) : (s.modLaunch l f).linksDown = s.linksDown := rfl
@[simp] theorem modLaunch_parts (l : Nat) (f : Launch → Launch) : (s.modLaunch l f).parts = s.parts := rfl
@[simp] theorem modLaunch_arm (l : Nat) (f : Launch → Launch) : (s.modLaunch l f).arm = s.arm := rfl
@[simp] theorem modLaunch_chans (l : Nat) (f : Launch → Launch) : (s.modLaunch l f).chans = s.chans := rfl
@[simp] theorem modLaunch_recasters (l : Nat) (f : Launch → Launch) : (s.modLaunch l f).recasters = s.recasters := rfl
@[simp] theorem modLaunch_sqs (l : Nat) (f : Launch → Launch) : (s.modLaunch l f).sqs = s.sqs := rfl
@[simp] theorem modLaunch_fw (l : Nat) (f : Launch → Launch) : (s.modLaunch l f).fw = s.fw := rfl
@[simp] theorem modLaunch_spdm (l : Nat) (f : Launch → Launch) : (s.modLaunch l f).spdm = s.spdm := rfl
@[simp] theorem modLaunch_vfs (l : Nat) (f : Launch → Launch) : (s.modLaunch l f).vfs = s.vfs := rfl
@[simp] theorem modLaunch_oplog (l : Nat) (f : Launch → Launch) : (s.modLaunch l f).oplog = s.oplog := rfl
@[simp] theorem modLaunch_opWait (l : Nat) (f : Launch → Launch) : (s.modLaunch l f).opWait = s.opWait := rfl
@[simp] theorem modLaunch_seqs (l : Nat) (f : Launch → Launch) : (s.modLaunch l f).seqs = s.seqs := rfl
@[simp] theorem modLaunch_lclk (l : Nat) (f : Launch → Launch) : (s.modLaunch l f).lclk = s.lclk := rfl
@[simp] theorem modLaunch_signals (l : Nat) (f : Launch → Launch) : (s.modLaunch l f).signals = s.signals := rfl
@[simp] theorem modLaunch_sent (l : Nat) (f : Launch → Launch) : (s.modLaunch l f).sent = s.sent := rfl
@[simp] theorem modLaunch_cur (l : Nat) (f : Launch → Launch) : (s.modLaunch l f).cur = s.cur := rfl
@[simp] theorem modLaunch_todo (l : Nat) (f : Launch → Launch) : (s.modLaunch l f).todo = s.todo := rfl
@[simp] theorem modLaunch_fresh (l : Nat) (f : Launch → Launch) : (s.modLaunch l f).fresh = s.fresh := rfl
@[simp] theorem modLaunch_inbox (l : Nat) (f : Launch → Launch) : (s.modLaunch l f).inbox = s.inbox := rfl
@[simp] theorem modLaunch_heldIn (l : Nat) (f : Launch → Launch) : (s.modLaunch l f).heldIn = s.heldIn := rfl
@[simp] theorem modLaunch_nextId (l : Nat) (f : Launch → Launch) : (s.modLaunch l f).nextId = s.nextId := rfl
@[simp] theorem modLaunch_lateSeq (l : Nat) (f : Launch → Launch) : (s.modLaunch l f).lateSeq = s.lateSeq := rfl
@[simp] theorem modLaunch_freeCtr (l : Nat) (f : Launch → Launch) : (s.modLaunch l f).freeCtr = s.freeCtr := rfl

@[simp] theorem modReq_time (r : Nat) (f : Req → Req) : (s.modReq r f).time = s.time := rfl
@[simp] theorem modReq_dies (r : Nat) (f : Req → Req) : (s.modReq r f).dies = s.dies := rfl
@[simp] theorem modReq_orderM (r : Nat) (f : Req → Req) : (s.modReq r f).orderM = s.orderM := rfl
@[simp] theorem modReq_moduleW (r : Nat) (f : Req → Req) : (s.modReq r f).moduleW = s.moduleW := rfl
@[simp] theorem modReq_overFrom (r : Nat) (f : Req → Req) : (s.modReq r f).overFrom = s.overFrom := rfl
@[simp] theorem modReq_fabricDown (r : Nat) (f : Req → Req) : (s.modReq r f).fabricDown = s.fabricDown := rfl
@[simp] theorem modReq_waves (r : Nat) (f : Req → Req) : (s.modReq r f).waves = s.waves := rfl
@[simp] theorem modReq_blocks (r : Nat) (f : Req → Req) : (s.modReq r f).blocks = s.blocks := rfl
@[simp] theorem modReq_groups (r : Nat) (f : Req → Req) : (s.modReq r f).groups = s.groups := rfl
@[simp] theorem modReq_launches (r : Nat) (f : Req → Req) : (s.modReq r f).launches = s.launches := rfl
@[simp] theorem modReq_cores (r : Nat) (f : Req → Req) : (s.modReq r f).cores = s.cores := rfl
@[simp] theorem modReq_tlb2 (r : Nat) (f : Req → Req) : (s.modReq r f).tlb2 = s.tlb2 := rfl
@[simp] theorem modReq_mem (r : Nat) (f : Req → Req) : (s.modReq r f).mem = s.mem := rfl
@[simp] theorem modReq_l2 (r : Nat) (f : Req → Req) : (s.modReq r f).l2 = s.l2 := rfl
@[simp] theorem modReq_badLines (r : Nat) (f : Req → Req) : (s.modReq r f).badLines = s.badLines := rfl
@[simp] theorem modReq_hbm (r : Nat) (f : Req → Req) : (s.modReq r f).hbm = s.hbm := rfl
@[simp] theorem modReq_hbmErr (r : Nat) (f : Req → Req) : (s.modReq r f).hbmErr = s.hbmErr := rfl
@[simp] theorem modReq_deltas (r : Nat) (f : Req → Req) : (s.modReq r f).deltas = s.deltas := rfl
@[simp] theorem modReq_reqs (r : Nat) (f : Req → Req) : (s.modReq r f).reqs = Tbl.modify s.reqs r f := rfl
@[simp] theorem modReq_batches (r : Nat) (f : Req → Req) : (s.modReq r f).batches = s.batches := rfl
@[simp] theorem modReq_later (r : Nat) (f : Req → Req) : (s.modReq r f).later = s.later := rfl
@[simp] theorem modReq_toLog (r : Nat) (f : Req → Req) : (s.modReq r f).toLog = s.toLog := rfl
@[simp] theorem modReq_hostMem (r : Nat) (f : Req → Req) : (s.modReq r f).hostMem = s.hostMem := rfl
@[simp] theorem modReq_hostAbsent (r : Nat) (f : Req → Req) : (s.modReq r f).hostAbsent = s.hostAbsent := rfl
@[simp] theorem modReq_priWait (r : Nat) (f : Req → Req) : (s.modReq r f).priWait = s.priWait := rfl
@[simp] theorem modReq_ats (r : Nat) (f : Req → Req) : (s.modReq r f).ats = s.ats := rfl
@[simp] theorem modReq_peers (r : Nat) (f : Req → Req) : (s.modReq r f).peers = s.peers := rfl
@[simp] theorem modReq_linksDown (r : Nat) (f : Req → Req) : (s.modReq r f).linksDown = s.linksDown := rfl
@[simp] theorem modReq_parts (r : Nat) (f : Req → Req) : (s.modReq r f).parts = s.parts := rfl
@[simp] theorem modReq_arm (r : Nat) (f : Req → Req) : (s.modReq r f).arm = s.arm := rfl
@[simp] theorem modReq_chans (r : Nat) (f : Req → Req) : (s.modReq r f).chans = s.chans := rfl
@[simp] theorem modReq_recasters (r : Nat) (f : Req → Req) : (s.modReq r f).recasters = s.recasters := rfl
@[simp] theorem modReq_sqs (r : Nat) (f : Req → Req) : (s.modReq r f).sqs = s.sqs := rfl
@[simp] theorem modReq_fw (r : Nat) (f : Req → Req) : (s.modReq r f).fw = s.fw := rfl
@[simp] theorem modReq_spdm (r : Nat) (f : Req → Req) : (s.modReq r f).spdm = s.spdm := rfl
@[simp] theorem modReq_vfs (r : Nat) (f : Req → Req) : (s.modReq r f).vfs = s.vfs := rfl
@[simp] theorem modReq_oplog (r : Nat) (f : Req → Req) : (s.modReq r f).oplog = s.oplog := rfl
@[simp] theorem modReq_opWait (r : Nat) (f : Req → Req) : (s.modReq r f).opWait = s.opWait := rfl
@[simp] theorem modReq_seqs (r : Nat) (f : Req → Req) : (s.modReq r f).seqs = s.seqs := rfl
@[simp] theorem modReq_lclk (r : Nat) (f : Req → Req) : (s.modReq r f).lclk = s.lclk := rfl
@[simp] theorem modReq_signals (r : Nat) (f : Req → Req) : (s.modReq r f).signals = s.signals := rfl
@[simp] theorem modReq_sent (r : Nat) (f : Req → Req) : (s.modReq r f).sent = s.sent := rfl
@[simp] theorem modReq_cur (r : Nat) (f : Req → Req) : (s.modReq r f).cur = s.cur := rfl
@[simp] theorem modReq_todo (r : Nat) (f : Req → Req) : (s.modReq r f).todo = s.todo := rfl
@[simp] theorem modReq_fresh (r : Nat) (f : Req → Req) : (s.modReq r f).fresh = s.fresh := rfl
@[simp] theorem modReq_inbox (r : Nat) (f : Req → Req) : (s.modReq r f).inbox = s.inbox := rfl
@[simp] theorem modReq_heldIn (r : Nat) (f : Req → Req) : (s.modReq r f).heldIn = s.heldIn := rfl
@[simp] theorem modReq_nextId (r : Nat) (f : Req → Req) : (s.modReq r f).nextId = s.nextId := rfl
@[simp] theorem modReq_lateSeq (r : Nat) (f : Req → Req) : (s.modReq r f).lateSeq = s.lateSeq := rfl
@[simp] theorem modReq_freeCtr (r : Nat) (f : Req → Req) : (s.modReq r f).freeCtr = s.freeCtr := rfl

@[simp] theorem modBatch_time (b : Nat) (f : Batch → Batch) : (s.modBatch b f).time = s.time := rfl
@[simp] theorem modBatch_dies (b : Nat) (f : Batch → Batch) : (s.modBatch b f).dies = s.dies := rfl
@[simp] theorem modBatch_orderM (b : Nat) (f : Batch → Batch) : (s.modBatch b f).orderM = s.orderM := rfl
@[simp] theorem modBatch_moduleW (b : Nat) (f : Batch → Batch) : (s.modBatch b f).moduleW = s.moduleW := rfl
@[simp] theorem modBatch_overFrom (b : Nat) (f : Batch → Batch) : (s.modBatch b f).overFrom = s.overFrom := rfl
@[simp] theorem modBatch_fabricDown (b : Nat) (f : Batch → Batch) : (s.modBatch b f).fabricDown = s.fabricDown := rfl
@[simp] theorem modBatch_waves (b : Nat) (f : Batch → Batch) : (s.modBatch b f).waves = s.waves := rfl
@[simp] theorem modBatch_blocks (b : Nat) (f : Batch → Batch) : (s.modBatch b f).blocks = s.blocks := rfl
@[simp] theorem modBatch_groups (b : Nat) (f : Batch → Batch) : (s.modBatch b f).groups = s.groups := rfl
@[simp] theorem modBatch_launches (b : Nat) (f : Batch → Batch) : (s.modBatch b f).launches = s.launches := rfl
@[simp] theorem modBatch_cores (b : Nat) (f : Batch → Batch) : (s.modBatch b f).cores = s.cores := rfl
@[simp] theorem modBatch_tlb2 (b : Nat) (f : Batch → Batch) : (s.modBatch b f).tlb2 = s.tlb2 := rfl
@[simp] theorem modBatch_mem (b : Nat) (f : Batch → Batch) : (s.modBatch b f).mem = s.mem := rfl
@[simp] theorem modBatch_l2 (b : Nat) (f : Batch → Batch) : (s.modBatch b f).l2 = s.l2 := rfl
@[simp] theorem modBatch_badLines (b : Nat) (f : Batch → Batch) : (s.modBatch b f).badLines = s.badLines := rfl
@[simp] theorem modBatch_hbm (b : Nat) (f : Batch → Batch) : (s.modBatch b f).hbm = s.hbm := rfl
@[simp] theorem modBatch_hbmErr (b : Nat) (f : Batch → Batch) : (s.modBatch b f).hbmErr = s.hbmErr := rfl
@[simp] theorem modBatch_deltas (b : Nat) (f : Batch → Batch) : (s.modBatch b f).deltas = s.deltas := rfl
@[simp] theorem modBatch_reqs (b : Nat) (f : Batch → Batch) : (s.modBatch b f).reqs = s.reqs := rfl
@[simp] theorem modBatch_batches (b : Nat) (f : Batch → Batch) : (s.modBatch b f).batches = Tbl.modify s.batches b f := rfl
@[simp] theorem modBatch_later (b : Nat) (f : Batch → Batch) : (s.modBatch b f).later = s.later := rfl
@[simp] theorem modBatch_toLog (b : Nat) (f : Batch → Batch) : (s.modBatch b f).toLog = s.toLog := rfl
@[simp] theorem modBatch_hostMem (b : Nat) (f : Batch → Batch) : (s.modBatch b f).hostMem = s.hostMem := rfl
@[simp] theorem modBatch_hostAbsent (b : Nat) (f : Batch → Batch) : (s.modBatch b f).hostAbsent = s.hostAbsent := rfl
@[simp] theorem modBatch_priWait (b : Nat) (f : Batch → Batch) : (s.modBatch b f).priWait = s.priWait := rfl
@[simp] theorem modBatch_ats (b : Nat) (f : Batch → Batch) : (s.modBatch b f).ats = s.ats := rfl
@[simp] theorem modBatch_peers (b : Nat) (f : Batch → Batch) : (s.modBatch b f).peers = s.peers := rfl
@[simp] theorem modBatch_linksDown (b : Nat) (f : Batch → Batch) : (s.modBatch b f).linksDown = s.linksDown := rfl
@[simp] theorem modBatch_parts (b : Nat) (f : Batch → Batch) : (s.modBatch b f).parts = s.parts := rfl
@[simp] theorem modBatch_arm (b : Nat) (f : Batch → Batch) : (s.modBatch b f).arm = s.arm := rfl
@[simp] theorem modBatch_chans (b : Nat) (f : Batch → Batch) : (s.modBatch b f).chans = s.chans := rfl
@[simp] theorem modBatch_recasters (b : Nat) (f : Batch → Batch) : (s.modBatch b f).recasters = s.recasters := rfl
@[simp] theorem modBatch_sqs (b : Nat) (f : Batch → Batch) : (s.modBatch b f).sqs = s.sqs := rfl
@[simp] theorem modBatch_fw (b : Nat) (f : Batch → Batch) : (s.modBatch b f).fw = s.fw := rfl
@[simp] theorem modBatch_spdm (b : Nat) (f : Batch → Batch) : (s.modBatch b f).spdm = s.spdm := rfl
@[simp] theorem modBatch_vfs (b : Nat) (f : Batch → Batch) : (s.modBatch b f).vfs = s.vfs := rfl
@[simp] theorem modBatch_oplog (b : Nat) (f : Batch → Batch) : (s.modBatch b f).oplog = s.oplog := rfl
@[simp] theorem modBatch_opWait (b : Nat) (f : Batch → Batch) : (s.modBatch b f).opWait = s.opWait := rfl
@[simp] theorem modBatch_seqs (b : Nat) (f : Batch → Batch) : (s.modBatch b f).seqs = s.seqs := rfl
@[simp] theorem modBatch_lclk (b : Nat) (f : Batch → Batch) : (s.modBatch b f).lclk = s.lclk := rfl
@[simp] theorem modBatch_signals (b : Nat) (f : Batch → Batch) : (s.modBatch b f).signals = s.signals := rfl
@[simp] theorem modBatch_sent (b : Nat) (f : Batch → Batch) : (s.modBatch b f).sent = s.sent := rfl
@[simp] theorem modBatch_cur (b : Nat) (f : Batch → Batch) : (s.modBatch b f).cur = s.cur := rfl
@[simp] theorem modBatch_todo (b : Nat) (f : Batch → Batch) : (s.modBatch b f).todo = s.todo := rfl
@[simp] theorem modBatch_fresh (b : Nat) (f : Batch → Batch) : (s.modBatch b f).fresh = s.fresh := rfl
@[simp] theorem modBatch_inbox (b : Nat) (f : Batch → Batch) : (s.modBatch b f).inbox = s.inbox := rfl
@[simp] theorem modBatch_heldIn (b : Nat) (f : Batch → Batch) : (s.modBatch b f).heldIn = s.heldIn := rfl
@[simp] theorem modBatch_nextId (b : Nat) (f : Batch → Batch) : (s.modBatch b f).nextId = s.nextId := rfl
@[simp] theorem modBatch_lateSeq (b : Nat) (f : Batch → Batch) : (s.modBatch b f).lateSeq = s.lateSeq := rfl
@[simp] theorem modBatch_freeCtr (b : Nat) (f : Batch → Batch) : (s.modBatch b f).freeCtr = s.freeCtr := rfl

@[simp] theorem modPend_time (k op : Nat) (f : Pend → Pend) : (s.modPend k op f).time = s.time := rfl
@[simp] theorem modPend_dies (k op : Nat) (f : Pend → Pend) : (s.modPend k op f).dies = s.dies := rfl
@[simp] theorem modPend_orderM (k op : Nat) (f : Pend → Pend) : (s.modPend k op f).orderM = s.orderM := rfl
@[simp] theorem modPend_moduleW (k op : Nat) (f : Pend → Pend) : (s.modPend k op f).moduleW = s.moduleW := rfl
@[simp] theorem modPend_overFrom (k op : Nat) (f : Pend → Pend) : (s.modPend k op f).overFrom = s.overFrom := rfl
@[simp] theorem modPend_fabricDown (k op : Nat) (f : Pend → Pend) : (s.modPend k op f).fabricDown = s.fabricDown := rfl
@[simp] theorem modPend_blocks (k op : Nat) (f : Pend → Pend) : (s.modPend k op f).blocks = s.blocks := rfl
@[simp] theorem modPend_groups (k op : Nat) (f : Pend → Pend) : (s.modPend k op f).groups = s.groups := rfl
@[simp] theorem modPend_launches (k op : Nat) (f : Pend → Pend) : (s.modPend k op f).launches = s.launches := rfl
@[simp] theorem modPend_cores (k op : Nat) (f : Pend → Pend) : (s.modPend k op f).cores = s.cores := rfl
@[simp] theorem modPend_tlb2 (k op : Nat) (f : Pend → Pend) : (s.modPend k op f).tlb2 = s.tlb2 := rfl
@[simp] theorem modPend_mem (k op : Nat) (f : Pend → Pend) : (s.modPend k op f).mem = s.mem := rfl
@[simp] theorem modPend_l2 (k op : Nat) (f : Pend → Pend) : (s.modPend k op f).l2 = s.l2 := rfl
@[simp] theorem modPend_badLines (k op : Nat) (f : Pend → Pend) : (s.modPend k op f).badLines = s.badLines := rfl
@[simp] theorem modPend_hbm (k op : Nat) (f : Pend → Pend) : (s.modPend k op f).hbm = s.hbm := rfl
@[simp] theorem modPend_hbmErr (k op : Nat) (f : Pend → Pend) : (s.modPend k op f).hbmErr = s.hbmErr := rfl
@[simp] theorem modPend_deltas (k op : Nat) (f : Pend → Pend) : (s.modPend k op f).deltas = s.deltas := rfl
@[simp] theorem modPend_reqs (k op : Nat) (f : Pend → Pend) : (s.modPend k op f).reqs = s.reqs := rfl
@[simp] theorem modPend_batches (k op : Nat) (f : Pend → Pend) : (s.modPend k op f).batches = s.batches := rfl
@[simp] theorem modPend_later (k op : Nat) (f : Pend → Pend) : (s.modPend k op f).later = s.later := rfl
@[simp] theorem modPend_toLog (k op : Nat) (f : Pend → Pend) : (s.modPend k op f).toLog = s.toLog := rfl
@[simp] theorem modPend_hostMem (k op : Nat) (f : Pend → Pend) : (s.modPend k op f).hostMem = s.hostMem := rfl
@[simp] theorem modPend_hostAbsent (k op : Nat) (f : Pend → Pend) : (s.modPend k op f).hostAbsent = s.hostAbsent := rfl
@[simp] theorem modPend_priWait (k op : Nat) (f : Pend → Pend) : (s.modPend k op f).priWait = s.priWait := rfl
@[simp] theorem modPend_ats (k op : Nat) (f : Pend → Pend) : (s.modPend k op f).ats = s.ats := rfl
@[simp] theorem modPend_peers (k op : Nat) (f : Pend → Pend) : (s.modPend k op f).peers = s.peers := rfl
@[simp] theorem modPend_linksDown (k op : Nat) (f : Pend → Pend) : (s.modPend k op f).linksDown = s.linksDown := rfl
@[simp] theorem modPend_parts (k op : Nat) (f : Pend → Pend) : (s.modPend k op f).parts = s.parts := rfl
@[simp] theorem modPend_arm (k op : Nat) (f : Pend → Pend) : (s.modPend k op f).arm = s.arm := rfl
@[simp] theorem modPend_chans (k op : Nat) (f : Pend → Pend) : (s.modPend k op f).chans = s.chans := rfl
@[simp] theorem modPend_recasters (k op : Nat) (f : Pend → Pend) : (s.modPend k op f).recasters = s.recasters := rfl
@[simp] theorem modPend_sqs (k op : Nat) (f : Pend → Pend) : (s.modPend k op f).sqs = s.sqs := rfl
@[simp] theorem modPend_fw (k op : Nat) (f : Pend → Pend) : (s.modPend k op f).fw = s.fw := rfl
@[simp] theorem modPend_spdm (k op : Nat) (f : Pend → Pend) : (s.modPend k op f).spdm = s.spdm := rfl
@[simp] theorem modPend_vfs (k op : Nat) (f : Pend → Pend) : (s.modPend k op f).vfs = s.vfs := rfl
@[simp] theorem modPend_oplog (k op : Nat) (f : Pend → Pend) : (s.modPend k op f).oplog = s.oplog := rfl
@[simp] theorem modPend_opWait (k op : Nat) (f : Pend → Pend) : (s.modPend k op f).opWait = s.opWait := rfl
@[simp] theorem modPend_seqs (k op : Nat) (f : Pend → Pend) : (s.modPend k op f).seqs = s.seqs := rfl
@[simp] theorem modPend_lclk (k op : Nat) (f : Pend → Pend) : (s.modPend k op f).lclk = s.lclk := rfl
@[simp] theorem modPend_signals (k op : Nat) (f : Pend → Pend) : (s.modPend k op f).signals = s.signals := rfl
@[simp] theorem modPend_sent (k op : Nat) (f : Pend → Pend) : (s.modPend k op f).sent = s.sent := rfl
@[simp] theorem modPend_cur (k op : Nat) (f : Pend → Pend) : (s.modPend k op f).cur = s.cur := rfl
@[simp] theorem modPend_todo (k op : Nat) (f : Pend → Pend) : (s.modPend k op f).todo = s.todo := rfl
@[simp] theorem modPend_fresh (k op : Nat) (f : Pend → Pend) : (s.modPend k op f).fresh = s.fresh := rfl
@[simp] theorem modPend_inbox (k op : Nat) (f : Pend → Pend) : (s.modPend k op f).inbox = s.inbox := rfl
@[simp] theorem modPend_heldIn (k op : Nat) (f : Pend → Pend) : (s.modPend k op f).heldIn = s.heldIn := rfl
@[simp] theorem modPend_nextId (k op : Nat) (f : Pend → Pend) : (s.modPend k op f).nextId = s.nextId := rfl
@[simp] theorem modPend_lateSeq (k op : Nat) (f : Pend → Pend) : (s.modPend k op f).lateSeq = s.lateSeq := rfl
@[simp] theorem modPend_freeCtr (k op : Nat) (f : Pend → Pend) : (s.modPend k op f).freeCtr = s.freeCtr := rfl

@[simp] theorem addReq_time (r : Req) : (s.addReq r).time = s.time := rfl
@[simp] theorem addReq_dies (r : Req) : (s.addReq r).dies = s.dies := rfl
@[simp] theorem addReq_orderM (r : Req) : (s.addReq r).orderM = s.orderM := rfl
@[simp] theorem addReq_moduleW (r : Req) : (s.addReq r).moduleW = s.moduleW := rfl
@[simp] theorem addReq_overFrom (r : Req) : (s.addReq r).overFrom = s.overFrom := rfl
@[simp] theorem addReq_fabricDown (r : Req) : (s.addReq r).fabricDown = s.fabricDown := rfl
@[simp] theorem addReq_waves (r : Req) : (s.addReq r).waves = s.waves := rfl
@[simp] theorem addReq_blocks (r : Req) : (s.addReq r).blocks = s.blocks := rfl
@[simp] theorem addReq_groups (r : Req) : (s.addReq r).groups = s.groups := rfl
@[simp] theorem addReq_launches (r : Req) : (s.addReq r).launches = s.launches := rfl
@[simp] theorem addReq_cores (r : Req) : (s.addReq r).cores = s.cores := rfl
@[simp] theorem addReq_tlb2 (r : Req) : (s.addReq r).tlb2 = s.tlb2 := rfl
@[simp] theorem addReq_mem (r : Req) : (s.addReq r).mem = s.mem := rfl
@[simp] theorem addReq_l2 (r : Req) : (s.addReq r).l2 = s.l2 := rfl
@[simp] theorem addReq_badLines (r : Req) : (s.addReq r).badLines = s.badLines := rfl
@[simp] theorem addReq_hbm (r : Req) : (s.addReq r).hbm = s.hbm := rfl
@[simp] theorem addReq_hbmErr (r : Req) : (s.addReq r).hbmErr = s.hbmErr := rfl
@[simp] theorem addReq_deltas (r : Req) : (s.addReq r).deltas = s.deltas := rfl
@[simp] theorem addReq_reqs (r : Req) : (s.addReq r).reqs = Tbl.set s.reqs s.nextId r := rfl
@[simp] theorem addReq_batches (r : Req) : (s.addReq r).batches = s.batches := rfl
@[simp] theorem addReq_later (r : Req) : (s.addReq r).later = s.later := rfl
@[simp] theorem addReq_toLog (r : Req) : (s.addReq r).toLog = s.toLog := rfl
@[simp] theorem addReq_hostMem (r : Req) : (s.addReq r).hostMem = s.hostMem := rfl
@[simp] theorem addReq_hostAbsent (r : Req) : (s.addReq r).hostAbsent = s.hostAbsent := rfl
@[simp] theorem addReq_priWait (r : Req) : (s.addReq r).priWait = s.priWait := rfl
@[simp] theorem addReq_ats (r : Req) : (s.addReq r).ats = s.ats := rfl
@[simp] theorem addReq_peers (r : Req) : (s.addReq r).peers = s.peers := rfl
@[simp] theorem addReq_linksDown (r : Req) : (s.addReq r).linksDown = s.linksDown := rfl
@[simp] theorem addReq_parts (r : Req) : (s.addReq r).parts = s.parts := rfl
@[simp] theorem addReq_arm (r : Req) : (s.addReq r).arm = s.arm := rfl
@[simp] theorem addReq_chans (r : Req) : (s.addReq r).chans = s.chans := rfl
@[simp] theorem addReq_recasters (r : Req) : (s.addReq r).recasters = s.recasters := rfl
@[simp] theorem addReq_sqs (r : Req) : (s.addReq r).sqs = s.sqs := rfl
@[simp] theorem addReq_fw (r : Req) : (s.addReq r).fw = s.fw := rfl
@[simp] theorem addReq_spdm (r : Req) : (s.addReq r).spdm = s.spdm := rfl
@[simp] theorem addReq_vfs (r : Req) : (s.addReq r).vfs = s.vfs := rfl
@[simp] theorem addReq_oplog (r : Req) : (s.addReq r).oplog = s.oplog := rfl
@[simp] theorem addReq_opWait (r : Req) : (s.addReq r).opWait = s.opWait := rfl
@[simp] theorem addReq_seqs (r : Req) : (s.addReq r).seqs = s.seqs := rfl
@[simp] theorem addReq_lclk (r : Req) : (s.addReq r).lclk = s.lclk := rfl
@[simp] theorem addReq_signals (r : Req) : (s.addReq r).signals = s.signals := rfl
@[simp] theorem addReq_sent (r : Req) : (s.addReq r).sent = s.sent := rfl
@[simp] theorem addReq_cur (r : Req) : (s.addReq r).cur = s.cur := rfl
@[simp] theorem addReq_todo (r : Req) : (s.addReq r).todo = s.todo := rfl
@[simp] theorem addReq_fresh (r : Req) : (s.addReq r).fresh = s.fresh := rfl
@[simp] theorem addReq_inbox (r : Req) : (s.addReq r).inbox = s.inbox := rfl
@[simp] theorem addReq_heldIn (r : Req) : (s.addReq r).heldIn = s.heldIn := rfl
@[simp] theorem addReq_nextId (r : Req) : (s.addReq r).nextId = s.nextId + 1 := rfl
@[simp] theorem addReq_lateSeq (r : Req) : (s.addReq r).lateSeq = s.lateSeq := rfl
@[simp] theorem addReq_freeCtr (r : Req) : (s.addReq r).freeCtr = s.freeCtr := rfl

@[simp] theorem post_time (is : List Instr) : (s.post is).time = s.time := rfl
@[simp] theorem post_dies (is : List Instr) : (s.post is).dies = s.dies := rfl
@[simp] theorem post_orderM (is : List Instr) : (s.post is).orderM = s.orderM := rfl
@[simp] theorem post_moduleW (is : List Instr) : (s.post is).moduleW = s.moduleW := rfl
@[simp] theorem post_overFrom (is : List Instr) : (s.post is).overFrom = s.overFrom := rfl
@[simp] theorem post_fabricDown (is : List Instr) : (s.post is).fabricDown = s.fabricDown := rfl
@[simp] theorem post_waves (is : List Instr) : (s.post is).waves = s.waves := rfl
@[simp] theorem post_blocks (is : List Instr) : (s.post is).blocks = s.blocks := rfl
@[simp] theorem post_groups (is : List Instr) : (s.post is).groups = s.groups := rfl
@[simp] theorem post_launches (is : List Instr) : (s.post is).launches = s.launches := rfl
@[simp] theorem post_cores (is : List Instr) : (s.post is).cores = s.cores := rfl
@[simp] theorem post_tlb2 (is : List Instr) : (s.post is).tlb2 = s.tlb2 := rfl
@[simp] theorem post_mem (is : List Instr) : (s.post is).mem = s.mem := rfl
@[simp] theorem post_l2 (is : List Instr) : (s.post is).l2 = s.l2 := rfl
@[simp] theorem post_badLines (is : List Instr) : (s.post is).badLines = s.badLines := rfl
@[simp] theorem post_hbm (is : List Instr) : (s.post is).hbm = s.hbm := rfl
@[simp] theorem post_hbmErr (is : List Instr) : (s.post is).hbmErr = s.hbmErr := rfl
@[simp] theorem post_deltas (is : List Instr) : (s.post is).deltas = s.deltas := rfl
@[simp] theorem post_reqs (is : List Instr) : (s.post is).reqs = s.reqs := rfl
@[simp] theorem post_batches (is : List Instr) : (s.post is).batches = s.batches := rfl
@[simp] theorem post_later (is : List Instr) : (s.post is).later = s.later := rfl
@[simp] theorem post_toLog (is : List Instr) : (s.post is).toLog = s.toLog := rfl
@[simp] theorem post_hostMem (is : List Instr) : (s.post is).hostMem = s.hostMem := rfl
@[simp] theorem post_hostAbsent (is : List Instr) : (s.post is).hostAbsent = s.hostAbsent := rfl
@[simp] theorem post_priWait (is : List Instr) : (s.post is).priWait = s.priWait := rfl
@[simp] theorem post_ats (is : List Instr) : (s.post is).ats = s.ats := rfl
@[simp] theorem post_peers (is : List Instr) : (s.post is).peers = s.peers := rfl
@[simp] theorem post_linksDown (is : List Instr) : (s.post is).linksDown = s.linksDown := rfl
@[simp] theorem post_parts (is : List Instr) : (s.post is).parts = s.parts := rfl
@[simp] theorem post_arm (is : List Instr) : (s.post is).arm = s.arm := rfl
@[simp] theorem post_chans (is : List Instr) : (s.post is).chans = s.chans := rfl
@[simp] theorem post_recasters (is : List Instr) : (s.post is).recasters = s.recasters := rfl
@[simp] theorem post_sqs (is : List Instr) : (s.post is).sqs = s.sqs := rfl
@[simp] theorem post_fw (is : List Instr) : (s.post is).fw = s.fw := rfl
@[simp] theorem post_spdm (is : List Instr) : (s.post is).spdm = s.spdm := rfl
@[simp] theorem post_vfs (is : List Instr) : (s.post is).vfs = s.vfs := rfl
@[simp] theorem post_oplog (is : List Instr) : (s.post is).oplog = s.oplog := rfl
@[simp] theorem post_opWait (is : List Instr) : (s.post is).opWait = s.opWait := rfl
@[simp] theorem post_seqs (is : List Instr) : (s.post is).seqs = s.seqs := rfl
@[simp] theorem post_lclk (is : List Instr) : (s.post is).lclk = s.lclk := rfl
@[simp] theorem post_signals (is : List Instr) : (s.post is).signals = s.signals := rfl
@[simp] theorem post_sent (is : List Instr) : (s.post is).sent = s.sent := rfl
@[simp] theorem post_cur (is : List Instr) : (s.post is).cur = s.cur := rfl
@[simp] theorem post_todo (is : List Instr) : (s.post is).todo = s.todo := rfl
@[simp] theorem post_fresh (is : List Instr) : (s.post is).fresh = s.fresh := rfl
@[simp] theorem post_inbox (is : List Instr) : (s.post is).inbox = s.inbox ++ is := rfl
@[simp] theorem post_heldIn (is : List Instr) : (s.post is).heldIn = s.heldIn := rfl
@[simp] theorem post_nextId (is : List Instr) : (s.post is).nextId = s.nextId := rfl
@[simp] theorem post_lateSeq (is : List Instr) : (s.post is).lateSeq = s.lateSeq := rfl
@[simp] theorem post_freeCtr (is : List Instr) : (s.post is).freeCtr = s.freeCtr := rfl

@[simp] theorem soon_time (is : List Instr) : (s.soon is).time = s.time := rfl
@[simp] theorem soon_dies (is : List Instr) : (s.soon is).dies = s.dies := rfl
@[simp] theorem soon_orderM (is : List Instr) : (s.soon is).orderM = s.orderM := rfl
@[simp] theorem soon_moduleW (is : List Instr) : (s.soon is).moduleW = s.moduleW := rfl
@[simp] theorem soon_overFrom (is : List Instr) : (s.soon is).overFrom = s.overFrom := rfl
@[simp] theorem soon_fabricDown (is : List Instr) : (s.soon is).fabricDown = s.fabricDown := rfl
@[simp] theorem soon_waves (is : List Instr) : (s.soon is).waves = s.waves := rfl
@[simp] theorem soon_blocks (is : List Instr) : (s.soon is).blocks = s.blocks := rfl
@[simp] theorem soon_groups (is : List Instr) : (s.soon is).groups = s.groups := rfl
@[simp] theorem soon_launches (is : List Instr) : (s.soon is).launches = s.launches := rfl
@[simp] theorem soon_cores (is : List Instr) : (s.soon is).cores = s.cores := rfl
@[simp] theorem soon_tlb2 (is : List Instr) : (s.soon is).tlb2 = s.tlb2 := rfl
@[simp] theorem soon_mem (is : List Instr) : (s.soon is).mem = s.mem := rfl
@[simp] theorem soon_l2 (is : List Instr) : (s.soon is).l2 = s.l2 := rfl
@[simp] theorem soon_badLines (is : List Instr) : (s.soon is).badLines = s.badLines := rfl
@[simp] theorem soon_hbm (is : List Instr) : (s.soon is).hbm = s.hbm := rfl
@[simp] theorem soon_hbmErr (is : List Instr) : (s.soon is).hbmErr = s.hbmErr := rfl
@[simp] theorem soon_deltas (is : List Instr) : (s.soon is).deltas = s.deltas := rfl
@[simp] theorem soon_reqs (is : List Instr) : (s.soon is).reqs = s.reqs := rfl
@[simp] theorem soon_batches (is : List Instr) : (s.soon is).batches = s.batches := rfl
@[simp] theorem soon_later (is : List Instr) : (s.soon is).later = s.later := rfl
@[simp] theorem soon_toLog (is : List Instr) : (s.soon is).toLog = s.toLog := rfl
@[simp] theorem soon_hostMem (is : List Instr) : (s.soon is).hostMem = s.hostMem := rfl
@[simp] theorem soon_hostAbsent (is : List Instr) : (s.soon is).hostAbsent = s.hostAbsent := rfl
@[simp] theorem soon_priWait (is : List Instr) : (s.soon is).priWait = s.priWait := rfl
@[simp] theorem soon_ats (is : List Instr) : (s.soon is).ats = s.ats := rfl
@[simp] theorem soon_peers (is : List Instr) : (s.soon is).peers = s.peers := rfl
@[simp] theorem soon_linksDown (is : List Instr) : (s.soon is).linksDown = s.linksDown := rfl
@[simp] theorem soon_parts (is : List Instr) : (s.soon is).parts = s.parts := rfl
@[simp] theorem soon_arm (is : List Instr) : (s.soon is).arm = s.arm := rfl
@[simp] theorem soon_chans (is : List Instr) : (s.soon is).chans = s.chans := rfl
@[simp] theorem soon_recasters (is : List Instr) : (s.soon is).recasters = s.recasters := rfl
@[simp] theorem soon_sqs (is : List Instr) : (s.soon is).sqs = s.sqs := rfl
@[simp] theorem soon_fw (is : List Instr) : (s.soon is).fw = s.fw := rfl
@[simp] theorem soon_spdm (is : List Instr) : (s.soon is).spdm = s.spdm := rfl
@[simp] theorem soon_vfs (is : List Instr) : (s.soon is).vfs = s.vfs := rfl
@[simp] theorem soon_oplog (is : List Instr) : (s.soon is).oplog = s.oplog := rfl
@[simp] theorem soon_opWait (is : List Instr) : (s.soon is).opWait = s.opWait := rfl
@[simp] theorem soon_seqs (is : List Instr) : (s.soon is).seqs = s.seqs := rfl
@[simp] theorem soon_lclk (is : List Instr) : (s.soon is).lclk = s.lclk := rfl
@[simp] theorem soon_signals (is : List Instr) : (s.soon is).signals = s.signals := rfl
@[simp] theorem soon_sent (is : List Instr) : (s.soon is).sent = s.sent := rfl
@[simp] theorem soon_cur (is : List Instr) : (s.soon is).cur = s.cur := rfl
@[simp] theorem soon_todo (is : List Instr) : (s.soon is).todo = s.todo := rfl
@[simp] theorem soon_fresh (is : List Instr) : (s.soon is).fresh = s.fresh := rfl
@[simp] theorem soon_inbox (is : List Instr) : (s.soon is).inbox = is ++ s.inbox := rfl
@[simp] theorem soon_heldIn (is : List Instr) : (s.soon is).heldIn = s.heldIn := rfl
@[simp] theorem soon_nextId (is : List Instr) : (s.soon is).nextId = s.nextId := rfl
@[simp] theorem soon_lateSeq (is : List Instr) : (s.soon is).lateSeq = s.lateSeq := rfl
@[simp] theorem soon_freeCtr (is : List Instr) : (s.soon is).freeCtr = s.freeCtr := rfl

@[simp] theorem lcTick_time (u : Nat) : (s.lcTick u).time = s.time := rfl
@[simp] theorem lcTick_dies (u : Nat) : (s.lcTick u).dies = s.dies := rfl
@[simp] theorem lcTick_orderM (u : Nat) : (s.lcTick u).orderM = s.orderM := rfl
@[simp] theorem lcTick_moduleW (u : Nat) : (s.lcTick u).moduleW = s.moduleW := rfl
@[simp] theorem lcTick_overFrom (u : Nat) : (s.lcTick u).overFrom = s.overFrom := rfl
@[simp] theorem lcTick_fabricDown (u : Nat) : (s.lcTick u).fabricDown = s.fabricDown := rfl
@[simp] theorem lcTick_waves (u : Nat) : (s.lcTick u).waves = s.waves := rfl
@[simp] theorem lcTick_blocks (u : Nat) : (s.lcTick u).blocks = s.blocks := rfl
@[simp] theorem lcTick_groups (u : Nat) : (s.lcTick u).groups = s.groups := rfl
@[simp] theorem lcTick_launches (u : Nat) : (s.lcTick u).launches = s.launches := rfl
@[simp] theorem lcTick_cores (u : Nat) : (s.lcTick u).cores = s.cores := rfl
@[simp] theorem lcTick_tlb2 (u : Nat) : (s.lcTick u).tlb2 = s.tlb2 := rfl
@[simp] theorem lcTick_mem (u : Nat) : (s.lcTick u).mem = s.mem := rfl
@[simp] theorem lcTick_l2 (u : Nat) : (s.lcTick u).l2 = s.l2 := rfl
@[simp] theorem lcTick_badLines (u : Nat) : (s.lcTick u).badLines = s.badLines := rfl
@[simp] theorem lcTick_hbm (u : Nat) : (s.lcTick u).hbm = s.hbm := rfl
@[simp] theorem lcTick_hbmErr (u : Nat) : (s.lcTick u).hbmErr = s.hbmErr := rfl
@[simp] theorem lcTick_deltas (u : Nat) : (s.lcTick u).deltas = s.deltas := rfl
@[simp] theorem lcTick_reqs (u : Nat) : (s.lcTick u).reqs = s.reqs := rfl
@[simp] theorem lcTick_batches (u : Nat) : (s.lcTick u).batches = s.batches := rfl
@[simp] theorem lcTick_later (u : Nat) : (s.lcTick u).later = s.later := rfl
@[simp] theorem lcTick_toLog (u : Nat) : (s.lcTick u).toLog = s.toLog := rfl
@[simp] theorem lcTick_hostMem (u : Nat) : (s.lcTick u).hostMem = s.hostMem := rfl
@[simp] theorem lcTick_hostAbsent (u : Nat) : (s.lcTick u).hostAbsent = s.hostAbsent := rfl
@[simp] theorem lcTick_priWait (u : Nat) : (s.lcTick u).priWait = s.priWait := rfl
@[simp] theorem lcTick_ats (u : Nat) : (s.lcTick u).ats = s.ats := rfl
@[simp] theorem lcTick_peers (u : Nat) : (s.lcTick u).peers = s.peers := rfl
@[simp] theorem lcTick_linksDown (u : Nat) : (s.lcTick u).linksDown = s.linksDown := rfl
@[simp] theorem lcTick_parts (u : Nat) : (s.lcTick u).parts = s.parts := rfl
@[simp] theorem lcTick_arm (u : Nat) : (s.lcTick u).arm = s.arm := rfl
@[simp] theorem lcTick_chans (u : Nat) : (s.lcTick u).chans = s.chans := rfl
@[simp] theorem lcTick_recasters (u : Nat) : (s.lcTick u).recasters = s.recasters := rfl
@[simp] theorem lcTick_sqs (u : Nat) : (s.lcTick u).sqs = s.sqs := rfl
@[simp] theorem lcTick_fw (u : Nat) : (s.lcTick u).fw = s.fw := rfl
@[simp] theorem lcTick_spdm (u : Nat) : (s.lcTick u).spdm = s.spdm := rfl
@[simp] theorem lcTick_vfs (u : Nat) : (s.lcTick u).vfs = s.vfs := rfl
@[simp] theorem lcTick_oplog (u : Nat) : (s.lcTick u).oplog = s.oplog := rfl
@[simp] theorem lcTick_opWait (u : Nat) : (s.lcTick u).opWait = s.opWait := rfl
@[simp] theorem lcTick_seqs (u : Nat) : (s.lcTick u).seqs = s.seqs := rfl
@[simp] theorem lcTick_lclk (u : Nat) : (s.lcTick u).lclk = Words.put s.lclk u (s.lc u + 1) := rfl
@[simp] theorem lcTick_signals (u : Nat) : (s.lcTick u).signals = s.signals := rfl
@[simp] theorem lcTick_sent (u : Nat) : (s.lcTick u).sent = s.sent := rfl
@[simp] theorem lcTick_cur (u : Nat) : (s.lcTick u).cur = s.cur := rfl
@[simp] theorem lcTick_todo (u : Nat) : (s.lcTick u).todo = s.todo := rfl
@[simp] theorem lcTick_fresh (u : Nat) : (s.lcTick u).fresh = s.fresh := rfl
@[simp] theorem lcTick_inbox (u : Nat) : (s.lcTick u).inbox = s.inbox := rfl
@[simp] theorem lcTick_heldIn (u : Nat) : (s.lcTick u).heldIn = s.heldIn := rfl
@[simp] theorem lcTick_nextId (u : Nat) : (s.lcTick u).nextId = s.nextId := rfl
@[simp] theorem lcTick_lateSeq (u : Nat) : (s.lcTick u).lateSeq = s.lateSeq := rfl
@[simp] theorem lcTick_freeCtr (u : Nat) : (s.lcTick u).freeCtr = s.freeCtr := rfl

@[simp] theorem lcRecv_time (u : Nat) (x : BitVec 48) : (s.lcRecv u x).time = s.time := rfl
@[simp] theorem lcRecv_dies (u : Nat) (x : BitVec 48) : (s.lcRecv u x).dies = s.dies := rfl
@[simp] theorem lcRecv_orderM (u : Nat) (x : BitVec 48) : (s.lcRecv u x).orderM = s.orderM := rfl
@[simp] theorem lcRecv_moduleW (u : Nat) (x : BitVec 48) : (s.lcRecv u x).moduleW = s.moduleW := rfl
@[simp] theorem lcRecv_overFrom (u : Nat) (x : BitVec 48) : (s.lcRecv u x).overFrom = s.overFrom := rfl
@[simp] theorem lcRecv_fabricDown (u : Nat) (x : BitVec 48) : (s.lcRecv u x).fabricDown = s.fabricDown := rfl
@[simp] theorem lcRecv_waves (u : Nat) (x : BitVec 48) : (s.lcRecv u x).waves = s.waves := rfl
@[simp] theorem lcRecv_blocks (u : Nat) (x : BitVec 48) : (s.lcRecv u x).blocks = s.blocks := rfl
@[simp] theorem lcRecv_groups (u : Nat) (x : BitVec 48) : (s.lcRecv u x).groups = s.groups := rfl
@[simp] theorem lcRecv_launches (u : Nat) (x : BitVec 48) : (s.lcRecv u x).launches = s.launches := rfl
@[simp] theorem lcRecv_cores (u : Nat) (x : BitVec 48) : (s.lcRecv u x).cores = s.cores := rfl
@[simp] theorem lcRecv_tlb2 (u : Nat) (x : BitVec 48) : (s.lcRecv u x).tlb2 = s.tlb2 := rfl
@[simp] theorem lcRecv_mem (u : Nat) (x : BitVec 48) : (s.lcRecv u x).mem = s.mem := rfl
@[simp] theorem lcRecv_l2 (u : Nat) (x : BitVec 48) : (s.lcRecv u x).l2 = s.l2 := rfl
@[simp] theorem lcRecv_badLines (u : Nat) (x : BitVec 48) : (s.lcRecv u x).badLines = s.badLines := rfl
@[simp] theorem lcRecv_hbm (u : Nat) (x : BitVec 48) : (s.lcRecv u x).hbm = s.hbm := rfl
@[simp] theorem lcRecv_hbmErr (u : Nat) (x : BitVec 48) : (s.lcRecv u x).hbmErr = s.hbmErr := rfl
@[simp] theorem lcRecv_deltas (u : Nat) (x : BitVec 48) : (s.lcRecv u x).deltas = s.deltas := rfl
@[simp] theorem lcRecv_reqs (u : Nat) (x : BitVec 48) : (s.lcRecv u x).reqs = s.reqs := rfl
@[simp] theorem lcRecv_batches (u : Nat) (x : BitVec 48) : (s.lcRecv u x).batches = s.batches := rfl
@[simp] theorem lcRecv_later (u : Nat) (x : BitVec 48) : (s.lcRecv u x).later = s.later := rfl
@[simp] theorem lcRecv_toLog (u : Nat) (x : BitVec 48) : (s.lcRecv u x).toLog = s.toLog := rfl
@[simp] theorem lcRecv_hostMem (u : Nat) (x : BitVec 48) : (s.lcRecv u x).hostMem = s.hostMem := rfl
@[simp] theorem lcRecv_hostAbsent (u : Nat) (x : BitVec 48) : (s.lcRecv u x).hostAbsent = s.hostAbsent := rfl
@[simp] theorem lcRecv_priWait (u : Nat) (x : BitVec 48) : (s.lcRecv u x).priWait = s.priWait := rfl
@[simp] theorem lcRecv_ats (u : Nat) (x : BitVec 48) : (s.lcRecv u x).ats = s.ats := rfl
@[simp] theorem lcRecv_peers (u : Nat) (x : BitVec 48) : (s.lcRecv u x).peers = s.peers := rfl
@[simp] theorem lcRecv_linksDown (u : Nat) (x : BitVec 48) : (s.lcRecv u x).linksDown = s.linksDown := rfl
@[simp] theorem lcRecv_parts (u : Nat) (x : BitVec 48) : (s.lcRecv u x).parts = s.parts := rfl
@[simp] theorem lcRecv_arm (u : Nat) (x : BitVec 48) : (s.lcRecv u x).arm = s.arm := rfl
@[simp] theorem lcRecv_chans (u : Nat) (x : BitVec 48) : (s.lcRecv u x).chans = s.chans := rfl
@[simp] theorem lcRecv_recasters (u : Nat) (x : BitVec 48) : (s.lcRecv u x).recasters = s.recasters := rfl
@[simp] theorem lcRecv_sqs (u : Nat) (x : BitVec 48) : (s.lcRecv u x).sqs = s.sqs := rfl
@[simp] theorem lcRecv_fw (u : Nat) (x : BitVec 48) : (s.lcRecv u x).fw = s.fw := rfl
@[simp] theorem lcRecv_spdm (u : Nat) (x : BitVec 48) : (s.lcRecv u x).spdm = s.spdm := rfl
@[simp] theorem lcRecv_vfs (u : Nat) (x : BitVec 48) : (s.lcRecv u x).vfs = s.vfs := rfl
@[simp] theorem lcRecv_oplog (u : Nat) (x : BitVec 48) : (s.lcRecv u x).oplog = s.oplog := rfl
@[simp] theorem lcRecv_opWait (u : Nat) (x : BitVec 48) : (s.lcRecv u x).opWait = s.opWait := rfl
@[simp] theorem lcRecv_seqs (u : Nat) (x : BitVec 48) : (s.lcRecv u x).seqs = s.seqs := rfl
@[simp] theorem lcRecv_lclk (u : Nat) (x : BitVec 48) : (s.lcRecv u x).lclk = Words.put s.lclk u (lcMax (s.lc u) x + 1) := rfl
@[simp] theorem lcRecv_signals (u : Nat) (x : BitVec 48) : (s.lcRecv u x).signals = s.signals := rfl
@[simp] theorem lcRecv_sent (u : Nat) (x : BitVec 48) : (s.lcRecv u x).sent = s.sent := rfl
@[simp] theorem lcRecv_cur (u : Nat) (x : BitVec 48) : (s.lcRecv u x).cur = s.cur := rfl
@[simp] theorem lcRecv_todo (u : Nat) (x : BitVec 48) : (s.lcRecv u x).todo = s.todo := rfl
@[simp] theorem lcRecv_fresh (u : Nat) (x : BitVec 48) : (s.lcRecv u x).fresh = s.fresh := rfl
@[simp] theorem lcRecv_inbox (u : Nat) (x : BitVec 48) : (s.lcRecv u x).inbox = s.inbox := rfl
@[simp] theorem lcRecv_heldIn (u : Nat) (x : BitVec 48) : (s.lcRecv u x).heldIn = s.heldIn := rfl
@[simp] theorem lcRecv_nextId (u : Nat) (x : BitVec 48) : (s.lcRecv u x).nextId = s.nextId := rfl
@[simp] theorem lcRecv_lateSeq (u : Nat) (x : BitVec 48) : (s.lcRecv u x).lateSeq = s.lateSeq := rfl
@[simp] theorem lcRecv_freeCtr (u : Nat) (x : BitVec 48) : (s.lcRecv u x).freeCtr = s.freeCtr := rfl

end Sys2Proof.Machine.State
end

