-- ==== Sys2Proof/Laws/Tbl.lean ====
section
/-! SUPPORT. Laws of the sparse tables and of byte memories: a read after a write, and the canonical form that every write keeps. -/

namespace Sys2Proof.Tbl

variable {α β : Type}

@[simp] theorem get?_nil (k : Nat) : get? ([] : Tbl α) k = none := rfl

@[simp] theorem get?_set_same (t : Tbl α) (k : Nat) (x : α) : get? (set t k x) k = some x := by
  induction t with
  | nil => simp [set, get?]
  | cons e t ih =>
    obtain ⟨j, y⟩ := e
    simp only [set]
    split
    · simp [get?]
    · split
      · simp [get?]
      · rename_i h; simp [get?, h, ih]

theorem get?_set_other (t : Tbl α) {j k : Nat} (h : j ≠ k) (x : α) : get? (set t k x) j = get? t j := by
  induction t with
  | nil => simp [set, get?, Ne.symm h]
  | cons e t ih =>
    obtain ⟨i, y⟩ := e
    simp only [set]
    split
    · simp [get?, Ne.symm h]
    · split
      · rename_i hi; subst hi; simp [get?, Ne.symm h]
      · simp [get?, ih]

theorem get?_set (t : Tbl α) (j k : Nat) (x : α) : get? (set t k x) j = if j = k then some x else get? t j := by
  split
  · rename_i h; subst h; simp
  · rename_i h; exact get?_set_other t h x

@[simp] theorem getD_set_same (t : Tbl α) (k : Nat) (x d : α) : getD (set t k x) k d = x := by simp [getD]

theorem getD_set_other (t : Tbl α) {j k : Nat} (h : j ≠ k) (x d : α) : getD (set t k x) j d = getD t j d := by
  simp [getD, get?_set_other t h]

theorem get?_modify (t : Tbl α) (j k : Nat) (f : α → α) :
    get? (modify t k f) j = if j = k then (get? t j).map f else get? t j := by
  induction t with
  | nil => simp [modify]
  | cons e t ih =>
    obtain ⟨i, y⟩ := e
    simp only [modify, List.map_cons] at ih ⊢
    by_cases hi : i = k
    · subst hi
      by_cases hj : i = j
      · subst hj; simp [get?]
      · simp [get?, hj, Ne.symm hj] at ih ⊢; exact ih
    · by_cases hj : i = j
      · subst hj; simp [get?, hi]
      · simp [get?, hi, hj]; exact ih

@[simp] theorem get?_modify_same (t : Tbl α) (k : Nat) (f : α → α) : get? (modify t k f) k = (get? t k).map f := by
  simp [get?_modify]

theorem get?_modify_other (t : Tbl α) {j k : Nat} (h : j ≠ k) (f : α → α) : get? (modify t k f) j = get? t j := by
  simp [get?_modify, h]

theorem get?_erase (t : Tbl α) (j k : Nat) : get? (erase t k) j = if j = k then none else get? t j := by
  induction t with
  | nil => simp [erase]
  | cons e t ih =>
    obtain ⟨i, y⟩ := e
    simp only [erase] at ih ⊢
    by_cases hi : i = k
    · subst hi
      by_cases hj : j = i
      · subst hj; simpa [get?] using ih
      · simpa [get?, hj, Ne.symm hj] using ih
    · by_cases hj : i = j
      · subst hj; simp [get?, hi]
      · simpa [get?, hi, hj] using ih

@[simp] theorem modify_set (t : Tbl α) (k : Nat) (x : α) (f : α → α) :
    get? (modify (set t k x) k f) k = some (f x) := by simp

/-- An entry of `set` is the new one or an old one. -/
theorem mem_set {t : Tbl α} {k : Nat} {x : α} {e : Nat × α} (h : e ∈ set t k x) : e = (k, x) ∨ e ∈ t := by
  induction t with
  | nil => simpa [set] using h
  | cons a t ih =>
    obtain ⟨j, y⟩ := a
    simp only [set] at h
    split at h
    · simpa using h
    · split at h
      · rcases List.mem_cons.1 h with h | h
        · exact .inl h
        · exact .inr (List.mem_cons_of_mem _ h)
      · rcases List.mem_cons.1 h with h | h
        · exact .inr (h ▸ List.mem_cons_self ..)
        · rcases ih h with h | h
          · exact .inl h
          · exact .inr (List.mem_cons_of_mem _ h)

theorem sorted_set {t : Tbl α} (h : t.Pairwise (fun a b => a.1 < b.1)) (k : Nat) (x : α) :
    (set t k x).Pairwise (fun a b => a.1 < b.1) := by
  induction t with
  | nil => simp [set]
  | cons a t ih =>
    obtain ⟨j, y⟩ := a
    have h' := List.pairwise_cons.1 h
    simp only [set]
    split
    · rename_i hk
      refine List.pairwise_cons.2 ⟨?_, h⟩
      intro e he
      rcases List.mem_cons.1 he with rfl | he
      · exact hk
      · exact Nat.lt_trans hk (h'.1 e he)
    · split
      · rename_i hk; subst hk; exact List.pairwise_cons.2 ⟨h'.1, h'.2⟩
      · rename_i h1 h2
        refine List.pairwise_cons.2 ⟨?_, ih h'.2⟩
        intro e he
        rcases mem_set he with rfl | he
        · show j < k; omega
        · exact h'.1 e he

theorem sorted_erase {t : Tbl α} (h : t.Pairwise (fun a b => a.1 < b.1)) (k : Nat) :
    (erase t k).Pairwise (fun a b => a.1 < b.1) := h.filter _

end Sys2Proof.Tbl

namespace Sys2Proof.Words

variable {n : Nat}

theorem get_put_same (m : Words n) (k : Nat) (x : BitVec n) : get (put m k x) k = x := by
  unfold get put
  split
  · rename_i h; simp [Tbl.getD, Tbl.get?_erase, h]
  · simp

theorem get_put_other (m : Words n) {j k : Nat} (h : j ≠ k) (x : BitVec n) : get (put m k x) j = get m j := by
  unfold get put
  split
  · simp [Tbl.getD, Tbl.get?_erase, h]
  · exact Tbl.getD_set_other m h x 0

theorem get_put (m : Words n) (j k : Nat) (x : BitVec n) : get (put m k x) j = if j = k then x else get m j := by
  split
  · rename_i h; subst h; exact get_put_same m j x
  · rename_i h; exact get_put_other m h x

theorem wf_put {m : Words n} (h : Wf m) (k : Nat) (x : BitVec n) : Wf (put m k x) := by
  unfold put
  split
  · exact ⟨Tbl.sorted_erase h.1 k, fun e he => h.2 e (List.mem_filter.1 he).1⟩
  · rename_i hx
    refine ⟨Tbl.sorted_set h.1 k x, fun e he => ?_⟩
    rcases Tbl.mem_set he with rfl | he
    · exact hx
    · exact h.2 e he

theorem wf_putAll {m : Words n} (h : Wf m) (k : Nat) (xs : List (BitVec n)) : Wf (putAll m k xs) := by
  induction xs generalizing m k with
  | nil => exact h
  | cons x xs ih => exact ih (wf_put h k x) (k + 1)

theorem get_putAll (m : Words n) (k : Nat) (xs : List (BitVec n)) (j : Nat) :
    get (putAll m k xs) j = if k ≤ j ∧ j < k + xs.length then xs.getD (j - k) 0 else get m j := by
  induction xs generalizing m k with
  | nil => simp [putAll] <;> omega
  | cons x xs ih =>
    simp only [putAll, ih, get_put, List.length_cons]
    by_cases h1 : j = k
    · subst h1; simp <;> omega
    · by_cases h2 : k + 1 ≤ j ∧ j < k + 1 + xs.length
      · rw [if_pos h2, if_pos (by omega), show j - k = (j - (k + 1)) + 1 from by omega]; simp
      · rw [if_neg h2, if_neg h1, if_neg (by omega)]

/-- Two tables in canonical form that read alike are equal. -/
theorem ext_of_wf {m m' : Words n} (h : Wf m) (h' : Wf m') (hg : ∀ k, get m k = get m' k) : m = m' := by
  have get_head : ∀ {t : Words n} {e : Nat × BitVec n} {r : Words n}, t = e :: r → get t e.1 = e.2 := by
    intro t e r ht; subst ht; simp [get, Tbl.getD, Tbl.get?]
  have get_small : ∀ {t : Words n} (k : Nat), (∀ e ∈ t, k < e.1) → get t k = 0 := by
    intro t k
    induction t with
    | nil => intro _; simp [get, Tbl.getD]
    | cons e t ih =>
      intro hk
      have := hk e (by simp)
      have h2 := ih (fun x hx => hk x (by simp [hx]))
      have hne : ¬ e.1 = k := by omega
      simpa [get, Tbl.getD, Tbl.get?, hne] using h2
  induction m generalizing m' with
  | nil =>
    cases m' with
    | nil => rfl
    | cons e r =>
      have := hg e.1
      rw [get_head (t := e :: r) rfl] at this
      exact absurd this.symm (h'.2 e (by simp))
  | cons e r ih =>
    cases m' with
    | nil =>
      have := hg e.1
      rw [get_head (t := e :: r) rfl] at this
      exact absurd this (h.2 e (by simp))
    | cons e' r' =>
      have p := List.pairwise_cons.1 h.1
      have p' := List.pairwise_cons.1 h'.1
      have heq : e.1 = e'.1 := by
        rcases Nat.lt_trichotomy e.1 e'.1 with hlt | heq | hlt
        · have h1 := hg e.1
          rw [get_head (t := e :: r) rfl, get_small (t := e' :: r') e.1 (by
            intro x hx; rcases List.mem_cons.1 hx with rfl | hx
            · exact hlt
            · exact Nat.lt_trans hlt (p'.1 x hx))] at h1
          exact absurd h1 (h.2 e (by simp))
        · exact heq
        · have h1 := hg e'.1
          rw [get_head (t := e' :: r') rfl, get_small (t := e :: r) e'.1 (by
            intro x hx; rcases List.mem_cons.1 hx with rfl | hx
            · exact hlt
            · exact Nat.lt_trans hlt (p.1 x hx))] at h1
          exact absurd h1.symm (h'.2 e' (by simp))
      have hv : e.2 = e'.2 := by
        have h1 := hg e.1
        rw [get_head (t := e :: r) rfl] at h1
        rw [h1, heq, get_head (t := e' :: r') rfl]
      have he : e = e' := Prod.ext heq hv
      subst he
      congr 1
      apply ih ⟨p.2, fun x hx => h.2 x (by simp [hx])⟩ ⟨p'.2, fun x hx => h'.2 x (by simp [hx])⟩
      intro k
      have hk := hg k
      by_cases hek : e.1 = k
      · subst hek
        rw [get_small e.1 p.1, get_small e.1 p'.1]
      · simpa [get, Tbl.getD, Tbl.get?, hek] using hk

end Sys2Proof.Words

namespace Sys2Proof.Memory

theorem read_write_same (m : Memory) (a : Nat) (b : Byte) : read (write m a b) a = b := Words.get_put_same m a b

theorem read_write_other (m : Memory) {a c : Nat} (h : c ≠ a) (b : Byte) : read (write m a b) c = read m c :=
  Words.get_put_other m h b

theorem wf_write {m : Memory} (h : wf m) (a : Nat) (b : Byte) : wf (write m a b) := Words.wf_put h a b

theorem wf_writeBytes {m : Memory} (h : wf m) (a : Nat) (bs : List Byte) : wf (writeBytes m a bs) := Words.wf_putAll h a bs

theorem read_writeBytes (m : Memory) (a : Nat) (bs : List Byte) (c : Nat) :
    read (writeBytes m a bs) c = if a ≤ c ∧ c < a + bs.length then bs.getD (c - a) 0 else read m c :=
  Words.get_putAll m a bs c

/-- A write outside the bytes read leaves them alone. -/
theorem read_writeBytes_outside (m : Memory) (a : Nat) (bs : List Byte) (c : Nat) (h : c < a ∨ a + bs.length ≤ c) :
    read (writeBytes m a bs) c = read m c := by
  rw [read_writeBytes, if_neg (by omega)]

end Sys2Proof.Memory
end

