-- ==== Sys2Proof/Laws/Frame.lean ====
section
/-! SUPPORT. What traffic to memory, translation, error logs and trace packets leave alone: the waves, blocks, launches, batches, requests and identifiers. -/

namespace Sys2Proof.Machine

/-- Nothing differs of what memory traffic, translation, logs and packets leave alone. -/
structure Apart (s t : State) : Prop where
  waves : t.waves = s.waves
  dies : t.dies = s.dies
  time : t.time = s.time
  cur : t.cur = s.cur
  nextId : t.nextId = s.nextId
  blocks : t.blocks = s.blocks
  groups : t.groups = s.groups
  launches : t.launches = s.launches
  batches : t.batches = s.batches
  reqs : t.reqs = s.reqs
  arm : t.arm = s.arm

namespace Apart

theorem refl (s : State) : Apart s s := ⟨rfl, rfl, rfl, rfl, rfl, rfl, rfl, rfl, rfl, rfl, rfl⟩

theorem trans {a b c : State} (h : Apart b c) (g : Apart a b) : Apart a c :=
  ⟨h.1.trans g.1, h.2.trans g.2, h.3.trans g.3, h.4.trans g.4, h.5.trans g.5, h.6.trans g.6, h.7.trans g.7, h.8.trans g.8,
   h.9.trans g.9, h.10.trans g.10, h.11.trans g.11⟩

theorem wave {s t : State} (h : Apart s t) (k : Nat) : t.wave k = s.wave k := by simp [State.wave, h.waves]
theorem cyc {s t : State} (h : Apart s t) (c : Nat) : t.cyc c = s.cyc c := by simp [State.cyc, State.die, h.dies]

variable {a s : State}

theorem modCore (h : Apart a s) (c : Nat) (f : Core → Core) : Apart a (s.modCore c f) :=
  ⟨h.1, h.2, h.3, h.4, h.5, h.6, h.7, h.8, h.9, h.10, h.11⟩

theorem modPart (h : Apart a s) (p : Nat) (f : Part → Part) : Apart a (s.modPart p f) :=
  ⟨h.1, h.2, h.3, h.4, h.5, h.6, h.7, h.8, h.9, h.10, h.11⟩

theorem modChan (h : Apart a s) (c : Nat) (f : Chan → Chan) : Apart a (s.modChan c f) :=
  ⟨h.1, h.2, h.3, h.4, h.5, h.6, h.7, h.8, h.9, h.10, h.11⟩

theorem post (h : Apart a s) (is : List Instr) : Apart a (s.post is) :=
  ⟨h.1, h.2, h.3, h.4, h.5, h.6, h.7, h.8, h.9, h.10, h.11⟩

theorem soon (h : Apart a s) (is : List Instr) : Apart a (s.soon is) :=
  ⟨h.1, h.2, h.3, h.4, h.5, h.6, h.7, h.8, h.9, h.10, h.11⟩

theorem bumpSeq (h : Apart a s) (x l : Nat) : Apart a (s.bumpSeq x l) :=
  ⟨h.1, h.2, h.3, h.4, h.5, h.6, h.7, h.8, h.9, h.10, h.11⟩

theorem logOperator (h : Apart a s) (r : ErrRec) : Apart a (s.logOperator r) := by
  unfold State.logOperator
  extract_lets bs
  split <;> exact ⟨h.1, h.2, h.3, h.4, h.5, h.6, h.7, h.8, h.9, h.10, h.11⟩

theorem countRefusal (h : Apart a s) (p d : Nat) : Apart a (s.countRefusal p d) :=
  ⟨h.1, h.2, h.3, h.4, h.5, h.6, h.7, h.8, h.9, h.10, h.11⟩

theorem refuse (h : Apart a s) (p d n : Nat) : Apart a (s.refuse p d n) := by
  unfold State.refuse
  split
  · exact h
  · exact logOperator (countRefusal h _ _) _

theorem scrWrite (h : Apart a s) (c o : Nat) (bs : List Byte) : Apart a (s.scrWrite c o bs) :=
  ⟨h.1, h.2, h.3, h.4, h.5, h.6, h.7, h.8, h.9, h.10, h.11⟩

theorem setPeerMem (h : Apart a s) (d : Nat) (m : Memory) : Apart a (s.setPeerMem d m) :=
  ⟨h.1, h.2, h.3, h.4, h.5, h.6, h.7, h.8, h.9, h.10, h.11⟩

theorem tlbInsert (h : Apart a s) (c : Nat) (e : TlbE) : Apart a (s.tlbInsert c e) :=
  ⟨h.1, h.2, h.3, h.4, h.5, h.6, h.7, h.8, h.9, h.10, h.11⟩

theorem sectorWrite (h : Apart a s) (d : Nat) (bs : List Byte) : Apart a (s.sectorWrite d bs) :=
  ⟨h.1, h.2, h.3, h.4, h.5, h.6, h.7, h.8, h.9, h.10, h.11⟩

theorem modTrc (h : Apart a s) (c : Nat) (f : TraceU → TraceU) : Apart a (s.modTrc c f) :=
  ⟨h.1, h.2, h.3, h.4, h.5, h.6, h.7, h.8, h.9, h.10, h.11⟩

theorem dropLine (h : Apart a s) (c l : Nat) : Apart a (s.dropLine c l) :=
  ⟨h.1, h.2, h.3, h.4, h.5, h.6, h.7, h.8, h.9, h.10, h.11⟩

theorem dropClean (h : Apart a s) (c : Nat) : Apart a (s.dropClean c) :=
  ⟨h.1, h.2, h.3, h.4, h.5, h.6, h.7, h.8, h.9, h.10, h.11⟩

theorem l1Store (h : Apart a s) (c d : Nat) (bs : List Byte) : Apart a (s.l1Store c d bs) :=
  ⟨h.1, h.2, h.3, h.4, h.5, h.6, h.7, h.8, h.9, h.10, h.11⟩

/-- A fold of steps that leave the rest of the state alone leaves it alone. -/
theorem foldl {α : Type} (l : List α) (g : State → α → State) (hg : ∀ s x, Apart s (g s x)) (h : Apart a s) : Apart a (l.foldl g s) := by
  induction l generalizing s with
  | nil => exact h
  | cons x l ih => exact ih ((hg s x).trans h)

/-- The first component of a pair that is known leaves the rest alone. -/
theorem of_eq {α : Type} {p : State × α} {t : State} {x : α} (heq : p = (t, x)) (h : Apart a p.1) : Apart a t := by rw [heq] at h; exact h

theorem markDead (h : Apart a s) (c : Nat) : Apart a (s.markDead c) := by
  unfold State.markDead
  dsimp only
  repeat' first | assumption | exact refl _ | split | with_reducible apply Apart.modCore | with_reducible apply Apart.modPart | with_reducible apply Apart.modChan | with_reducible apply Apart.post | with_reducible apply Apart.soon | with_reducible apply Apart.bumpSeq | with_reducible apply Apart.logOperator | with_reducible apply Apart.countRefusal | with_reducible apply Apart.refuse | with_reducible apply Apart.scrWrite | with_reducible apply Apart.setPeerMem | with_reducible apply Apart.tlbInsert | with_reducible apply Apart.sectorWrite | with_reducible apply Apart.modTrc | with_reducible apply Apart.dropLine | with_reducible apply Apart.dropClean | with_reducible apply Apart.l1Store

theorem retireFrames (h : Apart a s) (ch : Nat) (f : Nat → Bool) : Apart a (s.retireFrames ch f) :=
  foldl _ _ (fun s _ => modChan (refl s) _ _) h

theorem noteCorrected (h : Apart a s) (d p : Nat) (u : Bool) : Apart a (s.noteCorrected d p u) := by
  unfold State.noteCorrected
  extract_lets ch c row n m again s1 s2 s3
  have h1 : Apart a s1 := by
    unfold s1
    split
    · exact sectorWrite h _ _
    · exact h
  have h2 : Apart a s2 := modChan h1 _ _
  clear_value s1 s2
  have h3 : Apart a s3 := by
    unfold s3
    split
    · exact logOperator h2 _
    · exact h2
  clear_value s3
  split
  · exact retireFrames (logOperator (modChan h3 _ _) _) _ _
  · exact h3

theorem noteDetected (h : Apart a s) (d : Nat) : Apart a (s.noteDetected d) := by
  unfold State.noteDetected
  dsimp only
  repeat' first | assumption | exact refl _ | split | with_reducible apply Apart.modCore | with_reducible apply Apart.modPart | with_reducible apply Apart.modChan | with_reducible apply Apart.post | with_reducible apply Apart.soon | with_reducible apply Apart.bumpSeq | with_reducible apply Apart.logOperator | with_reducible apply Apart.countRefusal | with_reducible apply Apart.refuse | with_reducible apply Apart.scrWrite | with_reducible apply Apart.setPeerMem | with_reducible apply Apart.tlbInsert | with_reducible apply Apart.sectorWrite | with_reducible apply Apart.modTrc | with_reducible apply Apart.dropLine | with_reducible apply Apart.dropClean | with_reducible apply Apart.l1Store | with_reducible apply Apart.markDead | with_reducible apply Apart.noteCorrected

theorem noteLine (h : Apart a s) (d p : Nat) : Apart a (s.noteLine d p) := by
  unfold State.noteLine
  split
  · exact h
  · refine foldl _ _ (fun s k => ?_) h
    split
    · exact noteCorrected (refl s) _ _ _
    · exact refl s
    · exact noteDetected (refl s) _

theorem lineWrite (h : Apart a s) (d : Nat) (x : List (Option Nat)) : Apart a (s.lineWrite d x) := by
  unfold State.lineWrite
  refine foldl _ _ (fun s k => ?_) h
  dsimp only
  split
  · exact sectorWrite (refl s) _ _
  · exact ⟨rfl, rfl, rfl, rfl, rfl, rfl, rfl, rfl, rfl, rfl, rfl⟩

theorem noteStripe (h : Apart a s) (sp st : Nat) (ps : List Nat) : Apart a (s.noteStripe sp st ps) := by
  unfold State.noteStripe
  refine foldl _ _ (fun s k => ?_) h
  split
  · exact noteLine (refl s) _ _
  · exact refl s

theorem decodeStripe (h : Apart a s) (sp st : Nat) : Apart a (s.decodeStripe sp st) := by
  unfold State.decodeStripe
  extract_lets syms rd now todo s1 s2
  have h1 : Apart a s1 := noteStripe h _ _ _
  have h2 : Apart a s2 := by
    refine foldl _ _ (fun s k => ?_) h1
    dsimp only
    split
    · exact lineWrite (refl s) _ _
    · have h3 := lineWrite (refl s) k.2.1 k.2.2
      exact ⟨h3.1, h3.2, h3.3, h3.4, h3.5, h3.6, h3.7, h3.8, h3.9, h3.10, h3.11⟩
  split
  · exact h2
  · exact logOperator h2 _

theorem mergeDelta (h : Apart a s) (sp st q : Nat) (x : List Byte) : Apart a (s.mergeDelta sp st q x) := by
  unfold State.mergeDelta
  split
  · exact h
  · exact ⟨h.1, h.2, h.3, h.4, h.5, h.6, h.7, h.8, h.9, h.10, h.11⟩

theorem decodeNoted (h : Apart a s) (sp st : Nat) : Apart a (s.decodeNoted sp st) := by
  unfold State.decodeNoted
  extract_lets lost t
  clear_value lost
  split
  · exact post (decodeStripe h _ _) _
  · exact decodeStripe h _ _

/-- A state that differs in the check deltas alone. -/
theorem setDeltas (h : Apart a s) (d : Tbl (List Byte)) : Apart a { s with deltas := d } :=
  ⟨h.1, h.2, h.3, h.4, h.5, h.6, h.7, h.8, h.9, h.10, h.11⟩

theorem drainDelta (h : Apart a s) (k : Nat) : Apart a (s.drainDelta k) := by
  unfold State.drainDelta
  extract_lets sp st p
  split
  · exact h
  · split
    · exact setDeltas h _
    · have h1 (b : Bool) (x y x' : Nat) (l l' : List (Option Nat)) (d : Tbl (List Byte)) :
          Apart a (if b then { (s.noteLine x y).lineWrite x l with deltas := d } else { (s.decodeNoted sp st).lineWrite x' l' with deltas := d }) := by
        split
        · exact setDeltas (lineWrite (noteLine h _ _) _ _) _
        · exact setDeltas (lineWrite (decodeNoted h _ _) _ _) _
      exact h1 _ _ _ _ _ _ _

theorem makeDeltaRoom (h : Apart a s) (sp st q : Nat) : Apart a (s.makeDeltaRoom sp st q) := by
  unfold State.makeDeltaRoom
  dsimp only
  split
  · exact h
  · split
    · exact drainDelta h _
    · exact h

theorem writeBackL2 (h : Apart a s) (l : Nat) (e : L2Line) : Apart a (s.writeBackL2 l e) := by
  unfold State.writeBackL2
  extract_lets dpa sp st j new s1 s2
  have h1 : Apart a s1 := mergeDelta (mergeDelta h _ _ _ _) _ _ _ _
  have h2 : Apart a s2 := by
    unfold s2
    split
    · exact h1
    · exact foldl _ _ (fun s k => sectorWrite (refl s) _ _) h1
  exact ⟨h2.1, h2.2, h2.3, h2.4, h2.5, h2.6, h2.7, h2.8, h2.9, h2.10, h2.11⟩

theorem setL2 (h : Apart a s) (d : Tbl L2Line) : Apart a { s with l2 := d } :=
  ⟨h.1, h.2, h.3, h.4, h.5, h.6, h.7, h.8, h.9, h.10, h.11⟩

theorem roomAt (h : Apart a s) (x l : Nat) : Apart a (s.roomAt x l) := by
  unfold State.roomAt
  dsimp only
  split
  · exact h
  · split
    · exact h
    · split
      · exact setL2 h _
      · split
        · exact setL2 (writeBackL2 (makeDeltaRoom (makeDeltaRoom h _ _ _) _ _ _) _ _) _
        · exact h

theorem l2Room (h : Apart a s) (l : Nat) : Apart a (s.l2Room l) := roomAt h _ _

theorem noteLost (h : Apart a s) (r : ErrRec) (bad : List Nat) (log : List (Nat × ErrRec)) :
    Apart a { s.logOperator r with badLines := bad, toLog := log } :=
  have h := logOperator h r
  ⟨h.1, h.2, h.3, h.4, h.5, h.6, h.7, h.8, h.9, h.10, h.11⟩

theorem fill (h : Apart a s) (l : Nat) : Apart a (s.fill l) := by
  unfold State.fill
  split
  · exact h
  · extract_lets r dpa sp st p bytes clean t t2
    have hr : Apart a r := l2Room h l
    have ht : Apart a t := by
      show Apart a (if clean then _ else _)
      split
      · show Apart a (match p with | some x => _ | none => _)
        cases p
        · exact hr
        · exact noteLine hr _ _
      · exact decodeNoted hr _ _
    have h2 : Apart a t2 := ⟨ht.1, ht.2, ht.3, ht.4, ht.5, ht.6, ht.7, ht.8, ht.9, ht.10, ht.11⟩
    clear_value t2 bytes
    split
    · exact ⟨h2.1, h2.2, h2.3, h2.4, h2.5, h2.6, h2.7, h2.8, h2.9, h2.10, h2.11⟩
    · exact noteLost h2 _ _ _

theorem homeRead (h : Apart a s) (d n : Nat) : Apart a (s.homeRead d n).1 := foldl _ _ (fun s l => fill (refl s) l) h

theorem homeWrite (h : Apart a s) (d : Nat) (bs : List Byte) : Apart a (s.homeWrite d bs) := by
  have h3 := foldl (State.linesOf d bs.length) State.fill (fun s l => fill (refl s) l) h
  exact ⟨h3.1, h3.2, h3.3, h3.4, h3.5, h3.6, h3.7, h3.8, h3.9, h3.10, h3.11⟩

theorem homePut (h : Apart a s) (d : Nat) (bs : List Byte) (u : Option (Nat × Nat × Nat)) : Apart a (s.homePut d bs u) := by
  unfold State.homePut
  split
  · refine foldl _ _ (fun s e => ?_) h
    split
    · exact ⟨rfl, rfl, rfl, rfl, rfl, rfl, rfl, rfl, rfl, rfl, rfl⟩
    · exact homeWrite (refl s) _ _
  · exact homeWrite h _ _

theorem refuseRing (h : Apart a s) (p b x n : Nat) : Apart a (s.refuseRing p b x n) := by
  unfold State.refuseRing
  split <;> exact refuse h _ _ _

theorem logPart (h : Apart a s) (p : Nat) (r : ErrRec) : Apart a (s.logPart p r).1 := by
  have h1 := bumpSeq h r.src p
  unfold State.logPart
  dsimp only
  split
  · dsimp only; exact modPart h1 _ _
  · split
    · dsimp only; exact modPart (refuseRing h1 _ _ _ _) _ _
    · dsimp only; exact modPart (homePut h1 _ _ _) _ _

theorem tableRead (h : Apart a s) (p d n : Nat) : Apart a (s.tableRead p d n).1 := by
  unfold State.tableRead
  split
  · exact homeRead h _ _
  · exact refuse h _ _ _

theorem walkFrom (h : Apart a s) (p ps va : Nat) (ls : List Nat) (t : Nat) : Apart a (s.walkFrom p ps va ls t).1 := by
  induction ls generalizing s t with
  | nil => exact h
  | cons l ls ih =>
    have h2 := tableRead h p (t + 8 * levelIndex va l) 8
    unfold State.walkFrom
    split
    · rename_i heq; exact of_eq heq h2
    · rename_i heq
      have h3 := of_eq heq h2
      split
      · exact h3
      · split
        · exact h3
        · split
          · exact h3
          · exact ih h3 _

theorem walk (h : Apart a s) (p ps va : Nat) : Apart a (s.walk p ps va).1 := by
  have h2 := tableRead h p ((s.part p).ptbase + 16 * ps) 16
  unfold State.walk
  dsimp only
  split
  · exact h
  · split
    · rename_i heq; exact of_eq heq h2
    · rename_i heq
      have h3 := of_eq heq h2
      split
      · exact h3
      · exact walkFrom h3 _ _ _ _ _

theorem pageRequest (h : Apart a s) (x : HostPage) : Apart a (s.pageRequest x) := by
  unfold State.pageRequest
  split
  · exact h
  · exact ⟨h.1, h.2, h.3, h.4, h.5, h.6, h.7, h.8, h.9, h.10, h.11⟩

theorem atsLook (h : Apart a s) (d : Nat) (x : HostPage) : Apart a (s.atsLook d x).1 := by
  unfold State.atsLook
  split
  · exact h
  · split
    · exact pageRequest h _
    · exact ⟨h.1, h.2, h.3, h.4, h.5, h.6, h.7, h.8, h.9, h.10, h.11⟩

theorem permit (h : Apart a s) (d p va : Nat) (k : PKind) (e : TlbE) : Apart a (s.permit d p va k e).1 := by
  unfold State.permit
  split
  · exact h
  · split
    · extract_lets io
      have h2 := atsLook h d { pid := p, pasid := e.pasid % 2 ^ 20, page := io / 65536 }
      split <;> (rename_i heq; exact of_eq heq h2)
    · exact h

theorem translateCp (h : Apart a s) (p ps va : Nat) (k : PKind) : Apart a (s.translateCp p ps va k).1 := by
  have h2 := walk h p ps va
  unfold State.translateCp
  split
  · rename_i heq; exact permit (of_eq heq h2) _ _ _ _ _
  · exact h2

theorem translate (h : Apart a s) (c p ps va : Nat) (k : PKind) : Apart a (s.translate c p ps va k).1 := by
  have h2 := walk h p ps va
  unfold State.translate
  dsimp only
  split
  · exact permit h _ _ _ _ _
  · split
    · exact permit (modCore h _ _) _ _ _ _ _
    · split
      · rename_i s' e heq
        have h3 := permit (of_eq heq h2) (didOf c) p va k e
        split
        · rename_i heq2; exact tlbInsert (of_eq heq2 h3) _ _
        · exact h3
      · exact h2

theorem faultRecord (h : Apart a s) (p ps va : Nat) (k : PKind) (lv c ag u : Nat) : Apart a (s.faultRecord p ps va k lv c ag u) := by
  unfold State.faultRecord
  dsimp only
  split
  · exact h
  · split
    · exact modPart h _ _
    · split
      · exact modPart (refuseRing h _ _ _ _) _ _
      · exact modPart (homePut h _ _ _) _ _

theorem lcTick (h : Apart a s) (u : Nat) : Apart a (s.lcTick u) := ⟨h.1, h.2, h.3, h.4, h.5, h.6, h.7, h.8, h.9, h.10, h.11⟩

theorem lcRecv (h : Apart a s) (u : Nat) (x : BitVec 48) : Apart a (s.lcRecv u x) :=
  ⟨h.1, h.2, h.3, h.4, h.5, h.6, h.7, h.8, h.9, h.10, h.11⟩

theorem linkTrip (h : Apart a s) (d : Nat) : Apart a (s.linkTrip d) := by
  unfold State.linkTrip
  extract_lets u
  have h2 := lcRecv (lcTick h u) u (Config.linkStamp s.freeCtr)
  exact ⟨h2.1, h2.2, h2.3, h2.4, h2.5, h2.6, h2.7, h2.8, h2.9, h2.10, h2.11⟩

theorem placeRead (h : Apart a s) (p : Nat) (pl : Place) (n : Nat) : Apart a (s.placeRead p pl n).1 := by
  cases pl <;> simp only [State.placeRead]
  · split
    · exact homeRead h _ _
    · exact refuse h _ _ _
  · split <;> exact h
  · split
    · exact h
    · split <;> exact linkTrip h _
  · exact h

theorem placeWrite (h : Apart a s) (p : Nat) (pl : Place) (bs : List Byte) : Apart a (s.placeWrite p pl bs).1 := by
  cases pl <;> simp only [State.placeWrite]
  · split
    · exact homePut h _ _ _
    · exact refuse h _ _ _
  · split
    · exact ⟨h.1, h.2, h.3, h.4, h.5, h.6, h.7, h.8, h.9, h.10, h.11⟩
    · exact h
  · split
    · exact h
    · split
      · exact setPeerMem (linkTrip h _) _ _
      · exact linkTrip h _
  · exact scrWrite h _ _ _

theorem ringPlace (h : Apart a s) (c va : Nat) : Apart a (s.ringPlace c va).1 := by
  have h2 := translate h c (s.partOfCore c) (s.core c).trc.pasid va .write
  unfold State.ringPlace
  dsimp only
  split
  · exact h
  · split <;> (rename_i heq; exact of_eq heq h2)

/-- A fold over a state and something else. -/
theorem foldlFst {α β : Type} (l : List α) (g : State × β → α → State × β) (hg : ∀ r x, Apart r.1 (g r x).1) (r : State × β)
    (h : Apart a r.1) : Apart a (l.foldl g r).1 := by
  induction l generalizing r with
  | nil => exact h
  | cons x l ih => exact ih _ ((hg r x).trans h)

theorem ringPlaces (h : Apart a s) (c b sz o n : Nat) : Apart a (s.ringPlaces c b sz o n).1 := by
  unfold State.ringPlaces
  refine foldlFst _ _ (fun r x => ?_) _ h
  have h2 := ringPlace (refl r.1) c ((b + (o + x) % sz) % 2 ^ 64)
  dsimp only
  split <;> (rename_i heq; exact of_eq heq h2)

theorem ringWrite (h : Apart a s) (c b sz o : Nat) (bs : List Byte) : Apart a (s.ringWrite c b sz o bs).1 := by
  unfold State.ringWrite
  extract_lets p r
  have hr : Apart a r.1 := ringPlaces h _ _ _ _ _
  split
  · exact foldl _ _ (fun s e => placeWrite (refl s) _ _ _) hr
  · exact hr

theorem packetRaw (h : Apart a s) (c : Nat) (bs : List Byte) (x y : Bool) : Apart a (s.packetRaw c bs x y) := by
  have h2 := ringWrite h c (s.core c).trc.base (s.core c).trc.size (s.core c).trc.wptr bs
  unfold State.packetRaw
  dsimp only
  split
  · exact modTrc h _ _
  · split
    · rename_i heq; exact modTrc (of_eq heq h2) _ _
    · rename_i heq; exact modTrc (of_eq heq h2) _ _

theorem syncRaw (h : Apart a s) (k : Nat) : Apart a (s.syncRaw k) := by
  unfold State.syncRaw
  split
  · exact h
  · exact packetRaw h _ _ _ _

theorem syncAll (h : Apart a s) (c : Nat) : Apart a (s.syncAll c) := foldl _ _ (fun s k => syncRaw (refl s) k) h

theorem traceResume (h : Apart a s) (c : Nat) : Apart a (s.traceResume c) := by
  unfold State.traceResume
  extract_lets t bs
  split
  · exact h
  · have h2 := ringPlaces h c t.base t.size t.wptr 256
    split
    · rename_i heq
      exact syncAll (modTrc (ringWrite (of_eq heq h2) _ _ _ _ _) _ _) _
    · rename_i heq
      exact of_eq heq h2

theorem flushTrace (h : Apart a s) (c : Nat) : Apart a (s.flushTrace c) := by
  unfold State.flushTrace
  extract_lets q s1 s2
  split
  · exact h
  · refine foldl _ _ (fun s k => ?_) (modTrc h _ _)
    split <;> exact packetRaw (refl s) _ _ _ _

end Apart

/-- Packets are queued for the trace units, and nothing else differs (R251, R252). -/
def Queued (s t : State) : Prop :=
  t = { s with cores := t.cores } ∧ ∀ c, t.core c = { s.core c with trc := { (s.core c).trc with queued := ((t.core c).trc.queued) } }

namespace Queued

theorem refl (s : State) : Queued s s := ⟨rfl, fun _ => rfl⟩

theorem packet (s : State) (k hdr : Nat) (i r : List Byte) : Queued s (s.packet k hdr i r) := by
  unfold State.packet
  split
  · exact refl s
  · dsimp only
    split
    · exact refl s
    · refine ⟨rfl, fun c => ?_⟩
      by_cases h : c = cidOf k
      · subst h
        simp [State.modTrc, State.core]
      · simp [State.modTrc, State.core, Tbl.getD_set_other _ h]

theorem brPacket (s : State) (k : Nat) (b : Bool) (t : Option DWord) : Queued s (s.brPacket k b t) := packet _ _ _ _ _

theorem maskPacket (s : State) (k : Nat) (ws : List RegW) : Queued s (s.maskPacket k ws) := by
  unfold State.maskPacket
  dsimp only
  split
  · exact refl s
  · exact packet _ _ _ _ _

theorem trans {a b c : State} (h : Queued b c) (g : Queued a b) : Queued a c := by
  refine ⟨?_, fun i => ?_⟩
  · have h1 := h.1; rw [g.1] at h1; exact h1
  · rw [h.2 i, g.2 i]

end Queued

end Sys2Proof.Machine
end

