-- ==== Sys2Proof/Laws/Issue.lean ====
section
/-! SUPPORT. The path of an instruction word that issues: what an executing word leaves, once for all words. -/

namespace Sys2Proof.Machine

namespace State

theorem wave_setWave_same (s : State) (k : Nat) (w : Wave) : (s.setWave k w).wave k = some w := by simp [wave]
theorem wave_setWave_other (s : State) {j k : Nat} (h : j ≠ k) (w : Wave) : (s.setWave k w).wave j = s.wave j := by
  simp [wave, Tbl.get?_set_other _ h]
theorem wave_modWave_same (s : State) (k : Nat) (f : Wave → Wave) : (s.modWave k f).wave k = (s.wave k).map f := by simp [wave]
theorem wave_modWave_other (s : State) {j k : Nat} (h : j ≠ k) (f : Wave → Wave) : (s.modWave k f).wave j = s.wave j := by
  simp [wave, Tbl.get?_modify_other _ h]
theorem core_modCore_same (s : State) (c : Nat) (f : Core → Core) : (s.modCore c f).core c = f (s.core c) := by simp [core]
theorem core_modCore_other (s : State) {c d : Nat} (h : d ≠ c) (f : Core → Core) : (s.modCore c f).core d = s.core d := by
  simp [core, Tbl.getD_set_other _ h]

@[simp] theorem cyc_setWave (s : State) (k : Nat) (w : Wave) (c : Nat) : (s.setWave k w).cyc c = s.cyc c := rfl
@[simp] theorem cyc_modWave (s : State) (k : Nat) (f : Wave → Wave) (c : Nat) : (s.modWave k f).cyc c = s.cyc c := rfl
@[simp] theorem cyc_modCore (s : State) (k : Nat) (f : Core → Core) (c : Nat) : (s.modCore k f).cyc c = s.cyc c := rfl

theorem packet_untraced (s : State) (k hdr : Nat) (i r : List Byte) (w : Wave) (hw : s.wave k = some w) (ht : w.traced = false) :
    s.packet k hdr i r = s := by
  simp [packet, hw, ht]

end State

open Sys2Proof.Claims

theorem setHeld_iff (lane : Bool) (h : Hints) (s : State) (k : Nat) (w : Wave) : State.setHeld (seen lane h s k w) = true ↔ FlagFull lane h s k w := by
  unfold State.setHeld FlagFull
  rw [Bool.and_eq_true, Bool.and_eq_true, Bool.or_eq_true]
  show ((decide (h.set ≠ 0) = true ∧ decide (w.flag h.set.toNat = 63) = true) ∧ (lane = true ∨ _)) ↔ _
  rw [decide_eq_true_iff, decide_eq_true_iff, and_assoc]

/-- An instruction word that executes runs its meaning. -/
theorem issued_runs {i : Instr} {h : Hints} {lane : Bool} {dyn : Ctx → Option Nat} {body : Ctx → Act} {s : State} {k : Nat} {w : Wave}
    (hx : Executes lane i h s k w) (hd : dyn (seen lane h s k w) = none) :
    issued i h lane dyn body s = .next (State.perform (ctx lane h s k w) i body) := by
  obtain ⟨⟨h1, h2, h3, h4, h5, h6, h7⟩, h8, h9, h10⟩ := hx
  unfold issued
  rw [h1]; dsimp only; rw [h2]; dsimp only
  congr 1
  unfold State.issue
  extract_lets u w₁ src s₁ c comb gp cl
  have hc : c = seen lane h s k w := rfl
  rw [if_neg (by rw [hc, setHeld_iff]; exact h3)]
  have hcomb : comb = false := h5
  have hw1 : firstReason (i.illegal w₁.vregs w₁.sregs) (if comb then some 9 else dyn c) = none := by
    rw [hcomb, hc]; show firstReason (i.illegal w.vregs w.sregs) _ = none
    rw [h4]; simp [hd, firstReason]
  rw [hw1]; dsimp only
  have hbg : batchGate s₁ w₁ i = none := h6
  rw [hbg]; dsimp only
  have hgp : gp = 0 := h7
  rw [if_neg (by rw [hgp]; exact fun h => h rfl)]
  cases lane with
  | true =>
    rw [if_pos rfl]
    have h8' : (cl.act = 0 && !runsEmpty i) = false := by
      have h8 : cl.act ≠ 0 ∨ runsEmpty i = true := h8
      rw [Bool.eq_false_iff]; intro hh
      rw [Bool.and_eq_true] at hh
      rcases h8 with h | h
      · exact h (of_decide_eq_true hh.1)
      · rw [h] at hh; exact Bool.false_ne_true hh.2
    rw [if_neg (by rw [h8']; exact Bool.false_ne_true)]
    rfl
  | false =>
    rw [if_neg (by simp)]
    rw [if_pos (show guardWave c = true from h8)]
    rfl

/-- An instruction word that executes and whose meaning answers an effect: the state is what `finish` makes of it. -/
theorem issued_ok {i : Instr} {h : Hints} {lane : Bool} {dyn : Ctx → Option Nat} {body : Ctx → Act} {s : State} {k : Nat} {w : Wave} {e : Eff}
    (hx : Executes lane i h s k w) (hd : dyn (seen lane h s k w) = none) (hb : body (ctx lane h s k w) = .ok e) :
    issued i h lane dyn body s
      = .next (State.finish (ctx lane h s k w) i true
          { e with st := e.st.modWave k (fun x => { x with hold := holdAfter (ctx lane h s k w) (i.operands.map (·.2)) }) }) := by
  rw [issued_runs hx hd]
  have hp : poisonOf (ctx lane h s k w).w (ctx lane h s k w).act i = 0 := hx.2.2.1
  unfold State.perform
  rw [hp]
  dsimp only
  rw [hb]
  dsimp only
  rw [if_neg (by simp)]
  have hq : quietErrs (ctx lane h s k w).w (ctx lane h s k w).act i = [] := hx.2.2.2
  rw [hq]
  rfl

/-- An instruction word that executes and whose meaning answers a trap of a class other than poison takes the exception. -/
theorem traps_of {i : Instr} {h : Hints} {lane : Bool} {dyn : Ctx → Option Nat} {body : Ctx → Act} {s : State} {k : Nat} {w : Wave}
    {cls reason : Nat} {mask : Mask} {addr : DWord} {code : Word} (hi : exec i s = issued i h lane dyn body s)
    (hx : Executes lane i h s k w) (hd : dyn (seen lane h s k w) = none) (hc : cls ≠ 4)
    (hb : body (ctx lane h s k w) = .trap cls reason mask addr code) :
    Traps lane i h s k w cls reason mask addr code := by
  unfold Traps
  rw [hi, issued_runs hx hd]
  have hp : poisonOf (ctx lane h s k w).w (ctx lane h s k w).act i = 0 := hx.2.2.1
  unfold State.perform
  rw [hp]
  dsimp only
  rw [hb]
  dsimp only
  rw [if_pos (by simp [hc])]
  rfl

/-- The same for the trap of R74, whose reason is 0. -/
theorem traps4_of {i : Instr} {h : Hints} {lane : Bool} {dyn : Ctx → Option Nat} {body : Ctx → Act} {s : State} {k : Nat} {w : Wave} {mask : Mask}
    (hi : exec i s = issued i h lane dyn body s) (hx : Executes lane i h s k w) (hd : dyn (seen lane h s k w) = none)
    (hb : body (ctx lane h s k w) = .trap 4 0 mask) : Traps lane i h s k w 4 0 mask := by
  unfold Traps
  rw [hi, issued_runs hx hd]
  have hp : poisonOf (ctx lane h s k w).w (ctx lane h s k w).act i = 0 := hx.2.2.1
  unfold State.perform
  rw [hp]
  dsimp only
  rw [hb]
  dsimp only
  rw [if_neg (by simp), if_pos rfl, show (0 : Mask) ||| mask = mask from BitVec.zero_or]
  rfl

/-- An instruction word that executes in a protected wave and whose meaning finds a mismatch. -/
theorem mismatch_of {i : Instr} {h : Hints} {lane : Bool} {dyn : Ctx → Option Nat} {body : Ctx → Act} {s : State} {k : Nat} {w : Wave}
    (hi : exec i s = issued i h lane dyn body s) (hx : Executes lane i h s k w) (hd : dyn (seen lane h s k w) = none)
    (hb : body (ctx lane h s k w) = .mismatch) :
    exec i s = .next (((ctx lane h s k w).s.issueAlone k (ctx lane h s k w).w).mismatch k (ctx lane h s k w).w) := by
  rw [hi, issued_runs hx hd]
  have hp : poisonOf (ctx lane h s k w).w (ctx lane h s k w).act i = 0 := hx.2.2.1
  unfold State.perform
  rw [hp]
  dsimp only
  rw [hb]
  dsimp only
  rw [if_neg (by simp)]
  rfl

/-- An instruction word that executes and whose meaning answers a wait leaves the state that it names. -/
theorem waits_of {i : Instr} {h : Hints} {lane : Bool} {dyn : Ctx → Option Nat} {body : Ctx → Act} {s t : State} {k : Nat} {w : Wave}
    (hi : exec i s = issued i h lane dyn body s) (hx : Executes lane i h s k w) (hd : dyn (seen lane h s k w) = none)
    (hb : body (ctx lane h s k w) = .wait t) : exec i s = .next t := by
  rw [hi, issued_runs hx hd]
  have hp : poisonOf (ctx lane h s k w).w (ctx lane h s k w).act i = 0 := hx.2.2.1
  unfold State.perform
  rw [hp]
  dsimp only
  rw [hb]
  dsimp only
  rw [if_neg (by simp)]

/-- The path that every instruction word takes. -/
theorem exec_issued (i : Instr) (h : Hints) (hh : i.hints = some h) :
    ∃ dyn body, (∀ s, exec i s = issued i h (isLane i) dyn body s) ∧ (limited i = false → ∀ c, dyn c = none) := by
  cases i <;> first
    | (injection hh with hh; subst hh; exact ⟨_, _, fun _ => rfl, fun _ _ => rfl⟩)
    | (injection hh with hh; subst hh; exact ⟨_, _, fun _ => rfl, fun hl => nomatch hl⟩)
    | cases hh

/-- No packet leaves a quiet word. -/
theorem quiet_packets {s : State} {k : Nat} {w w₀ : Wave} {i : Instr} {ws : List RegW} (hw : s.wave k = some w) (ht : w.traced = w₀.traced)
    (hq : quiet w₀ i ws = true) (taken : Bool) (target : Option DWord) :
    (if isBranch i = true then s.brPacket k taken target else s) = s ∧ s.maskPacket k ws = s := by
  unfold quiet at hq
  rw [Bool.or_eq_true] at hq
  rcases hq with hq | hq
  · have h0 : w.traced = false := by rw [ht]; simpa using hq
    constructor
    · split
      · exact State.packet_untraced s k _ _ _ w hw h0
      · rfl
    · unfold State.maskPacket; dsimp only; split
      · rfl
      · exact State.packet_untraced s k _ _ _ w hw h0
  · rw [Bool.and_eq_true] at hq
    refine ⟨by rw [if_neg]; simpa using hq.1, ?_⟩
    unfold State.maskPacket
    have hnil : ∀ n, n < 3 → ws.filterMap (fun r => match r with | .s m x => if m = n then some x else none | _ => none) = ([] : List Word) := by
      intro n hn
      rw [List.filterMap_eq_nil_iff]
      intro r hr
      have := List.all_eq_true.1 hq.2 r hr
      cases r <;> simp_all
      omega
    extract_lets vals
    have hv : vals = [] := by
      rw [List.filterMap_eq_nil_iff]
      intro n hn
      exact congrArg (fun l : List Word => Option.map (fun x => (n, x)) l.getLast?) (hnil n (List.mem_range.1 hn))
    rw [if_pos (by rw [hv]; rfl)]

namespace State

theorem issuePackets_queued (c : Ctx) (i : Instr) (e : Eff) : Queued e.st (issuePackets c i e) := by
  have a1 : Queued e.st (if isBranch i then e.st.brPacket c.k e.jump.isSome (packetTarget i e) else e.st) := by
    split
    · exact Queued.brPacket _ _ _ _
    · exact Queued.refl _
  unfold issuePackets
  dsimp only
  split
  · exact (Queued.maskPacket _ _ _).trans a1
  · exact a1

theorem issuePackets_quiet (c : Ctx) (i : Instr) (e : Eff) (w : Wave) (hw : e.st.wave c.k = some w) (ht : w.traced = c.w.traced)
    (hq : quiet c.w i e.ws = true) : issuePackets c i e = e.st := by
  unfold issuePackets
  dsimp only
  rw [(quiet_packets hw ht hq e.jump.isSome (packetTarget i e)).1, (quiet_packets hw ht hq false none).2]
  split <;> rfl

end State

theorem newPends_eq (c : Ctx) (i : Instr) (e : Eff) (now nid : Nat) :
    State.newPends c i e now nid = pends c i now (State.lagOf i e.nominal) e.kind e.ws e.fst nid := rfl

/-- What `finish` leaves of an executing word: the wave, the other waves, and the rest. -/
theorem finish_spec (c : Ctx) (i : Instr) (e : Eff) :
    (∀ w, e.st.wave c.k = some w → ∃ caps, (State.finish c i true e).wave c.k
        = some (State.afterIssue c i true e (e.st.cyc (cidOf c.k)) e.st.nextId { w with caps := caps }))
      ∧ (State.finish c i true e).cur = e.st.cur
      ∧ Beside e.st (State.finish c i true e) c.k
      ∧ ∀ w, e.st.wave c.k = some w → w.traced = c.w.traced → quiet c.w i e.ws = true → OnlyWave e.st (State.finish c i true e) c.k := by
  have ha := State.issuePackets_queued c i e
  have hq := fun w hw => State.issuePackets_quiet c i e w hw
  obtain ⟨a, hae⟩ : ∃ a, a = State.issuePackets c i e := ⟨_, rfl⟩
  rw [← hae] at ha hq
  have haw : ∀ j, a.wave j = e.st.wave j := by intro j; rw [ha.1]; rfl
  have han : a.nextId = e.st.nextId := by rw [ha.1]
  obtain ⟨b, hb⟩ : ∃ b, b = a.countCaptures c.k c.w (opensCapture i) (beatsOf i c.act) (memReqs c.w c.act i) := ⟨_, rfl⟩
  have hbw : ∀ w, e.st.wave c.k = some w → ∃ caps, b.wave c.k = some { w with caps := caps } := by
    intro w hw
    rw [hb]; unfold State.countCaptures
    rw [State.wave_modWave_same, haw, hw]
    exact ⟨_, rfl⟩
  have hbo : ∀ j, j ≠ c.k → b.wave j = e.st.wave j := by
    intro j hj
    rw [hb]; unfold State.countCaptures
    rw [State.wave_modWave_other _ hj, haw]
  have hbr : b = { a with waves := b.waves } := by rw [hb]; rfl
  obtain ⟨d, hd⟩ : ∃ d, d = if beatsOf i c.act = 0 then b else b.modCore (cidOf c.k) (State.busyUntil c.k (e.st.cyc (cidOf c.k) + beatsOf i c.act)) := ⟨_, rfl⟩
  have hdw : ∀ j, d.wave j = b.wave j := by intro j; rw [hd]; split <;> rfl
  have hdn : d.nextId = e.st.nextId := by
    rw [hd]
    have : b.nextId = e.st.nextId := by rw [hbr]; exact han
    split <;> exact this
  have hdr : d = { a with waves := b.waves, cores := d.cores } := by rw [hd]; split <;> (rw [hbr]; try rfl)
  have hdc : ∀ cid, d.core cid = { a.core cid with quads := (d.core cid).quads } := by
    intro cid
    have hbc : b.core cid = a.core cid := by rw [hbr]; rfl
    rw [hd]; split
    · rw [hbc]
    · by_cases h : cid = cidOf c.k
      · subst h; rw [State.core_modCore_same, hbc]; rfl
      · rw [State.core_modCore_other _ h, hbc]
  have hf : State.finish c i true e = ({ d with nextId := d.nextId + 1 } : State).modWave c.k (State.afterIssue c i true e (e.st.cyc (cidOf c.k)) d.nextId) := by
    rw [hd, hb, hae]; rfl
  have hother : ∀ j, j ≠ c.k → (State.finish c i true e).wave j = e.st.wave j := by
    intro j hj
    rw [hf, State.wave_modWave_other _ hj]
    show d.wave j = _
    rw [hdw, hbo j hj]
  have hrest : State.finish c i true e = { a with waves := (State.finish c i true e).waves, cores := (State.finish c i true e).cores, nextId := (State.finish c i true e).nextId } := by
    rw [hf]
    obtain ⟨dc, hdc2⟩ : ∃ dc, dc = d.cores := ⟨_, rfl⟩
    rw [← hdc2] at hdr
    rw [hdr]
    rfl
  have hcore : ∀ cid, (State.finish c i true e).core cid = { a.core cid with quads := ((State.finish c i true e).core cid).quads } := by
    intro cid
    rw [hf]
    exact hdc cid
  refine ⟨?_, ?_, ⟨?_, hother, ?_⟩, ?_⟩
  · intro w hw
    obtain ⟨caps, h⟩ := hbw w hw
    refine ⟨caps, ?_⟩
    rw [hf, State.wave_modWave_same]
    show (d.wave c.k).map _ = _
    rw [hdw, h, hdn]; rfl
  · rw [hrest]; show a.cur = _; rw [ha.1]
  · obtain ⟨f, hfe⟩ : ∃ f, f = State.finish c i true e := ⟨_, rfl⟩
    rw [← hfe] at hrest ⊢
    rw [ha.1] at hrest
    rw [hrest]
  · intro cid
    have h := hcore cid
    rw [ha.2 cid] at h
    rw [h]
  · intro w hw ht hqu
    have hea : a = e.st := hq w hw ht hqu
    obtain ⟨f, hfe⟩ : ∃ f, f = State.finish c i true e := ⟨_, rfl⟩
    rw [hea] at hrest hcore
    rw [← hfe] at hrest hcore hother ⊢
    exact ⟨by rw [hrest], hother, hcore⟩

theorem flagUp_f (w : Wave) (hold : Option Word) (caps : Tbl Capture) (n : Nat) :
    (Wave.flagUp { w with hold := hold, caps := caps } n).f = (w.flagUp n).f := by
  unfold Wave.flagUp; split <;> rfl

/-- The wave after an issue differs from the wave before in the fields of `WaveIs` alone. -/
theorem waveIs_afterIssue (c : Ctx) (i : Instr) (e : Eff) (now nid : Nat) (w : Wave) (hold : Option Word) (caps : Tbl Capture) :
    WaveIs (State.afterIssue c i true e now nid { w with hold := hold, caps := caps }) w (e.jump.getD (w.pc + 12)) (w.flagUp c.h.set.toNat).f
      (w.pend ++ State.newPends c i e now nid) (if State.isFixed i then (w.govern e.ws).emask else w.emask) := by
  cases w
  unfold WaveIs State.afterIssue
  rw [flagUp_f]
  simp only [Bool.true_and, if_true]
  rfl

/-- What an executing word leaves whose effect is only what the wave itself is to write. -/
theorem leaves_of {i : Instr} {h : Hints} {lane : Bool} {dyn : Ctx → Option Nat} {body : Ctx → Act} {s : State} {k : Nat} {w : Wave}
    {ws : List RegW} {fst : Word} {jump : Option DWord} {nominal : Nat}
    (hx : exec i s = issued i h lane dyn body s) (hd : dyn (seen lane h s k w) = none)
    (hb : body (ctx lane h s k w) = .ok { st := (ctx lane h s k w).s, ws := ws, fst := fst, jump := jump, nominal := nominal }) :
    Leaves lane i h s k w (State.lagOf i nominal) ws fst jump := by
  intro hex
  obtain ⟨c, hc⟩ : ∃ c, c = ctx lane h s k w := ⟨_, rfl⟩
  have hk : c.k = k := by rw [hc]; rfl
  have hcw : c.w = { w with waitFlag := none, yieldTil := none } := by rw [hc]; rfl
  have hh : c.h = h := by rw [hc]; rfl
  have hsw : s.wave k = some w := hex.1.2.1
  have hiss := issued_ok hex hd hb
  rw [← hc] at hiss
  dsimp only at hiss
  generalize holdAfter c (i.operands.map (·.2)) = hold at hiss
  obtain ⟨e, he⟩ : ∃ e : Eff, e = { st := c.s.modWave c.k (fun x => { x with hold := hold }), ws := ws, fst := fst, jump := jump, nominal := nominal } := ⟨_, rfl⟩
  have hSw : e.st.wave c.k = some { c.w with hold := hold } := by
    rw [he]; dsimp only
    rw [State.wave_modWave_same, hk, hc]
    show (((({ s with cur := none } : State).setWave k _).wave k).map _) = _
    rw [State.wave_setWave_same]; rfl
  have hSo : ∀ j, j ≠ k → e.st.wave j = s.wave j := by
    intro j hj
    rw [he]; dsimp only
    rw [State.wave_modWave_other _ (by rw [hk]; exact hj), hc]
    exact State.wave_setWave_other _ hj _
  obtain ⟨W, hSR⟩ : ∃ W, e.st = { s with waves := W, cur := none, nextId := s.nextId + 1, freeCtr := s.freeCtr + 1 } := ⟨_, by rw [he, hc]; rfl⟩
  have hSn : e.st.nextId = s.nextId + 1 := by rw [hSR]
  have hScyc : e.st.cyc (cidOf c.k) = s.cyc (cidOf k) := by rw [hSR, hk]; rfl
  have hScore : ∀ cid, e.st.core cid = s.core cid := by intro cid; rw [hSR]; rfl
  have hews : e.ws = ws := by rw [he]
  have hef : e.fst = fst := by rw [he]
  have hej : e.jump = jump := by rw [he]
  have hek : e.kind = .alu := by rw [he]
  have hen : e.nominal = nominal := by rw [he]
  have hiss' : exec i s = .next (State.finish c i true e) := by rw [he, hk]; exact hx.trans hiss
  obtain ⟨h1', h2, h3, h4⟩ := finish_spec c i e
  obtain ⟨caps, h1⟩ := h1' _ hSw
  have hq' : ∀ b, quiet w i ws = b → quiet c.w i e.ws = b := by intro b hb; rw [hews, hcw]; exact hb
  obtain ⟨f, hfe⟩ : ∃ f, f = State.finish c i true e := ⟨_, rfl⟩
  rw [← hfe] at h1 h2 h3 h4 hiss'
  show ∃ t w', _
  refine ⟨f, _, hiss', by rw [h2, hSR], by rw [← hk]; exact h1, ?_, ?_, ?_⟩
  · rw [← hc, hScyc, hSn]
    have hfix : State.isFixed i = true ↔ (i.lat = .fixed4 ∨ i.lat = .fixed8) := by simp [State.isFixed]
    have hgov : (if State.isFixed i then (c.w.govern e.ws).emask else c.w.emask)
        = (if i.lat = .fixed4 ∨ i.lat = .fixed8 then (w.govern ws).emask else w.emask) := by
      rw [hews, hcw]
      by_cases hf : i.lat = .fixed4 ∨ i.lat = .fixed8
      · rw [if_pos (hfix.2 hf), if_pos hf]; rfl
      · rw [if_neg (fun x => hf (hfix.1 x)), if_neg hf]
    have hpc : e.jump.getD (c.w.pc + 12) = jump.getD (w.pc + 12) := by rw [hej, hcw]
    have hfl : (c.w.flagUp c.h.set.toNat).f = (w.flagUp h.set.toNat).f := by rw [hh, hcw]; unfold Wave.flagUp; split <;> rfl
    have hpe : c.w.pend ++ State.newPends c i e (s.cyc (cidOf k)) (s.nextId + 1)
        = w.pend ++ pends c i (s.cyc (cidOf k)) (State.lagOf i nominal) .alu ws fst (s.nextId + 1) := by
      rw [newPends_eq, hews, hef, hek, hen, show c.w.pend = w.pend by rw [hcw]]
    have := waveIs_afterIssue c i e (s.cyc (cidOf k)) (s.nextId + 1) c.w hold caps
    rw [hpc, hfl, hpe, hgov] at this
    exact this
  · refine ⟨?_, fun j hj => by rw [h3.2.1 j (by rw [hk]; exact hj), hSo j hj], fun cid => ?_⟩
    · have := h3.1; rw [hSR] at this; rw [this]
    · have := h3.2.2 cid; rw [hScore] at this; exact this
  · intro hq
    have h5 := h4 _ hSw rfl (hq' true hq)
    refine ⟨?_, fun j hj => by rw [h5.2.1 j (by rw [hk]; exact hj), hSo j hj], fun cid => ?_⟩
    · have := h5.1; rw [hSR] at this; rw [this]
    · have := h5.2.2 cid; rw [hScore] at this; exact this

/-- What an executing word leaves whose effect is any. -/
theorem performs_of {i : Instr} {h : Hints} {lane : Bool} {dyn : Ctx → Option Nat} {body : Ctx → Act} {s : State} {k : Nat} {w : Wave} {e : Eff}
    (hx : exec i s = issued i h lane dyn body s) (hd : Executes lane i h s k w → dyn (seen lane h s k w) = none)
    (hb : Executes lane i h s k w → body (ctx lane h s k w) = .ok e) :
    Performs lane i h s k w e := by
  intro hex
  obtain ⟨c, hc⟩ : ∃ c, c = ctx lane h s k w := ⟨_, rfl⟩
  have hk : c.k = k := by rw [hc]; rfl
  have hcw : c.w = { w with waitFlag := none, yieldTil := none } := by rw [hc]; rfl
  have hh : c.h = h := by rw [hc]; rfl
  have hiss := issued_ok hex (hd hex) (hb hex)
  rw [← hc] at hiss
  rw [← hc]
  generalize holdAfter c (i.operands.map (·.2)) = hold at hiss
  obtain ⟨x, hx'⟩ : ∃ x : Eff, x = { e with st := e.st.modWave k (fun x => { x with hold := hold }) } := ⟨_, rfl⟩
  have hiss' : exec i s = .next (State.finish c i true x) := by rw [hx']; exact hx.trans hiss
  obtain ⟨h1, h2, h3, h4⟩ := finish_spec c i x
  obtain ⟨t, ht⟩ : ∃ t, t = State.finish c i true x := ⟨_, rfl⟩
  rw [← ht] at h1 h2 h3 h4 hiss'
  have hxo : ∀ j, j ≠ k → x.st.wave j = e.st.wave j := by
    intro j hj; rw [hx']; exact State.wave_modWave_other _ hj _
  have hxs : x.st.wave k = (e.st.wave k).map (fun x => { x with hold := hold }) := by rw [hx']; exact State.wave_modWave_same _ _ _
  have hxr : x.st = { e.st with waves := x.st.waves } := by rw [hx']; rfl
  have hws : x.ws = e.ws := by rw [hx']
  have hfs : x.fst = e.fst := by rw [hx']
  have hjs : x.jump = e.jump := by rw [hx']
  have hks : x.kind = e.kind := by rw [hx']
  have hns : x.nominal = e.nominal := by rw [hx']
  have hni : x.st.nextId = e.st.nextId := by rw [hxr]
  have hcy : x.st.cyc (cidOf c.k) = e.st.cyc (cidOf k) := by rw [hxr, hk]; rfl
  have hco : ∀ cid, x.st.core cid = e.st.core cid := by intro cid; rw [hxr]; rfl
  have hq' : ∀ b, quiet w i e.ws = b → quiet c.w i x.ws = b := by intro b hb; rw [hws, hcw]; exact hb
  refine ⟨t, hiss', by rw [h2, hxr], ?_, ?_⟩
  · refine ⟨?_, fun j hj => by rw [h3.2.1 j (by rw [hk]; exact hj), hxo j hj], fun cid => ?_⟩
    · have := h3.1; rw [hxr] at this; rw [this]
    · have := h3.2.2 cid; rw [hco] at this; exact this
  · intro w₁ hw₁
    have hxw : x.st.wave c.k = some { w₁ with hold := hold } := by rw [hk, hxs, hw₁]; rfl
    obtain ⟨caps, h7⟩ := h1 _ hxw
    refine ⟨State.afterIssue c i true x (x.st.cyc (cidOf c.k)) x.st.nextId { w₁ with hold := hold, caps := caps }, by rw [← hk]; exact h7, ?_, ?_⟩
    · have hfix : State.isFixed i = true ↔ (i.lat = .fixed4 ∨ i.lat = .fixed8) := by simp [State.isFixed]
      have hgov : (if State.isFixed i then (w₁.govern x.ws).emask else w₁.emask)
          = (if i.lat = .fixed4 ∨ i.lat = .fixed8 then (w₁.govern e.ws).emask else w₁.emask) := by
        rw [hws]
        by_cases hf : i.lat = .fixed4 ∨ i.lat = .fixed8
        · rw [if_pos (hfix.2 hf), if_pos hf]
        · rw [if_neg (fun x => hf (hfix.1 x)), if_neg hf]
      have hpe : State.newPends c i x (x.st.cyc (cidOf c.k)) x.st.nextId
          = pends c i (e.st.cyc (cidOf k)) (State.lagOf i e.nominal) e.kind e.ws e.fst e.st.nextId := by
        rw [newPends_eq, hws, hfs, hks, hns, hni, hcy]
      have := waveIs_afterIssue c i x (x.st.cyc (cidOf c.k)) x.st.nextId w₁ hold caps
      rw [hjs, hgov, hpe, hh] at this
      exact this
    · intro htr hq
      have h5 := h4 _ hxw (by rw [hcw]; exact htr) (hq' true hq)
      refine ⟨?_, fun j hj => by rw [h5.2.1 j (by rw [hk]; exact hj), hxo j hj], fun cid => ?_⟩
      · have := h5.1; rw [hxr] at this; rw [this]
      · have := h5.2.2 cid; rw [hco] at this; exact this

end Sys2Proof.Machine
end

