-- ==== Sys2Proof/Laws/Value.lean ====
section
/-! SUPPORT. The model's arithmetic on exact numbers, read as arithmetic on bit vectors. -/

namespace Sys2Proof.Machine

open Sys2Proof.Claims

/-- A number taken modulo 2^n is the bit vector of it. -/
theorem wrap_eq (n : Nat) (x : Int) : wrap n x = (BitVec.ofInt n x).toNat := by
  rw [BitVec.toNat_ofInt]; rfl

/-- The sign extension of a bit vector's number is its signed value. -/
theorem sextNat_toNat {n : Nat} (x : BitVec n) : sextNat n x.toNat = x.toInt := by
  unfold sextNat
  rw [BitVec.toInt_eq_msb_cond]
  have : x.toNat.testBit (n - 1) = x.msb := by rw [BitVec.msb_eq_getLsbD_last]; rfl
  rw [this]
  split <;> simp

theorem asInt_toNat (t : Ty) (x : BitVec t.bits) : asInt t x.toNat = if t.isSigned then x.toInt else (x.toNat : Int) := by
  unfold asInt
  split
  · rw [sextNat_toNat]
  · rfl

/-- Either reading of a pattern is the pattern again modulo 2^n. -/
theorem ofInt_asInt (t : Ty) (x : BitVec t.bits) : BitVec.ofInt t.bits (asInt t x.toNat) = x := by
  rw [asInt_toNat]
  split
  · exact BitVec.ofInt_toInt
  · simp

/-- A source as the model reads it is the source at its type's width. -/
theorem wnat_src (c : Ctx) (t : Ty) (ht : t.bits = 32 ∨ t.bits = 64) (field : Nat) (o : Opd) (os : List Opd) :
    c.wnat t field o os = (src c t field o os).toNat := by
  unfold Ctx.wnat src Ctx.valT
  rw [BitVec.toNat_setWidth]
  have hw : t.wide = true ∨ t.bits = 32 := by cases t <;> simp_all [Ty.wide, Ty.bits]
  split
  · have h64 : t.bits = 64 := by revert ht; cases t <;> simp_all [Ty.wide, Ty.bits]
    rw [h64, Nat.mod_eq_of_lt (BitVec.isLt _)]
  · have h32 : t.bits = 32 := by rcases hw with h | h <;> simp_all
    rw [h32, BitVec.toNat_setWidth]
    have := (c.val field o 0 os t).isLt
    omega

/-- A result at its type's width into a scalar destination. -/
theorem dstS_eq (d : Opd) (wide : Bool) (x : BitVec 64) : dstS d wide x.toNat = toScalar d wide x := by
  have h1 : BitVec.ofNat 32 x.toNat = x.setWidth 32 := by
    apply BitVec.eq_of_toNat_eq; simp
  have h2 : BitVec.ofNat 32 (x.toNat / 2 ^ 32) = x.extractLsb' 32 32 := by
    apply BitVec.eq_of_toNat_eq
    simp [BitVec.extractLsb', Nat.shiftRight_eq_div_pow]
  have h3 : BitVec.ofNat 32 (x.toNat / 4294967296) = x.extractLsb' 32 32 := h2
  cases d <;> simp [dstS, toScalar, h1, h2, h3]

end Sys2Proof.Machine
end

