-- ==== Sys2Proof/Tests/Slice0.lean ====
section
/-! SUPPORT. Small tests of the model, and for every statement of Certificates/Slice0/Obligations.lean states and operands that meet its hypotheses. -/

namespace Sys2Proof.Tests

-- one proof after another: together they would need too much memory
set_option Elab.async false

open Sys2Proof Sys2Proof.Machine Sys2Proof.Claims

/-- Hints without guard, hold or flag. -/
def h0 : Hints := { fh := 0, lut := 0xFF, ga := 0, gb := 0, gc := 0, stall := 0, yld := false, wait := 0, set := 0 }

/-- The same with flag f1. -/
def h1 : Hints := { h0 with set := 1 }

/-- A wave with a few registers: s4 = 7, s6 = -3, v2 and v4 in lanes 0 to 2. -/
def w0 : Wave :=
  { pidN := 0, pasid := 0, block := 1, pc := 0x1000, vregs := 64, sregs := 64
    s := [(4, 7), (6, 0xFFFFFFFD)], v := [(192, 5), (193, 6), (194, 0x80000000), (384, 3), (385, 0xFFFFFFFF)] }

/-- The wave chosen to issue on core 0. -/
def s0 : State := { cur := some 0, waves := [(0, w0)], blocks := [(1, { launch := 1, lin := 0, cid := 0, waves := [0], scrSize := 4096 })] }

/-- The state that a step answers meets a test. -/
def gives (o : Host.Outcome State Fault Refusal) (f : State → Bool) : Bool :=
  match o with
  | .next t => f t
  | _ => false

/-- The latest pending operation of wave 0. -/
def lastOp (t : State) : Option Pend := (t.wave 0).bind (fun w => w.pend.getLast?)

/-- The writes that an instruction leaves pending. -/
def writesOf (i : Instr) (s : State) : List RegW :=
  match exec i s with
  | .next t => ((lastOp t).map (·.writes)).getD []
  | _ => []

/-! Decoding. The words are the manual's own: R59's and R87's worked examples, and the words given with each instruction. -/

/-- A word of the manual, W2_W1_W0, and its reading. -/
def reads (w : Nat) (i : Instr) : Bool := decide (decode (BitVec.ofNat 96 w) = some i)

theorem test_decode_control : reads 0x0080FF000FFFFFFFFFF00000 (.nop h0) ∧ reads 0x0C80FF00082BFFFFFFD00000 (.smovil h0 (.s 10) 0xFFFFD)
    ∧ reads 0x3200FF000FFFFF0000C00000 (.bexz h0 12) ∧ reads 0x3000FF000FFFFFFFFF100000 (.br h0 0xFFFF1)
    ∧ reads 0x3280FF000FFFFFFFFFF00000 (.exit h0) ∧ reads 0x30000F100FFFFFFFFEEE0000 (.br { h0 with lut := 0x0F, ga := 1, stall := 7 } 0xFFFEE) := by decide
theorem test_decode_traps : reads 0x3400FF000FFFFF0000500000 (.trap h0 5) ∧ reads 0x3480FF000FFFFF0000000000 (.brk h0 0)
    ∧ reads 0x3500FF000FFE16FFFFF00000 (.rte h0 (.s 22)) ∧ reads 0x3580FF000853FF0001000001 (.csrr h1 (.s 20) 0x010) := by decide
theorem test_decode_predicates : reads 0x2000FF00080001FFFFFE0000 (.pgetP { h0 with stall := 7 } (.s 0) 1)
    ∧ reads 0x2100FF00000402FFFFFE0000 (.qany { h0 with stall := 7 } 1 2) := by decide
theorem test_decode_vector : reads 0x4000FF0000100200FFFE0000 (.vadd { h0 with stall := 7 } .i32 false (.v 4) (.v 2) (.v 3))
    ∧ reads 0x4A11FF00004400F9C0200000 (.vcmp h0 .n32 true { pt := 1, pf := 1, acc := 0 } (.v 0) (.int 7) 2)
    ∧ reads 0x4A01F020044400FAC0200000 (.vcmp { h0 with lut := 0xF0, ga := 2 } .n32 false { pt := 1, pf := 1, acc := 1 } (.v 0) (.int 11) 2) := by decide
theorem test_decode_lanes : reads 0x4C80FF000010000000200000 (.vidx h0 (.v 4) (.v 0) 0 2)
    ∧ reads 0x4D85FF00002006F83FF00000 (.vshfl h0 .up 5 (.v 8) (.v 6) (.int 0)) := by decide
theorem test_decode_float : reads 0x718930120020040140600023 (.vfma { h0 with lut := 0x30, ga := 1, gb := 2, wait := 2, set := 3 } .f32 false (.v 8) (.v 4) (.v 5) (.v 6))
    ∧ reads 0x7B0CFF0000501E05BFFE0001 (.vqz { h1 with stall := 7 } .e4m3 false (.v 20) (.v 30) (.v 22) .zero) := by decide
theorem test_decode_memory : reads 0xB011FF000018050000040001 (.vld { h1 with stall := 2 } .s .b32 (.v 6) (.v 5) 0)
    ∧ reads 0xB110FF00082A080000400001 (.sld h1 .g .b32 (.s 10) (.s 8) 4)
    ∧ reads 0xB112F010083210C017CE0001 (.sld { h1 with lut := 0xF0, ga := 1, stall := 7 } .c .b32 (.s 12) (.s 16) (-0x3FE84)) := by decide
theorem test_decode_fences : reads 0xB812FF000FFFFFFFFFF00000 (.fence h0 .rel .dev) ∧ reads 0xB811FF000FFFFFFFFFF00000 (.fence h0 .acq .dev)
    ∧ reads 0xB806F0100FFFFFFFFFF00000 (.fence { h0 with lut := 0xF0, ga := 1 } .rel .block) ∧ reads 0xB880FF000FFFFFFFFFF00000 (.dfence h0)
    ∧ reads 0xB910FF000FFFFFFFFFF00000 (.ifence h0 .dev) := by decide
theorem test_decode_atomics : reads 0xD200FF00001804F83FF00001 (.vatom h1 .add false .dev (.v 6) (.v 4) (.int 0) .zero)
    ∧ reads 0xD400F010002A0A01005E0002 (.cmb { h0 with lut := 0xF0, ga := 1, stall := 7, set := 2 } (.v 10) (.s 10) (.v 4) 5)
    ∧ reads 0xD480FF000FFC07FFFFF00000 (.ccommit h0 7) := by decide
theorem test_decode_barriers : reads 0xE100FF000FFC00FFFFF00000 (.barSync h0 { cls := 0, num := 0 })
    ∧ reads 0xE100FF000FFC41FFFFF00000 (.barSync h0 { cls := 1, num := 1 })
    ∧ reads 0xE200F0100FFC00833FF60000 (.barTx { h0 with lut := 0xF0, ga := 1, stall := 3 } { cls := 0, num := 0 } (.s 12))
    ∧ reads 0xE280FF00008403FFFFF00000 (.barTest h0 { pt := 1, pf := 2, acc := 0 } { cls := 0, num := 3 })
    ∧ reads 0xE300FF000FFC01003FF00000 (.waitf h0 1 0) := by decide
theorem test_decode_engines : reads 0xE881FF0008320A8380060012 (.cpytLd { h0 with stall := 3, wait := 1, set := 2 } .s (.s 12) (.s 10) (.s 14) { scope := 0, acq := false, rel := false })
    ∧ reads 0xEC00FF0000860A00BFF00003 (.spawn { h0 with set := 3 } { pt := 1, pf := 2, acc := 0 } (.s 10) 2)
    ∧ reads 0xF01FFF000FFE0A0100000012 (.mlds { h0 with wait := 1, set := 2 } .l6 true (.s 10) 0 true { scope := 0, acq := false, rel := false })
    ∧ reads 0xF09BFF0000E20C8400000002 (.mms { h0 with set := 2 } .bf16 true 0 true true true false (.s 12) (.s 16) { scope := 0, acq := false, rel := false })
    ∧ reads 0xF19BFF000022128580000002 (.mdrain { h0 with set := 2 } .bf16 true 0 true 0 (.s 18) (.s 22) { scope := 0, acq := false, rel := false }) := by decide
theorem test_decode_trace : reads 0xF800FF000FFE0AFFFFF00000 (.tmark h0 (.s 10)) ∧ reads 0xF800FF000FFFE6FFFFF00000 (.tmark h0 (.int 6))
    ∧ reads 0xF880FF000FFC02FFFFF00000 (.capst h0 2) ∧ reads 0xFC00FF000FFFFFFFFFF00000 (.rgn h0) := by decide
/-- R42: the bytes of the `vadd` of R59's example at increasing addresses. -/
theorem test_word_bytes : bytesOfWord 0x4000FF0000100200FFFE0000 = [0x00, 0x00, 0xFE, 0xFF, 0x00, 0x02, 0x10, 0x00, 0x00, 0xFF, 0x00, 0x40] := by decide

/-! The checks of R59, one refused term each. -/

theorem test_reason_1_unassigned : decode 0 = none ∧ illegalReason 32 16 0 = some 1 ∧ illegalReason 32 16 (0x1A6#96 <<< 87) = some 1 := by decide
theorem test_reason_2_set_13 : (Instr.nop { h0 with set := 13 }).wf = false ∧ (Instr.nop { h0 with set := 13 }).illegal 32 16 = some 2 := by decide
theorem test_reason_3_type : (Instr.sadd h0 .f32 (.s 4) (.s 5) (.s 6)).wf = false ∧ (Instr.sadd h0 .f32 (.s 4) (.s 5) (.s 6)).illegal 32 16 = some 3 := by decide
/-- Operand code 0x28C (R46) in field A of an `smov.b32`. -/
theorem test_reason_4_code : illegalReason 32 16 ((0x018#96 <<< 87) ||| (0x08#96 <<< 80) ||| (0xFF#96 <<< 72) ||| (0x204#96 <<< 50) ||| (0x3FE#96 <<< 40) ||| (0xFFFFF#96 <<< 20)) = some 4
    ∧ illegalReason 32 16 ((0x018#96 <<< 87) ||| (0x08#96 <<< 80) ||| (0xFF#96 <<< 72) ||| (0x204#96 <<< 50) ||| (0x28C#96 <<< 40) ||| (0xFFFFF#96 <<< 20)) = some 4 := by decide
theorem test_reason_5_kind : (Instr.sadd h0 .i32 (.s 4) (.v 5) (.s 6)).wf = false ∧ (Instr.sadd h0 .i32 (.s 4) (.v 5) (.s 6)).illegal 32 16 = some 5 := by decide
theorem test_reason_6_count : (Instr.sadd h0 .i32 (.s 4) (.s 16) (.s 6)).wf = true ∧ (Instr.sadd h0 .i32 (.s 4) (.s 16) (.s 6)).illegal 32 16 = some 6 := by decide
theorem test_reason_7_odd_pair : (Instr.sadd h0 .i64 (.s 4) (.s 5) (.s 6)).wf = false ∧ (Instr.sadd h0 .i64 (.s 4) (.s 5) (.s 6)).illegal 32 16 = some 7 := by decide
theorem test_reason_8_set_missing : (Instr.sdiv h0 .i32 (.s 4) (.s 5) (.s 6)).wf = false ∧ (Instr.sdiv h0 .i32 (.s 4) (.s 5) (.s 6)).illegal 32 16 = some 8 := by decide
theorem test_reason_9_limit : (Instr.waitf h0 0 0).wf = false ∧ (Instr.waitf h0 0 0).illegal 32 16 = some 9 := by decide
theorem test_wf_accepts : (Instr.vfma h1 .f32 false (.v 8) (.v 4) (.v 5) (.v 6)).wf = true ∧ (Instr.spawn h1 { pt := 1, pf := 2, acc := 0 } (.s 10) 2).wf = true := by decide

/-! Instruction words: what each leaves pending, worked out by hand from its rule. -/

/-- A scalar instruction's result for s4 = 7, s6 = -3. -/
def scalar (i : Instr) : List RegW := writesOf i s0

/-- The lanes 0 to 2 of a vector result. -/
def lanes3 (i : Instr) (s : State := s0) : List Word :=
  match (writesOf i s).head? with
  | some (.v _ xs) => (xs.take 3).map (·.2)
  | _ => []

theorem test_sadd_wraps : scalar (.sadd h1 .i32 (.s 8) (.s 4) (.s 6)) = [.s 8 4] := by decide
theorem test_ssub : scalar (.ssub h1 .i32 (.s 8) (.s 6) (.s 4)) = [.s 8 0xFFFFFFF6] := by decide
theorem test_smulh_signed : scalar (.smulh h1 .i32 (.s 8) (.s 6) (.s 4)) = [.s 8 0xFFFFFFFF] := by decide
theorem test_smulh_unsigned : scalar (.smulh h1 .n32 (.s 8) (.s 6) (.s 4)) = [.s 8 6] := by decide
theorem test_sdiv_to_zero : scalar (.sdiv h1 .i32 (.s 8) (.s 4) (.s 6)) = [.s 8 0xFFFFFFFE] := by decide
theorem test_srem_sign : scalar (.srem h1 .i32 (.s 8) (.s 6) (.int 1)) = [.s 8 0xFFFFFFFF] := by decide
theorem test_sdiv_by_zero : gives (exec (.sdiv h1 .n32 (.s 8) (.s 4) .zero) s0) (fun t => (lastOp t).any (fun p => p.writes = [.s 8 0xFFFFFFFF] && p.fst = 2 && p.ready = 20)) := by decide
theorem test_ssra_full_width : scalar (.ssra h1 .i32 (.s 8) (.s 6) (.s 6)) = [.s 8 0xFFFFFFFF] := by decide
theorem test_sshl_64_pair : scalar (.sshl h1 .n64 (.s 8) (.s 4) (.int 15)) = [.s 8 0x70000, .s 9 0] := by decide
theorem test_sbfe_sign : scalar (.sbfe h1 .i32 (.s 8) (.s 6) (.s 4)) = [.s 8 0] := by decide
theorem test_saddc_carry : scalar (.saddc h1 (.s 8) (.s 4) (.s 6) 0) = [.s 8 5, .q 0 true] := by decide
theorem test_scmp_pair : scalar (.scmp h1 0 2 { pt := 1, pf := 2, acc := 0 } (.s 6) (.s 4)) = [.q 1 true, .q 2 false] := by decide
theorem test_smovih_keeps_low : scalar (.smovih h1 (.s 4) 0x12345) = [.s 4 0x12345007] := by decide
theorem test_vadd_lanes : lanes3 (.vadd h1 .i32 false (.v 6) (.v 2) (.v 4)) = [8, 5, 0x80000000] := by decide
theorem test_vadd_saturates : lanes3 (.vadd h1 .i32 true (.v 6) (.v 2) (.s 6)) = [2, 3, 0x80000000] := by decide
theorem test_vmul_i32 : lanes3 (.vmul h1 .i32 (.v 6) (.v 4) (.s 6)) = [0xFFFFFFF7, 3, 0] := by decide
theorem test_vmulh_floor : lanes3 (.vmulh h1 .i32 (.v 6) (.v 2) (.v 4)) = [0, 0xFFFFFFFF, 0] := by decide
theorem test_vshl_by_width : lanes3 (.vshl h1 .b32 (.v 6) (.v 2) (.s 6)) = [0, 0, 0] := by decide
theorem test_vsra_sign : lanes3 (.vsra h1 .i32 (.v 6) (.v 2) (.int 3)) = [0, 0, 0xF8000000] := by decide
theorem test_vlop3_and : lanes3 (.vlop3 h1 0x80 (.v 6) (.v 2) (.v 4) (.v 2)) = [1, 6, 0] := by decide
theorem test_vbrev : lanes3 (.vbrev h1 (.v 6) (.v 2)) = [0xA0000000, 0x60000000, 1] := by decide
theorem test_vclz : lanes3 (.vclz h1 .b32 (.v 6) (.v 2)) = [29, 29, 0] := by decide
theorem test_vdot4 : lanes3 (.vdot4 h1 .i8 false (.v 6) (.v 4) (.s 6) .zero) = [0xFFFFFFF7, 6, 0] := by decide
theorem test_vperm_out_of_range : lanes3 (.vperm h1 (.v 6) (.v 2) (.v 4)) = [0, 0, 5] := by decide
theorem test_vred_add : writesOf (.vred h1 .n32 0 (.s 8) (.v 4)) s0 = [.s 8 2] := by decide +kernel
theorem test_vaddF_ones : lanes3 (.vaddF h1 .f32 { ma := 0, mb := 0, rm := 0 } (.v 6) (.fp 1) (.fp 2)) = [0x40400000, 0x40400000, 0x40400000] := by decide
theorem test_vfma_f16_halves : lanes3 (.vfma h1 .f16 false (.v 6) (.fp 2) (.fp 2) (.fp 1)) = [0x45004500, 0x45004500, 0x45004500] := by decide +kernel
theorem test_vrcp_zero : gives (exec (.vrcp h1 { ma := 0, mb := 0, rm := 0 } (.v 6) .zero) s0) (fun t => (lastOp t).any (fun p => p.fst = 2 && p.writes.length = 1)) := by decide +kernel
theorem test_vclass_zero : (writesOf (.vclass h1 true { pt := 1, pf := 2, acc := 0 } .zero 0) s0).length = 2 := by decide +kernel
theorem test_call_return_address : gives (exec (.call h1 (.s 8) 4) s0) (fun t => (lastOp t).any (fun p => p.writes = [.s 8 0x100C, .s 9 0]) && (t.wave 0).any (fun w => w.pc = 0x1010)) := by decide
theorem test_br_backwards : gives (exec (.br h1 0xFFFFF) s0) (fun t => (t.wave 0).any (fun w => w.pc = 0xFFC)) := by decide
theorem test_exit : gives (exec (.exit h1) s0) (fun t => (t.wave 0).any (fun w => w.stat = .exiting)) := by decide
theorem test_bar_arr_outside_names : gives (exec (.barArr h0 { cls := 0, num := 9 }) s0) (fun t => t.waves = []) := by decide
/-- Partition 0 with a handler at 0x8000 and frames at 0x40000, in a page that every core's TLB holds. -/
def handled (s : State) : State :=
  let page : TlbE := { pasid := 0, va := 0, log := 24, loc := 0, peer := 0, base := 0, w := true, x := true }
  { s with parts := [(0, { clmask := 1, tvec := 0x8000, tfbase := 0x40000 })], cores := Tbl.set s.cores 0 { s.core 0 with tlb := [page] }
           arm := { s.arm with spans := [(0, { layout := 0, stat := 1, owner := 0 }), (1, { layout := 0, stat := 1, owner := 0 })], layouts := [(0, [0, 1, 2, 3, 4, 5, 6, 7, 8, 9])] }
           l2 := [(0x20, { old := List.replicate 128 0 }), (0x800, { old := List.replicate 128 0 })] }

theorem test_trap_takes_exception : gives (exec (.trap h0 5) (handled s0)) (fun t => (t.wave 0).any (fun w => w.pc = 0x8000 && w.inHandler && w.lclass = 10)
    && (List.range 24).map (fun i => byteAt t 0 (.dev (0x40000 + i))) = (leBytes 8 0x100C ++ leBytes 8 0x1000 ++ [10, 0, 0, 0] ++ leBytes 4 5).map some) := by decide
theorem test_brk_returns_to_itself : gives (exec (.brk h0 0) (handled s0)) (fun t => (List.range 8).map (fun i => byteAt t 0 (.dev (0x40000 + i))) = (leBytes 8 0x1000).map some) := by decide
theorem test_rte : gives (exec (.rte h0 (.s 4)) { handled s0 with waves := [(0, { w0 with inHandler := true, s := [(4, 0x2000)] })] }) (fun t => (t.wave 0).any (fun w => w.pc = 0x2000 && !w.inHandler)) := by decide
theorem test_csrr_trap_status : scalar (.csrr h1 (.s 8) 0x012) = [.s 8 0] := by decide
theorem test_csrw_read_only : gives (exec (.csrw h0 0x010 (.s 4)) (handled s0)) (fun t => (t.wave 0).any (fun w => w.lclass = 3)) := by decide
theorem test_scratch_load : gives (exec (.vld h1 .s .b32 (.v 6) (.v 40) 8) { s0 with cores := [(0, { scr := [(8, 1), (9, 2)] })] })
    (fun t => (lastOp t).any (fun p => match p.kind with | .load _ _ _ accs => accs.head?.any (fun a => a.got = [some 1, some 2, some 0, some 0]) | _ => false)) := by decide
theorem test_scratch_store : gives (exec (.vst h0 .s .b32 (.s 4) (.v 40) 8) s0) (fun t => Memory.readBytes (t.core 0).scr 8 4 = [7, 0, 0, 0]) := by decide
theorem test_scratch_misaligned : gives (exec (.vld h1 .s .b32 (.v 6) (.v 40) 2) (handled s0)) (fun t => (t.wave 0).any (fun w => w.lclass = 6)) := by decide
theorem test_atomic_add : atomNew .add 32 0xFFFFFFFF 3 0 = 2 ∧ atomNew .dec 32 0 9 0 = 9 ∧ atomNew .minI 32 1 0x80000000 0 = 0x80000000 := by decide
theorem test_guard_suppresses : gives (exec (.smov { h0 with lut := 0 } .b32 (.s 8) (.s 4)) s0) (fun t => (t.wave 0).any (fun w => w.pc = 0x100C && w.pend = [])) := by decide

/-! Witnesses: instruction words that execute (the hypothesis of most statements about them), in one small state. -/

/-- Everything in a list holds. -/
def ok (bs : List Bool) : Bool := bs.all id
/-- A step that changes nothing. -/
def stays (i : Instr) (s : State) : Bool := gives (exec i s) (fun t => t = s)
/-- Every one of these words executes in wave 0. -/
abbrev Execute (s : State) (w : Wave) (is : List Instr) : Prop := ∀ i ∈ is, Executes (isLane i) i h1 s 0 w

def rne : FCtl := { ma := 0, mb := 0, rm := 0 }
def pair12 : PairF := { pt := 1, pf := 2, acc := 0 }
def plain : EngOrd := { scope := 0, acq := false, rel := false }

theorem witness_scalar : Execute s0 w0 [.nop h1, .sadd h1 .i32 (.s 8) (.s 4) (.s 6), .saddc h1 (.s 8) (.s 4) (.s 6) 1, .ssub h1 .i32 (.s 8) (.s 4) (.s 6), .smul h1 .i32 (.s 8) (.s 4) (.s 6),
    .smulh h1 .i32 (.s 8) (.s 4) (.s 6), .sand h1 .b32 (.s 8) (.s 4) (.s 6), .sor h1 .b32 (.s 8) (.s 4) (.s 6), .sxor h1 .b32 (.s 8) (.s 4) (.s 6), .sandn h1 .b32 (.s 8) (.s 4) (.s 6),
    .sshl h1 .b32 (.s 8) (.s 4) (.s 6), .sshr h1 .b32 (.s 8) (.s 4) (.s 6), .ssra h1 .i32 (.s 8) (.s 4) (.s 6), .smin h1 .i32 (.s 8) (.s 4) (.s 6), .smax h1 .i32 (.s 8) (.s 4) (.s 6),
    .sabs h1 .i32 (.s 8) (.s 4), .sbfe h1 .i32 (.s 8) (.s 4) (.s 6), .sbfi h1 (.s 8) (.s 4) (.s 6) (.s 4), .spopc h1 .b32 (.s 8) (.s 4), .sclz h1 .b32 (.s 8) (.s 4), .sffs h1 .b32 (.s 8) (.s 4),
    .smov h1 .b32 (.s 8) (.s 4), .smovil h1 (.s 8) 1, .smovih h1 (.s 8) 1, .ssel h1 .b32 (.s 8) (.s 4) (.s 6) 1, .scmp h1 0 2 pair12 (.s 4) (.s 6)] := by decide
/-- R80: a zero divisor, the corner of the signed types, and an ordinary pair. -/
theorem witness_division : Execute s0 w0 [.sdiv h1 .i32 (.s 8) (.s 4) (.s 6), .sdiv h1 .n64 (.s 8) (.s 4) .zero, .srem h1 .i32 (.s 8) (.s 4) (.s 6), .srem h1 .n32 (.s 8) (.s 4) .zero]
    ∧ (ctx false h1 { s0 with waves := [(0, { w0 with s := [(4, 0x80000000), (6, 0xFFFFFFFF)] })] } 0 { w0 with s := [(4, 0x80000000), (6, 0xFFFFFFFF)] }).w.sget 4 = BitVec.intMin 32 := by decide
theorem witness_predicates : Execute s0 w0 [.pgetP h1 (.s 8) 1, .pgetQ h1 (.s 8), .pputP h1 1 (.s 4), .pputQ h1 (.s 4), .qany h1 1 1, .qall h1 1 1, .pcnt h1 (.s 8) 1, .elect h1 1, .setpl h1 (.s 4), .getpl h1 (.s 8),
    .plop h1 0x80 1 1 2 3, .qlop h1 0x80 1 1 2 3] := by decide
theorem witness_control : Execute s0 w0 [.br h1 1, .brx h1 (.s 4), .call h1 (.s 8) 1, .ret h1 (.s 4), .bexz h1 1, .exit h1, .yield h1, .sleep h1 (.s 4), .waitf h1 2 0, .trap h1 1, .brk h1 1,
    .csrr h1 (.s 8) 0x010, .csrw h1 0x010 (.s 4), .csrr h1 (.s 8) 0x011, .csrr h1 (.s 8) 0x012, .csrr h1 (.s 8) 0x400, .csrr h1 (.s 8) 0x401, .csrw h1 0x401 (.s 4), .csrr h1 (.s 8) 0x013, .csrw h1 0x013 (.s 4)] := by decide
theorem witness_rte : Execute { s0 with waves := [(0, { w0 with inHandler := true, s := [(4, 0x2000), (6, 2)] })] } { w0 with inHandler := true, s := [(4, 0x2000), (6, 2)] } [.rte h1 (.s 4), .rte h1 (.s 6)] ∧ Execute s0 w0 [.rte h1 (.s 4)] := by decide
theorem witness_vector : Execute s0 w0 [.vadd h1 .i32 true (.v 6) (.v 2) (.v 4), .vsub h1 .i32 false (.v 6) (.v 2) (.v 4), .vaddc h1 (.v 6) (.v 2) (.v 4) 1, .vsubb h1 (.v 6) (.v 2) (.v 4) 1, .vmul h1 .i32 (.v 6) (.v 2) (.v 4),
    .vmulh h1 .i32 (.v 6) (.v 2) (.v 4), .vmad h1 .i32 (.v 6) (.v 2) (.v 4) (.v 2), .vdot4 h1 .i8 true (.v 6) (.v 2) (.v 4) (.v 2), .vmin h1 .i32 (.v 6) (.v 2) (.v 4), .vmax h1 .i32 (.v 6) (.v 2) (.v 4), .vabs h1 .i32 false (.v 6) (.v 2),
    .vshl h1 .b32 (.v 6) (.v 2) (.v 4), .vshr h1 .b32 (.v 6) (.v 2) (.v 4), .vsra h1 .i32 (.v 6) (.v 2) (.v 4), .vfunnelR h1 (.v 6) (.v 2) (.v 4) (.v 2), .vfunnelL h1 (.v 6) (.v 2) (.v 4) (.v 2), .vbfe h1 .i32 (.v 6) (.v 2) (.v 4),
    .vbfi h1 (.v 6) (.v 2) (.v 4) (.v 2), .vpopc h1 .b32 (.v 6) (.v 2), .vclz h1 .b32 (.v 6) (.v 2), .vbrev h1 (.v 6) (.v 2), .vlop3 h1 0x80 (.v 6) (.v 2) (.v 4) (.v 2)] := by decide
theorem witness_moves : Execute s0 w0 [.vcmp h1 .i32 true pair12 (.v 2) (.v 4) 2, .vsel h1 .b32 (.v 6) (.v 2) (.v 4) 1, .vmov h1 .b32 (.v 6) (.v 2), .vmovil h1 (.v 6) 1, .vmovih h1 (.v 6) 1] := by decide
/-- A protected wave whose lanes of a pair agree. -/
def wP : Wave := { w0 with prot := true, v := [(192, 5), (193, 5)] }
def sP : State := { s0 with waves := [(0, wP)] }

theorem witness_lanes : Execute s0 w0 [.vidx h1 (.v 6) (.v 2) 0 1, .vperm h1 (.v 6) (.v 2) (.v 4), .vbcast h1 (.v 6) (.v 2) (.s 4), .vgetl h1 (.s 8) (.v 2) (.s 4), .vsetl h1 (.v 6) (.s 4) (.s 6), .vshfl h1 .up 5 (.v 6) (.v 2) (.int 0),
    .vred h1 .n32 0 (.s 8) (.v 2), .vscan h1 .n32 true 0 (.v 6) (.v 2), .vmovi h1 (.v 6) (.v 2) (.v 4), .vmovo h1 (.v 6) (.v 2) (.v 4), .vrand h1 (.v 6)]
    ∧ Execute sP wP [.vperm h1 (.v 6) (.v 2) (.v 4), .vgetl h1 (.s 8) (.v 2) (.s 4), .vred h1 .n32 0 (.s 8) (.v 2), .vshfl h1 .up 5 (.v 6) (.v 2) (.int 0)] := by decide
/-- R122: an index past the declared registers, and one that names a register with a poisoned lane. -/
theorem witness_indirect : decide (w0.vregs ≤ 2 + (w0.vget 2 2).toNat) = true
    ∧ Execute { s0 with waves := [(0, { w0 with poisonV := [(5, 1)] })] } { w0 with poisonV := [(5, 1)] } [.vmovi h1 (.v 6) (.v 2) (.int 2)] := by decide
/-- R116: extents with the parameters that R66 derives, at the greatest divisor. -/
theorem witness_index : (∀ e ∈ ([⟨10, extentL 10, extentM 10⟩, ⟨2 ^ 32 - 1, extentL (2 ^ 32 - 1), extentM (2 ^ 32 - 1)⟩] : List Extent), 0 < e.d ∧ e.d < 2 ^ 32 ∧ e.l = extentL e.d ∧ e.m = extentM e.d)
    ∧ (splitIndex [⟨10, extentL 10, extentM 10⟩] 4294967295) = ([5], 429496729) := by decide +kernel
theorem witness_float : Execute s0 w0 [.vaddF h1 .f32 rne (.v 6) (.v 2) (.v 4), .vsubF h1 .f16 rne (.v 6) (.v 2) (.v 4), .vmulF h1 .bf16 rne (.v 6) (.v 2) (.v 4), .vfma h1 .f32 true (.v 6) (.v 2) (.v 4) (.v 2), .vminF h1 true rne (.v 6) (.v 2) (.v 4),
    .vmaxF h1 false rne (.v 6) (.v 2) (.v 4), .vcmpF h1 true rne pair12 (.v 2) (.v 4), .vclass h1 true pair12 (.v 2) 1, .vrnd h1 rne (.v 6) (.v 2)]
    ∧ Execute s0 w0 [.vrcp h1 rne (.v 6) (.v 2), .vrsq h1 rne (.v 6) (.v 2), .vexp2 h1 rne (.v 6) (.v 2), .vlog2 h1 rne (.v 6) (.v 2), .vsqrt h1 rne (.v 6) (.v 2), .vdiv h1 rne (.v 6) (.v 2) (.v 4), .vsinpi h1 rne (.v 6) (.v 2),
    .vcospi h1 rne (.v 6) (.v 2), .vtanh h1 rne (.v 6) (.v 2), .vlgt h1 rne (.v 6) (.v 2)]
    ∧ Execute s0 w0 [.vcvt h1 .f32 1 0 0 (.v 6) (.v 2) .zero, .vcvti h1 .i32 9 0 0 (.v 6) (.v 2) .zero, .vqz h1 .e4m3 false (.v 6) (.v 16) (.v 8) .zero, .vdq h1 .e4m3 (.v 24) (.v 16) (.v 8)] := by decide
/-- R378: a protected wave whose halves differ, and whose acting lanes read a poisoned lane by index; a full-width shuffle. -/
theorem witness_halves : ok (let w := { w0 with prot := true }
    let at_ := fun (w : Wave) => handled { s0 with waves := [(0, w)] }
    let cls := fun (i : Instr) (w : Wave) (n : Nat) => gives (exec i (at_ w)) (fun t => (t.wave 0).any (fun x => x.lclass = n))
    [decide (Execute (at_ w) w [.vred h1 .n32 0 (.s 8) (.v 2), .vgetl h1 (.s 8) (.v 2) .zero]), cls (.vred h1 .n32 0 (.s 8) (.v 2)) w 11, cls (.vgetl h1 (.s 8) (.v 2) .zero) w 11,
      cls (.vgetl h1 (.s 8) (.v 2) .zero) { w with poisonV := [(2, 1)] } 4, cls (.vperm h1 (.v 6) (.v 2) (.v 4)) { w0 with poisonV := [(2, 8)] } 4, cls (.vsetl h1 (.v 6) (.v 2) .zero) { w0 with poisonV := [(2, 1)] } 4,
      decide (Tried true (.vshfl h1 .up 5 (.v 6) (.v 2) .zero) h1 (at_ w) 0 w), cls (.vshfl h1 .up 5 (.v 6) (.v 2) .zero) w 2, cls (.vshfl h1 .up 4 (.v 6) (.v 2) (.int 0)) w 0]) = true := by decide +kernel
/-- R116: `vidx` on an entry of two extents, with the registers for it and with one too few. -/
theorem witness_vidx : ok (let s := { handled s0 with blocks := [(1, { launch := 1, lin := 0, cid := 0, waves := [0], store := some 0 })], cores := [(0, { (handled s0).core 0 with shapes := [(0, { descVa := 0, pasid := 0, shapes := [(3, [⟨2, extentL 2, extentM 2⟩, ⟨3, extentL 3, extentM 3⟩])] })] })] }
    [(shapeOf (ctx true h1 s 0 w0) 3).isSome, (shapeOf (ctx true h1 s 0 w0) 2).isNone, lanes3 (.vidx h1 (.v 62) (.v 2) 3 1) s = [1, 0, 0], decide (Tried true (.vidx h1 (.v 63) (.v 2) 3 1) h1 s 0 w0),
      gives (exec (.vidx h1 (.v 63) (.v 2) 3 1) s) (fun t => (t.wave 0).any (fun w => w.lclass = 2)), gives (exec (.vidx h1 (.v 6) (.v 2) 2 1) s) (fun t => (t.wave 0).any (fun w => w.lclass = 2))]) = true := by decide +kernel
/-- R100, R142: results in whole registers, in a narrow group of a vector register, and for literal zero; a source of each kind. -/
theorem witness_conversions : Execute s0 w0 [.vcvt h1 .f32 1 0 0 (.v 6) (.v 2) .zero, .vcvt h1 .f16 0 0 1 (.v 6) (.v 2) .zero, .vcvt h1 .f16 0 0 1 .zero (.s 4) .zero, .vcvt h1 .e4m3 0 4 3 (.v 6) (.fp 1) (.v 4),
      .vcvti h1 .n64 9 0 0 (.v 6) (.v 2) .zero, .vcvti h1 .f32 1 0 0 (.v 6) (.v 4) .zero]
    ∧ writesOf (.vcvt h1 .f16 0 0 1 (.v 6) (.fp 1) .zero) { s0 with waves := [(0, { w0 with emask := 1, v := [(576, 0xAAAA5555)] })] } = [.v 6 [(0, 0x3C005555)]]
    ∧ writesOf (.vcvt h1 .f16 0 0 1 .zero (.fp 1) .zero) s0 = [] := by decide +kernel
/-- R145, R146: a block with a signalling NaN, one of 448 and zero, and one beyond the greatest value, 480. -/
theorem witness_blocks : (let nan := [decodeNum .f32 0x7F800001, .fin false 1 0]
    [nan.any Machine.Num.isNan, nan.any Machine.Num.isSignalling, quantise .e4m3 0 (fun _ => 0) nan = (0xFF, [0, 0], fstIV), quantise .e4m3 0 (fun _ => 0) [.fin false 448 0, .fin false 0 0] = (0x7F, [0x7E, 0], 0),
      quantise .e4m3 0 (fun _ => 0) [.fin true 481 0] = (0x80, [0xF7], 16)].all id) = true := by decide +kernel
/-- FloatArithmetic, SpecialFunctionResults: a NaN, finite numbers on a common scale, whole numbers and halves. -/
theorem witness_numbers : (Machine.Num.nan true).isNan = true ∧ Machine.Num.mul (.fin false 3 0) (.fin true 5 (-1)) = (.fin true 15 (-1), 0) ∧ Machine.Num.mul (.inf false) (.fin true 0 0) = (.nan false, fstIV)
    ∧ Machine.Num.add 0 (.fin false 3 0) (.fin true 5 (-1)) = (.fin false 1 (-1), 0) ∧ Machine.Num.pick true false (.fin false 1 0) (.fin true 0 0) = (.fin false 1 0, 0)
    ∧ Machine.Num.compare 2 (.fin true 1 0) (.fin false 1 (-3)) = (true, 0) ∧ fSinpi 0x40000000 (.fin false 1 1) = (0, 0) ∧ fCospi 0x3F000000 (.fin false 1 (-1)) = (0, 0)
    ∧ fDiv (.fin true 1 0) (.fin false 0 0) = (0xFF800000, fstDZ) ∧ fDiv (.fin true 0 0) (.inf false) = (0x80000000, 0) := by decide +kernel
/-- R74: an error in a lane that does not act, found by a `vmov`; the same in a lane that acts traps. -/
theorem witness_quiet_error : ok (let at_ := fun (w : Wave) => { handled s0 with waves := [(0, w)] }
    let w := { w0 with emask := 1, errs := [(.v 2 5, 1)] }
    let acts := { w0 with emask := 1, errs := [(.v 2 0, 1)] }
    let i := Instr.vmov h1 .b32 (.v 6) (.v 2)
    [decide (Tried true i h1 (at_ w) 0 w), (ctx true h1 (at_ w) 0 w).act = 1, poisonOf w 1 i = 0, quietErrs w 1 i = [.v 2 5], gives (exec i (at_ w)) (fun t => (t.wave 0).any (fun x => x.errs = [] && (x.badV 2).getLsbD 5 && x.pc = 0x100C) && (t.part 0).eldrop = 1),
      poisonOf acts 1 i = 1, gives (exec i (at_ acts)) (fun t => (t.wave 0).any (fun x => x.lclass = 4))]) = true := by decide +kernel
/-- R53: registers without a pending write and with one. -/
theorem witness_operands : ok (let p : Pend := { id := 9, kind := .alu, ready := 4, long := false, flag := 0, writes := [.s 8 5, .v 6 [(95, 1)]] }
    let c := ctx true h1 s0 0 { w0 with pend := [p] }
    [(ctx true h1 s0 0 w0).pending = [], c.pending.contains (.s 8 5), c.pending.all (fun r => r != .s 4 0), opdVal c .b32 0 (.s 4) 0 = 7, opdVal { c with w := { c.w with hold := some 3 } } .b32 0 .cyc1 0 = 3]) = true := by decide +kernel
/-- FormatsAndRounding: a code of a format, and a value that rounds to a code below that of infinity. -/
theorem witness_formats : (decodeNum .e4m3 0x7E).isNan = false ∧ deliver .e4m3 4 65535 (decodeNum .e4m3 0x7E) = (0x7E, 0)
    ∧ (deliver .f16 0 0 (.fin false 4097 0)).1 = 0x6C00 ∧ decodeNum .f16 0x6C00 = .fin false 1024 2 := by decide +kernel
/-- BlockScales: a magnitude of zero, one that fits, one beyond the greatest scale. -/
theorem witness_scales : blockScale .e4m3 0 0 = 0 ∧ blockScale .e4m3 481 0 = 1 ∧ blockScale .e2m1 1 200 = 127 ∧ blockScale .l6 1 (-140) = -127 := by decide +kernel

/-! Witnesses: memory, atomics, engines, barriers. -/

/-- A wave whose v2 and s4 hold aligned addresses of the page that the core's TLB holds. -/
def wM : Wave := { w0 with s := [(4, 0x1000), (6, 64)], v := [(192, 0x1000)], emask := 1 }
def sM : State :=
  handled { s0 with waves := [(0, wM)], blocks := [(1, { launch := 1, lin := 0, cid := 0, waves := [0], scrSize := 4096, nbar := 4, bars := [(3, { e := 1 })], slots := [(0, { phys := 0, placed := true }), (1, { phys := 1, placed := false })] })]
                    launches := [(1, { pidN := 0, pasid := 0, src := .sub 0 0, prio := 0, seq := 0, rc := {}, desc := { barriers := 4 } })] }

/-- The lanes of an access all have their places. -/
def placed (r : Resolved) : Bool := match r with | .ok .. => true | _ => false
def trapped (r : Resolved) : Bool := match r with | .trap .. => true | _ => false
def waits (r : Resolved) : Bool := match r with | .wait .. => true | _ => false

theorem witness_access_words : Execute sM wM [.vld h1 .g .b32 (.v 6) (.v 2) 0, .sld h1 .g .b32 (.s 8) (.s 4) 0, .vst h1 .g .b32 (.v 6) (.v 2) 0, .sst h1 .g .b32 (.s 8) (.s 4) 0, .vpf h1 true (.v 2) 0, .lwb h1 (.v 2) 0, .linv h1 (.v 2) 0,
    .fence h1 .ar .dev, .dfence h1, .ifence h1 .block, .vatom h1 .add false .dev (.v 6) (.v 2) (.int 0) .zero, .satom h1 .cas true .dev (.s 8) (.s 4) (.s 6) (.s 6), .cmb h1 (.v 6) (.v 2) (.v 4) 1] := by decide
/-- An access with its places, one that traps for its alignment, one that waits for a missing translation. -/
theorem witness_resolve : let c := ctx false h1 sM 0 wM
    placed (resolve c .g 4 true .read (fun _ => true) [(0, 0x1000)]) = true ∧ trapped (resolve c .g 4 true .read (fun _ => true) [(0, 0x1001)]) = true
    ∧ waits (resolve (ctx false h1 { sM with cores := [], parts := [(0, { clmask := 1, ptbase := 0x40000, ptlen := 1 })], mem := [(0x40000, 1), (0x40001, 0x10)] } 0 wM) .g 4 true .read (fun _ => true) [(0, 0x1000)]) = true := by decide +kernel
/-- A scratchpad access at the last word of the allocation, one past it, and one that is misaligned. -/
theorem witness_scratch : let c := ctx false h1 sM 0 wM
    let why := fun (r : Resolved) => match r with | .trap _ n m a => (n, m, a) | _ => (0, 0, 0)
    placed (resolve c .s 4 true .read (fun _ => true) [(0, 4092)]) = true ∧ why (resolve c .s 4 true .read (fun _ => true) [(0, 4096)]) = (2, 1, 4096)
    ∧ why (resolve c .s 4 true .read (fun _ => true) [(0, 4094)]) = (1, 1, 4094) ∧ c.w.batch = none ∧ (c.s.block c.w.block).any (fun b => b.scrSize ≤ 2 ^ 18) = true := by decide
/-- StoreInstructions: a lane's store that is accepted. -/
theorem witness_store_lane : let a : LaneAcc := { lane := 0, addr := 8, place := .scr 0 8, n := 4, got := [some 1, some 2, some 3, some 4] }
    (sM.storeLane 0 0 a).2 = true ∧ byteAt (sM.storeLane 0 0 a).1 0 (.scr 0 11) = some 4 ∧ byteAt (sM.storeLane 0 0 a).1 0 (.scr 0 12) = some 0 := by decide
/-- Protected waves: pairs that agree on a store, and pairs that do not. -/
theorem witness_pairs : pairsAgree 3 (fun _ => 0) = true ∧ pairsAgree 1 (fun _ => 0) = false
    ∧ Execute { sM with waves := [(0, { wM with prot := true })] } { wM with prot := true } [.vst h1 .s .b32 (.s 4) (.s 6) 0, .vatom h1 .add false .dev (.v 6) (.v 2) (.int 0) .zero, .cmb h1 (.v 6) (.v 2) (.v 4) 1] := by decide
theorem witness_engine_words : Execute sM wM [.cpy h1 .s .s (.s 4) (.s 6) (.s 10) plain, .cpytLd h1 .s (.s 4) (.s 6) (.s 10) plain, .cpytSt h1 .s (.s 4) (.s 6) (.s 10) plain, .cpyg h1 .s (.s 4) (.s 6) (.s 10) plain, .cpys h1 .s (.s 4) (.s 6) (.s 10) plain,
    .cred h1 0 0 (.s 4) (.s 6) (.s 10) plain, .mlds h1 .bf16 false (.s 4) 0 false plain, .mms h1 .bf16 false 0 true true false false (.s 4) (.s 10) plain, .mzero h1 0, .mdrain h1 .f32 false 0 false 0 (.s 4) (.s 10) plain,
    .mldacc h1 .f32 false 0 (.s 4) (.s 10) plain, .aalloc h1 pair12 2, .afree h1 1, .spawn h1 pair12 (.s 4) 1, .tmark h1 (.s 4), .capst h1 1, .capsp h1 1, .rgn h1] := by decide
/-- Commands with no reason against them, and one with a reason: a slot name that is not bound. -/
theorem witness_commands : let w := { wM with s := [(4, 256), (6, 64), (10, 64)] }
    let s := { sM with waves := [(0, w)] }
    gives (exec (.cpy h1 .s .s (.s 4) (.s 6) (.s 10) plain) s) (fun t => ((t.core 0).copy.length = 1)) = true
    ∧ gives (exec (.mzero h1 0) s) (fun t => ((t.core 0).mat.cmds.length = 1)) = true
    ∧ gives (exec (.mzero h1 5) s) (fun t => (t.wave 0).any (fun x => x.lclass = 7)) = true := by decide +kernel
/-- Slot names: a free slot for a free name; a bound name; a name of placement and one of `aalloc`. -/
theorem witness_slots : gives (exec (.aalloc h1 pair12 2) { sM with cores := [(0, { mat := { bound := [(0, 1), (1, 1)] } })] }) (fun t => (t.block 1).any (fun b => Tbl.get? b.slots 2 = some { phys := 2, placed := false })) = true
    ∧ gives (exec (.aalloc h1 pair12 1) sM) (fun t => (lastOp t).any (fun p => p.writes = [.q 1 false, .q 2 true])) = true
    ∧ gives (exec (.afree h1 1) sM) (fun t => (t.block 1).any (fun b => Tbl.get? b.slots 1 = none)) = true
    ∧ gives (exec (.afree h1 0) sM) (fun t => (t.wave 0).any (fun x => x.lclass = 7)) = true := by decide +kernel
/-- Barriers: a declared name with its last arrival, counts at both ends of their range, a name that is not declared. -/
theorem witness_barriers : (sM.barrierOf wM.block 3).isSome = true ∧ (sM.barrierOf wM.block 60).isNone = true
    ∧ Execute sM wM [.barArr h1 { cls := 0, num := 3 }, .barWait h1 { cls := 0, num := 3 }, .barSync h1 { cls := 0, num := 3 }, .barExp h1 { cls := 0, num := 3 } (.int 0), .barExp h1 { cls := 0, num := 3 } .zero, .barTx h1 { cls := 0, num := 3 } (.s 4),
      .barTest h1 pair12 { cls := 0, num := 3 }]
    ∧ (({ e := 1 } : Barrier).operate 0 0 5).phc = 1 ∧ phasePast 1 0 = true ∧ phasePast 0 0 = false ∧ phasePast 0x8000 0 = true ∧ phasePast 0x8001 0 = false := by decide
/-- A combiner wave on whose batch `ccommit`, `creply` and `cend` act. -/
def wC : Wave := { wM with batch := some 7, emask := 1 }
def sC (issued : Bool) : State := { sM with waves := [(0, wC)], batches := [(7, { commitIssued := issued, pidN := 0, slice := 0, dpa := 0x2000, va := 0x2000, method := 1, ent := { size := 1 }, stat := .running, wave := some 0, reqs := [{ cid := 0, wave := 1, op := 1, lane := 0, a0 := 0, a1 := 0 }] })] }

theorem witness_combiner : Execute (sC false) wC [.ccommit h1 4, .ccommitNw h1, .cend h1] ∧ Execute (sC true) wC [.creply h1 (.s 4), .cend h1]
    ∧ gives (exec (.creply h1 (.s 4)) (sC true)) (fun t => List.any t.batches (fun (e : Nat × Batch) => e.2.reqs.any (fun r => r.reply = some 0x1000))) = true
    ∧ gives (exec (.ccommitNw h1) (sC false)) (fun t => List.any t.batches (fun (e : Nat × Batch) => e.2.commitIssued)) = true := by decide
/-- `cmb` whose lanes have their places, and whose line is not held. -/
theorem witness_cmb : gives (exec (.cmb h1 (.v 6) (.v 2) (.v 4) 1) sM) (fun t => t.reqs.length = 1 && (lastOp t).any (fun p => match p.kind with | .cmb .. => true | _ => false)) = true := by decide +kernel
/-- Spawn with a record that its page serves. -/
theorem witness_spawn : gives (exec (.spawn h1 pair12 (.s 4) 1) sM) (fun t => (lastOp t).any (fun p => match p.kind with | .spawn .. => true | _ => false)) = true
    ∧ gives (exec (.spawn h1 pair12 (.s 10) 1) { sM with waves := [(0, { wM with s := [(10, 0x1020)] })] }) (fun t => (t.wave 0).any (fun w => w.lclass = 6)) = true
    ∧ gives (exec (.spawn h1 pair12 (.s 4) 1) { sM with cores := [], parts := [(0, { clmask := 1, ptbase := 0x40000, ptlen := 1 })], mem := [(0x40000, 1), (0x40001, 0x10)] }) (fun t => (t.wave 0).any (fun w => w.pc = 0x1000 && w.stat ≠ .ready)) = true := by decide +kernel
/-- `vrand`: words enough, none yet, a failed source, a log that is full, a replay. -/
theorem witness_noise : let src := fun (n : Noise) => { sM with cores := [(0, { sM.core 0 with noise := n })] }
    let of := fun (w : Wave) (s : State) => { s with waves := [(0, w)] }
    gives (exec (.vrand h1 (.v 6)) (src { st := 1, buf := [9, 8] })) (fun t => (lastOp t).any (fun p => p.writes = [.v 6 [(0, 9)]]) && (t.core 0).noise.buf = [8]) = true
    ∧ gives (exec (.vrand h1 (.v 6)) (src { st := 1 })) (fun t => (t.wave 0).any (fun w => w.pc = 0x1000)) = true
    ∧ gives (exec (.vrand h1 (.v 6)) (src { st := 3 })) (fun t => (t.wave 0).any (fun w => w.lclass = 5)) = true
    ∧ gives (exec (.vrand h1 (.v 6)) (of { wM with nmode := 1, nstride := 384, draws := 1 } (src { st := 1, buf := [9] }))) (fun t => (t.wave 0).any (fun w => w.lclass = 5)) = true
    ∧ gives (exec (.vrand h1 (.v 6)) (of { wM with nmode := 1, nstride := 384, nlog := 0x1000 } (src { st := 1, buf := [9] }))) (fun t => (lastOp t).any (fun p => match p.kind with | .store .. => true | _ => false)) = true
    ∧ gives (exec (.vrand h1 (.v 6)) (of { wM with nmode := 2, nstride := 384, nlog := 0x1000 } (src {}))) (fun t => (lastOp t).any (fun p => match p.kind with | .load .. => true | _ => false)) = true := by decide +kernel

/-- Core 0 holds the dirty byte 0x1000. -/
def dirty (s : State) : State := s.modCore 0 (fun c => { c with l1 := [(0x1000, { val := 0xAB, dirty := true, stamp := 0 })] })
/-- Stores and atomics of a protected wave whose pairs disagree, with places and with a misaligned address. -/
theorem witness_disagree : ok (let w := { w0 with prot := true, emask := 3, v := [(192, 0x1000), (193, 0x1004), (384, 0x1001), (385, 0x1004)] }
    let s := { sM with waves := [(0, w)], launches := [] }
    let cls := fun (i : Instr) (n : Nat) => gives (exec i s) (fun t => (t.wave 0).any (fun x => x.lclass = n))
    [decide (Execute s w [.vst h1 .s .b32 (.s 4) (.v 2) 0, .vatom h1 .add false .dev (.v 6) (.v 2) (.int 0) .zero, .cmb h1 (.v 6) (.v 2) (.v 8) 1]), cls (.vst h1 .s .b32 (.s 4) (.v 2) (-0x1000)) 11, cls (.vatom h1 .add false .dev (.v 6) (.v 2) (.int 0) .zero) 11,
      cls (.cmb h1 (.v 6) (.v 2) (.v 8) 1) 11, cls (.vst h1 .s .b32 (.s 4) (.v 4) (-0x1000)) 6, cls (.vatom h1 .add false .dev (.v 6) (.v 4) (.int 0) .zero) 6, cls (.cmb h1 (.v 6) (.v 4) (.v 8) 1) 6]) = true := by decide +kernel
/-- R182: room in the L1: an empty one; a full one that holds the line. A store that goes through. -/
theorem witness_room : let a : LaneAcc := { lane := 0, addr := 0x1000, place := .dev 0x1000, n := 4, got := [some 1, some 2, some 3, some 4] }
    (sM.core 0).l1.length + ([a].map (fun a => (sentBytes a).length)).sum < 1024 ∧ Tbl.any ((dirty sM).core 0).l1 (fun x _ => x / 128 = 0x1000 / 128) = true
    ∧ (sM.storeLane 0 0 a).2 = true ∧ byteAt (sM.storeAll 0 0 [a]).1 0 (.dev 0x1003) = some 4 ∧ State.winners [a] = [a] := by decide +kernel
/-- R228, R231: a `cmb` whose line is held; a `ccommit` of poisoned object words. -/
theorem witness_combine_stops : ok (let batch : Batch := { pidN := 0, slice := 0, dpa := 0x1000, va := 0, method := 0, ent := {}, stat := .running, wave := some 99 }
    let i := Instr.cmb h1 (.v 6) (.v 2) (.v 4) 1
    let bad := { wC with poisonV := [(4, 1)] }
    let held := { dirty sM with batches := [(7, batch)] }
    [held.lineHeld 0x20 0, decide (Execute held wM [i]), gives (exec i held) (fun t => t.reqs = [] && (t.wave 0).any (fun w => w.pc = 0x1000)),
      decide (Execute { sC false with waves := [(0, bad)] } bad [.ccommit h1 4, .ccommitNw h1]), gives (exec (.ccommit h1 4) { sC false with waves := [(0, bad)] }) (fun t => t.batches = [])]) = true := by decide +kernel
/-- Every command with no reason against it, and with one: a count of zero or too much, a misaligned address. -/
theorem witness_copy_commands : ok (let at_ := fun (rs : Words 32) => { sM with waves := [(0, { wM with s := rs })], blocks := Tbl.modify sM.blocks 1 (fun b => { b with scrSize := 2 ^ 18 }) }
    let s := at_ [(4, 256), (6, 64), (10, 64), (12, 64), (13, 2)]
    let bad := at_ [(4, 258), (6, 66), (12, 64), (13, 257)]
    let queued := fun (i : Instr) => gives (exec i s) (fun t => (t.core 0).copy.length = 1)
    let traps := fun (i : Instr) (s : State) => gives (exec i s) (fun t => (t.wave 0).any (fun w => w.lclass = 8))
    let cs := [Instr.cpy h1 .s .g (.s 4) (.s 6) (.s 10) plain, .cpytLd h1 .s (.s 4) (.s 6) (.s 10) plain, .cpytSt h1 .s (.s 4) (.s 6) (.s 10) plain, .cpyg h1 .s (.s 4) (.s 6) (.s 12) plain, .cpys h1 .s (.s 4) (.s 6) (.s 12) plain, .cred h1 0 0 (.s 4) (.s 6) (.s 10) plain]
    cs.map queued ++ cs.map (fun i => traps i bad)) = true := by decide +kernel
theorem witness_matrix_commands : ok (let at_ := fun (rs : Words 32) => { sM with waves := [(0, { wM with s := rs })], blocks := Tbl.modify sM.blocks 1 (fun b => { b with scrSize := 2 ^ 18 }) }
    let s := at_ [(4, 256), (6, 64), (10, 96), (11, 8)]
    let bad := at_ [(4, 264), (10, 97)]
    let queued := fun (i : Instr) => gives (exec i s) (fun t => (t.core 0).mat.cmds.length = 1)
    let traps := fun (i : Instr) (s : State) => gives (exec i s) (fun t => (t.wave 0).any (fun w => w.lclass = 7))
    let cs := [Instr.mlds h1 .bf16 true (.s 4) 0 false plain, .mlds h1 .bf16 false (.s 4) 0 false plain, .mms h1 .e4m3 false 0 true true false true (.s 4) (.s 10) plain, .mdrain h1 .f32 true 0 false 0 (.s 4) (.s 10) plain, .mldacc h1 .f32 false 0 (.s 4) (.s 10) plain]
    cs.map queued ++ cs.map (fun i => traps i bad) ++ [queued (.mzero h1 0), traps (.mzero h1 5) s, traps (.mms h1 .bf16 false 5 true true false false (.s 4) (.s 10) plain) s]) = true := by decide +kernel

/-! Witnesses: the step, completion, exceptions, waves. -/

/-- A word and its instruction, for the statements about decoding. -/
def word0 : IWord := 0x0080FF000FFFFFFFFFF00000
def inv (s : State) : Bool := decide s.memWf

theorem witness_round_trip : (Instr.vfma h1 .f32 true (.v 6) (.v 2) (.v 4) (.v 2)).wf = true ∧ encode (.vfma h1 .f32 true (.v 6) (.v 2) (.v 4) (.v 2)) ≠ 0 := by decide
/-- A fetch from the words fetched ahead, from the instruction cache, and from a resident line. -/
theorem witness_fetch : let nop := fun (s : State) => gives (step s) (fun t => (t.wave 0).any (fun w => w.pc = 0x100C))
    let page : TlbE := { pasid := 0, va := 0, log := 24, loc := 0, peer := 0, base := 0, w := true, x := true }
    let line := { handled s0 with l2 := [(0x20, { old := [] })], mem := Memory.writeBytes [] 0x1000 (bytesOfWord word0) }
    decode word0 = some (.nop h0) ∧ w0.isReady = true
    ∧ nop { s0 with waves := [(0, { w0 with ahead := [(0x1000, word0)] })] } = true ∧ nop { s0 with cores := [(0, { icache := [(0, 0x1000, word0)] })] } = true
    ∧ (line.core 0).tlb = [page] ∧ line.admits 0 0x1000 12 false = true ∧ nop line = true := by decide +kernel
/-- A deferred fault, a pc of 2, a word that no instruction has. -/
theorem witness_fetch_traps : let cls := fun (s : State) => gives (step (handled s)) (fun t => (t.wave 0).any (fun w => w.inHandler)) && gives (step (handled s)) (fun t => t.cur = none)
    cls { s0 with waves := [(0, { w0 with deferred := [{ cls := 6, reason := 8, pc := 0, mask := 1, addr := 0 }] })] } = true
    ∧ cls { s0 with waves := [(0, { w0 with pc := 2 })] } = true
    ∧ cls { s0 with waves := [(0, { w0 with ahead := [(0x1000, 0)] })] } = true := by decide +kernel
theorem witness_schedule : gives (step { s0 with inbox := [.resume 0] }) (fun t => t.inbox = []) = true
    ∧ gives (step { State.reset with todo := [(0, 1)] }) (fun t => t.todo = []) = true
    ∧ gives (step { State.reset with fresh := [0], cores := [(0, { quads := [(2, { rot := [(0, [5])] })] })] }) (fun t => t.todo = [(0, 2)]) = true
    ∧ gives (step State.reset) (fun t => t.time = 1 && (t.die 0).phase = 1200) = true := by decide +kernel
theorem witness_memory_form : inv State.reset = true ∧ gives (step State.reset) inv = true := by decide +kernel
theorem witness_home : let s : State := { State.reset with l2 := [(0, { old := [] }), (1, { old := [] })] }
    (∀ l ∈ State.linesOf 126 4, Tbl.has s.l2 l = true) ∧ inv s = true ∧ ((s.homeWrite 126 [1, 2, 3, 4]).homeRead 126 4).2.1 = [1, 2, 3, 4] := by decide
/-- A result of fixed latency that is ready, and one that is not. -/
theorem witness_fixed : let p : Pend := { id := 9, kind := .alu, ready := 4, long := false, flag := 1, writes := [.s 8 5, .v 6 [(95, 1)]] }
    let s : State := { s0 with waves := [(0, { w0 with pend := [p], f := [(1, 1)] })] }
    gives (exec (.fixedResultReady 0 9) { s with dies := [(0, { cyc := 4 })] }) (fun t => (t.wave 0).any (fun w => w.sget 8 = 5 && w.vget 6 95 = 1 && w.flag 1 = 0 && w.pend = [])) = true
    ∧ gives (exec (.fixedResultReady 0 9) { s with dies := [(0, { cyc := 3 })] }) (fun t => (t.wave 0).any (fun w => w.pend = [p])) = true := by decide
/-- Long operations of every kind of the statement, with nothing left that they wait for. -/
theorem witness_long : let at_ := fun (k : PendKind) => { s0 with waves := [(0, { w0 with pend := [{ id := 9, kind := k, ready := 0, long := true, flag := 0, writes := [] }] })], cores := [(0, { dcache := [{ pasid := 0, va := 0, bytes := [] }], icache := [(0, 0, 0)] })] }
    let done := fun (k : PendKind) => gives (exec (.longOpComplete 0 9) (at_ k)) (fun t => (t.wave 0).any (fun w => w.pend = []))
    done .alu = true ∧ done .cache = true ∧ done (.fence .ar .dev []) = true ∧ done (.fence .acq .block []) = true ∧ done (.dfence []) = true ∧ done (.ifence .wave) = true ∧ done (.ifence .dev) = true
    ∧ (at_ (.fence .rel .dev [])).needsDone 0 [] = true ∧ gives (exec (.longOpComplete 0 9) (at_ (.fence .rel .dev [9]))) (fun t => (t.wave 0).any (fun w => w.pend ≠ [])) = true
    ∧ (let held := { at_ (.fence .rel .dev []) with cores := [(0, { l1 := [(0x1000, { val := 1, dirty := true, stamp := 0 })] })], batches := [(7, { pidN := 0, slice := 0, dpa := 0x1000, va := 0, method := 0, ent := {}, stat := .running })] }
       held.releaseReady 0 .dev = false ∧ stays (.longOpComplete 0 9) held = true) := by decide
/-- A word that a check refuses, a guard that stops a word of each level, poisoned sources and guards. -/
theorem witness_guards : (Instr.smov h0 .f32 (.s 8) (.s 4)).illegal 64 64 = some 3
    ∧ Reaches (.smov { h0 with lut := 0 } .b32 (.s 8) (.s 4)) { h0 with lut := 0 } s0 0 w0 ∧ guardWave (ctx false { h0 with lut := 0 } s0 0 w0) = false
    ∧ Reaches (.vmov { h1 with lut := 0 } .b32 (.v 6) (.v 2)) { h1 with lut := 0 } s0 0 w0 ∧ (ctx true { h1 with lut := 0 } s0 0 w0).act = 0
    ∧ guardPoison { w0 with poisonQ := 2 } { h0 with lut := 0xF0, ga := 1 } false ≠ 0 ∧ guardPoison { w0 with poisonQ := 2 } h0 false = 0
    ∧ poisonOf { w0 with poisonS := 16 } allLanes (.smov h0 .b32 (.s 8) (.s 4)) ≠ 0 := by decide
/-- The four ends of taking an exception: in the handler, fatal without one, waiting for the frame page, and in a combiner wave. -/
theorem witness_exception : let t : TrapRec := { cls := 10, reason := 0, mask := allLanes, ipc := 0x1000, epc := 0x100C }
    ((handled s0).deliverTrap 0 t).wave 0 ≠ none ∧ (s0.deliverTrap 0 t).wave 0 = none ∧ (({ handled s0 with waves := [(0, { w0 with inHandler := true })] }).deliverTrap 0 t).wave 0 = none
    ∧ ((({ handled s0 with cores := [], parts := [(0, { clmask := 1, tvec := 4, tfbase := 0x40000, ptbase := 0x40000, ptlen := 1 })], mem := [(0x40000, 1), (0x40001, 0x10)] }).deliverTrap 0 t).wave 0).any (fun (w : Wave) => w.stat = WStat.trapWait && w.trapPend = some t) = true
    ∧ (((sC false).deliverTrap 0 t).batches = [])
    ∧ (let other := { handled s0 with arm := { (handled s0).arm with spans := [(0, { layout := 0, stat := 1, owner := 1 })] } }
       (other.storeFrame 0 w0 t (.dev 0x40000)).2 = false ∧ (other.deliverTrap 0 t).wave 0 = none) := by decide +kernel
/-- A fatal trap with a core dump and without. -/
theorem witness_fatal : let t : TrapRec := { cls := 10, reason := 0, mask := allLanes, ipc := 0x1000, epc := 0x100C }
    ((sM.fatalTrap 0 t).launch 1).any (fun l => l.status = 32) = true ∧ (sM.fatalTrap 0 t).wave 0 = none
    ∧ (({ sM with parts := [(0, { dmen := true })] }.fatalTrap 0 t).wave 0).any (fun (w : Wave) => w.trapPend = some t) = true := by decide +kernel
/-- Mismatches outside a region, in one, and in one restarted three times; a restart; a dump; a delivery that waited; a barrier that is passed and one that is not. -/
theorem witness_stopped : let r : Region := { entry := 0x900, restarts := 2, n := 4 }
    let at_ := fun (w : Wave) => { handled s0 with waves := [(0, w)] }
    ((at_ w0).mismatch 0 w0).wave 0 ≠ (at_ w0).wave 0 ∧ (((at_ { w0 with region := some r }).mismatch 0 { w0 with region := some r }).wave 0).any (·.restart) = true
    ∧ (((at_ { w0 with region := some { r with restarts := 3 } }).mismatch 0 { w0 with region := some { r with restarts := 3 } }).wave 0).any (fun w => w.lclass = 11) = true
    ∧ gives (exec (.regionRestart 0) (at_ { w0 with region := some r, restart := true })) (fun t => (t.wave 0).any (fun w => w.pc = 0x900 && w.draws = 4) && (t.part 0).plrst = 1) = true
    ∧ gives (exec (.trapDeliver 0) (at_ { w0 with stat := .trapWait, trapPend := some { cls := 6, reason := 8, mask := 1, ipc := 0, epc := 0 } })) (fun t => (t.wave 0).any (fun w => w.inHandler && w.lclass = 6)) = true
    ∧ gives (exec (.coreDump 1) (at_ { w0 with stat := .dumping 0 0xFF, trapPend := some { cls := 6, reason := 8, mask := 1, ipc := 0, epc := 0 } })) (fun t => t.wave 0 = none) = true
    ∧ gives (exec (.barrierWake 0) { sM with waves := [(0, { wM with stat := .barWait 3, arr := [(3, 0xFFFF)] })] }) (fun t => (t.wave 0).any (fun w => w.stat = .ready)) = true
    ∧ gives (exec (.barrierWake 0) { sM with waves := [(0, { wM with stat := .barWait 3, arr := [(3, 0)] })] }) (fun t => (t.wave 0).any (fun w => w.stat = .barWait 3)) = true := by decide +kernel
theorem witness_timers : let at_ := fun (w : Wave) (n : Nat) => { s0 with waves := [(0, w)], dies := [(0, { cyc := n })] }
    gives (exec (.yieldEnd 0) (at_ { w0 with yieldTil := some 64 } 64)) (fun t => (t.wave 0).any (fun w => w.yieldTil = none)) = true
    ∧ gives (exec (.yieldEnd 0) (at_ { w0 with yieldTil := some 64 } 63)) (fun t => (t.wave 0).any (fun w => w.yieldTil = some 64)) = true
    ∧ gives (exec (.sleepEnd 0) (at_ { w0 with stat := .sleeping 7 } 7)) (fun t => (t.wave 0).any (fun w => w.stat = .ready)) = true
    ∧ gives (exec (.sleepEnd 0) (at_ { w0 with stat := .sleeping 7 } 6)) (fun t => (t.wave 0).any (fun w => w.stat = .sleeping 7)) = true
    ∧ stays (.waveRetire 0) (at_ { w0 with stat := .exiting, pend := [{ id := 9, kind := .alu, ready := 4, long := true, flag := 0, writes := [] }] } 0) = true
    ∧ gives (exec (.waveOverdue 0) (at_ { w0 with run := some (0, 2) } 16)) (fun t => (t.wave 0).any (·.overdue)) = true
    ∧ gives (exec (.waveRetire 0) (at_ { w0 with stat := .exiting } 0)) (fun t => t.wave 0 = none && (t.block 1).any (fun b => b.waves = [])) = true := by decide
/-- A quad of two waves, of which the one of higher priority is chosen. -/
theorem witness_issue : let s : State := { s0 with cur := none, waves := [(0, w0), (1, { w0 with prio := 2 })], cores := [(0, { quads := [(0, { rot := [(0, [0]), (2, [1])] })], icache := [(0, 0x1000, word0)] })], todo := [(0, 0)] }
    gives (exec (.issueSelect 0 0) s) (fun t => t.cur = some 1 && t.todo = []) = true ∧ standing s 1 { w0 with prio := 2 } = 2
    ∧ gives (exec (.issueSelect 0 0) { s with waves := [(0, { w0 with stat := .exiting })] }) (fun t => t.cur = none && t.todo = []) = true
    ∧ gives (exec (.issueSelect 0 0) { s with waves := [(0, { w0 with yieldTil := some 64 }), (1, { w0 with stat := .sleeping 9 })] }) (fun t => t.todo = []) = true := by decide +kernel

/-! Witnesses: the steps of the units. Each list holds what the hypotheses of the named statement ask and what its step then answers. -/

/-- A state with a request in flight, at its home slice as it stands. -/
def asks (s : State) (q : Req) : State := { s with reqs := [(3, { q with home := s.homeNow q.line })] }
def req (k : ReqKind) : Req := { kind := k, cid := 0, wave := 0, op := 9, pidN := 0, line := 0x20, home := 0 }
/-- Wave 0 waits for an operation. -/
def awaits (k : PendKind) : State := { sM with waves := [(0, { wM with pend := [{ id := 9, kind := k, ready := 0, long := true, flag := 1, writes := [] }], f := [(1, 1)] })] }
def gone (t : State) : Bool := (Tbl.get? t.reqs 3).isNone
def lane0 : LaneAcc := { lane := 0, addr := 0x1000, place := .dev 0x1000, n := 4, got := [some 7, none, none, none] }

theorem witness_requests : ok (let base := { awaits (.load .b32 true (some 6) [lane0]) with mem := [(0x1001, 5)] }
    let batch : Batch := { pidN := 0, slice := 0, dpa := 0x1000, va := 0, method := 0, ent := {}, stat := .running }
    [base.admits 0 0x1000 128 true, Tbl.has base.l2 0x20, !base.lineHeld 0x20 0, base.homeNow 0x20 != 9999, !base.admits 1 0x1000 128 false,
      gives (exec (.movedResend 3) (asks base { req (.load []) with moved := true })) (fun t => List.all t.reqs (fun (e : Nat × Req) => e.2.home = base.homeNow 0x20 && !e.2.moved)),
      gives (exec (.homeSliceAccess 3) { base with reqs := [(3, { req (.load []) with home := 9999 })] }) (fun t => List.all t.reqs (fun (e : Nat × Req) => e.2.moved)),
      gives (exec (.homeSliceAccess 3) (asks base (req (.load [1])))) (fun t => gone t && (t.pend 0 9).any (fun p => p.kind.accs.all (fun a => a.got = [some 7, some 5, some 0, some 0]))),
      gives (exec (.homeSliceAccess 3) (asks base { req (.load [1]) with pidN := 1 })) (fun t => gone t && (t.part 1).ovcnt = 1 && t.opWait.length = 1),
      gives (exec (.homeSliceAccess 3) (asks (dirty base) (req (.store [0])))) (fun t => gone t && Memory.read t.mem 0x1000 = 0xAB && (Tbl.get? (t.core 0).l1 0x1000).any (fun b => !b.dirty)),
      gives (exec (.homeSliceAccess 3) (asks base (req (.prefetch true)))) (fun t => gone t && (Tbl.get? (t.core 0).l1 0x1001).any (fun b => b.val = 5)),
      gives (exec (.homeSliceAccess 3) (asks (dirty base) (req (.control true)))) (fun t => gone t && (t.core 0).l1 = []),
      gives (exec (.atomicGroup 3) (asks { base with waves := (awaits (.atomic false true (some 6) [] 0 [])).waves } (req (.atomic .add false (.dev 0x1000) 0x1000 [(0, 1, 0)])))) (fun t => gone t && Memory.readBytes t.mem 0x1000 4 = [1, 5, 0, 0]),
      stays (.atomicGroup 3) (asks base { req (.atomic .add false (.dev 0x1000) 0x1000 []) with moved := true }),
      stays (.homeSliceAccess 3) { asks base (req (.load [])) with batches := [(7, batch)] }]) = true := by decide +kernel

theorem witness_returns : ok (let full := { lane0 with got := [some 7, some 5, some 0, some 0] }
    let fault := fun (reason : Nat) => Instr.deferredFaultArrive ⟨0, 9, 0xFFFFFFFF⟩ 6 reason 0x1000 1 0x1000
    let at_ := fun (w : Wave) => { sM with waves := [(0, w)] }
    let cmb : PendKind := .cmb 6 1 [{ lane := 0, status := 0, reply := some 77, stamp := 5 }]
    [gives (exec (.loadDataReturn 0 9) (awaits (.load .b32 true (some 6) [full]))) (fun t => t.inbox = [] && (t.wave 0).any (fun w => w.vget 6 0 = 0x507 && w.flag 1 = 0 && w.pend = [])),
      gives (exec (.loadDataReturn 0 9) (awaits (.load .b32 true (some 6) [{ full with refused := true }]))) (fun t => t.inbox.length = 1),
      gives (exec (.storeVisible 0 9) (awaits (.store [full]))) (fun t => (t.wave 0).any (fun w => w.flag 1 = 0 && w.pend = [])),
      gives (exec (.storeVisible 0 9) (awaits (.store [{ full with refused := true }]))) (fun t => t.inbox.length = 1),
      gives (exec (fault 8) (at_ { wM with stat := .sleeping 99 })) (fun t => (t.wave 0).any (fun w => w.stat = .ready && w.deferred.length = 1)),
      gives (exec (fault 8) (at_ { wM with stat := .sleeping 99, inHandler := true })) (fun t => (t.wave 0).any (fun w => w.stat = .sleeping 99 && w.deferred.length = 1)),
      gives (exec (fault 8) (at_ { wM with stat := .exiting })) (fun t => (t.wave 0).any (fun w => w.deferred = [])),
      (awaits cmb).reqsOf 0 9 = [],
      gives (exec (.cmbStatusArrive 0 9) (awaits cmb)) (fun t => t.lc (lcCore 0) = 6 && (t.wave 0).any (fun w => w.vget 6 0 = 77 && w.vget 7 0 = 0 && w.pend = []))]) = true := by decide +kernel

theorem witness_core_caches : ok (let old := { (dirty sM) with dies := [(0, { cyc := 8192 })] }
    let clean := old.modCore 0 (fun c => { c with l1 := [(0x1000, { val := 0xAB, dirty := false, stamp := 0 })] })
    let word := { sM with cores := [(0, { sM.core 0 with icache := [(asid 0 0, 0x100C, 5)] })] }
    let leaf := { sM with cores := [], parts := [(0, { clmask := 1, ptbase := 0x40000, ptlen := 1, fbbase := 0x1000 })], l2 := [(0x20, { old := List.replicate 128 0 }), (0x800, { old := List.replicate 128 0 })], mem := [(0x40000, 1), (0x40001, 0x10)] }
    let missing : FaultKey := { pasid := 0, page := 0, kind := .read }
    [lineFree old 0 0x20, old.admits (old.partOfCore 0) 0x1000 128 true && Tbl.has old.l2 0x20, canonical 0x1000, !canonical (2 ^ 60),
      gives (exec (.l1Eviction 0 0x20) old) (fun t => (t.core 0).l1 = [] && Memory.read t.mem 0x1000 = 0xAB),
      gives (exec (.l1DirtyTimeout 0 0x20) old) (fun t => (t.core 0).l1 = [(0x1000, { val := 0xAB, dirty := false, stamp := 0 })] && Memory.read t.mem 0x1000 = 0xAB),
      gives (exec (.l1DirtyTimeout 0 0x20) { old with dies := [(0, { cyc := 8191 })] }) (fun t => (t.core 0).l1 = (old.core 0).l1),
      gives (exec (.l1CleanTimeout 0 0x20) clean) (fun t => (t.core 0).l1 = []), gives (exec (.l1CleanTimeout 0 0x20) old) (fun t => (t.core 0).l1 = (old.core 0).l1),
      !lineFree { old with reqs := [(3, req (.atomic .add false (.dev 0x1000) 0x1000 []))] } 0 0x20, stays (.l1Eviction 0 0x20) { old with reqs := [(3, req (.atomic .add false (.dev 0x1000) 0x1000 []))] },
      gives (exec (.pageWalk 0 0 0x1000 .read) sM) (fun t => (t.core 0).tlb = (sM.core 0).tlb),
      stays (.pageWalk 0 0 (2 ^ 60) .read) sM,
      gives (exec (.pageWalk 0 0 0x1000 .read) leaf) (fun t => (t.part 0).keys = [missing] && (t.part 0).fbput = 1 && (t.part 0).fbseq = 1),
      gives (exec (.fetchAhead 0 0x100C) word) (fun t => (t.wave 0).any (fun w => w.ahead = [(0x100C, 5)])),
      gives (exec (.fetchAhead 0 0x100C) { leaf with parts := [] }) (fun t => (t.wave 0).any (fun w => w.ahead = []))]) = true := by decide +kernel

/-- LongOperationsComplete: an atomic whose answers are all there, in lanes of a vector register, of a pair and in a scalar register. -/
theorem witness_atomic_done : ok (let at_ := fun (k : PendKind) => { s0 with waves := [(0, { w0 with pend := [{ id := 9, kind := k, ready := 0, long := true, flag := 1, writes := [] }], f := [(1, 1)] })] }
    let ends := fun (k : PendKind) (f : Wave → Bool) => gives (exec (.longOpComplete 0 9) (at_ k)) (fun t => (t.wave 0).any (fun w => w.pend = [] && w.flag 1 = 0 && f w))
    [(at_ (.atomic false true (some 6) [(0, 5), (95, 7)] 0 [])).reqsOf 0 9 = [], ends (.atomic false true (some 6) [(0, 5), (95, 7)] 0 []) (fun w => w.vget 6 0 = 5 && w.vget 6 95 = 7 && w.vget 7 0 = 0),
      ends (.atomic true true (some 6) [(0, 5 + 2 ^ 32)] 0 []) (fun w => w.vget 6 0 = 5 && w.vget 7 0 = 1), ends (.atomic false false (some 8) [(0, 5)] 0 []) (fun w => w.sget 8 = 5), ends (.atomic false true none [(0, 5)] 0 []) (fun w => w.v = w0.v)]) = true := by decide +kernel
/-- FetchTraps: the reasons of a refused fetch, and words that no instruction has, from the instruction cache and from memory. -/
theorem witness_fetch_reasons : ok (let entry := fun (x : Bool) (loc base : Nat) => ({ pasid := 0, va := 0, log := 16, loc := loc, peer := 0, base := base, w := true, x := x } : TlbE)
    let at_ := fun (w : Wave) (e : TlbE) => let s := handled { s0 with waves := [(0, w)] }
      { s with cores := [(0, { s.core 0 with tlb := e :: (s.core 0).tlb })] }
    let traps := fun (cls reason : Nat) (s : State) => gives (step s) (fun t => t.cur = none && (t.wave 0).any (fun w => w.lclass = cls) && byteAt t 0 (.dev 0x40012) = some (BitVec.ofNat 8 reason))
    let here := at_ w0 (entry true 0 0)
    [traps 1 2 (at_ { w0 with pc := 0x1000000000000000 } (entry true 0 0)), traps 1 2 (at_ { w0 with refusedPages := [(0, .fetch)] } (entry true 0 0)), traps 1 2 (at_ w0 (entry false 0 0)), traps 1 2 (at_ w0 (entry true 1 0)),
      !here.admits 0 0x2000000 12 false, traps 1 4 (at_ w0 (entry true 0 0x2000000)), here.admits 0 0x1000 12 false, traps 1 3 { here with badLines := [0x20] },
      decode (wordOfBytes (Memory.readBytes here.mem 0x1000 12)) = none, traps 2 1 here, traps 2 1 { here with cores := [(0, { here.core 0 with icache := [(asid 0 0, 0x1000, 0)] })] },
      illegalReason 64 64 0 = some 1]) = true := by decide +kernel
/-- FatalTraps: a record in the ring, a ring that is full, one that is not enabled. -/
theorem witness_fatal_record : ok (let t : TrapRec := { cls := 10, reason := 3, mask := allLanes, ipc := 0x1000, epc := 0x100C, code := 5 }
    let at_ := fun (q : Part) => { sM with parts := [(0, { q with elbase := 0x1000 })] }
    let kept := (at_ { elen := true }).fatalTrap 0 t
    let full := (at_ { elen := true, elput := BitVec.ofNat 32 (2 ^ ({} : Part).ellog2n) }).fatalTrap 0 t
    let off := (at_ {}).fatalTrap 0 t
    [(at_ { elen := true }).ringOk 0 0x1000 0x1000 32, (State.linesOf 0x1000 32).all (fun l => Tbl.has sM.l2 l && !(at_ {}).lineHeld l 0xFFFFFFFF), Memory.readBytes kept.mem 0x1004 8 = [0, 0, 1, 10, 3, 0, 0, 1], (kept.part 0).elput = 1,
      Words.get kept.seqs 0 = 1, full.mem = sM.mem && (full.part 0).eldrop = 1 && Words.get full.seqs 0 = 1, off.mem = sM.mem && (off.part 0).eldrop = 1]) = true := by decide +kernel
/-- MismatchesAndStoppedWaves: a dump that a hold keeps waiting; the pages of a dump, written and not; its header and its body. -/
theorem witness_dump : ok (let t : TrapRec := { cls := 6, reason := 8, mask := 1, ipc := 0, epc := 0 }
    let s : State := handled { s0 with waves := [(0, { w0 with vregs := 8, sregs := 8, stat := .dumping 0 0xFF, trapPend := some t })], launches := [(1, { pidN := 0, pasid := 0, src := .sub 0 0, prio := 0, seq := 0, rc := {}, desc := {} })] }
    let room := fun (n : Nat) => { s with parts := [(0, { s.part 0 with dmbase := 0x1000, dmsize := n })] }
    let batch : Batch := { pidN := 0, slice := 0, dpa := 0x1000, va := 0, method := 0, ent := {}, stat := .running }
    let w : Wave := (s.wave 0).getD w0
    let off := fun (va n : Nat) => (s.dumpWrite 0 w [(va, n)] [1, 2] 0).2
    [!(room 64).dumpHeld 0 w, { room 64 with batches := [(7, batch)] }.dumpHeld 0 w, stays (.coreDump 1) { room 64 with batches := [(7, batch)] },
      off 0x1000 2 = 2, off (2 ^ 60) 2 = 0, off 0x2000000 2 = 0, ({ s with arm := { s.arm with spans := [] } }.dumpWrite 0 w [(0x1000, 2)] [1, 2] 0).2 = 0, Memory.readBytes (s.dumpWrite 0 w [(0x1000, 2)] [1, 2] 0).1.mem 0x1000 2 = [1, 2],
      (State.linesOf 0x1000 2).all (fun l => Tbl.has s.l2 l && !s.lineHeld l 0xFFFFFFFF && !Tbl.any (s.core 0).l1 (fun x _ => x / 128 = l)), w.errs = [] && w.stateCode < 128,
      (s.launch 1).isSome, gives (exec (.coreDump 1) (room 64)) (fun t => t.wave 0 = none && (t.part 0).dmstat = 2 && Memory.readBytes t.mem 0x1000 3 = [1, 1, 2]), gives (exec (.coreDump 1) (room 0)) (fun t => (t.part 0).dmstat = 2)]) = true := by decide +kernel
/-- WaveTimers, IssueRules: an exiting wave with a flag up; waves that stand otherwise than eligible, and why. -/
theorem witness_standing : ok (let st := fun (i : Instr) (w : Wave) (c : Core) => standing { s0 with waves := [(0, w)], cores := [(0, { c with icache := [(0, 0x1000, encode i)] })], dies := [(0, { cyc := 10 })] } 0 w
    let plainSt := fun (w : Wave) => st (.smov h0 .b32 (.s 8) (.s 4)) w {}
    let op := fun (k : PendKind) => { w0 with pend := [{ id := 9, kind := k, ready := 99, long := true, flag := 0, writes := [] }] }
    let fault : DFault := { cls := 6, reason := 8, pc := 0, mask := 1, addr := 0 }
    let cmd : EngCmd := { id := 5, wave := 1, op := 9, block := 2, prio := 0, pidN := 0, pasid := 0, pc := 0x1000, instr := .mzero h1 0, args := [] }
    let none_ : Instr := .vld { h1 with lut := 0 } .g .b32 (.v 6) (.v 2) 0
    [stays (.waveRetire 0) { s0 with waves := [(0, { w0 with stat := .exiting, f := [(3, 1)] })] }, plainSt w0 = 2, plainSt { w0 with stat := .sleeping 99 } = 0, plainSt { w0 with lastIssue := some 10 } = 0, plainSt { w0 with waitFlag := some (1, 0), f := [(1, 1)] } = 0,
      st (.smov { h0 with stall := 7 } .b32 (.s 8) (.s 4)) { w0 with lastIssue := some 8 } {} = 0, st (.smov { h0 with wait := 1 } .b32 (.s 8) (.s 4)) { w0 with f := [(1, 1)] } {} = 0, st (.smov h1 .b32 (.s 8) (.s 4)) { w0 with f := [(1, 63)] } {} = 0,
      st (.smov { h1 with lut := 0 } .b32 (.s 8) (.s 4)) { w0 with f := [(1, 63)] } {} = 2, plainSt { w0 with deferred := [fault] } = 2, st (.smov { h0 with wait := 1 } .b32 (.s 8) (.s 4)) { w0 with f := [(1, 1)], deferred := [fault] } {} = 0,
      st (.vld h1 .g .b32 (.v 6) (.v 2) 0) (op (.fence .ar .dev [])) {} = 0, st (.sld { h1 with lut := 0 } .g .b32 (.s 8) (.s 4) 0) (op (.fence .ar .dev [])) {} = 2, st none_ (op (.fence .ar .dev [])) {} = 0, st (.cend h0) (op .reply) {} = 0, st (.cend { h0 with lut := 0 }) (op .reply) {} = 2,
      plainSt (op (.bar 3 1 0 [] 0)) = 0, st (.mzero h1 0) w0 { mat := { cmds := List.replicate 16 cmd } } = 0, st (.mzero h1 0) w0 { mat := { cmds := List.replicate 12 cmd } } = 0, st (.mzero h1 0) w0 { mat := { cmds := List.replicate 11 cmd } } = 2,
      st (.vrand h1 (.v 6)) w0 {} = 0, st (.vadd h0 .i32 false (.v 6) (.v 2) (.v 4)) w0 { quads := [(0, { busy := 11 })] } = 1, st (.vadd { h0 with lut := 0 } .i32 false (.v 6) (.v 2) (.v 4)) w0 { quads := [(0, { busy := 11 })] } = 2, plainSt w0 = 2]) = true := by decide +kernel
/-- RequestsAtTheirHome: another load of the core to the same line; a refused store, a refused atomic, a refused load that is alone. -/
theorem witness_refused_requests : ok (let mine : PendKind := .load .b32 true (some 6) [lane0]
    let base := { awaits mine with mem := [(0x1001, 5)] }
    let two := { base with reqs := [(3, { req (.load [1]) with home := base.homeNow 0x20 }), (4, { req (.load [2]) with home := base.homeNow 0x20 })] }
    let other := fun (k : PendKind) (q : ReqKind) => asks { dirty (awaits k) with parts := [(1, { clmask := 2 })] } { req q with pidN := 1 }
    let counted := fun (t : State) => (t.part 1).ovcnt = 1 && (t.part 1).ovaddr = 0x1000 && t.opWait.length = 1
    [gives (exec (.homeSliceAccess 3) two) (fun t => (Tbl.get? t.reqs 4).isNone && (Tbl.get? t.reqs 3).isNone), base.owner 0x1000 ≠ some 1,
      gives (exec (.homeSliceAccess 3) (other (.store [lane0]) (.store [0]))) (fun t => gone t && counted t && (Tbl.get? (t.core 0).l1 0x1000).isNone && (t.pend 0 9).any (fun p => p.kind.accs.all (·.refused))),
      gives (exec (.homeSliceAccess 3) (other mine (.load [1]))) (fun t => gone t && counted t && (t.pend 0 9).any (fun p => p.kind.accs.all (·.refused))),
      gives (exec (.atomicGroup 3) (other (.atomic false true (some 6) [] 0 []) (.atomic .add false (.dev 0x1000) 0x1000 [(0, 1, 0)]))) (fun t => gone t && counted t
        && (t.pend 0 9).any (fun p => match p.kind with | .atomic _ _ _ rets _ refused => rets = [] && refused = [(0, 0x1000)] | _ => false))]) = true := by decide +kernel

/-- Span 0 with the layout 0 to 9 and a frame in every stack, span 1 with the same; layout 1 is the other way round. -/
def sF : State := { sM with arm := { sM.arm with frames := (List.range 10).map (fun t => (nSpan * t, 5)), layouts := [(0, List.range 10), (1, (List.range 10).reverse)] } }
def stored : State := { sF with l2 := [(0x20, { dirty := 1, old := List.replicate 128 0 })], mem := [(0x1000, 0xAB)] }
def phys0 (s : State) (n : Nat) : Nat := (s.phys 0 4 n).getD 0

/-- The ten places of a stripe do not overlap. -/
theorem witness_places : (let ps := (List.range 10).map (phys0 sF); decide (ps.Pairwise (fun a b => a + 128 ≤ b ∨ b + 128 ≤ a))) = true := by decide +kernel
theorem witness_storage : ok [spanOf 0x1000 = 0, stripeOf 0x1000 = 4, (s0.phys 0 4 0).isNone, (List.range 10).all (fun n => (sF.phys 0 4 n).any (fun a => a % 32 = 0)),
    stored.deltaRoom 0 4 0 && stored.deltaRoom 0 4 1, stays (.l2Writeback 0x20) sF] = true := by decide +kernel
theorem witness_writeback : gives (exec (.l2Writeback 0x20) stored) (fun t => (Tbl.get? t.l2 0x20).any (fun e => e.dirty = 0) && t.hbm = [(phys0 sF ((4 + dataOf 0x1000) % 10), 0xAB)]
    && (Tbl.getD t.deltas (State.deltaKey 0 4 0) []).head? = some 0xAB) = true := by decide +kernel
theorem witness_delta_drain : gives (exec (.checkDeltaDrain 4 false) { sF with deltas := [(State.deltaKey 0 4 0, List.replicate 128 3)] }) (fun t => Memory.readBytes t.hbm (phys0 sF 2) 128 = List.replicate 128 3 && t.deltas = []) = true := by decide +kernel
/-- Channel 0 as given. -/
def sChan (c : Chan) : State := { sF with chans := [(0, c)] }
/-- A remap table that is full, without an entry for frame 3 and without its target. -/
def fullMap : Tbl (Nat × Nat) := (List.range 4096).map (fun n => (10000 + n, (0, 0)))
theorem witness_remap_full : 4096 ≤ fullMap.length ∧ Tbl.has fullMap 3 = false ∧ (sChan { remap := fullMap }).targetUsed 0 1 7 = false := by
  refine ⟨by simp [fullMap], by decide +kernel, by decide +kernel⟩
theorem witness_rasp : ok [gives (exec (.raspRow 0) (sChan {})) (fun t => (t.chan 0).pos = 1), stays (.raspRow 0) (sChan { dead := true })] = true := by decide +kernel
theorem witness_rasp_wrap : gives (exec (.raspRow 0) (sChan { pos := 2097151, ue := 3 })) (fun t => (t.chan 0).pos = 0 && (t.chan 0).pass = 1 && (t.chan 0).ue = 0) = true := by decide +kernel
theorem witness_repair : ok [gives (exec (.rowRepair 0 5) (sChan { ppr := 1, due := [5] })) (fun t => (t.chan 0).ppr = 0 && (t.chan 0).due = [] && t.opWait.length = 1), gives (exec (.rowRepair 0 160) (sChan { ppr := 0, due := [160] })) (fun t => (t.chan 0).due = [] && (t.chan 0).moves = [5]), stays (.rowRepair 0 5) (sChan { ppr := 1 }),
    (sChan { moves := [5] }).spareFrame 0 = some (0, 65535),
    !sF.targetUsed 0 1 7 && sF.stackOk 0, (sChan {}).hbmErr = [] && !Tbl.has ((sChan {}).chan 0).remap 3 && ((sChan {}).chan 0).remap.length < 4096,
    gives (exec (.channelInterfaceFail 0) (sChan {})) (fun t => (t.chan 0).dead && t.inbox = [] && t.opWait.length = 1),
    gives (exec (.channelInterfaceFail 0) { sF with chans := [(1, { dead := true }), (2, { dead := true }), (3, { dead := true })] }) (fun t => t.inbox = [.stackFail 0]), stays (.channelInterfaceFail 0) (sChan { dead := true })] = true := by decide +kernel
/-- A line whose channel reads no byte of it, in a stripe whose other lines can be read. -/
theorem witness_stripe : ok (let a := phys0 sF 4
    let bad := { sF with hbm := [(phys0 sF 5, 6)], hbmErr := (List.range 4).flatMap (fun k => (List.range 3).map (fun i => (State.errKey (a + 32 * k) i, (1 : Byte)))) }
    [(bad.rawLine (some a)).all (·.isNone), (List.range 10).all (fun n => n = 4 || (bad.rawLine (some (phys0 sF n))).all (·.isSome)), gives (exec (.stripeDecode 4) bad) (fun t => Memory.read t.hbm a = 6)]) = true := by decide +kernel

theorem witness_armature : ok (let r : Recaster := { span := 1, layout := 1 }
    let with_ := fun (r : Recaster) (e : SpanE) => { sF with recasters := [(0, r)], mem := [(8, 0x89), (9, 0x67), (10, 0x45), (11, 0x23), (12, 0x01)], l2 := [(0, { old := [] })], arm := { sF.arm with spans := [(0, { layout := 0, stat := 1, owner := 0 }), (1, e)] } }
    let e : SpanE := { layout := 0, stat := 1, owner := 0 }
    let moving := with_ { r with busy := true } { e with stat := 4 }
    let last := with_ { r with busy := true, unit := 1023 } { e with stat := 4, cursor := 1023 }
    let batch : Batch := { pidN := 0, slice := 0, dpa := 128 * 65536, va := 0, method := 0, ent := {}, stat := .running }
    [gives (exec (.stackFail 3) sF) (fun t => t.arm.stk = 0x40 && (Tbl.get? t.arm.spans 1).any (fun e => e.stat = 2)), stays (.stackFail 3) { sF with arm := { sF.arm with stk := 0x40 } },
      gives (exec (.spnUpd 5) { sF with arm := { sF.arm with stbase := 0x2000 }, l2 := [(0x40, { old := [] })], mem := [(0x2014, 3), (0x2015, 0x10)] }) (fun t => t.arm.updBusy = some 5 && Tbl.get? t.arm.spans 5 = some { layout := 3, stat := 1, owner := 0 }),
      stays (.spnUpd 1) moving, gives (exec .spnUpdDone { sF with arm := { sF.arm with updBusy := some 5 } }) (fun t => t.arm.updBusy = none),
      stays .spnUpdDone { sF with arm := { sF.arm with updBusy := some 5 }, reqs := [(3, { req (.load []) with home := 9999 })] },
      !(with_ r e).rcsRefused r ((with_ r e).readLayout r.layout).2, gives (exec (.rcsMigrate 0) (with_ r e)) (fun t => (t.recaster 0).busy && (Tbl.get? t.arm.spans 1).any (fun e => e.stat = 4)),
      gives (exec (.rcsMigrate 0) (with_ r { e with stat := 5 })) (fun t => (t.recaster 0).err),
      (moving.movingLines 0).length = 64, gives (exec (.recasterUnit 0) moving) (fun t => (t.recaster 0).unit = 1 && (Tbl.get? t.arm.spans 1).any (fun e => e.cursor = 1)),
      gives (exec (.recasterUnit 0) { moving with batches := [(7, batch)] }) (fun t => (t.recaster 0).hold && (t.recaster 0).unit = 0),
      gives (exec (.recasterUnit 0) last) (fun t => !(t.recaster 0).busy && (t.recaster 0).done = 1 && (Tbl.get? t.arm.spans 1).any (fun e => e.cursor = 0)), stays (.recasterUnit 0) sF,
      gives (exec (.lineHandoff 0 65536) moving) (fun t => (t.recaster 0).handed = [65536] && (t.recaster 0).hold),
      stays (.lineHandoff 0 65536) (with_ { r with busy := true, handed := [65536] } { e with stat := 4 })]) = true := by decide +kernel

/-- Partition 0 with a CHU that takes method 1, and a combine request of wave 0. -/
def sU : State := let s := awaits (.cmb 6 1 [])
  { s with parts := [(0, { clmask := 1, chuEn := true, tvec := 0x8000, tfbase := 0x40000, mtb := 0x1000, methods := [(1, { code := 0x3000, valid := true, args := 1, size := 1, batch := 2, window := 8 })] })] }
def combine (method : Nat) : ReqKind := .combine 0x1000 0x1000 method 0 [(0, 5, 6)]
def formed : Batch := { pidN := 0, slice := 0, dpa := 0x1000, va := 0x1000, method := 1, ent := { code := 0x3000, valid := true, args := 1, size := 1, batch := 2, window := 8 }, stat := .formed, reqs := [{ cid := 0, wave := 0, op := 9, lane := 0, a0 := 5, a1 := 6 }] }

theorem witness_combining : ok (let b1 := { sU with batches := [(7, { formed with stat := .forming })], nextId := 8 }
    let run := { sU with batches := [(7, { formed with stat := .running, wave := some (combinerKey 0) })], nextId := 8 }
    let at_ := fun (s : State) (n : Nat) => { s with dies := [(0, { cyc := n })] }
    [!sU.recHeld 0x20, chuPending sU (sU.homeNow 0x20) < 1536, sU.admits 0 0x1000 128 true, (formingFor sU 0 0x1000 1).isNone, chuRefusal (sU.part 0) (Tbl.getD (sU.part 0).methods 1 {}) 0 0x1000 = none,
      gives (exec (.cmbRequestArrive 3) (asks sU (req (combine 1)))) (fun t => gone t && List.any t.batches (fun (e : Nat × Batch) => e.2.stat = .forming && e.2.reqs.map (·.a0) = [5])),
      (formingFor b1 0 0x1000 1).isSome, gives (exec (.cmbRequestArrive 3) (asks b1 (req (combine 1)))) (fun t => gone t && (Tbl.get? t.batches 7).any (fun b => b.stat = .formed && b.reqs.length = 2)),
      gives (exec (.cmbRequestArrive 3) (asks sU (req (combine 2)))) (fun t => gone t && t.batches = [] && (t.part 0).nrefuse = 1 && (t.pend 0 9).any (fun p => match p.kind with | .cmb _ _ rets => rets.map (·.status) = [1] | _ => false)),
      gives (exec (.batchWindowExpire 7) (at_ b1 8)) (fun t => (Tbl.get? t.batches 7).any (fun b => b.stat = .formed)), stays (.batchWindowExpire 7) (at_ b1 7),
      gives (exec (.batchDispatch 0) { sU with batches := [(7, formed)], mem := [(0x1000, 9)] }) (fun t => (Tbl.get? t.batches 7).any (fun b => b.stat = .running) && (t.wave (combinerKey 0)).any (fun w => w.pc = 0x3000 && w.vget 4 0 = 9 && w.vget 1 0 = 5 && w.vget 2 0 = 0 && w.execMask = 1 && w.sget 12 = 1 && w.sget 13 = 1)),
      stays (.batchDispatch 0) { sU with batches := [(7, formed)], parts := [(0, { sU.part 0 with group := 1, pstate := 3 })] },
      gives (exec (.batchTimeout 7) (at_ { run with waves := run.waves ++ [(combinerKey 0, wC)] } 65537)) (fun t => t.batches = [] && (t.wave (combinerKey 0)).isNone && (t.part 0).nbatch = 1),
      stays (.batchTimeout 7) (at_ run 65536),
      gives (exec (.chuMtloadEntry 0 65) sU) (fun t => (t.part 0).mtbusy = some (some 1)), gives (exec (.chuMtloadAll 0) sU) (fun t => (t.part 0).mtbusy = some none), stays (.chuMtloadDone 0) sU,
      gives (exec (.chuMtloadDone 0) { sU with parts := [(0, { sU.part 0 with mtbusy := some (some 1) })], mem := [(0x1018, 4)] }) (fun t => (t.part 0).mtbusy = none && Tbl.get? (t.part 0).methods 1 = some (methodOf (4 * 2 ^ 64))),
      gives (exec (.chuMtloadEntry 0 2) { sU with parts := [(0, { sU.part 0 with mtbusy := some (some 1) })] }) (fun t => t.part 0 = { sU.part 0 with mtbusy := some (some 1) })]) = true := by decide +kernel

/-- StorageOfLines, ArmatureAndRecasters: a third erasure in a stripe, requests of a span that have still to be sent again, a layout that is none. -/
theorem witness_lost : ok (let bad := fun (n : Nat) => (List.range 4).flatMap (fun k => (List.range 3).map (fun i => (State.errKey (phys0 sF n + 32 * k) i, (1 : Byte))))
    let s := { sF with hbmErr := bad 4 ++ bad 5 ++ bad 6 }
    let r : Recaster := { span := 1, layout := 1, busy := true }
    let at_ := fun (q : Req) => { sF with recasters := [(0, r)], reqs := [(3, { q with line := 65536 })], arm := { sF.arm with spans := [(0, { layout := 0, stat := 1, owner := 0 }), (1, { layout := 0, stat := 4, owner := 0 })] } }
    [((List.range 10).filter (fun n => ((s.rawLine (s.phys 0 4 n)).getD 0 none).isNone)).length = 3, s.spanE 0 = some { layout := 0, stat := 1, owner := 0 },
      gives (exec (.stripeDecode 4) s) (fun t => Tbl.get? t.arm.spans 0 = some { layout := 0, stat := 5, owner := 0 }), stays (.recasterUnit 0) (at_ { req (.load []) with moved := true }), stays (.recasterUnit 0) (at_ { req (.load []) with resent := true }),
      (at_ (req (.load []))).rcsRefused { r with busy := false } [0, 0], (at_ { req (.load []) with moved := true }).rcsWaits r, !(at_ (req (.load []))).rcsWaits r]) = true := by decide +kernel
/-- CombiningSteps: a `ccommit` whose release is not done, one that is performed, in a wave that goes on and in one that ends; a `creply` before it; the time limit at each point. -/
theorem witness_commit : ok (let op := fun (k : PendKind) => ({ id := 9, kind := k, ready := 0, long := true, flag := 0, writes := [] } : Pend)
    let at_ := fun (stat : WStat) (k : PendKind) (committed : Bool) => { sC true with waves := [(0, { wC with stat := stat, pend := [op k] })], batches := (sC true).batches.map (fun e => (e.1, { e.2 with commitWords := some [7, 8], committed := committed })) }
    let go := at_ .ready (.commit []) false
    let end_ := at_ .ending (.commit []) false
    let late := fun (s : State) => { s with dies := [(0, { cyc := 65537 })] }
    [go.needsDone 0 [], go.releaseReady 0 .dev, go.later = [], go.admits 0 0x2000 8 true, stays (.longOpComplete 0 9) (at_ .ready (.commit [9]) false),
      gives (exec (.longOpComplete 0 9) { go with l2 := (0x40, { old := [] }) :: go.l2 }) (fun t => Memory.readBytes t.mem 0x2000 8 = [7, 0, 0, 0, 8, 0, 0, 0] && (Tbl.get? t.batches 7).any (·.committed)),
      gives (exec (.longOpComplete 0 9) { end_ with l2 := (0x40, { old := [] }) :: end_.l2 }) (fun t => Memory.readBytes t.mem 0x2000 8 = [7, 0, 0, 0, 8, 0, 0, 0] && t.batches = [] && t.wave 0 = none),
      stays (.longOpComplete 0 9) (at_ .ready .reply false), gives (exec (.batchTimeout 7) (late go)) (fun t => (t.wave 0).any (fun w => w.stat = .ending) && t.batches = go.batches), stays (.batchTimeout 7) (late end_)]) = true := by decide +kernel

/-- Core 0 with a command of wave 0 in an engine. -/
def engine (matrix : Bool) (c : EngCmd) : State :=
  let s := awaits (.engine matrix 5 none)
  s.modCore 0 (fun x => if matrix then { x with mat := { x.mat with cmds := [c], bound := [(0, 1)] } } else { x with copy := [c], scr := [(64, 7), (256, 2)] })
def command (i : Instr) (args : List Nat) : EngCmd := { id := 5, wave := 0, op := 9, block := 1, prio := 0, pidN := 0, pasid := 0, pc := 0x1000, instr := i, args := args }

theorem witness_engines : ok (let add := command (.cred h1 0 0 (.s 4) (.s 6) (.s 10) plain) [256, 64, 1]
    let cpy := command (.cpy h1 .s .s (.s 4) (.s 6) (.s 10) plain) [256, 64, 4]
    let going := fun (c : EngCmd) => { c with started := true, ready := true }
    let zero := command (.mzero h1 0) []
    let bars := fun (s : State) (b : Barrier) => { s with blocks := Tbl.modify s.blocks 1 (fun x => { x with bars := [(3, b)] }) }
    let with_ := { going add with args := [256, 64, 1, 2 ^ 31 + 3] }
    let last := { command (.mms h1 .bf16 false 0 true true false false (.s 4) (.s 10) plain) [] with finished := true }
    let four := { engine false add with cores := [(0, { copy := List.replicate 4 (going add) })] }
    [stays (.copyCmdStart 0) four, (engine false add).copyStartable 0 add, gives (exec (.copyCmdStart 0) (engine false add)) (fun t => (t.cmd 0 false 5).any (fun c => c.started && c.ready)),
      !(engine false (going cpy)).copyBehind 0 (going cpy), (going cpy).attach = none,
      gives (exec (.copyBytesVisible 0 5 1) (engine false (going cpy))) (fun t => t.scrRead 0 256 4 = [7, 0, 0, 0] && (t.cmd 0 false 5).any (fun c => c.done = 1)),
      gives (exec (.copyBytesVisible 0 5 1) (engine false (going add))) (fun t => t.scrRead 0 256 4 = [9, 0, 0, 0] && (t.cmd 0 false 5).any (fun c => c.done = 1)),
      gives (exec (.copyCmdComplete 0 5) (engine false { add with finished := true })) (fun t => (t.cmd 0 false 5).isNone && t.inbox = [] && (t.wave 0).any (fun w => w.pend = [] && w.flag 1 = 0)),
      gives (exec (.copyCmdComplete 0 5) (engine false { add with finished := true, fault := some 6 })) (fun t => t.inbox = [.deferredFaultArrive ⟨0, 9, 0xFFFFFFFF⟩ 8 6 0x1000 allLanes 0]),
      stays (.copyCmdComplete 0 5) (engine false add),
      gives (exec (.matrixCmdStart 0) (engine true { zero with slot := some 0 })) (fun t => (t.cmd 0 true 5).any (fun c => c.started && c.finished)), stays (.matrixCmdStart 0) sM,
      gives (exec (.matrixCmdComplete 0 5) (engine true { zero with finished := true })) (fun t => (t.cmd 0 true 5).isNone), stays (.matrixCmdComplete 0 5) (engine true zero), stays (.planeRelease 0) (engine true zero),
      with_.attach = some 3, gives (exec (.copyBytesVisible 0 5 1) (bars (engine false with_) { e := 1, a := 1, t := 4 })) (fun t => (t.barrierOf 1 3).any (fun b => b.t = 0 && b.a = 0 && b.phc = 1)),
      gives (exec (.copyBytesVisible 0 5 1) (bars (engine false with_) { e := 1, t := 4 })) (fun t => (t.barrierOf 1 3).any (fun b => b.t = 0 && b.phc = 0)),
      State.releasing last, gives (exec (.planeRelease 0) (engine true last)) (fun t => (t.cmd 0 true 5).any (·.released) && (t.core 0).mat.holder = none)]) = true := by decide +kernel

/-- A descriptor and a launch record of two blocks of one wave. -/
def desc0 : List Byte := leBytes 8 0 ++ leBytes 4 12 ++ leBytes 2 32 ++ [16, 1] ++ leBytes 4 1000 ++ [0, 0, 1, 0] ++ leBytes 40 0
def record0 : List Byte := leBytes 8 0x2000 ++ leBytes 8 0x4000 ++ leBytes 4 2 ++ leBytes 4 1 ++ leBytes 4 1 ++ leBytes 4 0 ++ leBytes 8 0x1234 ++ leBytes 88 0
/-- Partition 0, in which PASID 1 maps the first page to device address 0: its table is its own next level. -/
def sL (at1 at2 : List Byte) (q : Part) : State :=
  let s := handled State.reset
  { s with nextId := 10, mem := Memory.writeBytes (Memory.writeBytes [(0, 5), (16, 1)] 0x1000 at1) 0x2000 at2, parts := [(0, { q with clmask := 1, ptlen := 2 })]
           l2 := ([0, 0x20, 0x21, 0x22, 0x23, 0x30, 0x40, 0x41, 0x42, 0x43, 0x44, 0x50].map (fun n => (n, ({ old := [] } : L2Line)))) }
def sQ : State := sL record0 desc0 { subs := [(0, { en := true, base := 0x1000, kick := 1, pasid := 1, prio := 1 })] }
def launch0 : Launch := { pidN := 0, pasid := 1, src := .sub 0 0, prio := 1, seq := 9, rc := lrecOf record0, desc := (descOf desc0).1 }
def sB : State := { sQ with launches := [(9, launch0)] }
def sub0 (t : State) : SubQ := Tbl.getD (t.part 0).subs 0 {}

theorem witness_kick : ok (let u := { sM with parts := [(0, { subs := [(3, { log2n := 4, kick := 5, head := 5 })] })] }
    let sub := fun (t : State) => Tbl.getD (t.part 0).subs 3 {}
    [gives (exec (.subKick 0 3 21) u) (fun t => (sub t).kick = 21 && !(sub t).ovf && !(sub t).back), gives (exec (.subKick 0 3 22) u) (fun t => (sub t).kick = 5 && (sub t).ovf), gives (exec (.subKick 0 3 5) u) (fun t => (sub t).kick = 5 && (sub t).back)]) = true := by decide
theorem witness_launch : ok (let p := fun (q : Part) => { sQ with parts := [(0, q)] }
    let q0 := sQ.part 0
    let ent : DevEnt := { queue := 1, bytes := record0, pasid := 1, prot := false, stamp := 4 }
    [gives (exec (.launchStart 0 0) sQ) (fun t => (sub0 t).head = 1 && (t.launch 10).any (fun l => l.status = 0 && l.next = 0 && l.rc.x = 2 && l.prio = 1)),
      gives (exec (.launchStart 0 0) (sL (leBytes 128 0) desc0 q0)) (fun t => (sub0 t).head = 1 && (t.launch 10).any (fun l => l.status = 1)),
      gives (exec (.launchStart 0 0) (p { q0 with ptlen := 0 })) (fun t => t.launches = [] && (sub0 t).head = 1 && (sub0 t).done = 1),
      gives (exec (.launchStart 0 0) { sQ with mem := [(16, 1)] }) (fun t => t.launches = [] && (sub0 t).head = 0 && (t.part 0).cpWait.length = 1),
      stays (.launchStart 0 0) (p { q0 with subs := [] }), stays (.launchStart 0 0) (p { q0 with pstate := 1 }),
      gives (exec (.launchStart 0 17) (p { q0 with devq := [ent] })) (fun t => (t.part 0).devq = [] && (t.launch 10).any (fun l => l.stamp = 4))]) = true := by decide +kernel
theorem witness_place : ok (let kept := { sB with launches := [(9, { launch0 with rc := { launch0.rc with done := 0x1800 } })] }
    let past := fun (l : Launch) => { sB with launches := [(9, { l with next := 2, placedAt := [(0, 2)], retiredAt := [(0, 2)] })] }
    let block : Block := { launch := 9, lin := 0, cid := 0 }
    [(placeOrder sB 0).length = 1, (sB.spotFor 0 launch0 (energyOk sB launch0)).any (fun l => l.length = 1 && l.all (fun e => e.2.slots.length = 1)),
      gives (exec (.blockPlace 0) sB) (fun t => (t.launch 9).any (fun l => l.next = 1 && l.live = 1) && (t.block 10).any (fun b => b.scrSize = 1024) && (t.wave 0).any (fun w => w.pc = 0x4000 && w.sget 8 = 0x1234 && w.vget 0 95 = 95 && w.stat = .ready)),
      stays (.blockPlace 0) sQ,
      gives (exec (.blockRetire 12) { sB with blocks := [(12, block)], launches := [(9, { launch0 with live := 1 })] }) (fun t => (t.block 12).isNone && (t.launch 9).any (fun l => l.live = 0 && l.retiredAt = [(0, 1)])),
      gives (exec (.blockRetire 12) { sB with blocks := [(12, block)], launches := [(9, { launch0 with live := 1 })], cores := [(1, { copy := [{ command (.mzero h1 0) [] with block := 99, targets := [12] }] })] }) (fun t => (t.block 12).any (·.leaving)),
      stays (.blockRetire 12) { sB with blocks := [(12, { block with waves := [0] })] },
      launchDrained (past launch0) 9 { launch0 with next := 2, placedAt := [(0, 2)], retiredAt := [(0, 2)] },
      gives (exec (.launchComplete 9) (past launch0)) (fun t => (t.launch 9).isNone && (sub0 t).done = 1),
      gives (exec (.launchComplete 9) (past { launch0 with src := .graph 0 0 })) (fun t => (t.launch 9).any (·.fin)),
      gives (exec (.launchComplete 9) (past { launch0 with status := 32, rc := { launch0.rc with done := 0x1800, doneval := 7 } })) (fun t => (t.launch 9).isNone && Memory.readBytes t.mem 0x1800 9 = [7, 0, 0, 0, 0, 0, 0, 0, 32]),
      stays (.launchComplete 9) kept]) = true := by decide +kernel

/-- A graph of one node at 0x1000, whose record is at 0x1040: its type, its successor, its NSTATE, its body. -/
def node (ty succ state : Nat) (body : List Byte) : List Byte := [BitVec.ofNat 8 ty, 1, 0, 0] ++ leBytes 4 succ ++ leBytes 4 0xFFFFFFFF ++ leBytes 4 state ++ body ++ leBytes (48 - body.length) 0
def header : List Byte := leBytes 4 1 ++ leBytes 4 0 ++ leBytes 56 0
def none4 : Nat := 0xFFFFFFFF
/-- The graph runs and its node holds a token. -/
def sG (bs : List Byte) (x : GraphSlot) (at2 : List Byte := []) : State := sL (header ++ bs) at2 { graphs := [(0, { x with base := 0x1000, pasid := 1 })] }
def ready1 : GraphSlot := { stat := 1, nnode := 1, cand := [0] }
/-- The node runs. -/
def runs (bs : List Byte) (r : NodeRun := {}) : GraphSlot := { stat := 1, nnode := 1, running := [(0, { r with bytes := bs })] }
def idle0 (t : State) : Bool := (Tbl.get? (t.graph 0 0).running 0).isNone

theorem witness_graph : ok (let end_ := node 8 none4 1 []
    [gives (exec (.graphGo 0 0) (sG end_ {})) (fun t => (t.graph 0 0).stat = 1 && (t.graph 0 0).init = none && (t.graph 0 0).cand = [0]), stays (.graphGo 0 0) (sG end_ ready1),
      gives (exec (.graphGo 0 0) { sG end_ {} with mem := [] }) (fun t => (t.graph 0 0).stat = 2),
      gives (exec (.graphGo 0 0) { sG end_ {} with mem := Memory.writeBytes (sG end_ {}).mem 0x1000 (leBytes 4 0) }) (fun t => (t.graph 0 0).stat = 2 && (t.graph 0 0).fail = 1), stays (.graphAbort 0 0) (sG end_ {}),
      gives (exec (.graphEnd 0 0) (sG end_ { stat := 2, done := 0x1800, doneval := 7, fail := 3 })) (fun t => (t.graph 0 0).stat = 0 && Memory.readBytes t.mem 0x1800 16 = [7, 0, 0, 0, 0, 0, 0, 0, 3, 0, 0, 0, 255, 255, 255, 255]),
      gives (exec (.nodeEnd 0 0 0) { sG end_ (runs (node 8 none4 0 [1]) { model := true }) with sqs := [(0, [{ pidN := 0, slot := 0, node := 5, desc := [], table := [] }])] }) (fun t => idle0 t && (t.graph 0 0).stat = 1 && ((t.sqsHead 0).any (·.modelEnd))),
      gives (exec (.graphAbort 0 0) (sG end_ ready1)) (fun t => (t.graph 0 0).stat = 2 && (t.graph 0 0).fail = 15),
      mayStart (sG end_ ready1) 0 0, (readyNodes (sG end_ ready1) 0 0).head? = some 0, gives (exec (.nodeEnd 0 0 0) (sG end_ ready1)) (fun t => (t.graph 0 0).stat = 2 && idle0 t && (t.graph 0 0).fail = 0),
      stays (.nodeEnd 0 0 0) (sG end_ {}), gives (exec (.nodeCond 0 0 0) (sG (node 9 none4 1 []) ready1)) (fun t => (t.graph 0 0).stat = 2 && (t.graph 0 0).fail = 2),
      gives (exec (.nodeEnd 0 0 0) (sG end_ (runs (node 8 none4 1 [1])))) (fun t => (t.graph 0 0).fail = 5),
      gives (exec (.graphEnd 0 0) (sG end_ { stat := 2 })) (fun t => (t.graph 0 0).stat = 0 && (t.graph 0 0).ndone = 1), stays (.graphEnd 0 0) (sG end_ ready1)]) = true := by decide +kernel
/-- A start of each type of node, from a record that is valid. -/
theorem witness_starts : ok (let started := fun (i : Instr) (ty : Nat) (body : List Byte) => !nodeInvalid (node ty none4 1 body) 1 && gives (exec i (sG (node ty none4 1 body) ready1)) (fun t => (t.graph 0 0).lastStart.isSome)
    let word := leBytes 8 0x1800 ++ leBytes 8 5
    [started (.nodeLaunch 0 0 0) 1 (leBytes 8 0x1800), started (.nodeCopy 0 0 0) 2 (leBytes 8 0x1800 ++ leBytes 8 0x1900 ++ leBytes 4 4), started (.nodeSignal 0 0 0) 3 word, started (.nodeWait 0 0 0) 4 word, started (.nodeCond 0 0 0) 5 (leBytes 8 0x1800),
      started (.nodeWhile 0 0 0) 6 (leBytes 8 0x1800 ++ leBytes 4 1), started (.nodeSolve 0 0 0) 7 (leBytes 8 0x1800), started (.nodeEnd 0 0 0) 8 []]) = true := by decide +kernel
theorem witness_nodes : ok (let launch := node 1 none4 0 (leBytes 8 0x1800)
    let copy := node 2 none4 0 (leBytes 8 0x2000 ++ leBytes 8 0x1900 ++ leBytes 4 8)
    let signal := fun (add : Byte) => node 3 none4 0 (leBytes 8 0x2000 ++ leBytes 8 5 ++ [add])
    let wait := fun (op : Byte) => node 4 none4 0 (leBytes 8 0x2000 ++ leBytes 8 5 ++ [op])
    let cond := node 5 none4 0 (leBytes 8 0x2000)
    let loop := node 6 none4 0 (leBytes 8 0x2000 ++ leBytes 4 1)
    let at_ := fun (bs : List Byte) (v : Nat) => sG bs (runs bs) (leBytes 8 v)
    let ended := fun (t : State) => (Tbl.get? (t.graph 0 0).running 0).any (·.ended)
    let bad := fun (ty : Nat) => node ty none4 0 (leBytes 8 (2 ^ 60) ++ leBytes 8 5 ++ [1])
    let lap := node 2 none4 0 (leBytes 8 0x2000 ++ leBytes 8 0x2004 ++ leBytes 4 8)
    let on := fun (i : Instr) (bs : List Byte) (x : NodeRun) (f : State → Bool) => gives (exec i (sG bs (runs bs x) (leBytes 8 0x11223344))) f
    let failed := fun (n : Nat) (t : State) => (t.graph 0 0).fail = n && idle0 t
    [on (.nodeLaunch 0 0 0) (bad 1) {} (failed 3), on (.nodeSignal 0 0 0) (bad 3) {} (failed 4), on (.waitPoll 0 0 0) (bad 4) {} (failed 4), on (.nodeCond 0 0 0) (bad 5) {} (failed 4), on (.nodeWhile 0 0 0) (bad 6) {} (failed 4),
      stays (.nodeLaunch 0 0 0) (sG launch (runs launch { launch := some 9 })), on (.nodeCopy 0 0 0) copy { prog := 8 } ended,
      (match (at_ lap 0x55).graphRead 0 0 (some 0) 0x2000 8 with | (_, .ok bs) => bs.length = 8 && nodeAddr lap = 0x2000 && bodyAt lap 8 8 = 0x2004 && bodyAt lap 16 4 = 8 | _ => false),
      stays (.nodeComplete 0 0 0) { sG launch (runs launch { launch := some 9 }) with launches := [(9, launch0)] },
      gives (exec (.nodeLaunch 0 0 0) (sG launch (runs launch))) (fun t => (t.launch 10).isSome && (Tbl.get? (t.graph 0 0).running 0).any (fun r => r.launch = some 10)),
      gives (exec (.nodeCopy 0 0 0) (at_ copy 0x55)) (fun t => ended t && Memory.read t.mem 0x1900 = 0x55),
      gives (exec (.nodeSignal 0 0 0) (at_ (signal 1) 4)) (fun t => ended t && Memory.read t.mem 0x2000 = 9), gives (exec (.nodeSignal 0 0 0) (at_ (signal 0) 4)) (fun t => ended t && Memory.read t.mem 0x2000 = 5),
      gives (exec (.nodeWait 0 0 0) (at_ (wait 0) 5)) ended, gives (exec (.waitPoll 0 0 0) (at_ (wait 1) 6)) ended, gives (exec (.waitPoll 0 0 0) (at_ (wait 0) 6)) (fun t => !ended t && !idle0 t),
      gives (exec (.nodeCond 0 0 0) (at_ cond 1)) idle0, gives (exec (.nodeWhile 0 0 0) (at_ loop 1)) idle0,
      gives (exec (.nodeWhile 0 0 0) (sG (node 6 none4 (2 ^ 16) []) (runs loop) [1])) (fun t => idle0 t && (t.graph 0 0).limit),
      gives (exec (.nodeComplete 0 0 0) { sG launch (runs launch { launch := some 9 }) with launches := [(9, { launch0 with fin := true })] }) (fun t => idle0 t && (t.launch 9).isNone && (t.graph 0 0).stat = 1),
      gives (exec (.nodeComplete 0 0 0) { sG launch (runs launch { launch := some 9 }) with launches := [(9, { launch0 with fin := true, status := 32 })] }) (fun t => (t.graph 0 0).fail = 3 && (t.launch 9).isNone),
      gives (exec (.nodeComplete 0 0 0) (sG launch (runs launch { ended := true, succ := [0] }))) (fun t => idle0 t && (t.graph 0 0).cand = [0])]) = true := by decide +kernel

/-- A solve of one sample at 0x2100 with one slot; its descriptor, and a table of one stage. -/
def sqsDesc0 : List Byte :=
  leBytes 4 0 ++ leBytes 4 1 ++ leBytes 8 0x2100 ++ leBytes 4 0x3F800000 ++ leBytes 4 0x3C000000 ++ leBytes 4 0x3F800000 ++ leBytes 4 0x3F800000 ++ leBytes 4 1 ++ leBytes 4 0
    ++ leBytes 8 0x2180 ++ leBytes 8 0x2190 ++ leBytes 8 0x2200 ++ leBytes 8 0x1000 ++ leBytes 8 0x1000 ++ leBytes 4 0 ++ leBytes 4 0 ++ leBytes 8 0 ++ leBytes 160 0
def table0 : List Byte := [1] ++ leBytes 15 0 ++ leBytes 4 0x3F000000 ++ leBytes 4 0x40000000 ++ leBytes 360 0 ++ (List.replicate 64 (leBytes 4 0x3F800000)).flatten
def solve0 : Solve := { pidN := 0, slot := 0, node := 0, desc := sqsDesc0, table := table0, active := [0] }
/-- Its node runs, and the solve is the first of command processor 0. -/
def sS (x : Solve) (g : GraphSlot := runs (node 7 none4 0 (leBytes 8 0x1800))) : State := { sG record0 g desc0 with mem := (sL record0 desc0 {}).mem, sqs := [(0, [x])] }
def headOf (t : State) : Option SqsStat := (t.sqsHead 0).map (·.stat)

theorem witness_solver : ok (let done := fun (st : Nat) => { launch0 with fin := true, status := st }
    let at_ := fun (stat : SqsStat) => sS { solve0 with stat := stat }
    let model := sS { solve0 with stat := .model 0, modelEnd := true }
    [gives (exec (.sqsTloadTable 0 17) (at_ .ready)) (fun t => (t.part 0).tbusy = some (some 1)), gives (exec (.sqsTloadAll 0) (at_ .ready)) (fun t => (t.part 0).tbusy = some none), stays (.sqsTloadDone 0) (at_ .ready),
      tableValid table0, sqsReason sqsDesc0 1 1 = none, sqsReason sqsDesc0 0 1 = some 7,
      gives (exec (.sqsStageLaunch 0) (at_ .ready)) (fun t => headOf t = some (.stage 0 10) && (t.launch 10).any (fun l => l.rc.y = 1 && l.status = 0)),
      gives (exec (.sqsStageLaunch 0) (sS { solve0 with stat := .model 0, modelEnd := true, table := [2] ++ table0.drop 1 })) (fun t => headOf t = some (.stage 1 10)),
      model.modelDone { solve0 with stat := .model 0, modelEnd := true }, gives (exec (.sqsErrorLaunch 0) model) (fun t => headOf t = some (.error 10)),
      stays (.sqsErrorLaunch 0) (at_ .ready), stays (.sqsModelRun 0) (at_ .ready),
      gives (exec (.sqsModelRun 0) { at_ (.stage 0 9) with launches := [(9, done 0)] }) (fun t => headOf t = some (.model 0) && (t.launch 9).isNone),
      gives (exec (.sqsModelRun 0) { at_ (.stage 0 9) with launches := [(9, done 32)] }) (fun t => headOf t = none && (t.graph 0 0).fail = 3),
      gives (exec (.sqsStepDecide 0) (at_ .deciding)) (fun t => headOf t = some .ready && (t.part 0).nstep = 1),
      gives (exec (.solveComplete 0) (at_ .finished)) (fun t => headOf t = none && (t.part 0).nsolve = 1 && idle0 t),
      gives (exec (.sqsStepDecide 0) { at_ (.error 9) with launches := [(9, done 32)] }) (fun t => headOf t = none && (t.graph 0 0).fail = 3), gives (exec (.sqsStepDecide 0) { at_ (.error 9) with launches := [(9, done 1)] }) (fun t => headOf t = none && (t.graph 0 0).fail = 9),
      gives (exec (.sqsStepDecide 0) { at_ (.error 9) with launches := [(9, done 0)] }) (fun t => (t.launch 9).isNone && (t.part 0).nstep = 1), stays (.sqsModelRun 0) { at_ (.stage 0 9) with launches := [(9, launch0)] },
      gives (exec (.sqsStageLaunch 0) (sS { solve0 with desc := sqsDesc0.take 40 ++ leBytes 8 (2 ^ 60) ++ leBytes 8 (2 ^ 60) ++ leBytes 8 (2 ^ 60) ++ leBytes 8 (2 ^ 60) ++ leBytes 8 (2 ^ 60) ++ sqsDesc0.drop 80 })) (fun t => headOf t = none && (t.graph 0 0).fail = 9),
      stays (.solveComplete 0) { sS { solve0 with stat := .stage 0 9 } { runs [] with stat := 2 } with launches := [(9, launch0)] },
      gives (exec (.solveComplete 0) { sS { solve0 with stat := .error 9 } { runs [] with stat := 2 } with launches := [(9, done 0)] }) (fun t => headOf t = none && (t.launch 9).isNone && (t.part 0).nsolve = 0),
      gives (exec (.solveComplete 0) (sS solve0 { runs [] with stat := 2 })) (fun t => headOf t = none && (t.part 0).nsolve = 0 && idle0 t), stays (.solveComplete 0) (at_ .ready)]) = true := by decide +kernel
theorem witness_solve_node : ok (let bs := node 7 none4 0 (leBytes 8 0x2000)
    let s := fun (r : NodeRun) => sG [] (runs bs r) sqsDesc0
    let img := sL table0 [] { tbase := 0x1000, tbusy := some (some 0), graphs := [(0, { pasid := 1 })] }
    [gives (exec (.nodeSolve 0 0 0) (s { model := true })) (fun t => (t.graph 0 0).fail = 5), gives (exec (.nodeSolve 0 0 0) (s {})) (fun t => (t.graph 0 0).stat = 2 && (t.graph 0 0).fail = 7),
      gives (exec (.sqsTloadDone 0) { img with l2 := (List.range 80).map (fun n => (n, ({ old := [] } : L2Line))) }) (fun t => (t.part 0).tbusy = none && (t.part 0).tvalid = 1 && Tbl.get? (t.part 0).tables 0 = some table0)]) = true := by decide +kernel
/-- R299: a step whose error is below 1, and one whose error is above. -/
theorem witness_decide : ok (let d := sqsDesc sqsDesc0
    let bs := leBytes 4 0 ++ leBytes 4 0x3D000000 ++ leBytes 24 0
    [(decideSample d table0 bs [0x3E800000]).2, !(decideSample d table0 bs [0x40800000]).2, sampleStatus (decideSample d table0 bs [0x3E800000]).1 = 0, fpLt (sampleErr d.dvs [0x3E800000]) 0x3F800000, fpLt 0x3F800000 (sampleErr d.dvs [0x40800000])]) = true := by decide +kernel

/-- SolverSteps: an error of exactly 1, one that is NaN, a model launch that runs, a sample that stalls. -/
theorem witness_boundary : ok (let d := sqsDesc sqsDesc0
    let bs := leBytes 4 0 ++ leBytes 4 0x3D000000 ++ leBytes 24 0
    let model := { runs (node 7 none4 0 (leBytes 8 0x1800)) with running := (runs (node 7 none4 0 (leBytes 8 0x1800))).running ++ [(5, { bytes := [], model := true, launch := some 77 })] }
    [sampleErr d.dvs [0x3F800000] = 0x3F800000, (decideSample d table0 bs [0x3F800000]).2, (fpOf (sampleErr d.dvs [0x7FC00000])).isNan, !(decideSample d table0 bs [0x7FC00000]).2,
      (sS { solve0 with stat := .ready } model).modelRuns { solve0 with stat := .ready }, stays (.sqsStageLaunch 0) (sS { solve0 with stat := .ready } model), stays (.sqsStepDecide 0) (sS { solve0 with stat := .deciding } model),
      !(sS { solve0 with stat := .ready }).modelRuns { solve0 with stat := .ready }]) = true := by decide +kernel

/-- Block 12 of launch 9 with wave 0 on core 0; the save area and the tables are the partition's own. -/
def sR (q : Part) (w : Wave := { w0 with block := 12 }) : State :=
  let s := sL record0 desc0 { q with csbase := 0x100000 }
  { s with launches := [(9, { launch0 with next := 2, live := 1 })], blocks := [(12, { launch := 9, lin := 0, cid := 0, waves := [0], scrSize := 1024, scrBase := 0 })], waves := [(0, w)]
           arm := { s.arm with spans := (List.range 60).map (fun n => (n, ({ layout := 0, stat := 1, owner := 0 } : SpanE))) } }

theorem witness_preempt : ok (let idle := { sR {} with blocks := [], waves := [], launches := [] }
    let far := { (sR {}) with parts := [(0, { (sR {}).part 0 with csbase := 2 ^ 36 })] }
    [(sR {}).saveAreaOk 0, !far.saveAreaOk 0, ((sR {}).residentBlocks 0).length = 1,
      stays (.preemptReq 0) (sR { pstate := 1 }), gives (exec (.preemptReq 0) far) (fun t => (t.part 0).perr), gives (exec (.preemptReq 0) (sR {})) (fun t => (t.part 0).pstate = 1 && (t.part 0).deadline = some 200000),
      gives (exec (.preemptReq 0) idle) (fun t => (t.part 0).pstate = 3),
      stays (.preemptDeadline 0) (sR { pstate := 1, deadline := some 5 }), gives (exec (.preemptDeadline 0) (sR { pstate := 1, deadline := some 0 })) (fun t => (t.part 0).pstate = 2 && (t.wave 0).any (·.saving)),
      gives (exec (.preemptDeadline 0) (sR { pstate := 1, mode := 1, deadline := some 0 })) (fun t => (t.part 0).pstate = 2 && (t.wave 0).isNone && (t.part 0).nsave = 1),
      stays (.blockSave 12) (sR {}), gives (exec (.resume 0) (sR { pstate := 3 })) (fun t => (t.part 0).pstate = 0), stays (.resume 0) (sR { pstate := 2 }), stays (.blockRestore 0) (sR {})]) = true := by decide +kernel
/-- A saved block goes to memory and comes back. -/
def sV : State :=
  let w : Wave := { w0 with block := 12, saving := true, vregs := 0, sregs := 16, v := [], s := [(4, 9)] }
  let s := sR { pstate := 2 } w
  { s with launches := [(9, { launch0 with next := 2, live := 1, desc := { vregs := 0, sregs := 16 } })], blocks := [(12, { launch := 9, lin := 0, cid := 0, waves := [0] })]
           l2 := [0x2000, 0x2020, 0x2021, 0x2022, 0x2023, 0x2024, 0x2025].map (fun n => (n, ({ old := [] } : L2Line))) }
theorem witness_save : ok (let back := fun (t : State) => { t with parts := [(0, { t.part 0 with pstate := 0 })] }
    [(sV.together 12 { launch := 9, lin := 0, cid := 0, waves := [0] }).all (fun e => sV.blockDrained e.1 e.2),
      gives (exec (.blockSave 12) sV) (fun t => (t.block 12).isNone && (t.wave 0).isNone && (t.part 0).nsave = 1
        && gives (exec (.blockRestore 0) (back t)) (fun u => (u.part 0).saved = [] && (u.wave 0).any (fun w => w.sget 4 = 9 && w.pend = [])))]) = true := by decide +kernel
theorem witness_quantum : ok (let led := fun (q : Part) => { sR {} with parts := [(0, { (sR {}).part 0 with group := 1, pstate := q.pstate, quantEnd := q.quantEnd })], fw := [(0, { booted := true, renewed := some 0 })] }
    let both := fun (q : Part) => { led q with parts := (led q).parts ++ [(1, { group := 1, csbase := 0x100000 })] }
    [leader (led {}) = some 0, (leader (sR {})).isNone, stays (.quantumExpire 1) (sR {}), gives (exec (.quantumExpire 1) (led { quantEnd := some 0 })) (fun t => (t.part 0).pstate = 1), stays (.quantumExpire 1) (led { quantEnd := some 5 }),
      gives (exec (.quantumExpire 1) (led { pstate := 3 })) (fun t => (t.part 0).pstate = 0), stays (.quantumExpire 1) (led { pstate := 1, quantEnd := some 0 }),
      gives (exec (.quantumExpire 1) (both { pstate := 0 })) (fun t => (t.part 0).pstate = 0 && (t.part 1).perr), stays (.resume 0) (both { pstate := 3 }), (both { pstate := 3 }).hostOk 0,
      !{ led { pstate := 3 } with vfs := [(1, { tdi := .error })] }.hostOk 0, stays (.resume 0) { led { pstate := 3 } with vfs := [(1, { tdi := .error })] }, gives (exec (.resume 0) (led { pstate := 3 })) (fun t => (t.part 0).quantEnd = some 2000000)]) = true := by decide +kernel

theorem witness_invalidation : ok (let busy : Part := { iqbusy := some { idx := 4, op := 1 }, keys := [⟨0, 1, .read⟩, ⟨0, 2, .read⟩], clmask := 1 }
    let s := fun (w : Wave) => { sM with waves := [(0, w)], parts := [(0, busy)] }
    let blocked := s { wM with stat := .faulted 0 [1] [] .read }
    let walker := { blocked with parts := [(0, { busy with cpWait := [(99, ⟨0, 1, .read⟩)] })] }
    let alone := fun (m : Memory) => { walker with waves := [], cores := [], parts := [(0, { busy with cpWait := [(99, ⟨0, 1, .read⟩)], ptbase := 0x40000, ptlen := 1 })], mem := m }
    let batch : Batch := { pidN := 0, slice := 0, dpa := 0x1000, va := 0, method := 0, ent := {}, stat := .running }
    let ended := fun (t : State) => (t.part 0).iqbusy = none && (t.part 0).iqhead = 1
    let wave := fun (t : State) (w : Wave) => t.wave 0 = some w
    [gives (exec (.invpg 0 0 0x10000 1) blocked) (fun t => (t.core 0).tlb = [] && (t.part 0).iqbusy.isSome), gives (exec (.invpg 0 1 0x10000 1) blocked) (fun t => (t.core 0).tlb.length = 1), gives (exec (.invpasid 0 0) blocked) (fun t => (t.core 0).tlb = []), gives (exec (.invall 0) blocked) (fun t => (t.core 0).tlb = []),
      gives (exec (.invalidationComplete 0) blocked) ended, stays (.invalidationComplete 0) { blocked with parts := [(0, { busy with iqbusy := some { idx := 4, op := 1, waits := [3] } })], reqs := [(3, req (.load []))] },
      gives (exec (.replay 0 0 0x10000 .read) blocked) (fun t => ended t && (t.part 0).keys = [⟨0, 2, .read⟩] && wave t wM), gives (exec (.replayAll 0) blocked) (fun t => ended t && (t.part 0).keys = [] && wave t wM),
      gives (exec (.failCmd 0 0 0x10000 .read) blocked) (fun t => ended t && wave t { wM with refusedPages := [(1, .read)] }),
      gives (exec (.replay 0 0 0x10000 .read) (alone [])) (fun t => ended t && (t.part 0).cpWait = [] && (t.part 0).cpRefused = [(99, ⟨0, 1, .read⟩)]), gives (exec (.replay 0 0 0x10000 .read) (alone [(0x40000, 1), (0x40001, 0x10)])) (fun t => ended t && (t.part 0).cpWait = [(99, ⟨0, 1, .read⟩)]),
      gives (exec (.replay 0 0 0x10000 .read) { blocked with cores := [] }) (fun t => ended t && wave t { wM with refusedPages := [(1, .read)] }), gives (exec (.failCmd 0 0 0x10000 .read) walker) (fun t => (t.part 0).cpWait = [] && (t.part 0).cpRefused.length = 1),
      blocked.partReleasable 0, gives (exec (.syncCmd 0 0x1000) blocked) (fun t => ended t && Memory.readBytes t.mem 0x1000 4 = [4, 0, 0, 0]), gives (exec (.syncCmd 0 0) blocked) ended,
      !{ dirty blocked with batches := [(7, batch)] }.partReleasable 0, stays (.syncCmd 0 0) { dirty blocked with batches := [(7, batch)] },
      gives (exec (.iqKick 0 16) blocked) (fun t => (t.part 0).iqkick = 16), stays (.iqKick 0 17) blocked]) = true := by decide +kernel
theorem witness_host_pages : ok (let busy : Part := { iqbusy := some { idx := 4, op := 8 }, clmask := 1 }
    let s := fun (q : Part) => { sM with parts := [(0, q)], priWait := [⟨0, 0, 7⟩], hostAbsent := [⟨0, 0, 7⟩], fw := [(0, { booted := true }), (1, { booted := true }), (2, { booted := true })], ats := [(0, ⟨0, 0, 8⟩), (1, ⟨0, 0, 20⟩)], waves := [(0, { wM with stat := .faulted 0 [1] [(1, 7)] .read })] }
    let asked := s busy
    let torn := s { busy with teardown := [(0, (0, 4, []))] }
    let quiet := { s { busy with teardown := [(5, (0, 4, []))], subs := [(2, { pasid := 5, stat := 2, en := true })] } with waves := [] }
    let ended := fun (t : State) => (t.part 0).iqbusy = none && (t.part 0).iqhead = 1
    let wave := fun (t : State) (w : Wave) => t.wave 0 = some w
    [gives (exec (.priResponse 0 ⟨0, 7⟩ true) asked) (fun t => t.priWait = [] && t.hostAbsent = [] && wave t wM), gives (exec (.priResponse 0 ⟨0, 7⟩ false) asked) (fun t => t.priWait = [] && wave t { wM with refusedPages := [(1, .read)] }),
      gives (exec (.priResponse 0 ⟨0, 7⟩ true) torn) (fun t => t.priWait = [] && t.waves = torn.waves), stays (.priResponse 0 ⟨0, 8⟩ true) asked,
      gives (exec (.atsCompletion ⟨2, 0⟩ ⟨0, 7⟩ true) asked) (fun t => t.ats.contains (2, ⟨0, 0, 7⟩) && t.hostAbsent = []), gives (exec (.atsCompletion ⟨0, 0⟩ ⟨0, 8⟩ false) asked) (fun t => t.ats = [(1, ⟨0, 0, 20⟩)] && t.priWait.contains ⟨0, 0, 8⟩),
      gives (exec (.atsCompletion ⟨0, 0⟩ ⟨0, 7⟩ true) torn) (fun t => t.ats = torn.ats),
      gives (exec (.atsInvalidation 0 8 2) asked) (fun t => t.ats = [(1, ⟨0, 0, 20⟩)] && t.sent = [.atsDone 1 8 2]),
      gives (exec (.atsInvalidation 0 8 2) { asked with reqs := [(3, req (.atomic .add false (.host 0) 0 []))] }) (fun t => t.sent = [] && t.heldIn.length = 1),
      gives (exec (.teardown 0 5 0) quiet) (fun t => (Tbl.get? (t.part 0).teardown 5).isSome && (t.part 0).iqhead = 0),
      gives (exec (.teardownDrainDone 0 5) quiet) (fun t => ended t && (t.part 0).teardown = [] && (Tbl.get? (t.part 0).subs 2).any (fun u => u.stat = 0 && !u.en)),
      stays (.teardownDrainDone 0 5) { quiet with priWait := [⟨0, 5, 7⟩] }]) = true := by decide +kernel

/-- Firmware core 0 leads, all three have booted; VF 1 in a state of TDISP; the sessions that are open. The lease's line is in no storage. -/
def sW (x : Vf) (sessions : List Nat := [1]) : State :=
  { sR {} with fw := [(0, { booted := true, renewed := some 0 }), (1, { booted := true }), (2, { booted := true })], vfs := [(1, x)], spdm := sessions }
/-- The lease word as it stands in memory. -/
def leased (s : State) (n : Nat) : State := { s with mem := Memory.writeBytes s.mem State.leaseDpa (leBytes 8 n) }

theorem witness_lease : ok (let s := sW {}
    let late := { s with time := 1500000 }
    let follow := { s with fw := [(0, { booted := true })], time := 2000000 }
    let f := fun (t : State) => Tbl.getD t.fw 0 {}
    [(s.spanE (spanOf State.leaseDpa)).isNone, s.lease = 0, leads s 0, !leads late 0, stays (.leaseRenew 0) late, gives (exec (.leaseRenew 0) s) (fun t => (f t).renewed = some 0 && t.lease = (f t).word),
      (leased s 5).lease = 5, gives (exec (.leaseRenew 0) (leased s 5)) (fun t => (f t).renewed = none && t.lease = 5),
      gives (exec (.leaseLoss 0) late) (fun t => (f t).renewed = none), stays (.leaseLoss 0) s,
      gives (exec (.followerPoll 0) follow) (fun t => (f t).renewed.isSome && t.spdm = [] && t.lease = 1000000 + 2 ^ 56),
      gives (exec (.followerPoll 0) (leased follow 1)) (fun t => (f t).renewed = none && t.spdm = [1]),
      (Tbl.getD s.fw 3 {}).booted = false && (Tbl.getD s.fw 3 {}).rejected = false && !(Tbl.getD (sR {}).fw 1 {}).booted, stays (.secureBoot 0 [] 0 0 0) s, (sR {}).fw = []]) = true := by decide +kernel
theorem witness_firmware : ok (let s := sW {}
    let late := { s with time := 1500000 }
    let unbooted := { sW { keyed := true } with fw := [(0, { booted := true, renewed := some 0 })] }
    let answers := fun (t : State) (b : Bool) => t.sent.any (fun m => match m with | .tdisp 1 ok _ => ok == b | .report 1 ok _ => ok == b | .spdm ok _ _ => ok == b | .completion 1 ok _ _ => ok == b | _ => false)
    let tdi := fun (t : State) => (t.vf 1).tdi
    [gives (exec (.spdmRequest .getVersion) s) (fun t => t.sent = [.spdm true [0x12, 0x13] 0]), gives (exec (.spdmRequest .getAlgorithms) s) (fun t => answers t true), gives (exec (.spdmRequest .getCertificate) s) (fun t => answers t true),
      (s.measurement 0 1).isSome, gives (exec (.spdmRequest (.getMeasurement 1)) s) (fun t => answers t true),
      gives (exec (.spdmRequest (.openSession 2)) s) (fun t => t.spdm.contains 1 && t.spdm.contains 2), gives (exec (.spdmRequest (.endSession 1)) s) (fun t => t.spdm = [] && answers t true),
      gives (exec (.spdmRequest (.keyStream 1 1)) s) (fun t => (t.vf 1).keyed), gives (exec (.spdmRequest (.keyStream 2 1)) s) (fun t => !(t.vf 1).keyed && answers t false), (leader late).isNone, stays (.spdmRequest .getVersion) late,
      s.bootOk, !unbooted.bootOk, gives (exec (.lockInterfaceRequest 1 3) (sW { keyed := true })) (fun t => tdi t = .locked && answers t true), gives (exec (.lockInterfaceRequest 1 3) s) (fun t => tdi t = .unlocked && answers t false),
      gives (exec (.lockInterfaceRequest 1 3) unbooted) (fun t => tdi t = .unlocked && answers t false), gives (exec (.lockInterfaceRequest 1 3) (sW { keyed := true } [])) (fun t => tdi t = .unlocked && answers t false),
      gives (exec (.startInterfaceRequest 1 3) (sW { tdi := .locked, nonce := 3 })) (fun t => tdi t = .run), gives (exec (.startInterfaceRequest 1 4) (sW { tdi := .locked, nonce := 3 })) (fun t => tdi t = .locked && answers t false),
      gives (exec (.getDeviceInterfaceReport 1) (sW { tdi := .run })) (fun t => answers t true), gives (exec (.getDeviceInterfaceReport 1) s) (fun t => answers t false), gives (exec (.getDeviceInterfaceReport 1) (sW { tdi := .run } [])) (fun t => answers t false),
      gives (exec (.lockedRegisterWrite 1 0 5) (sW { tdi := .locked })) (fun t => tdi t = .error && (t.part 0).pstate ≠ 0 && (t.part 0).mode = 1), gives (exec (.lockedRegisterWrite 1 0 5) s) (fun t => (t.vf 1).bar0 = 5),
      gives (exec (.lockedRegisterWrite 1 0 5) (sW { tdi := .error })) (fun t => (t.vf 1).bar0 = 0 && answers t false),
      gives (exec (.flr 1) (sW { tdi := .run })) (fun t => tdi t = .error), gives (exec (.flr 1) s) (fun t => tdi t = .unlocked && t.parts = s.parts), gives (exec (.ideStreamFailure 1) (sW { tdi := .run, keyed := true })) (fun t => tdi t = .error && !(t.vf 1).keyed)]) = true := by decide +kernel
theorem witness_discard : ok (let tdi := fun (t : State) => (t.vf 1).tdi
    [(sW {}).holds 0, gives (exec (.stopInterfaceRequest 1) (sW { tdi := .run })) (fun t => tdi t = .unlocked && t.mem = [] && (t.core 0).tlb = []), stays (.stopInterfaceRequest 1) { sW {} with time := 1500000 },
      gives (exec (.partitionReset 0) (sW { tdi := .run })) (fun t => t.launches = [] && (t.core 0).tlb = [] && (t.core 0).scr = [] && tdi t = .error)]) = true := by decide +kernel

theorem witness_trace_noise : ok (let unit := fun (u : TraceU) => sM.modCore 0 (fun c => { c with trc := u })
    let src := fun (n : Noise) => { sM with cores := [(0, { noise := n })] }
    let noise := fun (t : State) => (t.core 0).noise
    let on : TraceU := { en := true, base := 0x1000, syncp := 0 }
    let sync := { unit on with waves := [(0, { wM with traced := true })] }
    let tick := fun (n : Nat) => { sM with cores := [(0, { (sM.core 0) with trc := { tsk := 10, tsbase := 0x1000, tswptr := n }, series := [7, 0, 0, 0, 0, 0, 0, 0], marks := [(10, [2, 0, 0, 0, 0, 0, 0, 0])] })] }
    [gives (exec (.trcCtlWrite 0 0x50301) (unit {})) (fun t => (t.core 0).trc = { en := true, syncp := 3, tsk := 5 }), gives (exec (.trcRptrWrite 0 0x1002) (unit {})) (fun t => (t.core 0).trc.rptr = 0x1002),
      stays (.traceSyncPeriod 0) (unit {}), sync.tracedWaves 0 = [0], 24 < State.ringFree on.size on.wptr on.rptr, gives (exec (.traceSyncPeriod 0) sync) (fun t => (t.core 0).trc.wptr = 24 && Memory.readBytes t.mem 0x1000 4 = [0x10, BitVec.ofNat 8 (wbOf 0), 0, 0x10]),
      gives (exec .seriesTick { sM with time := 2 }) (fun t => t.mem = sM.mem), gives (exec .seriesTick (tick 0)) (fun t => (t.core 0).trc.tswptr = 48 && (t.core 0).series = [7, 0, 0, 0, 0, 0, 0, 0] && Tbl.get? (t.core 0).marks 10 = some (t.core 0).series && Memory.read t.mem 0x1010 = 5),
      State.ringFree 0x1000 0xFD8 0 ≤ 48, gives (exec .seriesTick (tick 0xFD8)) (fun t => (t.core 0).trc.tslost = 1 && (t.core 0).trc.tswptr = 0xFD8),
      gives (exec (.noiseTestFailure 0 false) (src { fails := 2 })) (fun t => (noise t).st = 3 && (noise t).rctf), gives (exec (.noiseTestFailure 0 true) (src { st := 1, fcnt := 255 })) (fun t => (noise t).st = 2 && (noise t).aptf && (noise t).fcnt = 255),
      gives (exec (.noiseTestFailure 0 true) (src { st := 3 })) (fun t => !(noise t).aptf), gives (exec (.retest 0) (src { st := 3, fails := 3 })) (fun t => (noise t).st = 2 && (noise t).fails = 0), gives (exec (.retest 0) (src { st := 1 })) (fun t => (noise t).st = 1),
      gives (exec (.noiseGroupConditioned 0 5) (src { st := 2 })) (fun t => (noise t).buf = []), gives (exec (.noiseStartupPass ⟨0, 0⟩) (src { st := 3 })) (fun t => (noise t).st = 3)]) = true := by decide +kernel
/-- Samples of a start-up that alternate; that hold 41 equal ones from the end on; of which 840 equal the first, no 41 in a row. -/
def alternating : BitVec 1024 := BitVec.ofNat 1024 ((2 ^ 1024 - 1) / 3)
def tailRun : BitVec 1024 := alternating ||| (0x1FFFFFFFFFF#1024 <<< 983)
def mostlyOnes : BitVec 1024 := BitVec.ofNat 1024 ((2 ^ 1024 - 1) - (2 ^ 1020 - 1) / 1023 * 2 ^ 4)
theorem witness_noise_startup : ok (let src := fun (n : Noise) => { sM with cores := [(0, { noise := n })] }
    let noise := fun (t : State) => (t.core 0).noise
    let run := fun (raw : BitVec 1024) => exec (.noiseStartupPass ⟨0, raw⟩) (src { st := 2, fails := 2 })
    [gives (run alternating) (fun t => (noise t).st = 1 && (noise t).fails = 0), (List.range 41).all (fun j => tailRun.getLsbD (983 + j)), gives (run tailRun) (fun t => (noise t).st = 3 && (noise t).rctf),
      gives (run (tailRun &&& ~~~(1#1024 <<< 983) &&& ~~~(1#1024 <<< 982))) (fun t => (noise t).st = 1), gives (run mostlyOnes) (fun t => (noise t).aptf && !(noise t).rctf)]) = true := by decide +kernel
/-- A source that runs, with room for its group and with room for one word; a group with 41 equal samples. -/
theorem witness_noise_group : ok (let run := fun (n : Nat) (raw : BitVec 512) => exec (.noiseGroupConditioned 0 raw) { sM with cores := [(0, { noise := { st := 1, buf := List.replicate n 7 } })] }
    [gives (run 1023 (alternating.setWidth 512)) (fun t => (t.core 0).noise.buf.length = 1024), gives (run 1 (alternating.setWidth 512)) (fun t => (t.core 0).noise.buf.length = 9 && (t.core 0).noise.winSeen = 512),
      gives (run 1 5) (fun t => (t.core 0).noise.st = 2 && (t.core 0).noise.fails = 0 && (t.core 0).noise.buf.length = 1)]) = true := by decide +kernel

theorem witness_outside : ok (let r := fun (q : Part) => { sR q with fw := (sW {}).fw }
    let s := r {}
    let write := fun (off : Nat) (x : DWord) => Instr.registerWrite (.bar0 0) off x
    let bar2 := fun (w : Bool) => Instr.hostBar2Access 0 w 0x1000 [1, 2]
    let batch : Batch := { pidN := 0, slice := 0, dpa := 0x1000, va := 0, method := 0, ent := {}, stat := .running }
    let held := { s with batches := [(7, batch)] }
    let waits := { s with heldIn := [bar2 true] }
    let lost := { s with arm := { s.arm with spans := [(0, { layout := 0, stat := 5, owner := 0 })] } }
    let done := fun (ok : Bool) (fn : Nat) => HostMsg.completion fn ok false []
    [s.vfServes 0 && !s.fnWaits 0, !s.vfServes 1, s.admits 0 0x1000 2 true, !s.rangeHeld 0x1000 2, held.rangeHeld 0x1000 2, waits.fnWaits 0,
      gives (exec (.registerWrite (.bar0 1) 0x44 1) s) (fun t => t.sent = [done false 2]), gives (exec (.registerWrite (.bar0Read 1) 0x44 1) s) (fun t => t.sent = [done false 2]), gives (exec (.hostBar2Access 1 false 0 [0]) s) (fun t => t.sent = [done false 2]), gives (exec (write 0x44 1) waits) (fun t => t.heldIn.length = 2),
      gives (exec (write 0x010 0x5432) s) (fun t => (t.part 0).ptbase = 0x5000), gives (exec (write 0x010 0x5432) (r { iqen := true })) (fun t => (t.part 0).ptbase = 0), gives (exec (write 0x104 0x10005) s) (fun t => (t.part 0).pdl = 5),
      gives (exec (write 0x104 5) (r { pstate := 1 })) (fun t => (t.part 0).pdl = 100), gives (exec (write 0x130 0x4000) (r { elen := true })) (fun t => (t.part 0).elbase = 0),
      gives (exec (write 0x148 0x1F0005) s) (fun t => (t.part 0).plmSq = 5 && (t.part 0).plmGs = 15 && (t.part 0).plmSpw), stays (write 0x00C 5) s, gives (exec (write 0x100C 1) s) (fun t => (sub0 t).kick = 1),
      gives (exec (.registerWrite (.bar0Read 0) 0x100 0) (r { mode := 1, perr := true })) (fun t => t.sent = [.completion 1 true false (leBytes 8 66)]),
      gives (exec (.registerWrite (.firmware 0) 0x024 5) s) (fun t => t.arm.release = 5), gives (exec (.registerWrite (.firmwareRead 0) 0x024 0) s) (fun t => t.sent = [.register 0]), gives (exec (.registerWrite (.firmware 0) (2 ^ 41 + 7) 0) s) (fun t => !(t.core 7).noise.en),
      gives (exec (.registerWrite .operator 8 6) (r { pstate := 3 })) (fun t => (t.part 0).clmask = 6), stays (.registerWrite .operator 8 6) s, gives (exec (.registerWrite .operatorRead 8 0) s) (fun t => t.sent = [.register 1]),
      gives (exec (.registerWrite .operator 8 0) { s with parts := [(0, { pstate := 3, group := 1, clmask := 1 }), (1, { pstate := 3, group := 1 })] }) (fun t => (t.part 0).clmask = 0),
      gives (exec (.registerWrite .operator 0x100008 (2 ^ 63 + 11)) s) (fun t => (Tbl.getD t.peers 1 {}).present && (Tbl.getD t.peers 1 {}).link = 11), gives (exec (.registerWrite .operator 0x100008 (2 ^ 63 + 12)) s) (fun t => (Tbl.getD t.peers 1 {}).present && (Tbl.getD t.peers 1 {}).link = 0),
      gives (exec (bar2 false) { s with mem := [(0x1001, 9)] }) (fun t => t.sent = [.completion 1 true false [0, 9]]), gives (exec (bar2 true) s) (fun t => Memory.readBytes t.mem 0x1000 2 = [1, 2] && t.sent = []),
      gives (exec (.hostBar2Access 0 true (2 ^ 36) [1]) s) (fun t => t.sent = [done false 1] && (t.part 0).ovaddr = 2 ^ 36 && (t.part 0).ovcnt = 1),
      lost.owner 0x1000 = some 0 && !lost.admits 0 0x1000 2 true, gives (exec (bar2 true) lost) (fun t => t.sent = [done false 1] && (t.part 0).ovcnt = 0), gives (exec (bar2 true) held) (fun t => t.heldIn = [bar2 true])]) = true := by decide +kernel
theorem witness_peers : ok (let s := sR {}
    let batch : Batch := { pidN := 0, slice := 0, dpa := 0x1000, va := 0, method := 0, ent := {}, stat := .running }
    let arrives := fun (p : Nat) (acc : PeerAcc) (s : State) => exec (.peerRequestArrive 3 p 0x1000 acc 40) s
    [gives (arrives 0 (.write [1, 2]) s) (fun t => Memory.readBytes t.mem 0x1000 2 = [1, 2] && t.sent = [.peerDone 3 true false []] && t.lc (lcLink 3) = 42), gives (arrives 0 (.write [1, 2]) { s with batches := [(7, batch)] }) (fun t => t.heldIn.length = 1),
      gives (arrives 0 (.atomic .add false 3 0) { s with mem := [(0x1000, 5)] }) (fun t => Memory.readBytes t.mem 0x1000 4 = [8, 0, 0, 0] && t.sent = [.peerDone 3 true false [5, 0, 0, 0]]),
      gives (arrives 0 (.atomic .exch true (2 ^ 64 - 1) 0) s) (fun t => Memory.readBytes t.mem 0x1000 8 = List.replicate 8 0xFF), gives (arrives 12 (.write [1]) s) (fun t => t.sent = [.peerDone 3 false false []] && t.mem = s.mem),
      gives (exec (.peerLinkFail 3) s) (fun t => t.linksDown = [3] && t.opWait.length = 1), stays (.peerLinkFail 3) { s with linksDown := [3] }, stays (.peerRequestArrive 3 0 0x1000 (.read 4) 0) { s with linksDown := [3] }]) = true := by decide +kernel

theorem witness_device : ok (let led := sW {}
    let at_ := fun (d : Die) => { led with dies := [(0, d)], time := 20000 }
    let b := fun (mhz : Nat) => at_ { budget := some 600, mhz := mhz }
    [gives (exec .deviceReset led) (fun t => t.mem = led.mem && t.waves = [] && t.parts = [] && t.time = 0), (leader led).isSome,
      gives (exec (.powerBudgetSet 0 none) led) (fun t => t.moduleW = 1800 && (t.die 0).budget = some 600), gives (exec (.powerBudgetSet 0 (some 900)) { b 1500 with orderM := false }) (fun t => t.moduleW = 900 && (t.die 0).pending = some 300),
      stays (.powerBudgetSet 0 none) sM, gives (exec (.governorPeriod 0 600001 0) (b 1500)) (fun t => (t.die 0).mhz = 1450 && (t.die 0).negative), gives (exec (.governorPeriod 0 600001 0) (b 1200)) (fun t => (t.die 0).mhz = 1200),
      gives (exec (.governorPeriod 0 585000 0) (b 1980)) (fun t => (t.die 0).mhz = 2000 && !(t.die 0).negative), gives (exec (.governorPeriod 0 585001 0) (b 1500)) (fun t => (t.die 0).mhz = 1500),
      gives (exec (.governorPeriod 0 0 1800001) (b 1500)) (fun t => (t.die 0).mhz = 1550 && t.overFrom = some 0), gives (exec (.governorPeriod 0 0 1800001) { led with dies := [(0, { budget := some 600, mhz := 1500, since := 20000 })], time := 40000, overFrom := some 0 }) (fun t => (t.die 0).mhz = 1450 && t.overFrom = some 0), stays (.governorPeriod 0 0 0) (at_ {}),
      gives (exec (.fabricConnectionFail 1) led) (fun t => t.fabricDown = [1] && t.oplog.length = 1), gives (exec (.fabricConnectionFail 1) { led with fabricDown := [0] }) (fun t => t.fabricDown = [1, 0] && (t.part 0).eldrop = 1),
      gives (exec (.fabricConnectionFail 3) led) (fun t => t.fabricDown = [] && t.oplog.length = 1 && (t.part 0).eldrop = 1), stays (.fabricConnectionFail 1) { led with fabricDown := [1] }]) = true := by decide +kernel

/-- PreemptionSteps: what a core kept comes back; a member without a quantum; a save and a restore whose records are held; a discard behind a dump. -/
theorem witness_turns : ok (let kept : Part := { pstate := 3, kept := [(0, { trc := { en := true }, series := [1], marks := [] })] }
    let s := { sR {} with parts := [(0, { (sR {}).part 0 with pstate := 3, kept := kept.kept })] }
    let led := { sR {} with parts := [(0, { (sR {}).part 0 with group := 1 })], fw := [(0, { booted := true, renewed := some 0 })] }
    let batch : Batch := { pidN := 0, slice := 0, dpa := 0x100000, va := 0, method := 0, ent := {}, stat := .running }
    let blk : Block := { launch := 9, lin := 0, cid := 0, waves := [0] }
    [gives (exec (.resume 0) s) (fun t => (t.core 0).trc.en && (t.core 0).series = [1] && (t.part 0).kept = []), gives (exec (.quantumExpire 1) led) (fun t => (t.part 0).pstate = 1 && (t.part 0).mode = 0),
      (sV.part 0).packed, (sV.launch 9).elim false (fun l => !sV.saveHeld 0 12 blk l), stays (.blockSave 12) { sV with batches := [(7, batch)] }, dumpingWave (sR {}) blk = none,
      gives (exec (.preemptDeadline 0) (sR { pstate := 1, mode := 1, deadline := some 0 })) (fun t => (t.part 0).pstate = 2 && t.wave 0 = none), gives (exec (.preemptDeadline 0) (sR { pstate := 1, deadline := some 0 })) (fun t => (t.part 0).pstate = 2 && (t.wave 0).any (·.saving))]) = true := by decide +kernel
/-- InvalidationSteps: writes behind a hold that a command waits for; an invalidation and a teardown where a function serves nobody. -/
theorem witness_late_writes : ok (let busy : Part := { iqbusy := some { idx := 4, op := 1, lates := [5] }, clmask := 1, teardown := [(3, (0, 4, []))] }
    let late : Late := { addr := 0x1000, bytes := [1], id := 5, under := some (0, 3, 1) }
    let s := { sM with parts := [(0, busy)], waves := [] }
    [stays (.invalidationComplete 0) { s with later := [late] }, gives (exec (.invalidationComplete 0) s) (fun t => (t.part 0).iqbusy.isNone), { s with later := [late] }.lateUnder 0 (some 3) = [5], s.lateUnder 0 (some 3) = [],
      stays (.teardownDrainDone 0 3) { s with later := [late] }, !s.vfServes 0, gives (exec (.atsInvalidation 0 8 2) s) (fun t => t.sent = [.completion 1 false false []]),
      gives (exec (.teardown 0 0 0) { s with parts := [(0, { clmask := 1, iqbusy := some { idx := 4, op := 7 } })] }) (fun t => (List.range 16).all (fun j => (Tbl.getD (t.part 0).subs j {}).stat = 2))]) = true := by decide +kernel
/-- FirmwareSteps: requests to a function that serves nobody; a stop of a member that does not hold the clusters. -/
theorem witness_unserved : ok (let s := { sW { tdi := .locked } with fw := [(0, { booted := true, renewed := some 0 })] }
    let away := { sW { tdi := .error } with parts := [(0, { (sR {}).part 0 with group := 1, pstate := 3 }), (1, { group := 1, clmask := 1 })], cores := [(0, { scr := [(8, 1), (2000, 2)] })] }
    [!s.vfServes 0, gives (exec (.flr 1) s) (fun t => t.sent = [.completion 1 false false []] && (t.vf 1).tdi = .locked), gives (exec (.lockedRegisterWrite 1 0 5) s) (fun t => t.sent = [.completion 1 false false []]),
      gives (exec (.lockedRegisterWrite 1 4 5) s) (fun t => (t.vf 1).tdi = .error), (sW {}).vfServes 0, !away.holds 0, away.coresOf 0 ≠ [], gives (exec (.stopInterfaceRequest 1) away) (fun t => (t.core 0).scr = [(8, 1)])]) = true := by decide +kernel

end Sys2Proof.Tests
end

section
/-! SUPPORT. What is read of a table, a die or a partition after a write, and of the tables of the state after reset. -/

namespace Sys2Proof.Tbl

variable {α β : Type}

theorem get?_mapVal (f : Nat → α → β) (t : Tbl α) (k : Nat) : get? (mapVal f t) k = (get? t k).map (f k) := by
  induction t with
  | nil => rfl
  | cons e t ih =>
    obtain ⟨j, x⟩ := e
    simp only [mapVal, List.map_cons, get?] at ih ⊢
    split
    · rename_i h; subst h; rfl
    · exact ih

end Sys2Proof.Tbl

namespace Sys2Proof.Machine.State

variable (s : State)

@[simp] theorem die_modDie_same (d : Nat) (f : Die → Die) : (s.modDie d f).die d = f (s.die d) := by simp [die]
theorem die_modDie_other {d e : Nat} (h : e ≠ d) (f : Die → Die) : (s.modDie d f).die e = s.die e := by
  simp [die, Tbl.getD_set_other _ h]

@[simp] theorem part_modPart_same (p : Nat) (f : Part → Part) : (s.modPart p f).part p = f (s.part p) := by simp [part]
theorem part_modPart_other {p q : Nat} (h : q ≠ p) (f : Part → Part) : (s.modPart p f).part q = s.part q := by
  simp [part, Tbl.getD_set_other _ h]

@[simp] theorem part_bumpSeq (x l p : Nat) : (s.bumpSeq x l).part p = s.part p := rfl

@[simp] theorem reset_die (d : Nat) : reset.die d = {} := rfl
@[simp] theorem reset_part (p : Nat) : reset.part p = {} := rfl
@[simp] theorem reset_core (c : Nat) : reset.core c = {} := rfl
@[simp] theorem reset_lc (u : Nat) : reset.lc u = 0 := rfl

end Sys2Proof.Machine.State
end

section
/-! SUPPORT. What traffic to the home slices changes: device memory, its caches and codes, the channels, the steps to come and the operator's log, which only grows. -/

namespace Sys2Proof.Machine

namespace State

/-- Records of the operator's log, those that wait for a leader among them (R331, R348). -/
def records (s : State) : Nat := s.oplog.length + s.opWait.length

/-- A state without what traffic to the home slices may change. -/
def aside (s : State) : State :=
  { s with mem := [], l2 := [], badLines := [], hbm := [], hbmErr := [], deltas := [], chans := [], later := [], toLog := []
           oplog := [], opWait := [], seqs := [], inbox := [], lateSeq := 0, freeCtr := 0 }

/-- R331: the operator's log takes a record at once under a leader, and otherwise once there is one. -/
theorem records_logOperator (s : State) (r : ErrRec) : (s.logOperator r).records = s.records + 1 := by
  unfold logOperator records
  split <;> simp [bumpSeq] <;> omega

theorem aside_logOperator (s : State) (r : ErrRec) : (s.logOperator r).aside = s.aside := by
  unfold logOperator
  split <;> rfl

theorem fabricDown_logOperator (s : State) (r : ErrRec) : (s.logOperator r).fabricDown = s.fabricDown :=
  (congrArg State.fabricDown (s.aside_logOperator r) :)

theorem parts_logOperator (s : State) (r : ErrRec) : (s.logOperator r).parts = s.parts :=
  (congrArg State.parts (s.aside_logOperator r) :)

end State

/-- `t` differs from `s` only in what traffic to the home slices may change, and the operator's log has lost no record. -/
structure HomeOnly (s t : State) : Prop where
  aside : t.aside = s.aside
  records : s.records ≤ t.records

namespace HomeOnly

theorem refl (s : State) : HomeOnly s s := ⟨rfl, Nat.le_refl _⟩

theorem trans {a b c : State} (h : HomeOnly b c) (g : HomeOnly a b) : HomeOnly a c :=
  ⟨h.aside.trans g.aside, Nat.le_trans g.records h.records⟩

variable {a s : State}

theorem parts (h : HomeOnly a s) : s.parts = a.parts := (congrArg State.parts h.aside :)

theorem part (h : HomeOnly a s) (p : Nat) : s.part p = a.part p := by simp [State.part, h.parts]

theorem ite {c : Prop} [Decidable c] {t u : State} (ht : HomeOnly a t) (hu : HomeOnly a u) : HomeOnly a (if c then t else u) := by
  split <;> assumption

/-- A fold of steps that are traffic to the home slices is such traffic. -/
theorem foldl {α : Type} (l : List α) (g : State → α → State) (hg : ∀ s x, HomeOnly s (g s x)) (h : HomeOnly a s) : HomeOnly a (l.foldl g s) := by
  induction l generalizing s with
  | nil => exact h
  | cons x l ih => exact ih ((hg s x).trans h)

theorem logOperator (h : HomeOnly a s) (r : ErrRec) : HomeOnly a (s.logOperator r) :=
  ⟨(s.aside_logOperator r).trans h.aside, Nat.le_trans h.records (by rw [s.records_logOperator]; omega)⟩

theorem post (h : HomeOnly a s) (is : List Instr) : HomeOnly a (s.post is) := ⟨h.aside, h.records⟩

theorem bumpSeq (h : HomeOnly a s) (x l : Nat) : HomeOnly a (s.bumpSeq x l) := ⟨h.aside, h.records⟩

theorem modChan (h : HomeOnly a s) (c : Nat) (f : Chan → Chan) : HomeOnly a (s.modChan c f) := ⟨h.aside, h.records⟩

theorem setDeltas (h : HomeOnly a s) (d : Tbl (List Byte)) : HomeOnly a { s with deltas := d } := ⟨h.aside, h.records⟩

theorem setL2 (h : HomeOnly a s) (t : Tbl L2Line) : HomeOnly a { s with l2 := t } := ⟨h.aside, h.records⟩

theorem setHbmErr (h : HomeOnly a s) (m : Memory) : HomeOnly a { s with hbmErr := m } := ⟨h.aside, h.records⟩

theorem sectorWrite (h : HomeOnly a s) (d : Nat) (bs : List Byte) : HomeOnly a (s.sectorWrite d bs) := ⟨h.aside, h.records⟩

theorem retireFrames (h : HomeOnly a s) (ch : Nat) (f : Nat → Bool) : HomeOnly a (s.retireFrames ch f) :=
  foldl _ _ (fun s _ => modChan (refl s) _ _) h

theorem markDead (h : HomeOnly a s) (ch : Nat) : HomeOnly a (s.markDead ch) := by
  unfold State.markDead
  have marked := logOperator (modChan h ch (fun c => { c with dead := true })) { src := 0x100 + ch, kind := 14 }
  exact ite h (ite (post marked _) marked)

theorem noteCorrected (h : HomeOnly a s) (d p : Nat) (u : Bool) : HomeOnly a (s.noteCorrected d p u) := by
  unfold State.noteCorrected
  extract_lets ch c row n m again s1 s2 s3
  have h1 : HomeOnly a s1 := ite (sectorWrite h _ _) h
  have h2 : HomeOnly a s2 := modChan h1 _ _
  have h3 : HomeOnly a s3 := ite (logOperator h2 _) h2
  exact ite (retireFrames (logOperator (modChan h3 _ _) _) _ _) h3

theorem noteDetected (h : HomeOnly a s) (d : Nat) : HomeOnly a (s.noteDetected d) := by
  unfold State.noteDetected
  exact ite (markDead (modChan h _ _) _) (modChan h _ _)

theorem noteLine (h : HomeOnly a s) (d p : Nat) : HomeOnly a (s.noteLine d p) := by
  unfold State.noteLine
  refine ite h (foldl _ _ (fun s k => ?_) h)
  split
  · exact noteCorrected (refl s) _ _ _
  · exact refl s
  · exact noteDetected (refl s) _

theorem lineWrite (h : HomeOnly a s) (d : Nat) (x : List (Option Nat)) : HomeOnly a (s.lineWrite d x) := by
  unfold State.lineWrite
  exact foldl _ _ (fun s _ => ite (sectorWrite (refl s) _ _) (setHbmErr (refl s) _)) h

theorem noteStripe (h : HomeOnly a s) (sp st : Nat) (ps : List Nat) : HomeOnly a (s.noteStripe sp st ps) := by
  unfold State.noteStripe
  refine foldl _ _ (fun s k => ?_) h
  split
  · exact noteLine (refl s) _ _
  · exact refl s

theorem decodeStripe (h : HomeOnly a s) (sp st : Nat) : HomeOnly a (s.decodeStripe sp st) := by
  unfold State.decodeStripe
  extract_lets syms read now todo noted written
  have hw : HomeOnly a written :=
    foldl _ _ (fun s _ => ite (lineWrite (refl s) _ _) (setDeltas (lineWrite (refl s) _ _) _)) (noteStripe h _ _ _)
  exact ite hw (logOperator hw _)

theorem decodeNoted (h : HomeOnly a s) (sp st : Nat) : HomeOnly a (s.decodeNoted sp st) := by
  unfold State.decodeNoted
  exact ite (post (decodeStripe h _ _) _) (decodeStripe h _ _)

theorem mergeDelta (h : HomeOnly a s) (sp st q : Nat) (x : List Byte) : HomeOnly a (s.mergeDelta sp st q x) := by
  unfold State.mergeDelta
  split
  · exact h
  · exact setDeltas h _

theorem drainDelta (h : HomeOnly a s) (k : Nat) : HomeOnly a (s.drainDelta k) := by
  unfold State.drainDelta
  refine ite h ?_
  split
  · exact setDeltas h _
  · exact ite (setDeltas (lineWrite (noteLine h _ _) _ _) _) (setDeltas (lineWrite (decodeNoted h _ _) _ _) _)

theorem makeDeltaRoom (h : HomeOnly a s) (sp st q : Nat) : HomeOnly a (s.makeDeltaRoom sp st q) := by
  unfold State.makeDeltaRoom
  refine ite h ?_
  dsimp only
  split
  · exact drainDelta h _
  · exact h

theorem writeBackL2 (h : HomeOnly a s) (l : Nat) (e : L2Line) : HomeOnly a (s.writeBackL2 l e) := by
  unfold State.writeBackL2
  extract_lets dpa sp st j new sent written
  have hs : HomeOnly a sent := mergeDelta (mergeDelta h _ _ _ _) _ _ _ _
  have hw : HomeOnly a written := by
    unfold written
    split
    · exact hs
    · exact foldl _ _ (fun s _ => sectorWrite (refl s) _ _) hs
  exact setL2 hw _

theorem l2Room (h : HomeOnly a s) (l : Nat) : HomeOnly a (s.l2Room l) := by
  unfold State.l2Room State.roomAt
  refine ite h (ite h ?_)
  split
  · exact setL2 h _
  · dsimp only
    split
    · exact setL2 (writeBackL2 (makeDeltaRoom (makeDeltaRoom h _ _ _) _ _ _) _ _) _
    · exact h

theorem fill (h : HomeOnly a s) (l : Nat) : HomeOnly a (s.fill l) := by
  unfold State.fill
  extract_lets room dpa sp st place bytes clean noted read r
  have hroom : HomeOnly a room := l2Room h l
  have hnoted : HomeOnly a noted := by
    clear_value place clean
    refine ite ?_ (decodeNoted hroom _ _)
    split
    · exact noteLine hroom _ _
    · exact hroom
  have hread : HomeOnly a read := ⟨hnoted.aside, hnoted.records⟩
  clear_value bytes read
  refine ite h ?_
  split
  · exact ⟨hread.aside, hread.records⟩
  · have hlog := logOperator hread r
    exact ⟨hlog.aside, hlog.records⟩

theorem homeWrite (h : HomeOnly a s) (d : Nat) (bs : List Byte) : HomeOnly a (s.homeWrite d bs) :=
  have hfill := foldl (State.linesOf d bs.length) State.fill (fun s l => fill (refl s) l) h
  ⟨hfill.aside, hfill.records⟩

theorem homePut (h : HomeOnly a s) (d : Nat) (bs : List Byte) (u : Option (Nat × Nat × Nat)) : HomeOnly a (s.homePut d bs u) :=
  ite (foldl _ _ (fun s _ => ite ⟨rfl, Nat.le_refl _⟩ (homeWrite (refl s) _ _)) h) (homeWrite h _ _)

end HomeOnly

end Sys2Proof.Machine
end

section
/-! SUPPORT. What a record for the error rings of partitions changes (R327, R341, R348). -/

namespace Sys2Proof.Machine

/-- `t` differs from `s` only in the registers of the partitions `ps` and in what traffic to the home slices may change. -/
structure LogOnly (ps : List Nat) (s t : State) : Prop where
  aside : { t.aside with parts := [] } = { s.aside with parts := [] }
  part : ∀ q, q ∉ ps → t.part q = s.part q
  records : s.records ≤ t.records

theorem HomeOnly.logOnly {s t : State} (h : HomeOnly s t) (ps : List Nat) : LogOnly ps s t :=
  ⟨(congrArg (fun u => { u with parts := [] }) h.aside :), fun q _ => h.part q, h.records⟩

namespace LogOnly

theorem refl (ps : List Nat) (s : State) : LogOnly ps s s := (HomeOnly.refl s).logOnly ps

theorem trans {ps : List Nat} {a b c : State} (h : LogOnly ps b c) (g : LogOnly ps a b) : LogOnly ps a c :=
  ⟨h.aside.trans g.aside, fun q hq => (h.part q hq).trans (g.part q hq), Nat.le_trans g.records h.records⟩

variable {ps : List Nat} {a s : State}

theorem fabricDown (h : LogOnly ps a s) : s.fabricDown = a.fabricDown := (congrArg State.fabricDown h.aside :)

theorem home {t : State} (g : HomeOnly s t) (h : LogOnly ps a s) : LogOnly ps a t := (g.logOnly ps).trans h

theorem modPart (h : LogOnly ps a s) {p : Nat} (hp : p ∈ ps) (f : Part → Part) : LogOnly ps a (s.modPart p f) :=
  ⟨h.aside, fun q hq => (s.part_modPart_other (ne_of_mem_of_not_mem hp hq).symm f).trans (h.part q hq), h.records⟩

theorem refuse (h : LogOnly ps a s) {p : Nat} (hp : p ∈ ps) (x n : Nat) : LogOnly ps a (s.refuse p x n) := by
  unfold State.refuse
  split
  · exact h
  · exact home (.logOperator (.refl _) _) (modPart h hp _)

theorem refuseRing (h : LogOnly ps a s) {p : Nat} (hp : p ∈ ps) (b x n : Nat) : LogOnly ps a (s.refuseRing p b x n) := by
  unfold State.refuseRing
  split <;> exact refuse h hp _ _

theorem logPart (h : LogOnly ps a s) {p : Nat} (hp : p ∈ ps) (r : ErrRec) : LogOnly ps a (s.logPart p r).1 := by
  have counted : LogOnly ps a (s.bumpSeq r.src p) := home (.bumpSeq (.refl _) _ _) h
  unfold State.logPart
  dsimp only
  split
  · dsimp only; exact modPart counted hp _
  · split
    · dsimp only; exact modPart (refuseRing counted hp _ _ _) hp _
    · dsimp only; exact modPart (home (.homePut (.refl _) _ _ _) counted) hp _

theorem foldl_logPart (h : LogOnly ps a s) {qs : List Nat} (hq : qs ⊆ ps) (r : ErrRec) :
    LogOnly ps a (qs.foldl (fun s p => (s.logPart p r).1) s) := by
  induction qs generalizing s with
  | nil => exact h
  | cons q qs ih =>
    obtain ⟨hq, hqs⟩ := List.cons_subset.1 hq
    exact ih (logPart h hq r) hqs

end LogOnly

namespace State

/-- R341: a record for a partition whose error ring is not enabled is counted as dropped. -/
theorem eldrop_logPart (s : State) (p : Nat) (r : ErrRec) (h : (s.part p).elen = false) :
    ((s.logPart p r).1.part p).eldrop = min ((s.part p).eldrop + 1) (2 ^ 32 - 1) := by
  simp [logPart, h]

theorem eldrop_foldl_logPart {ps : List Nat} (hps : ps.Nodup) {p : Nat} (hp : p ∈ ps) (s : State) (r : ErrRec) (h : (s.part p).elen = false) :
    ((ps.foldl (fun s p => (s.logPart p r).1) s).part p).eldrop = min ((s.part p).eldrop + 1) (2 ^ 32 - 1) := by
  induction ps generalizing s with
  | nil => exact absurd hp List.not_mem_nil
  | cons q ps ih =>
    obtain ⟨hq, hps⟩ := List.nodup_cons.1 hps
    rw [List.foldl_cons]
    by_cases e : p = q
    · subst e
      rw [(LogOnly.foldl_logPart (.refl ps _) (List.Subset.refl ps) r).part p hq, eldrop_logPart s p r h]
    · have same : (s.logPart q r).1.part p = s.part p :=
        (LogOnly.logPart (.refl [q] s) (List.mem_singleton.2 rfl) r).part p (by simpa using e)
      rw [ih hps ((List.mem_cons.1 hp).resolve_left e) _ (by rw [same]; exact h), same]

/-- R327: a device-wide error puts at least one record into the operator's log. -/
theorem records_logDevice (s : State) (ps : List Nat) (r : ErrRec) : s.records < (s.logDevice ps r).records := by
  have h := (LogOnly.foldl_logPart (.refl ps (s.logOperator r)) (List.Subset.refl ps) r).records
  rw [records_logOperator] at h
  exact h

theorem fabricDown_logDevice (s : State) (ps : List Nat) (r : ErrRec) : (s.logDevice ps r).fabricDown = s.fabricDown :=
  (LogOnly.foldl_logPart (.refl ps _) (List.Subset.refl ps) r).fabricDown.trans (s.fabricDown_logOperator r)

/-- R327, R348: a device-wide error reaches each of the partitions: one whose ring is not enabled counts it as dropped. -/
theorem eldrop_logDevice {ps : List Nat} (hps : ps.Nodup) {p : Nat} (hp : p ∈ ps) (s : State) (r : ErrRec) (h : (s.part p).elen = false) :
    ((s.logDevice ps r).part p).eldrop = min ((s.part p).eldrop + 1) (2 ^ 32 - 1) := by
  have same : (s.logOperator r).part p = s.part p := (HomeOnly.logOperator (.refl s) r).part p
  rw [logDevice, eldrop_foldl_logPart hps hp _ r (by rw [same]; exact h), same]

end State

end Sys2Proof.Machine
end

section
/-! The state after reset, the governors and the die fabric (R3, R10 to R15, R19, R327, R331). -/

namespace Sys2Proof.Machine

/-- Settles O31: every table of the state after reset is empty, so that each die, partition and core read from one is in the state of its defaults. -/
theorem resetState : Obligations.ResetState :=
  ⟨rfl, rfl, rfl, rfl, rfl, rfl, rfl, fun d => by simp, fun p => by simp, fun c => by simp, fun u => State.reset_lc u, rfl, rfl⟩

/-! The clock of the next period (R13, R15). -/

theorem nextClock_lowered {mhz : Nat} {room : Int} {forced : Bool} (h : room < 0 ∨ forced = true) : nextClock mhz room forced = max (mhz - 50) 1200 := by
  simp [nextClock, h.symm]

theorem nextClock_kept {mhz : Nat} {room : Int} (h0 : 0 ≤ room) (h : room < 15000) : nextClock mhz room false = mhz := by
  simp [nextClock, h, Int.not_lt.2 h0]

theorem nextClock_raised {mhz : Nat} {room : Int} (h : 15000 ≤ room) : nextClock mhz room false = min (mhz + 50) 2000 := by
  simp [nextClock, Int.not_lt.2 h, show ¬ room < 0 by omega]

/-- R13: the clock stays in its range and moves by no more than 50 MHz. -/
theorem nextClock_range {mhz : Nat} (lo : 1200 ≤ mhz) (hi : mhz ≤ 2000) (room : Int) (forced : Bool) :
    1200 ≤ nextClock mhz room forced ∧ nextClock mhz room forced ≤ 2000
      ∧ nextClock mhz room forced ≤ mhz + 50 ∧ mhz ≤ nextClock mhz room forced + 50 := by
  unfold nextClock
  split
  · omega
  · split <;> omega

/-! Reset. -/

/-- A reset leaves what a peer device holds as it is (log 24). -/
theorem peerMem_execDeviceReset (s : State) (j : Nat) :
    (Tbl.getD (Tbl.mapVal (fun _ (e : PeerE) => ({ mem := e.mem } : PeerE)) s.peers) j {}).mem = s.peerMem j := by
  unfold State.peerMem Tbl.getD
  rw [Tbl.get?_mapVal]
  cases Tbl.get? s.peers j <;> rfl

/-! Budgets (R15, R19, R331). -/

section
variable (s : State) (d : Nat) (read : Option Nat)

theorem execPowerBudgetSet_unled (h : leader s = none) : execPowerBudgetSet d read s = .next s := by
  simp [execPowerBudgetSet, h]

theorem execPowerBudgetSet_led (hd : d < 3) (h : (leader s).isSome = true) :
    ∃ t, execPowerBudgetSet d read s = .next t ∧ t.moduleW = moduleLimit s.orderM read
      ∧ t.die d = if (s.die d).budget.isNone then { s.die d with budget := some (dieBudget (moduleLimit s.orderM read)), since := s.time }
          else { s.die d with pending := some (dieBudget (moduleLimit s.orderM read)) } := by
  have runs : ¬ (3 ≤ d || (leader s).isNone) = true := by simp [Nat.not_le.2 hd, Option.isSome_iff_ne_none.1 h]
  exact ⟨_, if_neg runs, rfl, State.die_modDie_same ..⟩

end

/-! The end of a governor's period (R13, R15). -/

section
variable {s : State} {d dieMw moduleMw w : Nat}

theorem execGovernorPeriod_early (h : (s.die d).budget = none ∨ s.time < (s.die d).since + 20000) : execGovernorPeriod d dieMw moduleMw s = .next s := by
  unfold execGovernorPeriod
  extract_lets x
  split
  · rfl
  · rename_i w hw
    have late : s.time < x.since + governorSpan := h.resolve_left (by rw [hw]; simp)
    simp [late]

theorem execGovernorPeriod_ends (hd : d < 3) (hw : (s.die d).budget = some w) (ht : (s.die d).since + 20000 ≤ s.time) :
    let x := s.die d
    let room : Int := (w * 1000 : Nat) - (dieMw : Nat)
    let beyond := min s.moduleW 1800 * 1000 < moduleMw
    let start := s.overFrom.getD x.since
    ∃ t, execGovernorPeriod d dieMw moduleMw s = .next t ∧ t.overFrom = (if beyond then some start else none)
      ∧ t.die d = { x with
          mhz := nextClock x.mhz room (decide (beyond ∧ start + 20000 ≤ x.since)), negative := decide (room < 0)
          budget := some (x.pending.getD w), pending := none, since := x.since + 20000 }
      ∧ ∀ j, j ≠ d → t.die j = s.die j := by
  have runs : ¬ (3 ≤ d || s.time < (s.die d).since + governorSpan) = true := by simp [governorSpan, Nat.not_le.2 hd, Nat.not_lt.2 ht]
  intro x room beyond start
  simp only [execGovernorPeriod, hw]
  refine ⟨_, if_neg runs, ?_, (State.die_modDie_same ..).trans ?_, fun j hj => State.die_modDie_other _ hj _⟩
  · simp [beyond, start, x]
  · rw [Bool.decide_and]; rfl

end

/-! Connections of the fabric and command processors (R10, R327). -/

section
variable {s : State} {c p : Nat}

theorem nodup_owning (s : State) : s.owning.Nodup := List.nodup_range.filter _
theorem nodup_owningOn (s : State) (d : Nat) : (s.owningOn d).Nodup := List.nodup_range.filter _

theorem mem_owning : p ∈ s.owning ↔ p < 12 ∧ s.clusters p ≠ 0 := by simp [State.owning]
theorem mem_owningOn : p ∈ s.owningOn c ↔ p < 12 ∧ ∃ j, j < 36 ∧ j / 12 = c ∧ (s.clusters p).getLsbD j = true := by
  simp [State.owningOn]

theorem execFabricConnectionFail_again (h : c ∈ s.fabricDown) : execFabricConnectionFail c s = .next s := by
  simp [execFabricConnectionFail, h]

theorem execFabricConnectionFail_first (hc : c < 3) (h : s.fabricDown = []) :
    execFabricConnectionFail c s = .next ({ s with fabricDown := [c] }.logOperator { src := 0x510 + c / 2, kind := 8 }) := by
  simp [execFabricConnectionFail, h, show ¬ 6 ≤ c by omega, show ¬ 3 ≤ c by omega]

theorem execFabricConnectionFail_second (hc : c < 3) (hn : c ∉ s.fabricDown) (h : s.fabricDown ≠ []) :
    execFabricConnectionFail c s =
      .next ({ s with fabricDown := c :: s.fabricDown }.logDevice s.owning { src := 0x510 + c / 2, kind := 8, flags := 1 }) := by
  have same : ({ s with fabricDown := c :: s.fabricDown } : State).owning = s.owning := rfl
  simp [execFabricConnectionFail, hn, h, same, show ¬ 6 ≤ c by omega, show ¬ 3 ≤ c by omega]

theorem execFabricConnectionFail_cp (hc : c < 3) (hn : c + 3 ∉ s.fabricDown) :
    execFabricConnectionFail (c + 3) s = .next (s.logDevice (s.owningOn c) { src := 0x500 + c, kind := 8, flags := 1 }) := by
  simp [execFabricConnectionFail, hn, State.cpFail, show ¬ 3 ≤ c by omega]

end

/-- Settles O60. The reset is read off its result; a budget and a period's end by what they leave in the die; the loss of a connection or of a command processor by
the records of `logOperator` and `logDevice`, whose writes to error rings touch neither the fabric nor other partitions (`LogOnly`). -/
theorem deviceSteps : Obligations.DeviceSteps := by
  intro s d c dieMw moduleMw read w x limit room beyond start forced
  refine ⟨?reset, ?budget, execPowerBudgetSet_unled s d read, ?period, execGovernorPeriod_early, ?connection, ?processor, execFabricConnectionFail_again⟩
  case reset =>
    exact ⟨_, rfl, rfl, rfl, rfl, fun j => (peerMem_execDeviceReset s j).symm, rfl, rfl, rfl, rfl, rfl, rfl, rfl, rfl, rfl, rfl, rfl, rfl, rfl, rfl, rfl, rfl, rfl⟩
  case budget =>
    intro hd hl
    obtain ⟨t, ht, hlimit, hdie⟩ := execPowerBudgetSet_led s d read hd hl
    refine ⟨fun hb => ⟨t, ht, hlimit, ?_⟩, fun hb => ⟨t, ht, hlimit, ?_⟩⟩
    · exact hdie.trans (if_pos (Option.isNone_iff_eq_none.2 hb))
    · exact hdie.trans (if_neg (by simpa [Option.isSome_iff_ne_none] using hb))
  case period =>
    intro hd hw ht lo hi
    obtain ⟨t, ht, hover, hdie, hother⟩ := execGovernorPeriod_ends hd hw ht
    obtain ⟨least, most, up, down⟩ := nextClock_range lo hi room (decide forced)
    refine ⟨t, ht, ?_⟩
    dsimp only
    rw [hdie]
    refine ⟨rfl, rfl, rfl, decide_eq_true_iff, rfl, least, most, up, down, hover, hother, fun h => ?_, fun hf h0 h => ?_, fun hf h => ?_⟩
    · exact nextClock_lowered (h.imp_right decide_eq_true)
    · exact (congrArg (nextClock x.mhz room) (decide_eq_false hf)).trans (nextClock_kept h0 h)
    · exact (congrArg (nextClock x.mhz room) (decide_eq_false hf)).trans (nextClock_raised h)
  case connection =>
    intro hc hn
    refine ⟨fun h => ⟨_, execFabricConnectionFail_first hc h, ?_, State.records_logOperator _ _, State.parts_logOperator _ _⟩,
      fun h => ⟨_, execFabricConnectionFail_second hc hn h, ?_, ?_, fun p hp hcl he => ?_⟩⟩
    · exact State.fabricDown_logOperator _ _
    · exact State.fabricDown_logDevice _ _ _
    · exact State.records_logDevice { s with fabricDown := c :: s.fabricDown } _ _
    · exact State.eldrop_logDevice (nodup_owning s) (mem_owning.2 ⟨hp, hcl⟩) _ _ he
  case processor =>
    intro hc hn
    refine ⟨_, execFabricConnectionFail_cp hc hn, State.fabricDown_logDevice _ _ _, State.records_logDevice _ _ _, fun p hp on he => ?_⟩
    exact State.eldrop_logDevice (nodup_owningOn s c) (mem_owningOn.2 ⟨hp, on⟩) s _ he

end Sys2Proof.Machine
end

section
/-! SUPPORT. Masks of lanes as tests of lanes, and words that a check of their own refuses. -/

namespace Sys2Proof

theorem mem_lanesOf {m : Mask} {l : Nat} : l ∈ lanesOf m ↔ l < 96 ∧ m.getLsbD l = true := by
  rw [lanesOf, List.mem_filter, List.mem_range]

/-- The sum of the powers of two that a test picks below 2^n has just the bits that it picks. -/
theorem testBit_sum_two_pow (f : Nat → Bool) (n : Nat) :
    (List.range n).foldl (fun a i => if f i then a + 2 ^ i else a) 0 < 2 ^ n
      ∧ ∀ l, ((List.range n).foldl (fun a i => if f i then a + 2 ^ i else a) 0).testBit l = (decide (l < n) && f l) := by
  induction n with
  | zero => exact ⟨Nat.one_pos, fun l => Nat.zero_testBit l⟩
  | succ n ih =>
    obtain ⟨below, bits⟩ := ih
    rw [List.range_succ, List.foldl_append, List.foldl_cons, List.foldl_nil]
    generalize (List.range n).foldl (fun a i => if f i then a + 2 ^ i else a) 0 = a at below bits
    have le_iff {l : Nat} (h : n ≠ l) : l < n + 1 ↔ l < n := by omega
    cases hf : f n with
    | false =>
      refine ⟨by simp only [Bool.false_eq_true, if_false]; omega, fun l => ?_⟩
      by_cases h : n = l
      · subst h; simp only [Bool.false_eq_true, if_false, bits, hf, Bool.and_false]
      · simp only [Bool.false_eq_true, if_false, bits, le_iff h]
    | true =>
      have sum_eq_or : a + 2 ^ n = 2 ^ n ||| a := by
        rw [Nat.add_comm]; simpa only [Nat.mul_one] using Nat.two_pow_add_eq_or_of_lt below 1
      refine ⟨by simp only [if_true]; omega, fun l => ?_⟩
      rw [if_pos rfl, sum_eq_or, Nat.testBit_or, Nat.testBit_two_pow, bits]
      by_cases h : n = l
      · subst h; simp only [hf, decide_true, Bool.true_or, Nat.lt_add_one, Bool.and_true]
      · simp only [h, decide_false, Bool.false_or, le_iff h]

theorem isMask_maskOf (f : Nat → Bool) : Claims.IsMask (maskOf f) f := by
  intro l hl
  rw [maskOf, BitVec.getLsbD_ofNat, (testBit_sum_two_pow f 96).2, decide_eq_true hl, Bool.true_and, Bool.true_and]

/-- The mask that a lane-level word makes of a test of each acting lane's result. -/
theorem isMask_any_lanes (act : Mask) {α : Type} (r : Nat → α) (p : α → Bool) :
    Claims.IsMask (maskOf (fun i => ((lanesOf act).map (fun l => (l, r l))).any (fun x => x.1 = i && p x.2))) (fun l => act.getLsbD l && p (r l)) := by
  intro l hl
  rw [isMask_maskOf _ l hl, Bool.eq_iff_iff]
  simp only [List.any_map, List.any_eq_true, Function.comp_apply, mem_lanesOf, Bool.and_eq_true, decide_eq_true_eq]
  constructor
  · rintro ⟨j, ⟨-, acts⟩, rfl, meets⟩
    exact ⟨acts, meets⟩
  · rintro ⟨acts, meets⟩
    exact ⟨l, ⟨hl, acts⟩, rfl, meets⟩

end Sys2Proof

namespace Sys2Proof.Machine

open Sys2Proof.Claims

/-- R59: a word that is tried, and that a check of the wave's state refuses in the wave that meets it, traps as illegal with that check's reason. -/
theorem traps_illegal_of {i : Instr} {h : Hints} {lane : Bool} {dyn : Ctx → Option Nat} {body : Ctx → Act} {s : State} {k : Nat} {w : Wave} {r : Nat}
    (hi : exec i s = issued i h lane dyn body s) (hx : Tried lane i h s k w) (hd : dyn (seen lane h s k w) = some r) :
    Traps lane i h s k w 2 r allLanes := by
  obtain ⟨cur, wave, room, legal, batch, -, -⟩ := hx
  rw [Traps, hi, issued]
  simp only [cur, wave]
  congr 1
  unfold State.issue
  extract_lets u w₁ src s₁ c comb gp cl
  have room' : ¬ State.setHeld c = true := fun held => room ((setHeld_iff lane h s k w).1 held)
  have refused : firstReason (i.illegal w₁.vregs w₁.sregs) (if comb then some 9 else dyn c) = some r := by
    rw [show comb = false from batch, show i.illegal w₁.vregs w₁.sregs = none from legal, show dyn c = some r from hd]
    rfl
  rw [if_neg room', refused]
  rfl

end Sys2Proof.Machine
end

section
/-! Index splitting: the parameters of an extent and the digits of an index (R66, R116). -/

namespace Sys2Proof.Machine

open Sys2Proof.Claims

/-! The parameters of an extent (R66). -/

theorem le_two_pow_extentL (d : Nat) : d ≤ 2 ^ extentL d := by
  unfold extentL
  split
  · omega
  · have := Nat.lt_log2_self (n := d - 1)
    omega

theorem extentL_least (d : Nat) : extentL d = 0 ∨ 2 ^ (extentL d - 1) < d := by
  unfold extentL
  split
  · exact .inl rfl
  · have := Nat.log2_self_le (n := d - 1) (by omega)
    exact .inr (by simp only [Nat.add_sub_cancel]; omega)

/-- `extentM` is the quotient rounded up: its product with the extent is the first that reaches the power of two. -/
theorem extentM_mul {d : Nat} (hd : 0 < d) : 2 ^ (32 + extentL d) ≤ extentM d * d ∧ extentM d * d < 2 ^ (32 + extentL d) + d := by
  unfold extentM
  generalize 2 ^ (32 + extentL d) = p
  have parts := Nat.div_add_mod' (p + d - 1) d
  have rest := Nat.mod_lt (p + d - 1) hd
  omega

theorem extentM_lt {d : Nat} (hd : 0 < d) (hd' : d < 2 ^ 32) : extentM d < 2 ^ 33 := by
  have small : 2 ^ (32 + extentL d) + d ≤ 2 ^ 33 * d := by
    have least := extentL_least d
    generalize extentL d = l at least ⊢
    cases l with
    | zero => omega
    | succ l =>
      have above : 2 ^ l < d := least.resolve_left (Nat.succ_ne_zero l)
      rw [show 32 + (l + 1) = 33 + l by omega, Nat.pow_add]
      omega
  exact Nat.lt_of_mul_lt_mul_right (Nat.lt_of_lt_of_le (extentM_mul hd).2 small)

/-- A multiplier that exceeds `p / d` by so little that the excess stays below one `p` over all of `n` divides `n` exactly. -/
theorem mul_div_eq_div_of_excess {n m d p e : Nat} (hd : 0 < d) (hm : m * d = p + e) (he : n * e < p) : n * m / p = n / d :=
  calc n * m / p = n * m * d / (p * d) := (Nat.mul_div_mul_right _ _ hd).symm
    _ = (n * e + n * p) / p / d := by rw [Nat.mul_assoc, hm, Nat.mul_add, Nat.add_comm, Nat.div_div_eq_div_mul]
    _ = n / d := by rw [Nat.add_mul_div_right _ _ (by omega), Nat.div_eq_of_lt he, Nat.zero_add]

/-- R66: multiplication by m and the shift divide every 32-bit index exactly. -/
theorem mul_extentM_div {d n : Nat} (hd : 0 < d) (hn : n < 2 ^ 32) : n * extentM d / 2 ^ (32 + extentL d) = n / d := by
  obtain ⟨lower, upper⟩ := extentM_mul hd
  obtain ⟨e, he⟩ := Nat.exists_eq_add_of_le lower
  have excess : e ≤ 2 ^ extentL d := by have := le_two_pow_extentL d; omega
  refine mul_div_eq_div_of_excess hd he ?_
  calc n * e ≤ n * 2 ^ extentL d := Nat.mul_le_mul_left n excess
    _ < 2 ^ 32 * 2 ^ extentL d := Nat.mul_lt_mul_of_pos_right hn (Nat.two_pow_pos _)
    _ = 2 ^ (32 + extentL d) := (Nat.pow_add 2 32 _).symm

/-! The digits of an index (R116). -/

/-- An extent as the shape store holds it: its parameters are those of R66. -/
def Extent.Derived (e : Extent) : Prop := 0 < e.d ∧ e.d < 2 ^ 32 ∧ e.l = extentL e.d ∧ e.m = extentM e.d

theorem wrap_sub_div_mul {x d : Nat} (hx : x < 2 ^ 32) : wrap 32 ((x : Int) - (x / d : Nat) * d) = x % d := by
  have parts := Nat.div_add_mod' x d
  have le := Nat.mod_le x d
  unfold wrap
  rw [show (x : Int) - (x / d : Nat) * d = (x % d : Nat) by rw [← Int.natCast_mul]; omega]
  omega

/-- One extent takes the lowest digit of the index, and the others split the quotient. -/
theorem splitIndex_cons {e : Extent} (he : e.Derived) (es : List Extent) {x : Nat} (hx : x < 2 ^ 32) :
    splitIndex (e :: es) x = (x % e.d :: (splitIndex es (x / e.d)).1, (splitIndex es (x / e.d)).2) := by
  obtain ⟨pos, -, hl, hm⟩ := he
  rw [splitIndex, hl, hm, mul_extentM_div pos hx]
  simp only [wrap_sub_div_mul hx]

theorem splitIndex_digits (es : List Extent) {x : Nat} (hx : x < 2 ^ 32) (hes : ∀ e ∈ es, e.Derived) :
    (splitIndex es x).1.length = es.length
      ∧ (∀ j, j < es.length → (splitIndex es x).1.getD j 0 = x / ((es.take j).map (·.d)).prod % (es.getD j ⟨1, 0, 0⟩).d)
      ∧ (splitIndex es x).2 = x / (es.map (·.d)).prod := by
  induction es generalizing x with
  | nil => exact ⟨rfl, fun j hj => absurd hj (Nat.not_lt_zero j), (Nat.div_one x).symm⟩
  | cons e es ih =>
    obtain ⟨he, hes⟩ := List.forall_mem_cons.1 hes
    obtain ⟨length, digit, rest⟩ := ih (Nat.lt_of_le_of_lt (Nat.div_le_self x e.d) hx) hes
    rw [splitIndex_cons he es hx]
    refine ⟨congrArg (· + 1) length, fun j hj => ?_, ?_⟩
    · cases j with
      | zero => rw [List.take_zero, List.map_nil, List.prod_nil, Nat.div_one, List.getD_cons_zero, List.getD_cons_zero]
      | succ j =>
        rw [List.take_succ_cons, List.map_cons, List.prod_cons, ← Nat.div_div_eq_div_mul, List.getD_cons_succ, List.getD_cons_succ]
        exact digit j (Nat.lt_of_succ_lt_succ hj)
    · rw [List.map_cons, List.prod_cons, ← Nat.div_div_eq_div_mul]
      exact rest

/-! The word (R116). -/

section
variable {d a : Opd} {h : Hints} {n q : BitVec 4} {s : State} {k : Nat} {w : Wave}

theorem illegal_vidx_of_not_vector (hd : ∀ v, d ≠ .v v) (vregs sregs : Nat) :
    (Instr.vidx h d a n q).illegal vregs sregs = some (if 12 < h.set.toNat then 2 else 5) := by
  have kind : (Kind.vgrp 1).allows d = false := by
    cases d with
    | v r => exact absurd rfl (hd r)
    | _ => rfl
  simp only [Instr.illegal, Instr.hints, Instr.modOk, Instr.operands, List.all_cons, kind]
  split <;> rfl

theorem beatsOf_vidx (act : Mask) : beatsOf (.vidx h d a n q) act = if act = 0 then 0 else 3 := by
  have runs : runsBeats (.vidx h d a n q) = true := rfl
  simp only [beatsOf, runs, Bool.not_true, Bool.or_false, decide_eq_true_eq, beatKind]

theorem leaves_vidx {es : List Extent} {v : Fin 512} (hs : shapeOf (ctx true h s k w) n.toNat = some es) (hv : v.val + es.length ≤ w.vregs) :
    let c := ctx true h s k w
    let r := fun (l : Nat) => splitIndex es (c.val 0 a l [a]).toNat
    ∃ out, IsMask out (fun l => c.act.getLsbD l && decide ((r l).2 ≠ 0))
      ∧ Leaves true (.vidx h (.v v) a n q) h s k w 8
          ((List.range es.length).map (fun j => RegW.v (v.val + j) ((lanesOf c.act).map (fun l => (l, BitVec.ofNat 32 ((r l).1.getD j 0)))))
            ++ [.p q.toNat c.act out]) 0 := by
  intro c r
  refine ⟨_, isMask_any_lanes c.act r (fun x => decide (x.2 ≠ 0)), leaves_of (nominal := 1) rfl ?_ ?_⟩
  · have hs' : shapeOf (seen true h s k w) n.toNat = some es := hs
    have fits : ¬ (seen true h s k w).w.vregs < v.val + es.length := Nat.not_lt.2 hv
    simp only [vidxIllegal, hs', if_neg fits]
  · simp only [hs, Option.getD_some, Act.writes, List.map_map]
    rfl

/-- The checks of the shape store, on what an executing word sees as well as on what a tried one sees. -/
theorem traps_vidx {r : Nat} (hx : Tried true (.vidx h d a n q) h s k w) (hr : vidxIllegal d n.toNat (ctx true h s k w) = some r) :
    Traps true (.vidx h d a n q) h s k w 2 r allLanes :=
  traps_illegal_of rfl hx hr

end

/-- Settles O8. The digits come by induction on the extents, each of which divides exactly (R66); the word's writes, traps and beats are read off its meaning. -/
theorem indexSplit : Obligations.IndexSplit := by
  refine ⟨fun d pos lt => ?parameters, fun es x hx hes => splitIndex_digits es hx hes, fun h d a n q s k w => ?word⟩
  case parameters =>
    have power := le_two_pow_extentL d
    obtain ⟨lower, upper⟩ := extentM_mul pos
    exact ⟨power, extentL_least d, lower, upper, by omega, extentM_lt pos lt, fun n hn => mul_extentM_div pos hn⟩
  case word =>
    refine ⟨fun es hs => ⟨fun v hd hv => ?writes, fun v hd hv hx => ?few⟩, fun hs hx => ?noEntry, fun hd => illegal_vidx_of_not_vector hd _ _, beatsOf_vidx⟩
    case writes => subst hd; exact leaves_vidx hs hv
    case few =>
      subst hd
      have few : (ctx true h s k w).w.vregs < v.val + es.length := hv
      exact traps_vidx hx (by simp only [vidxIllegal, hs, if_pos few])
    case noEntry => exact traps_vidx hx (by simp only [vidxIllegal, hs])

end Sys2Proof.Machine
end

section
/-! SUPPORT. Magnitudes m · 2^e on a common scale: what the model compares and splits is told in units of 2^u, for any u below the exponents. -/

namespace Sys2Proof.Machine

/-- m · 2^e in units of 2^u. -/
def inUnits (u : Int) (m : Nat) (e : Int) : Nat := m * 2 ^ (e - u).toNat

theorem inUnits_of_le {u u' e : Int} (hu : u' ≤ u) (he : u ≤ e) (m : Nat) : inUnits u' m e = inUnits u m e * 2 ^ (u - u').toNat := by
  rw [inUnits, inUnits, Nat.mul_assoc, ← Nat.pow_add, show (e - u').toNat = (e - u).toNat + (u - u').toNat by omega]

theorem inUnits_mono {u e e' : Int} (h : e ≤ e') (m : Nat) : inUnits u m e ≤ inUnits u m e' :=
  Nat.mul_le_mul_left m (Nat.pow_le_pow_right Nat.two_pos (by omega))

/-- The comparison of R146 is that of the magnitudes on any common scale. -/
theorem magLe_iff {u e e' : Int} (hu : u ≤ e) (hu' : u ≤ e') (m m' : Nat) : magLe m e m' e' = true ↔ inUnits u m e ≤ inUnits u m' e' := by
  rw [inUnits_of_le (u := min e e') (by omega) (by omega), inUnits_of_le (u := min e e') (by omega) (by omega) m',
    Nat.mul_le_mul_right_iff (Nat.two_pow_pos _), magLe, decide_eq_true_iff, pow2, pow2, inUnits, inUnits,
    show (e - e').toNat = (e - min e e').toNat by omega, show (e' - e).toNat = (e' - min e e').toNat by omega]

theorem magLe_refl (m : Nat) (e : Int) : magLe m e m e = true := (magLe_iff (Int.le_refl e) (Int.le_refl e) m m).2 (Nat.le_refl _)

theorem magLe_total (m m' : Nat) (e e' : Int) : magLe m e m' e' = true ∨ magLe m' e' m e = true := by
  rw [magLe_iff (Int.min_le_left e e') (Int.min_le_right e e'), magLe_iff (Int.min_le_right e e') (Int.min_le_left e e')]
  exact Nat.le_total _ _

theorem magLe_trans {a b c : Nat} {i j k : Int} (h : magLe a i b j = true) (h' : magLe b j c k = true) : magLe a i c k = true := by
  have hi : min (min i j) k ≤ i := by omega
  have hj : min (min i j) k ≤ j := by omega
  have hk : min (min i j) k ≤ k := by omega
  rw [magLe_iff hi hj] at h
  rw [magLe_iff hj hk] at h'
  exact (magLe_iff hi hk a c).2 (Nat.le_trans h h')

theorem magLe_mono (m : Nat) {e e' : Int} (h : e ≤ e') : magLe m e m e' = true :=
  (magLe_iff (Int.le_refl e) h m m).2 (inUnits_mono h m)

/-! The number of bits of a magnitude bounds it by powers of two. -/

theorem two_pow_bitLen_le {m : Nat} (hm : m ≠ 0) : 2 ^ (bitLen m - 1) ≤ m := by
  rw [bitLen, if_neg hm]
  exact Nat.log2_self_le hm

theorem lt_two_pow_bitLen {m : Nat} (hm : m ≠ 0) : m < 2 ^ bitLen m := by
  rw [bitLen, if_neg hm]
  exact Nat.lt_log2_self

theorem bitLen_pos {m : Nat} (hm : m ≠ 0) : 0 < bitLen m := by
  rw [bitLen, if_neg hm]
  exact Nat.succ_pos _

/-- A magnitude that ends at a lower bit is the lesser. -/
theorem not_magLe_of_bits_lt {m m' : Nat} {e e' : Int} (hm : m ≠ 0) (hm' : m' ≠ 0) (h : e + bitLen m < e' + bitLen m') : ¬ magLe m' e' m e = true := by
  have pos := bitLen_pos hm'
  rw [magLe_iff (Int.min_le_right e e') (Int.min_le_left e e'), Nat.not_le]
  calc m * 2 ^ (e - min e e').toNat < 2 ^ bitLen m * 2 ^ (e - min e e').toNat := Nat.mul_lt_mul_of_pos_right (lt_two_pow_bitLen hm) (Nat.two_pow_pos _)
    _ ≤ 2 ^ (bitLen m' - 1) * 2 ^ (e' - min e e').toNat := by
        rw [← Nat.pow_add, ← Nat.pow_add]
        exact Nat.pow_le_pow_right Nat.two_pos (by omega)
    _ ≤ m' * 2 ^ (e' - min e e').toNat := Nat.mul_le_mul_right _ (two_pow_bitLen_le hm')

theorem magLe_of_bits_lt {m m' : Nat} {e e' : Int} (hm : m ≠ 0) (hm' : m' ≠ 0) (h : e + bitLen m < e' + bitLen m') : magLe m e m' e' = true :=
  (magLe_total m m' e e').resolve_right (not_magLe_of_bits_lt hm hm' h)

end Sys2Proof.Machine
end

section
/-! Number formats: the codes of a floating format and their magnitudes (R91, R94, R96), and rounding to the nearest (R101, R105). -/

namespace Sys2Proof.Machine

open Sys2Proof.Claims

/-! Codes without their sign. A code is j · 2^fb + s, where s is the whole significand and j counts the binades above the subnormal one. -/

namespace Fmt

/-- The exponent of a format's least nonzero magnitude. -/
def least (f : Fmt) : Int := 1 - f.bias - f.fb

/-- The binade and the significand of the code j · 2^fb + s: beyond the lowest binade the significand has its leading bit. -/
def Parts (f : Fmt) (j s : Nat) : Prop := s < 2 ^ (f.fb + 1) ∧ (j = 0 ∨ 2 ^ f.fb ≤ s)

/-- The magnitude of a code in units of the least nonzero one. -/
def units (f : Fmt) (x : Nat) : Nat := if x / 2 ^ f.fb = 0 then x else (2 ^ f.fb + x % 2 ^ f.fb) * 2 ^ (x / 2 ^ f.fb - 1)

variable {f : Fmt}

theorem exists_parts (f : Fmt) (x : Nat) : ∃ j s, x = j * 2 ^ f.fb + s ∧ f.Parts j s := by
  have split := Nat.div_add_mod' x (2 ^ f.fb)
  have rest := Nat.mod_lt x (Nat.two_pow_pos f.fb)
  rcases Nat.eq_zero_or_pos (x / 2 ^ f.fb) with low | high
  · rw [low, Nat.zero_mul] at split
    exact ⟨0, x % 2 ^ f.fb, by omega, by rw [Nat.pow_succ]; omega, .inl rfl⟩
  · refine ⟨x / 2 ^ f.fb - 1, 2 ^ f.fb + x % 2 ^ f.fb, ?_, by rw [Nat.pow_succ]; omega, .inr (Nat.le_add_right _ _)⟩
    rw [← Nat.add_assoc, ← Nat.succ_mul, Nat.succ_eq_add_one, Nat.sub_add_cancel high, split]

/-- The exponent field and the fraction of a code with a leading bit. -/
theorem div_mod_of_leading {j s : Nat} (hs : s < 2 ^ (f.fb + 1)) (lead : 2 ^ f.fb ≤ s) :
    (j * 2 ^ f.fb + s) / 2 ^ f.fb = j + 1 ∧ (j * 2 ^ f.fb + s) % 2 ^ f.fb = s - 2 ^ f.fb := by
  rw [Nat.pow_succ] at hs
  have whole : j * 2 ^ f.fb + s = (s - 2 ^ f.fb) + 2 ^ f.fb * (j + 1) := by rw [Nat.mul_comm, Nat.mul_succ]; omega
  rw [whole, Nat.add_mul_div_left _ _ (Nat.two_pow_pos _), Nat.add_mul_mod_self_left, Nat.div_eq_of_lt (by omega), Nat.mod_eq_of_lt (by omega)]
  exact ⟨Nat.zero_add _, rfl⟩

theorem units_parts {j s : Nat} (h : f.Parts j s) : f.units (j * 2 ^ f.fb + s) = s * 2 ^ j := by
  obtain ⟨hs, lead⟩ := h
  rcases Nat.lt_or_ge s (2 ^ f.fb) with low | high
  · obtain rfl : j = 0 := lead.resolve_right (Nat.not_le.2 low)
    rw [units, Nat.zero_mul, Nat.zero_add, if_pos (Nat.div_eq_of_lt low), Nat.pow_zero, Nat.mul_one]
  · obtain ⟨field, fraction⟩ := div_mod_of_leading (j := j) hs high
    rw [units, field, fraction, if_neg (Nat.succ_ne_zero j), Nat.add_sub_cancel' high, Nat.add_sub_cancel]

/-- The next code is one unit of its binade higher, also where it begins the next binade. -/
theorem units_succ_parts {j s : Nat} (h : f.Parts j s) : f.units (j * 2 ^ f.fb + s + 1) = (s + 1) * 2 ^ j := by
  obtain ⟨hs, lead⟩ := h
  rcases Nat.lt_or_ge (s + 1) (2 ^ (f.fb + 1)) with within | beyond
  · exact units_parts ⟨within, lead.imp_right Nat.le_succ_of_le⟩
  · have top : s + 1 = 2 ^ (f.fb + 1) := by omega
    have next : f.Parts (j + 1) (2 ^ f.fb) := ⟨Nat.pow_lt_pow_right Nat.one_lt_two (Nat.lt_succ_self _), .inr (Nat.le_refl _)⟩
    have code : j * 2 ^ f.fb + s + 1 = (j + 1) * 2 ^ f.fb + 2 ^ f.fb := by
      rw [Nat.add_assoc, top, Nat.pow_succ, Nat.succ_mul]
      omega
    rw [code, units_parts next, top, Nat.pow_succ, Nat.pow_succ, Nat.mul_assoc, Nat.mul_comm 2]

theorem units_lt_succ (f : Fmt) (x : Nat) : f.units x < f.units (x + 1) := by
  obtain ⟨j, s, rfl, h⟩ := exists_parts f x
  rw [units_parts h, units_succ_parts h]
  exact Nat.mul_lt_mul_of_pos_right (Nat.lt_succ_self s) (Nat.two_pow_pos j)

/-- The magnitude of a significand in a binade. -/
theorem inUnits_least_add {f : Fmt} {u : Int} (hu : u ≤ f.least) (s j : Nat) : inUnits u s (f.least + j) = s * 2 ^ j * 2 ^ (f.least - u).toNat := by
  rw [inUnits_of_le hu (by omega), inUnits, show (f.least + j - f.least).toNat = j by omega]

theorem parity_parts (hf : 0 < f.fb) (j s : Nat) : (j * 2 ^ f.fb + s) % 2 = s % 2 := by
  obtain ⟨b, hb⟩ := Nat.exists_eq_add_of_lt hf
  rw [hb, Nat.zero_add, Nat.pow_succ, ← Nat.mul_assoc]
  omega

/-- The magnitude code y with a sign bit above it. -/
def signed (f : Fmt) (neg : Bool) (y : Nat) : Nat := y + if neg then 2 ^ (f.eb + f.fb) else 0

theorem signed_div_mod {y : Nat} (hy : y < 2 ^ (f.eb + f.fb)) (neg : Bool) :
    (f.signed neg y).testBit (f.eb + f.fb) = neg ∧ f.signed neg y / 2 ^ f.fb % 2 ^ f.eb = y / 2 ^ f.fb ∧ f.signed neg y % 2 ^ f.fb = y % 2 ^ f.fb := by
  have field : y / 2 ^ f.fb < 2 ^ f.eb := Nat.div_lt_of_lt_mul (by rwa [← Nat.pow_add, Nat.add_comm])
  cases neg with
  | false =>
    rw [signed, if_neg Bool.false_ne_true, Nat.add_zero]
    exact ⟨Nat.testBit_lt_two_pow hy, Nat.mod_eq_of_lt field, rfl⟩
  | true =>
    rw [signed, if_pos rfl]
    refine ⟨by rw [Nat.add_comm, Nat.testBit_two_pow_add_eq, Nat.testBit_lt_two_pow hy]; rfl, ?_, ?_⟩
    · rw [Nat.pow_add, Nat.add_mul_div_right _ _ (Nat.two_pow_pos _), Nat.add_mod_right, Nat.mod_eq_of_lt field]
    · rw [Nat.pow_add, Nat.add_mul_mod_self_right]

end Fmt

/-! Decoding (R91, R94). -/

theorem decodeNum_parts {t : Ty} (ht : t ≠ .l6) (neg : Bool) {j s : Nat} (h : (Ty.fmt t).Parts j s)
    (range : j * 2 ^ (Ty.fmt t).fb + s < if (Ty.fmt t).ieee then infCode (Ty.fmt t) else 2 ^ ((Ty.fmt t).eb + (Ty.fmt t).fb)) :
    decodeNum t ((Ty.fmt t).signed neg (j * 2 ^ (Ty.fmt t).fb + s)) = .fin neg s ((Ty.fmt t).least + j) := by
  rw [decodeNum, if_neg ht]
  generalize Ty.fmt t = f at h range ⊢
  have below : j * 2 ^ f.fb + s < 2 ^ (f.eb + f.fb) := by
    refine Nat.lt_of_lt_of_le range ?_
    split
    · rw [infCode, Nat.pow_add]; exact Nat.mul_le_mul_right _ (Nat.sub_le _ _)
    · exact Nat.le_refl _
  obtain ⟨sign, field, fraction⟩ := Fmt.signed_div_mod below neg
  have finite : (f.ieee && decide ((j * 2 ^ f.fb + s) / 2 ^ f.fb = 2 ^ f.eb - 1)) = false := by
    cases hf : f.ieee with
    | false => rfl
    | true =>
      rw [hf, if_pos rfl, infCode] at range
      have lower : (j * 2 ^ f.fb + s) / 2 ^ f.fb < 2 ^ f.eb - 1 := (Nat.div_lt_iff_lt_mul (Nat.two_pow_pos _)).2 range
      rw [decide_eq_false (Nat.ne_of_lt lower), Bool.and_false]
  simp only [sign, field, fraction, finite]
  obtain ⟨hs, lead⟩ := h
  rcases Nat.lt_or_ge s (2 ^ f.fb) with low | high
  · obtain rfl : j = 0 := lead.resolve_right (Nat.not_le.2 low)
    simp [Nat.div_eq_of_lt low, Nat.mod_eq_of_lt low, Fmt.least]
  · obtain ⟨hfield, hfraction⟩ := Fmt.div_mod_of_leading (j := j) hs high
    rw [hfield, hfraction, if_neg Bool.false_ne_true, if_neg (Nat.succ_ne_zero j), Nat.add_sub_cancel' high, Fmt.least]
    congr 1
    omega

theorem inUnits_decodeNum {t : Ty} (ht : t ≠ .l6) (hi : (Ty.fmt t).ieee = true) {c a : Nat} {p u : Int} (hc : c < infCode (Ty.fmt t))
    (h : decodeNum t c = .fin false a p) (hu : u ≤ (Ty.fmt t).least) :
    inUnits u a p = (Ty.fmt t).units c * 2 ^ ((Ty.fmt t).least - u).toNat := by
  obtain ⟨j, s, rfl, parts⟩ := Fmt.exists_parts (Ty.fmt t) c
  have decoded := decodeNum_parts ht false parts (by rwa [hi, if_pos rfl])
  rw [Fmt.signed, if_neg Bool.false_ne_true, Nat.add_zero, h] at decoded
  obtain ⟨-, rfl, rfl⟩ := Num.fin.inj decoded
  rw [Fmt.units_parts parts, Fmt.inUnits_least_add hu]

/-! Values of the format itself (R104): nothing is rounded. -/

theorem roundUp_exact {r unit : Nat} (hr : r < 2 ^ 16) (hu : 0 < unit) (mode : Nat) (neg odd : Bool) : roundUp mode r neg odd 0 unit = false := by
  unfold roundUp
  split
  · simp [Nat.ne_of_lt hu]
  · rfl
  · rfl
  · rfl
  · simpa using hr

theorem splitAt_self (m : Nat) (e : Int) : splitAt m e e = (m, 0, 1) := by simp [splitAt, pow2]

/-- The place of the last bit that is kept of a value (R101), as the model finds it from the number of bits. -/
def lastPlace (f : Fmt) (m : Nat) (e : Int) : Int := max (e + bitLen m - 1 - f.fb) f.least

/-- The last place of a code's own value is that of its binade. -/
theorem lastPlace_of_parts {f : Fmt} {j s : Nat} (h : f.Parts j s) (hs : s ≠ 0) : lastPlace f s (f.least + j) = f.least + j := by
  obtain ⟨lt, lead⟩ := h
  unfold lastPlace
  have short : s.log2 < f.fb + 1 := (Nat.log2_lt hs).2 lt
  rw [bitLen, if_neg hs]
  rcases lead with rfl | lead
  · omega
  · have long : f.fb ≤ s.log2 := (Nat.le_log2 hs).2 lead
    omega

theorem roundFmt_parts {f : Fmt} {j s : Nat} (h : f.Parts j s) (hs : s ≠ 0)
    (range : j * 2 ^ f.fb + s < if f.ieee then infCode f else 2 ^ (f.eb + f.fb)) {r : Nat} (hr : r < 2 ^ 16) (mode : Nat) (neg : Bool) :
    roundFmt f mode r neg s (f.least + j) = (j * 2 ^ f.fb + s, 0) := by
  have place := lastPlace_of_parts h hs
  unfold roundFmt
  simp only [lastPlace, Fmt.least] at place ⊢
  simp only [place, splitAt_self, roundUp_exact hr Nat.one_pos]
  rw [show (1 - f.bias - f.fb + j - (1 - f.bias - f.fb) : Int).toNat = j by omega]
  cases hf : f.ieee with
  | true =>
    rw [hf, if_pos rfl] at range
    simp [Nat.not_le.2 range]
  | false =>
    rw [hf, if_neg Bool.false_ne_true] at range
    have most : ¬ 2 ^ (f.eb + f.fb) - 1 < j * 2 ^ f.fb + s := by omega
    simp [most]

/-- R91, R94: the sign stands above the exponent and the fraction. -/
theorem bits_eq_of_float {t : Ty} (ht : t ∈ [Ty.f32, .f16, .bf16, .e4m3, .e5m2, .e2m1]) : t ≠ .l6 ∧ t.bits = (Ty.fmt t).eb + (Ty.fmt t).fb + 1 ∧ 0 < (Ty.fmt t).fb := by
  revert t; decide

theorem deliver_parts {t : Ty} (ht : t ∈ [Ty.f32, .f16, .bf16, .e4m3, .e5m2, .e2m1]) {j s : Nat} (h : (Ty.fmt t).Parts j s)
    (range : j * 2 ^ (Ty.fmt t).fb + s < if (Ty.fmt t).ieee then infCode (Ty.fmt t) else 2 ^ ((Ty.fmt t).eb + (Ty.fmt t).fb))
    {r : Nat} (hr : r < 2 ^ 16) (mode : Nat) (neg : Bool) :
    deliver t mode r (.fin neg s ((Ty.fmt t).least + j)) = ((Ty.fmt t).signed neg (j * 2 ^ (Ty.fmt t).fb + s), 0) := by
  obtain ⟨notL6, bits, -⟩ := bits_eq_of_float ht
  have sign : signBit t neg = if neg then 2 ^ ((Ty.fmt t).eb + (Ty.fmt t).fb) else 0 := by rw [signBit, bits, Nat.add_sub_cancel]
  by_cases hs : s = 0
  · obtain rfl : j = 0 := h.2.resolve_right (by simp [hs])
    simp [deliver, hs, sign, Fmt.signed]
  · simp only [deliver, if_neg hs, if_neg notL6, roundFmt_parts h hs range hr, sign, Fmt.signed]

/-- A code is a magnitude code under a sign bit. -/
theorem Fmt.exists_signed (f : Fmt) {x : Nat} (hx : x < 2 ^ (f.eb + f.fb + 1)) : ∃ neg y, x = f.signed neg y ∧ y < 2 ^ (f.eb + f.fb) := by
  rw [Nat.pow_succ] at hx
  rcases Nat.lt_or_ge x (2 ^ (f.eb + f.fb)) with low | high
  · exact ⟨false, x, rfl, low⟩
  · exact ⟨true, x - 2 ^ (f.eb + f.fb), (Nat.sub_add_cancel high).symm, by omega⟩

/-- With an exponent field of all ones a code is the infinity of its sign or a NaN. -/
theorem decodeNum_top {t : Ty} (ht : t ≠ .l6) (hi : (Ty.fmt t).ieee = true) (neg : Bool) {y : Nat} (hy : y < 2 ^ ((Ty.fmt t).eb + (Ty.fmt t).fb))
    (top : infCode (Ty.fmt t) ≤ y) (h : (decodeNum t ((Ty.fmt t).signed neg y)).isNan = false) :
    y = infCode (Ty.fmt t) ∧ decodeNum t ((Ty.fmt t).signed neg y) = .inf neg := by
  revert h
  rw [decodeNum, if_neg ht]
  generalize Ty.fmt t = f at *
  obtain ⟨sign, field, fraction⟩ := Fmt.signed_div_mod hy neg
  rw [infCode] at top
  have ones : y / 2 ^ f.fb = 2 ^ f.eb - 1 := by
    have least : 2 ^ f.eb - 1 ≤ y / 2 ^ f.fb := (Nat.le_div_iff_mul_le (Nat.two_pow_pos _)).2 top
    have most : y / 2 ^ f.fb < 2 ^ f.eb := (Nat.div_lt_iff_lt_mul (Nat.two_pow_pos _)).2 (by rwa [← Nat.pow_add])
    omega
  simp only [sign, field, fraction, ones, hi]
  by_cases zero : y % 2 ^ f.fb = 0
  · have whole := Nat.div_add_mod' y (2 ^ f.fb)
    rw [ones, zero, Nat.add_zero] at whole
    simp [zero, infCode, whole]
  · simp [zero, Num.isNan]

theorem deliver_decodeNum_float {t : Ty} (ht : t ∈ [Ty.f32, .f16, .bf16, .e4m3, .e5m2, .e2m1]) {r x : Nat} (hr : r < 2 ^ 16) (hx : x < 2 ^ t.bits)
    (hn : (decodeNum t x).isNan = false) (mode : Nat) : deliver t mode r (decodeNum t x) = (x, 0) := by
  obtain ⟨notL6, bits, -⟩ := bits_eq_of_float ht
  obtain ⟨neg, y, rfl, hy⟩ := (Ty.fmt t).exists_signed (bits ▸ hx)
  by_cases finite : y < if (Ty.fmt t).ieee then infCode (Ty.fmt t) else 2 ^ ((Ty.fmt t).eb + (Ty.fmt t).fb)
  · obtain ⟨j, s, rfl, parts⟩ := (Ty.fmt t).exists_parts y
    rw [decodeNum_parts notL6 neg parts finite, deliver_parts ht parts finite hr]
  · have hi : (Ty.fmt t).ieee = true := Decidable.byContradiction fun hi => finite (by rwa [if_neg hi])
    rw [hi, if_pos rfl, Nat.not_lt] at finite
    obtain ⟨rfl, inf⟩ := decodeNum_top notL6 hi neg hy finite hn
    rw [inf]
    simp [deliver, notL6, hi, Fmt.signed, signBit, bits]

/-! L6 (R96, R97). -/

/-- R96 and R97 tell the same magnitudes. -/
theorem l6Mag_units : ∀ l : Nat, l < 32 → l ≠ 0 →
    (l6Mag l).1 ≠ 0 ∧ (l6Mag l).1 * pow2 ((l6Mag l).2 + 14) = l6Unit l ∧ pow2 (-14 - (l6Mag l).2) = 1 := by decide

/-- The magnitudes ascend: as many lie at or below that of a code as there are codes up to it. -/
theorem l6Unit_place : ∀ l < 32, ((List.range 32).filter (fun k => l6Unit k ≤ l6Unit l)).length - 1 = l := by decide

theorem roundL6_l6Mag {l : Nat} (hl : l < 32) (h0 : l ≠ 0) (mode r : Nat) (neg : Bool) : roundL6 mode r neg (l6Mag l).1 (l6Mag l).2 = (l, 0) := by
  obtain ⟨-, units, one⟩ := l6Mag_units l hl h0
  simp only [roundL6, units, one, Nat.mul_one, l6Unit_place l hl, Nat.sub_self, if_true]

theorem l6_code_signed : ∀ x < 64, x % 32 + signBit .l6 (x.testBit 5) = x := by decide

theorem deliver_decodeNum_l6 {x : Nat} (hx : x < 64) (mode r : Nat) : deliver .l6 mode r (decodeNum .l6 x) = (x, 0) := by
  have sign := l6_code_signed x hx
  have low : x % 32 < 32 := Nat.mod_lt x (by decide)
  by_cases h0 : x % 32 = 0
  · rw [h0, Nat.zero_add] at sign
    simp [decodeNum, h0, deliver, sign]
  · obtain ⟨pos, -, -⟩ := l6Mag_units _ low h0
    simp only [decodeNum, deliver, if_true, if_neg h0, if_neg pos, roundL6_l6Mag low h0, sign]

/-! To the nearest (R101, R105). -/

theorem lt_of_lt_succ_steps {g : Nat → Nat} (step : ∀ x, g x < g (x + 1)) {a b : Nat} (h : a < b) : g a < g b := by
  induction h with
  | refl => exact step a
  | step _ ih => exact Nat.lt_trans ih (step _)

/-- The distance of two magnitudes in one unit. -/
def gap (v w : Nat) : Nat := ((v : Int) - w).natAbs

/-- Between two neighbours of an ascending sequence the one that the rule of `up` takes is the nearest of all, and of two equally near the even one. -/
theorem nearest_of_between {g : Nat → Nat} (step : ∀ x, g x < g (x + 1)) {v lo : Nat} {up : Bool} (above : g lo ≤ v) (below : v < g (lo + 1))
    (rule : up = true ↔ g lo + g (lo + 1) < 2 * v ∨ g lo + g (lo + 1) = 2 * v ∧ lo % 2 = 1) (c : Nat) :
    gap v (g (lo + up.toNat)) ≤ gap v (g c) ∧ (gap v (g (lo + up.toNat)) = gap v (g c) → c ≠ lo + up.toNat → (lo + up.toNat) % 2 = 0) := by
  have away : c < lo ∧ g c < g lo ∨ c = lo ∨ c = lo + 1 ∨ lo + 1 < c ∧ g (lo + 1) < g c := by
    rcases Nat.lt_trichotomy c lo with low | same | high
    · exact .inl ⟨low, lt_of_lt_succ_steps step low⟩
    · exact .inr (.inl same)
    · rcases Nat.lt_or_eq_of_le high with high | next
      · exact .inr (.inr (.inr ⟨high, lt_of_lt_succ_steps step high⟩))
      · exact .inr (.inr (.inl next.symm))
  unfold gap
  cases up with
  | false =>
    have nearer : ¬ (g lo + g (lo + 1) < 2 * v ∨ g lo + g (lo + 1) = 2 * v ∧ lo % 2 = 1) := fun h => Bool.false_ne_true (rule.2 h)
    rw [Bool.toNat_false, Nat.add_zero]
    rcases away with ⟨_, low⟩ | rfl | rfl | ⟨_, high⟩ <;> omega
  | true =>
    have farther := rule.1 rfl
    rw [Bool.toNat_true]
    rcases away with ⟨_, low⟩ | rfl | rfl | ⟨_, high⟩ <;> omega

/-- A value split at 2^q: its whole part and what remains of a unit of the last place. -/
theorem splitAt_spec (m : Nat) {e q u : Int} (hu : u ≤ e) (hu' : u ≤ q) :
    let z := splitAt m e q
    z.2.1 < z.2.2 ∧ inUnits u m e * z.2.2 = (z.1 * z.2.2 + z.2.1) * 2 ^ (q - u).toNat := by
  unfold splitAt inUnits pow2
  split
  case isTrue le =>
    refine ⟨Nat.one_pos, ?_⟩
    rw [show (e - u).toNat = (e - q).toNat + (q - u).toNat by omega, Nat.pow_add, Nat.mul_one, Nat.mul_one, Nat.add_zero, Nat.mul_assoc]
  case isFalse gt =>
    refine ⟨Nat.mod_lt _ (Nat.two_pow_pos _), ?_⟩
    dsimp only
    rw [Nat.div_add_mod', Nat.mul_assoc, ← Nat.pow_add, show (e - u).toNat + (q - e).toNat = (q - u).toNat by omega]

/-- The whole part of a value at its last place is the significand of a code. -/
theorem parts_splitAt (f : Fmt) {m : Nat} (hm : m ≠ 0) (e : Int) :
    f.Parts (lastPlace f m e - f.least).toNat (splitAt m e (lastPlace f m e)).1 := by
  have pos := bitLen_pos hm
  have low := two_pow_bitLen_le hm
  have high := lt_two_pow_bitLen hm
  have place : lastPlace f m e = max (e + bitLen m - 1 - f.fb) f.least := rfl
  generalize lastPlace f m e = q at place ⊢
  unfold splitAt pow2
  split
  case isTrue le =>
    constructor
    · calc m * 2 ^ (e - q).toNat < 2 ^ bitLen m * 2 ^ (e - q).toNat := Nat.mul_lt_mul_of_pos_right high (Nat.two_pow_pos _)
        _ ≤ 2 ^ (f.fb + 1) := by rw [← Nat.pow_add]; exact Nat.pow_le_pow_right Nat.two_pos (by omega)
    · refine Decidable.or_iff_not_imp_left.2 fun above => ?_
      calc 2 ^ f.fb ≤ 2 ^ (bitLen m - 1) * 2 ^ (e - q).toNat := by rw [← Nat.pow_add]; exact Nat.pow_le_pow_right Nat.two_pos (by omega)
        _ ≤ m * 2 ^ (e - q).toNat := Nat.mul_le_mul_right _ low
  case isFalse gt =>
    constructor
    · refine (Nat.div_lt_iff_lt_mul (Nat.two_pow_pos _)).2 (Nat.lt_of_lt_of_le high ?_)
      rw [← Nat.pow_add]
      exact Nat.pow_le_pow_right Nat.two_pos (by omega)
    · refine Decidable.or_iff_not_imp_left.2 fun above => (Nat.le_div_iff_mul_le (Nat.two_pow_pos _)).2 (Nat.le_trans ?_ low)
      rw [← Nat.pow_add]
      exact Nat.pow_le_pow_right Nat.two_pos (by omega)

/-- Rounding to nearest even into a format with infinities, short of infinity: the code of the whole part at the last place, or the next. -/
theorem roundFmt_nearest_code {f : Fmt} (hi : f.ieee = true) (m : Nat) (e : Int) (finite : (roundFmt f 0 0 false m e).1 < infCode f) :
    let z := splitAt m e (lastPlace f m e)
    (roundFmt f 0 0 false m e).1 = (lastPlace f m e - f.least).toNat * 2 ^ f.fb + z.1 + (roundUp 0 0 false (z.1 % 2 = 1) z.2.1 z.2.2).toNat := by
  revert finite
  unfold roundFmt
  simp only [hi, if_true]
  split
  · exact fun h => absurd h (Nat.lt_irrefl _)
  · exact fun _ => rfl

/-- A value whose whole part at a place is sig lies from sig on and below sig + 1. -/
theorem between_of_split {sig rem unit p v : Nat} (lt : rem < unit) (hp : 0 < p) (value : v * unit = (sig * unit + rem) * p) :
    sig * p ≤ v ∧ v < (sig + 1) * p := by
  have pos : 0 < unit := Nat.zero_lt_of_lt lt
  constructor
  · refine Nat.le_of_mul_le_mul_right ?_ pos
    rw [value, Nat.mul_right_comm]
    exact Nat.mul_le_mul_right p (Nat.le_add_right _ _)
  · refine Nat.lt_of_mul_lt_mul_right (a := unit) ?_
    rw [value, Nat.mul_right_comm, Nat.succ_mul]
    exact Nat.mul_lt_mul_of_pos_right (Nat.add_lt_add_left lt _) hp

/-- The rule of rounding to nearest even, told of the two neighbours sig and sig + 1. -/
theorem roundUp_nearest_iff {sig rem unit p v lo : Nat} (hu : 0 < unit) (even : lo % 2 = sig % 2) (hp : 0 < p)
    (value : v * unit = (sig * unit + rem) * p) :
    roundUp 0 0 false (sig % 2 = 1) rem unit = true ↔ sig * p + (sig + 1) * p < 2 * v ∨ sig * p + (sig + 1) * p = 2 * v ∧ lo % 2 = 1 := by
  have twice : 2 * v * unit = (2 * (sig * unit) + 2 * rem) * p := by rw [Nat.mul_assoc, value, ← Nat.mul_assoc, Nat.mul_add]
  have middle : (sig * p + (sig + 1) * p) * unit = (2 * (sig * unit) + unit) * p := by
    rw [← Nat.add_mul, Nat.mul_right_comm, show sig + (sig + 1) = 2 * sig + 1 by omega, Nat.succ_mul, Nat.mul_assoc 2]
  have more : sig * p + (sig + 1) * p < 2 * v ↔ unit < 2 * rem := by
    rw [← Nat.mul_lt_mul_right hu, middle, twice, Nat.mul_lt_mul_right hp]
    omega
  have same : sig * p + (sig + 1) * p = 2 * v ↔ 2 * rem = unit := by
    rw [← Nat.mul_left_inj (Nat.ne_of_gt hu), middle, twice, Nat.mul_left_inj (Nat.ne_of_gt hp)]
    omega
  rw [more, same, even, roundUp, Bool.or_eq_true, Bool.and_eq_true, decide_eq_true_iff, decide_eq_true_iff, decide_eq_true_iff]

/-- The value lies between the neighbours that its last place gives, and the rule takes the nearer. -/
theorem roundFmt_nearest {f : Fmt} (hi : f.ieee = true) (hf : 0 < f.fb) {m : Nat} (hm : m ≠ 0) {e u : Int} (he : u ≤ e) (hu : u ≤ f.least)
    (finite : (roundFmt f 0 0 false m e).1 < infCode f) (c : Nat) :
    let got := (roundFmt f 0 0 false m e).1
    let off := fun x => gap (inUnits u m e) (f.units x * 2 ^ (f.least - u).toNat)
    off got ≤ off c ∧ (off got = off c → c ≠ got → got % 2 = 0) := by
  have parts := parts_splitAt f hm e
  have least : f.least ≤ lastPlace f m e := Int.le_max_right _ _
  obtain ⟨lt, value⟩ := splitAt_spec m he (Int.le_trans hu least)
  rw [roundFmt_nearest_code hi m e finite]
  have scale : 2 ^ (lastPlace f m e - u).toNat = 2 ^ (lastPlace f m e - f.least).toNat * 2 ^ (f.least - u).toNat := by
    rw [← Nat.pow_add]
    congr 1
    omega
  rw [scale] at value
  generalize (lastPlace f m e - f.least).toNat = j at parts value ⊢
  generalize splitAt m e (lastPlace f m e) = z at parts lt value ⊢
  have pos : 0 < 2 ^ (f.least - u).toNat := Nat.two_pow_pos _
  generalize 2 ^ (f.least - u).toNat = s at value pos ⊢
  have unit_pos : 0 < 2 ^ j * s := Nat.mul_pos (Nat.two_pow_pos j) pos
  have lower : f.units (j * 2 ^ f.fb + z.1) * s = z.1 * (2 ^ j * s) := by rw [Fmt.units_parts parts, Nat.mul_assoc]
  have upper : f.units (j * 2 ^ f.fb + z.1 + 1) * s = (z.1 + 1) * (2 ^ j * s) := by rw [Fmt.units_succ_parts parts, Nat.mul_assoc]
  obtain ⟨above, below⟩ := between_of_split lt unit_pos value
  refine nearest_of_between (g := fun x => f.units x * s) (lo := j * 2 ^ f.fb + z.1) (fun x => ?_) (lower ▸ above) (upper ▸ below) ?_ c
  · exact Nat.mul_lt_mul_of_pos_right (f.units_lt_succ x) pos
  · rw [lower, upper]
    exact roundUp_nearest_iff (Nat.zero_lt_of_lt lt) (Fmt.parity_parts hf j z.1) unit_pos value

/-- Of the codes below infinity, told by the values that they stand for, the one delivered is the nearest, and even on a tie. -/
theorem deliver_nearest {t : Ty} (ht : t ∈ [Ty.f32, .f16, .bf16]) {m c : Nat} {e u : Int} (hm : m ≠ 0) (he : u ≤ e) (hu : u ≤ (Ty.fmt t).least)
    (hc : c < infCode (Ty.fmt t)) (finite : (deliver t 0 0 (.fin false m e)).1 < infCode (Ty.fmt t)) {a x : Nat} {q p : Int}
    (hgot : decodeNum t (deliver t 0 0 (.fin false m e)).1 = .fin false a q) (hcode : decodeNum t c = .fin false x p) :
    let got := (deliver t 0 0 (.fin false m e)).1
    let near := gap (inUnits u m e) (inUnits u a q)
    let other := gap (inUnits u m e) (inUnits u x p)
    near ≤ other ∧ (near = other → c ≠ got → got % 2 = 0) := by
  have format : ∀ t ∈ [Ty.f32, .f16, .bf16], t ≠ .l6 ∧ (Ty.fmt t).ieee = true ∧ 0 < (Ty.fmt t).fb := by decide
  obtain ⟨notL6, hi, hf⟩ := format t ht
  have delivered : (deliver t 0 0 (.fin false m e)).1 = (roundFmt (Ty.fmt t) 0 0 false m e).1 := by
    simp only [deliver, if_neg hm, if_neg notL6, signBit, Bool.false_eq_true, if_false, Nat.add_zero]
  dsimp only
  rw [inUnits_decodeNum notL6 hi finite hgot hu, inUnits_decodeNum notL6 hi hc hcode hu, delivered]
  exact roundFmt_nearest hi hf hm he hu (delivered ▸ finite) c

/-- On a finer scale a distance is more units. -/
theorem gap_of_le {u u' e q : Int} (hu : u' ≤ u) (he : u ≤ e) (hq : u ≤ q) (m a : Nat) :
    gap (inUnits u' m e) (inUnits u' a q) = gap (inUnits u m e) (inUnits u a q) * 2 ^ (u - u').toNat := by
  rw [inUnits_of_le hu he, inUnits_of_le hu hq, gap, gap, Int.natCast_mul, Int.natCast_mul, ← Int.sub_mul, Int.natAbs_mul, Int.natAbs_natCast]

/-- Settles O11. A code is decoded to its binade and significand, which lie exactly at the place where rounding splits them; and a value lies between two
neighbouring codes, of which the rule of nearest even takes the nearer. -/
theorem formatsAndRounding : Obligations.FormatsAndRounding := by
  refine ⟨fun t mode r x ht _ hr hx hn => ?own, fun t m e c ht hm hc finite a x q hgot p hcode u hq hp he => ?nearest⟩
  case own =>
    by_cases hl : t = .l6
    · subst hl
      exact deliver_decodeNum_l6 hx mode r
    · have float : ∀ t ∈ [Ty.f32, .f16, .bf16, .e4m3, .e5m2, .e2m1, .l6], t ≠ .l6 → t ∈ [Ty.f32, .f16, .bf16, .e4m3, .e5m2, .e2m1] := by decide
      exact deliver_decodeNum_float (float t ht hl) hr hx hn mode
  case nearest =>
    have fine : min u (Ty.fmt t).least ≤ u := Int.min_le_left _ _
    obtain ⟨least, tie⟩ := deliver_nearest ht hm (Int.le_trans fine he) (Int.min_le_right _ _) hc finite hgot hcode
    rw [gap_of_le fine he hq, gap_of_le fine he hp] at least tie
    exact ⟨Nat.le_of_mul_le_mul_right least (Nat.two_pow_pos _), fun same => tie (congrArg (· * _) same)⟩

end Sys2Proof.Machine
end

section
/-! Block scales (R145, R146): the least scale that fits, the greatest magnitude of a block, and the block's codes. -/

namespace Sys2Proof.Machine

open Sys2Proof.Claims

/-! The least scale. -/

/-- Told on every scale that divides both, as R146 compares them, or as the model compares them. -/
theorem forall_inUnits_le_iff (m m' : Nat) (e e' : Int) :
    (∀ u : Int, u ≤ e → u ≤ e' → inUnits u m e ≤ inUnits u m' e') ↔ magLe m e m' e' = true :=
  ⟨fun h => (magLe_iff (Int.min_le_left e e') (Int.min_le_right e e') m m').2 (h _ (Int.min_le_left e e') (Int.min_le_right e e')),
    fun h _ hu hu' => (magLe_iff hu hu' m m').1 h⟩

/-- The least k with m · 2^e ≤ top · 2^k, before it is clamped: the numbers of bits tell it but for two steps. -/
def leastScale (top : Nat × Int) (m : Nat) (e : Int) : Int :=
  let k := e + bitLen m - (top.2 + bitLen top.1) - 1
  if magLe m e top.1 (top.2 + k) then k else if magLe m e top.1 (top.2 + (k + 1)) then k + 1 else k + 2

theorem blockScale_eq (t : Ty) {m : Nat} (hm : m ≠ 0) (e : Int) : blockScale t m e = min (max (leastScale (blockMax t) m e) (-127)) 127 := by
  rw [blockScale, if_neg hm]
  rfl

/-- The scale fits, and no lesser one does. -/
theorem leastScale_le_iff {top : Nat × Int} (ht : top.1 ≠ 0) {m : Nat} (hm : m ≠ 0) (e k : Int) :
    leastScale top m e ≤ k ↔ magLe m e top.1 (top.2 + k) = true := by
  have few : ∀ j, j < e + bitLen m - (top.2 + bitLen top.1) - 1 → ¬ magLe m e top.1 (top.2 + j) = true :=
    fun j hj => not_magLe_of_bits_lt ht hm (by omega)
  have enough : magLe m e top.1 (top.2 + (e + bitLen m - (top.2 + bitLen top.1) - 1 + 2)) = true := magLe_of_bits_lt hm ht (by omega)
  have mono : ∀ {i j : Int}, i ≤ j → magLe m e top.1 (top.2 + i) = true → magLe m e top.1 (top.2 + j) = true :=
    fun h fits => magLe_trans fits (magLe_mono _ (by omega))
  unfold leastScale
  generalize e + bitLen m - (top.2 + bitLen top.1) - 1 = k₀ at few enough
  dsimp only
  split
  case isTrue fits => exact ⟨fun h => mono h fits, fun h => Int.not_lt.1 fun lt => few k lt h⟩
  case isFalse first =>
    split
    case isTrue fits => exact ⟨fun h => mono h fits, fun h => Int.not_lt.1 fun lt => first (mono (by omega) h)⟩
    case isFalse second => exact ⟨fun h => mono h enough, fun h => Int.not_lt.1 fun lt => second (mono (by omega) h)⟩

theorem blockScale_least {t : Ty} (ht : (blockMax t).1 ≠ 0) {m : Nat} (hm : m ≠ 0) (e : Int) :
    -127 ≤ blockScale t m e ∧ blockScale t m e ≤ 127
      ∧ (blockScale t m e < 127 → magLe m e (blockMax t).1 ((blockMax t).2 + blockScale t m e) = true)
      ∧ (-127 < blockScale t m e → ∀ k, k < blockScale t m e → ¬ magLe m e (blockMax t).1 ((blockMax t).2 + k) = true) := by
  simp only [← leastScale_le_iff ht hm, blockScale_eq t hm]
  exact ⟨by omega, by omega, fun _ => by omega, fun _ k _ => by omega⟩

/-! The greatest magnitude. -/

/-- The greater of the best magnitude so far and that of one more value; infinities do not count. -/
def greaterMag (b : Nat × Int) (x : Num) : Nat × Int :=
  match x with
  | .fin _ m e => if magLe m e b.1 b.2 then b else (m, e)
  | _ => b

theorem magLe_greaterMag (b : Nat × Int) (x : Num) : magLe b.1 b.2 (greaterMag b x).1 (greaterMag b x).2 = true := by
  unfold greaterMag
  split
  case h_1 neg m e =>
    split
    case isTrue h => exact magLe_refl _ _
    case isFalse h => exact (magLe_total ..).resolve_right h
  case h_2 => exact magLe_refl _ _

theorem fin_magLe_greaterMag (b : Nat × Int) (neg : Bool) (m : Nat) (e : Int) :
    magLe m e (greaterMag b (.fin neg m e)).1 (greaterMag b (.fin neg m e)).2 = true := by
  rw [greaterMag]
  split
  case isTrue h => exact h
  case isFalse h => exact magLe_refl _ _

theorem greaterMag_eq (b : Nat × Int) (x : Num) : greaterMag b x = b ∨ ∃ neg, x = .fin neg (greaterMag b x).1 (greaterMag b x).2 := by
  cases x with
  | fin neg m e =>
    rw [greaterMag]
    split
    case isTrue => exact .inl rfl
    case isFalse => exact .inr ⟨neg, rfl⟩
  | _ => exact .inl rfl

theorem foldl_greaterMag (xs : List Num) (b : Nat × Int) :
    let g := xs.foldl greaterMag b
    magLe b.1 b.2 g.1 g.2 = true ∧ (∀ neg m e, Num.fin neg m e ∈ xs → magLe m e g.1 g.2 = true) ∧ (g = b ∨ ∃ neg, Num.fin neg g.1 g.2 ∈ xs) := by
  induction xs generalizing b with
  | nil => exact ⟨magLe_refl _ _, fun _ _ _ h => absurd h List.not_mem_nil, .inl rfl⟩
  | cons x xs ih =>
    obtain ⟨start, all, source⟩ := ih (greaterMag b x)
    refine ⟨magLe_trans (magLe_greaterMag b x) start, fun neg m e h => ?_, ?_⟩
    · rcases List.mem_cons.1 h with rfl | h
      · exact magLe_trans (fin_magLe_greaterMag b neg m e) start
      · exact all neg m e h
    · rw [List.foldl_cons]
      rcases source with same | ⟨neg, mem⟩
      · rw [same]
        exact (greaterMag_eq b x).imp_right fun ⟨neg, h⟩ => ⟨neg, h ▸ List.mem_cons_self⟩
      · exact .inr ⟨neg, List.mem_cons_of_mem _ mem⟩

theorem greatestMag_spec (xs : List Num) :
    (∀ neg m e, Num.fin neg m e ∈ xs → magLe m e (greatestMag xs).1 (greatestMag xs).2 = true)
      ∧ ((greatestMag xs).1 = 0 ∨ ∃ neg, Num.fin neg (greatestMag xs).1 (greatestMag xs).2 ∈ xs) := by
  have fold : greatestMag xs = xs.foldl greaterMag (0, 0) := rfl
  obtain ⟨-, all, source⟩ := foldl_greaterMag xs (0, 0)
  rw [fold]
  exact ⟨all, source.imp_left (congrArg Prod.fst)⟩

/-! The codes of a block. -/

theorem getLsbD_foldl_or {α : Type} (f : α → Word) (xs : List α) (a : Word) (i : Nat) :
    (xs.foldl (fun m x => m ||| f x) a).getLsbD i = true ↔ a.getLsbD i = true ∨ ∃ x ∈ xs, (f x).getLsbD i = true := by
  induction xs generalizing a with
  | nil => simp
  | cons x xs ih => simp only [List.foldl_cons, ih, BitVec.getLsbD_or, Bool.or_eq_true, List.mem_cons, exists_eq_or_imp, or_assoc]

/-- R146: what an element of a block becomes under the scale 2^k. -/
def blockElem (t : Ty) (mode : Nat) (rand : Nat → Nat) (k : Int) (j : Nat) (x : Num) : Nat × Word := deliver t mode (rand j) (times x (-k))

theorem quantise_of_nan (t : Ty) (mode : Nat) (rand : Nat → Nat) {xs : List Num} (h : xs.any Num.isNan = true) :
    quantise t mode rand xs = (0xFF, xs.map (fun _ => 0), if xs.any Num.isSignalling then fstIV else 0) := if_pos h

theorem quantise_of_not_nan (t : Ty) (mode : Nat) (rand : Nat → Nat) {xs : List Num} (h : xs.any Num.isNan = false) :
    let k := blockScale t (greatestMag xs).1 (greatestMag xs).2
    let ys := xs.zipIdx.map (fun x => blockElem t mode rand k x.2 x.1)
    quantise t mode rand xs = ((k + 127).toNat, ys.map (·.1), ys.foldl (fun m y => m ||| y.2) 0) := by
  rw [quantise, if_neg (by rw [h]; exact Bool.false_ne_true)]
  rfl

theorem quantise_elems (t : Ty) (mode : Nat) (rand : Nat → Nat) {xs : List Num} (h : xs.any Num.isNan = false) :
    let q := quantise t mode rand xs
    let k := blockScale t (greatestMag xs).1 (greatestMag xs).2
    q.1 = (k + 127).toNat ∧ q.2.1.length = xs.length ∧ (∀ j x, xs[j]? = some x → q.2.1[j]? = some (blockElem t mode rand k j x).1)
      ∧ ∀ i, q.2.2.getLsbD i = true ↔ ∃ j x, xs[j]? = some x ∧ (blockElem t mode rand k j x).2.getLsbD i = true := by
  rw [quantise_of_not_nan t mode rand h]
  refine ⟨rfl, by simp, fun j x hx => by simp [hx], fun i => ?_⟩
  rw [getLsbD_foldl_or]
  simp only [BitVec.ofNat_eq_ofNat, BitVec.getLsbD_zero, Bool.false_eq_true, false_or, List.mem_map, Prod.exists, List.mk_mem_zipIdx_iff_getElem?]
  constructor
  · rintro ⟨_, _, ⟨x, j, at_, eq⟩, bit⟩
    exact ⟨j, x, at_, by rwa [eq]⟩
  · rintro ⟨j, x, at_, bit⟩
    exact ⟨_, _, ⟨x, j, at_, rfl⟩, bit⟩

end Sys2Proof.Machine
end

section
/-! Elements of packed groups (R100): reading one, and merging one into the registers it lies in. -/

namespace Sys2Proof.Machine

open Sys2Proof.Claims

theorem bits_pos (t : Ty) : 0 < t.bits := by cases t <;> decide

/-- An element, a 32-bit or 64-bit one standing in whole registers, reaches at most two of them. -/
theorem elem_within_two (t : Ty) (e : Nat) : t.bits * (if t.bits = 32 then 0 else e) % 32 + t.bits ≤ 64 := by
  cases t <;> simp only [Ty.bits] <;> omega

/-! Reading. -/

/-- The registers of the group at a source, which begins at a register of either kind or is one pattern. -/
def groupReg (c : Ctx) (t : Ty) (a : Opd) (lane : Nat) (os : List Opd) (j : Nat) : Word :=
  match a with
  | .v n => c.rdV j (n.val + j) lane
  | .s n => c.rdS j (n.val + j)
  | o => if j = 0 then c.val 0 o lane os t else 0

theorem groupElem_eq (c : Ctx) (t : Ty) (a : Opd) (slot lane : Nat) (os : List Opd) :
    groupElem c 0 t a slot lane os =
      let p := t.bits * (if t.bits = 32 then 0 else slot)
      let reg := fun j => (groupReg c t a lane os j).toNat
      (reg (p / 32) + if 32 < p % 32 + t.bits then 2 ^ 32 * reg (p / 32 + 1) else 0) / 2 ^ (p % 32) % 2 ^ t.bits := by
  unfold groupElem groupReg Ctx.valN
  cases a <;> simp [apply_ite BitVec.toNat]

/-- A bit of two neighbouring registers. -/
theorem testBit_pair (x y : Word) (b : Nat) : (x.toNat + 2 ^ 32 * y.toNat).testBit b = if b < 32 then x.getLsbD b else y.getLsbD (b - 32) := by
  rw [Nat.add_comm, Nat.testBit_two_pow_mul_add _ x.isLt]
  rfl

theorem isElem_groupElem (c : Ctx) (t : Ty) (a : Opd) (slot lane : Nat) (os : List Opd) :
    IsElem (groupElem c 0 t a slot lane os) t.bits (if t.bits = 32 then 0 else slot) (groupReg c t a lane os) := by
  have within := elem_within_two t slot
  rw [groupElem_eq, IsElem]
  generalize t.bits * (if t.bits = 32 then 0 else slot) = p at within ⊢
  generalize groupReg c t a lane os = reg
  refine ⟨Nat.mod_lt _ (Nat.two_pow_pos _), fun i hi => ?_⟩
  dsimp only
  rw [Nat.testBit_mod_two_pow, Nat.testBit_div_two_pow, decide_eq_true hi, Bool.true_and]
  by_cases first : p % 32 + i < 32
  · rw [show (p + i) / 32 = p / 32 by omega, show (p + i) % 32 = i + p % 32 by omega]
    split
    · rw [testBit_pair, if_pos (by omega)]
    · rfl
  · rw [if_pos (by omega), testBit_pair, if_neg (by omega), show (p + i) / 32 = p / 32 + 1 by omega, show (p + i) % 32 = i + p % 32 - 32 by omega]

/-! Merging. -/

/-- n bits of x from bit s on replaced by the low bits of k. -/
theorem testBit_replace (x k s n i : Nat) :
    (x - x / 2 ^ s % 2 ^ n * 2 ^ s + k % 2 ^ n * 2 ^ s).testBit i = if s ≤ i ∧ i < s + n then k.testBit (i - s) else x.testBit i := by
  have parts : x - x / 2 ^ s % 2 ^ n * 2 ^ s + k % 2 ^ n * 2 ^ s = 2 ^ s * (2 ^ n * (x / 2 ^ s / 2 ^ n) + k % 2 ^ n) + x % 2 ^ s := by
    have high := congrArg (2 ^ s * ·) (Nat.div_add_mod (x / 2 ^ s) (2 ^ n))
    have low := Nat.div_add_mod x (2 ^ s)
    simp only [Nat.mul_add] at high ⊢
    rw [Nat.mul_comm (x / 2 ^ s % 2 ^ n), Nat.mul_comm (k % 2 ^ n)]
    omega
  rw [parts, Nat.testBit_two_pow_mul_add _ (Nat.mod_lt _ (Nat.two_pow_pos s)), Nat.testBit_two_pow_mul_add _ (Nat.mod_lt _ (Nat.two_pow_pos n)),
    Nat.testBit_mod_two_pow, Nat.testBit_mod_two_pow, Nat.testBit_div_two_pow, Nat.testBit_div_two_pow]
  by_cases below : i < s
  · simp [below, Nat.not_le.2 below]
  · by_cases inside : i - s < n
    · rw [if_neg below, if_pos inside, if_pos (by omega), decide_eq_true inside, Bool.true_and]
    · rw [if_neg below, if_neg inside, if_neg (by omega), show i - s - n + n + s = i by omega]

/-- The bit of register `first + j` of a group after the element of width w at stream bit p is set to a code. -/
def slotBit (w p code : Nat) (old : Nat → Word) (j i : Nat) : Bool :=
  if p ≤ 32 * (p / 32 + j) + i ∧ 32 * (p / 32 + j) + i < p + w then code.testBit (32 * (p / 32 + j) + i - p) else (old (p / 32 + j)).getLsbD i

def slotWord (w p code : Nat) (old : Nat → Word) (j : Nat) : Word :=
  BitVec.ofNat 32 ((List.range 32).foldl (fun a i => if slotBit w p code old j i then a + 2 ^ i else a) 0)

theorem getLsbD_slotWord (w p code : Nat) (old : Nat → Word) (j : Nat) {i : Nat} (hi : i < 32) :
    (slotWord w p code old j).getLsbD i = slotBit w p code old j i := by
  rw [slotWord, BitVec.getLsbD_ofNat, (testBit_sum_two_pow _ 32).2, decide_eq_true hi, Bool.true_and, Bool.true_and]

/-- Registers that an element of width w at stream bit p reaches. -/
def slotRegs (w p : Nat) : Nat := (p % 32 + w + 31) / 32

/-- Register k among those that the model sets, and its new word. -/
theorem setElem_getElem? {w : Nat} (hw : 0 < w) (hw' : w < 32) (e code : Nat) (old : Nat → Word) (k : Nat) :
    ((setElem w e code (fun j => (old j).toNat))[k]?).map (fun y => (y.1, BitVec.ofNat 32 y.2))
      = if k < slotRegs w (w * e) then some (w * e / 32 + k, slotWord w (w * e) code old k) else none := by
  unfold setElem slotRegs
  generalize w * e = p
  have word {j n : Nat} (h : ∀ i, i < 32 → n.testBit i = slotBit w p code old j i) : BitVec.ofNat 32 n = slotWord w p code old j :=
    BitVec.eq_of_getLsbD_eq fun i hi => by rw [getLsbD_slotWord _ _ _ _ _ hi, BitVec.getLsbD_ofNat, h i hi, decide_eq_true hi, Bool.true_and]
  have place : 32 * (p / 32) + p % 32 = p := Nat.div_add_mod p 32
  dsimp only
  split
  case isTrue one =>
    rw [show (p % 32 + w + 31) / 32 = 1 by omega]
    cases k with
    | zero =>
      rw [if_pos Nat.one_pos, List.getElem?_cons_zero, Option.map_some, Nat.add_zero, word (j := 0)]
      intro i hi
      rw [testBit_replace, slotBit, Nat.add_zero]
      simp only [show (p % 32 ≤ i ∧ i < p % 32 + w) ↔ (p ≤ 32 * (p / 32) + i ∧ 32 * (p / 32) + i < p + w) by omega,
        show 32 * (p / 32) + i - p = i - p % 32 by omega]
      rfl
    | succ k => simp
  case isFalse two =>
    rw [show (p % 32 + w + 31) / 32 = 2 by omega]
    match k with
    | 0 =>
      rw [if_pos Nat.two_pos, List.getElem?_cons_zero, Option.map_some, Nat.add_zero, word (j := 0)]
      intro i hi
      rw [testBit_replace, slotBit, Nat.add_zero]
      simp only [show (p % 32 ≤ i ∧ i < p % 32 + (32 - p % 32)) ↔ (p ≤ 32 * (p / 32) + i ∧ 32 * (p / 32) + i < p + w) by omega,
        show 32 * (p / 32) + i - p = i - p % 32 by omega]
      rfl
    | 1 =>
      rw [if_pos Nat.one_lt_two, List.getElem?_cons_succ, List.getElem?_cons_zero, Option.map_some, word (j := 1)]
      intro i hi
      rw [testBit_replace, slotBit, Nat.testBit_div_two_pow]
      simp only [show (0 ≤ i ∧ i < 0 + (p % 32 + w - 32)) ↔ (p ≤ 32 * (p / 32 + 1) + i ∧ 32 * (p / 32 + 1) + i < p + w) by omega,
        show i - 0 + (32 - p % 32) = 32 * (p / 32 + 1) + i - p by omega]
      rfl
    | k + 2 => simp

/-! The writes of a merge. -/

theorem lanesOf_ne_nil {m : Mask} (h : m ≠ 0) : lanesOf m ≠ [] := by
  refine fun nil => h (BitVec.eq_of_getLsbD_eq fun l hl => ?_)
  rw [BitVec.ofNat_eq_ofNat, BitVec.getLsbD_zero, Bool.eq_false_iff]
  exact fun acts => List.not_mem_nil (nil ▸ mem_lanesOf.2 ⟨hl, acts⟩)

/-- R142: each register that the slot reaches is written in the acting lanes. -/
def slotWrites (c : Ctx) (n w e : Nat) (code : Nat → Nat) : List RegW :=
  (List.range (slotRegs w (w * e))).map fun j =>
    RegW.v (n + w * e / 32 + j) ((lanesOf c.act).map fun l => (l, slotWord w (w * e) (code l) (fun i => c.rdV (8 + i) (n + i) l) j))

theorem slotWrites_spec (c : Ctx) (n w e : Nat) (code : Nat → Nat) :
    SlotWrites c.act n w e (fun j l => c.rdV (8 + j) (n + j) l) code (slotWrites c n w e code) :=
  ⟨fun j l => slotWord w (w * e) (code l) (fun i => c.rdV (8 + i) (n + i) l) j, fun _ _ _ hi => getLsbD_slotWord _ _ _ _ _ hi, rfl⟩

theorem slotRegs_eq {w p : Nat} (hw : 0 < w) (hw' : w < 32) : slotRegs w p = 1 ∨ slotRegs w p = 2 := by
  unfold slotRegs
  omega

/-- A register of a merge from what its lanes set: the number of the register in the group, and its new word. -/
def mergedReg (n : Nat) (ys : List (Nat × Nat × Nat)) : Option RegW :=
  match ys with
  | [] => none
  | (_, j, _) :: _ => some (RegW.v (n + j) (ys.map (fun y => (y.1, BitVec.ofNat 32 y.2.2))))

theorem mergeElem_eq_filterMap (c : Ctx) (n : Fin 512) (w e : Nat) (f : Nat → Nat × Word) :
    mergeElem c (.v n) w e (laneResults c f) = (List.range 2).filterMap fun k => mergedReg n.val <|
      (lanesOf c.act).filterMap fun l => (setElem w e (f l).1 (fun j => (c.rdV (8 + j) (n.val + j) l).toNat))[k]?.map fun y => (l, y) := by
  unfold mergeElem laneResults
  simp only [List.map_map, List.filterMap_map]
  rfl

/-- Where every lane sets the same register, that register is written in all of them. -/
theorem mergedReg_of_some {ls : List Nat} (h : ls ≠ []) (n j : Nat) {y : Nat → Nat × Nat} {z : Nat → Word} (hy : ∀ l, ((y l).1, BitVec.ofNat 32 (y l).2) = (j, z l)) :
    mergedReg n (ls.map fun l => (l, y l)) = some (RegW.v (n + j) (ls.map fun l => (l, z l))) := by
  obtain ⟨l, ls, rfl⟩ := List.exists_cons_of_ne_nil h
  have reg : ∀ l, (y l).1 = j := fun l => (Prod.ext_iff.1 (hy l)).1
  have word : ∀ l, BitVec.ofNat 32 (y l).2 = z l := fun l => (Prod.ext_iff.1 (hy l)).2
  simp only [List.map_cons, List.map_map, mergedReg, reg, word, Function.comp_def]

theorem mergeElem_eq {c : Ctx} (ha : c.act ≠ 0) {w : Nat} (hw : 0 < w) (hw' : w < 32) (n : Fin 512) (e : Nat) (f : Nat → Nat × Word) :
    mergeElem c (.v n) w e (laneResults c f) = slotWrites c n.val w e (fun l => (f l).1) := by
  have words := fun k l => setElem_getElem? hw hw' e (f l).1 (fun j => c.rdV (8 + j) (n.val + j) l) k
  have reg : ∀ k, (mergedReg n.val <|
      (lanesOf c.act).filterMap fun l => (setElem w e (f l).1 (fun j => (c.rdV (8 + j) (n.val + j) l).toNat))[k]?.map fun y => (l, y))
        = if k < slotRegs w (w * e) then some (RegW.v (n.val + (w * e / 32 + k)) ((lanesOf c.act).map fun l =>
            (l, slotWord w (w * e) (f l).1 (fun i => c.rdV (8 + i) (n.val + i) l) k))) else none := by
    intro k
    have words := words k
    split
    case isTrue h =>
      simp only [if_pos h, Option.map_eq_some_iff] at words
      obtain ⟨y, found⟩ := Classical.axiomOfChoice words
      obtain ⟨found, word⟩ := forall_and.1 found
      simp only [found, Option.map_some, List.filterMap_eq_map']
      exact mergedReg_of_some (lanesOf_ne_nil ha) _ _ word
    case isFalse h =>
      simp only [if_neg h, Option.map_eq_none_iff] at words
      rw [List.filterMap_eq_nil_iff.2 fun l _ => by rw [words, Option.map_none]]
      rfl
  rw [mergeElem_eq_filterMap, slotWrites]
  simp only [reg, ← Nat.add_assoc]
  rcases slotRegs_eq (p := w * e) hw hw' with one | two
  · simp [one, List.range_succ]
  · simp [two, List.range_succ]

end Sys2Proof.Machine
end

section
/-! The conversions (R141 to R144) and the words of block scales (R145 to R147). -/

namespace Sys2Proof.Machine

open Sys2Proof.Claims

/-! Results of lanes. -/

theorem raised_laneResults (c : Ctx) (f : Nat → Nat × Word) : raised (laneResults c f) = orAll c.act (fun l => (f l).2) := by
  rw [raised, laneResults, List.foldl_map, orAll]

theorem writeLanes_eq_toVector (c : Ctx) (d : Opd) (f : Nat → Nat × Word) :
    writeLanes d (laneResults c f) = toVector c.act d false (fun l => BitVec.ofNat 64 (f l).1) := by
  cases d with
  | v n => simp [writeLanes, laneResults, toVector, BitVec.setWidth_ofNat_of_le]
  | _ => rfl

/-- A word for each acting lane in register j of the group at a destination. -/
def vectorReg (c : Ctx) (o : Opd) (j : Nat) (f : Nat → Nat) : List RegW :=
  match o with
  | .v n => [RegW.v (n.val + j) ((lanesOf c.act).map (fun l => (l, BitVec.ofNat 32 (f l))))]
  | _ => []

/-- The high register of a 64-bit result. -/
theorem high_half (x : Nat) : BitVec.ofNat 32 (x / 2 ^ 32) = (BitVec.ofNat 64 x).extractLsb' 32 32 := by
  apply BitVec.eq_of_toNat_eq
  simp only [BitVec.toNat_ofNat, BitVec.extractLsb'_toNat, Nat.shiftRight_eq_div_pow]
  omega

theorem writeLanes_append_high (c : Ctx) (n : Fin 512) (f : Nat → Nat × Word) :
    writeLanes (.v n) (laneResults c f) ++ [RegW.v (n.val + 1) ((laneResults c f).map (fun q => (q.1, BitVec.ofNat 32 (q.2.1 / 2 ^ 32))))]
      = toVector c.act (.v n) true (fun l => BitVec.ofNat 64 (f l).1) := by
  rw [writeLanes_eq_toVector, laneResults, List.map_map]
  simp only [Function.comp_def, high_half]
  rfl

theorem act_ne_zero_of_executes {i : Instr} {h : Hints} {s : State} {k : Nat} {w : Wave} (hx : Executes true i h s k w) (hr : runsEmpty i = false) :
    (ctx true h s k w).act ≠ 0 := by
  obtain ⟨-, acts, -, -⟩ := hx
  exact acts.resolve_right (by rw [hr]; exact Bool.false_ne_true)

/-- R59: a word that a check of its own fields refuses is never tried. -/
theorem modOk_of_executes {i : Instr} {h : Hints} {lane : Bool} {s : State} {k : Nat} {w : Wave} (hx : Executes lane i h s k w) : i.modOk = true := by
  obtain ⟨⟨-, -, -, legal, -⟩, -⟩ := hx
  refine Bool.of_not_eq_false fun bad => ?_
  rw [Instr.illegal, bad] at legal
  split at legal
  · exact absurd legal (by simp)
  · split at legal <;> exact absurd legal (by simp)

/-! Conversions. -/

section
variable {i : Instr} {h : Hints} {s : State} {k : Nat} {w : Wave} {t : Ty} {d : Opd} {e : Nat} {f : Nat → Nat × Word} {body : Ctx → Act} {ws : List RegW}

/-- R142: what a conversion to type t leaves: whole registers of a 32-bit or 64-bit type, else slot e of its group. -/
def Converts (i : Instr) (h : Hints) (s : State) (k : Nat) (w : Wave) (t : Ty) (d : Opd) (e : Nat) (f : Nat → Nat × Word) : Prop :=
  let c := ctx true h s k w
  let raised := orAll c.act (fun l => (f l).2)
  (32 ≤ t.bits → Leaves true i h s k w 8 (toVector c.act d t.wide (fun l => BitVec.ofNat 64 (f l).1)) raised)
    ∧ (∀ n, d = .v n → t.bits < 32 → ∃ ws, SlotWrites c.act n.val t.bits e (fun j l => c.rdV (8 + j) (n.val + j) l) (fun l => (f l).1) ws
        ∧ Leaves true i h s k w 8 ws raised)
    ∧ ((∀ n, d ≠ .v n) → t.bits < 32 → Leaves true i h s k w 8 [] raised)

theorem mergeElem_of_not_vector (c : Ctx) (hd : ∀ n, d ≠ .v n) (w e : Nat) (rs : List (Nat × Nat × Word)) : mergeElem c d w e rs = [] := by
  cases d with
  | v n => exact absurd rfl (hd n)
  | _ => rfl

theorem converts_of (lag : State.lagOf i 1 = 8) (hr : runsEmpty i = false) (hx : exec i s = issued i h true (fun _ => none) body s)
    (hb : body (ctx true h s k w) = Act.writes (ctx true h s k w) ws (raised (laneResults (ctx true h s k w) f)))
    (whole : Executes true i h s k w → 32 ≤ t.bits → ws = toVector (ctx true h s k w).act d t.wide (fun l => BitVec.ofNat 64 (f l).1))
    (narrow : t.bits < 32 → ws = mergeElem (ctx true h s k w) d t.bits e (laneResults (ctx true h s k w) f)) :
    Converts i h s k w t d e f := by
  have leaves : Leaves true i h s k w 8 ws (orAll (ctx true h s k w).act (fun l => (f l).2)) := by
    have := leaves_of (k := k) (w := w) (nominal := 1) hx rfl hb
    rwa [lag, raised_laneResults] at this
  refine ⟨fun wide hex => ?_, fun n hd small => ⟨_, slotWrites_spec _ n.val t.bits e _, fun hex => ?_⟩, fun hd small hex => ?_⟩
  · rw [← whole hex wide]
    exact leaves hex
  · rw [← mergeElem_eq (act_ne_zero_of_executes hex hr) (bits_pos t) small, ← hd, ← narrow small]
    exact leaves hex
  · rw [narrow small, mergeElem_of_not_vector _ hd] at leaves
    exact leaves hex

end

/-- R141: the destination of `vcvt` is FP32 or a narrower floating format. -/
theorem vcvt_type {h : Hints} {t : Ty} {src rm : BitVec 3} {e : BitVec 4} {d a r : Opd} (ok : (Instr.vcvt h t src rm e d a r).modOk = true) :
    t = .f32 ∨ t.bits < 32 := by
  rw [Instr.modOk, Bool.and_eq_true, decide_eq_true_iff] at ok
  obtain ⟨type, -⟩ := ok
  revert t
  decide

theorem converts_vcvt (h : Hints) (t : Ty) (src rm : BitVec 3) (e : BitVec 4) (d a r : Opd) (s : State) (k : Nat) (w : Wave) :
    let c := ctx true h s k w
    let ty := Ty.ofFloatCode src
    Converts (.vcvt h t src rm e d a r) h s k w t d e.toNat
      (fun l => deliver t rm.toNat (randBits c rm a r l) (decodeNum ty (groupElem c 0 ty a e.toNat l [a, r]))) := by
  intro c ty
  refine converts_of rfl rfl rfl rfl (fun hex wide => ?_) (fun small => ?_)
  · rcases vcvt_type (modOk_of_executes hex) with rfl | small
    · exact writeLanes_eq_toVector _ _ _
    · exact absurd wide (Nat.not_le.2 small)
  · exact if_neg (fun full => absurd small (by rw [full]; decide))

theorem bits_of_wide (t : Ty) (h : t.wide = true) : t.bits = 64 := by
  revert h
  cases t <;> decide

theorem bits_eq_of_not_wide (t : Ty) (h : t.wide = false) (full : 32 ≤ t.bits) : t.bits = 32 := by
  revert h full
  cases t <;> decide

theorem converts_vcvti (h : Hints) (t : Ty) (src : BitVec 4) (rm e : BitVec 3) (d a r : Opd) (s : State) (k : Nat) (w : Wave) :
    let c := ctx true h s k w
    let ty := Ty.ofCode src
    let x := fun l => if ty.wide then (c.val64 0 a l [a, r]).toNat else groupElem c 0 ty a e.toNat l [a, r]
    Converts (.vcvti h t src rm e d a r) h s k w t d e.toNat
      (fun l => if t.isInt then deliverInt t rm.toNat (randBits c rm a r l) (anyNum ty (x l)) else deliver t rm.toNat (randBits c rm a r l) (anyNum ty (x l))) := by
  intro c ty x
  refine converts_of rfl rfl rfl rfl (fun _ wide => ?_) (fun small => ?_)
  · by_cases w64 : t.wide = true
    · refine (if_pos w64).trans ?_
      rw [w64]
      cases d with
      | v n => exact writeLanes_append_high _ n _
      | _ => rfl
    · have full : t.bits = 32 := bits_eq_of_not_wide t (eq_false_of_ne_true w64) wide
      refine (if_neg w64).trans ((if_pos full).trans ?_)
      rw [eq_false_of_ne_true w64]
      exact writeLanes_eq_toVector _ _ _
  · refine (if_neg (fun w64 => ?_)).trans (if_neg (Nat.ne_of_lt small))
    exact absurd small (by rw [bits_of_wide t w64]; decide)

/-! Block scales. -/

theorem leaves_vqz (h : Hints) (t : Ty) (sr : Bool) (d a sc r : Opd) (s : State) (k : Nat) (w : Wave) :
    let c := ctx true h s k w
    let block := fun l => quantise t (if sr then 4 else 0) (fun j => (c.valN 8 r (j / 2) l).toNat / 2 ^ (16 * (j % 2)) % 2 ^ 16)
      ((List.range 8).map (fun j => decodeNum .f32 (c.valN 0 a j l).toNat))
    Leaves true (.vqz h t sr d a sc r) h s k w 24
      ((List.range (if t = .e2m1 then 1 else 2)).flatMap (fun j => vectorReg c d j (fun l => streamOf t.bits (block l).2.1 / 2 ^ (32 * j)))
        ++ vectorReg c sc 0 (fun l => (block l).1)) (orAll c.act (fun l => (block l).2.2)) := by
  intro c block
  refine leaves_of (nominal := 24) rfl rfl ?_
  simp only [List.map_map, List.foldl_map]
  rfl

/-- R99: the product of an element and a block scale is exact, and is rounded once. -/
theorem dequantise_eq (t : Ty) (code scale : Nat) :
    dequantise t code scale = if scale = 0xFF then (0x7FC00000, 0) else deliver .f32 0 0 (times (decodeNum t code) ((scale : Int) - 127)) := by
  unfold dequantise times
  split
  · rfl
  · cases decodeNum t code with
    | fin neg m e => simp only [Int.add_sub_assoc]
    | _ => rfl

theorem leaves_vdq (h : Hints) (t : Ty) (d a sc : Opd) (s : State) (k : Nat) (w : Wave) :
    let c := ctx true h s k w
    let back := fun j l => dequantise t (groupElem c 0 t a j l) ((c.val 8 sc l [sc]).toNat % 256)
    Leaves true (.vdq h t d a sc) h s k w 8 ((List.range 8).flatMap (fun j => vectorReg c d j (fun l => (back j l).1)))
      ((List.range 8).foldl (fun m j => m ||| orAll c.act (fun l => (back j l).2)) 0) := by
  intro c back
  refine leaves_of (nominal := 1) rfl rfl ?_
  simp only [List.foldl_map, raised_laneResults, Act.writes]
  cases d with
  | v n =>
    simp only [vectorReg, ← List.map_eq_flatMap, List.map_map, Function.comp_def, laneResults]
    rfl
  | _ => rfl

/-- Settles O14. A conversion writes whole registers or the one or two that its slot reaches; the numbers of bits of a block's greatest magnitude and of the
format's tell the least scale but for two steps, which comparison decides. -/
theorem conversionsAndScales : Obligations.ConversionsAndScales := by
  refine ⟨fun h t src rm e₃ e₄ src₄ sr d a sc r s k w => ⟨?cvt, ?cvti, ?quantise, ?dequantise⟩, fun t mode rand xs => ⟨?nan, ?block⟩, fun t m e ht => ?scale⟩
  case cvt => exact ⟨_, fun l => isElem_groupElem _ _ _ _ _ _, converts_vcvt h t src rm e₄ d a r s k w⟩
  case cvti =>
    refine ⟨_, fun l => ?_, converts_vcvti h t src₄ rm e₃ d a r s k w⟩
    split
    case isTrue => rfl
    case isFalse => exact isElem_groupElem _ _ _ _ _ _
  case quantise => exact leaves_vqz h t sr d a sc r s k w
  case dequantise =>
    refine ⟨fun j l => groupElem (ctx true h s k w) 0 t a j l, fun j l => isElem_groupElem _ _ _ _ _ _, ?_⟩
    have back := leaves_vdq h t d a sc s k w
    simp only [dequantise_eq] at back
    exact back
  case nan => exact quantise_of_nan t mode rand
  case block =>
    obtain ⟨all, source⟩ := greatestMag_spec xs
    exact fun h => ⟨(greatestMag xs).1, (greatestMag xs).2, fun neg m' e' mem u hu hu' => (magLe_iff hu' hu ..).1 (all neg m' e' mem), source,
      quantise_elems t mode rand h⟩
  case scale =>
    have top : ∀ t ∈ [Ty.e4m3, .e5m2, .e2m1, .l6], (blockMax t).1 ≠ 0 := by decide
    refine ⟨fun hm => if_pos hm, fun hm => ?_⟩
    obtain ⟨low, high, fits, least⟩ := blockScale_least (top t ht) hm e
    exact ⟨low, high, fun lt => (forall_inUnits_le_iff ..).2 (fits lt), fun gt k lt => mt (forall_inUnits_le_iff ..).1 (least gt k lt)⟩

end Sys2Proof.Machine
end

section
/-! SUPPORT. Words whose acting lanes each leave one register, or a condition in a pair of p registers, with the `fst` bits that they raise. -/

namespace Sys2Proof.Machine

open Sys2Proof.Claims

theorem pairStep_eq_newPair : ∀ (acc : BitVec 2) (c t f : Bool), pairStep acc c t f = newPair acc c t f := by decide

theorem pairLanes_eq_pairP (c : Ctx) (pr : PairF) (clr : Bool) (cond : Nat → Bool) :
    pairLanes c pr clr cond = pairP c.act pr clr
      (maskOf (fun l => c.act.getLsbD l && (newPair pr.acc (cond l) (c.rdP 8 pr.pt.toNat l) (c.rdP 9 pr.pf.toNat l)).1))
      (maskOf (fun l => c.act.getLsbD l && (newPair pr.acc (cond l) (c.rdP 8 pr.pt.toNat l) (c.rdP 9 pr.pf.toNat l)).2)) := by
  have zero : (0 : BitVec 4).toNat = 0 := rfl
  simp only [pairLanes, pairP, pairStep_eq_newPair, Bool.or_eq_true, decide_eq_true_eq, BitVec.toNat_eq, zero]
  by_cases none : pr.pt.toNat = 0 ∨ pr.pf.toNat = 0
  · rw [if_pos none, if_pos none]
  · rw [if_neg none, if_neg none]
    exact apply_ite (RegW.p _ _ _ :: ·) _ _ _

theorem orAll_zero (act : Mask) : orAll act (fun _ => 0) = 0 := by
  have keeps (ls : List Nat) : ls.foldl (fun (m : Word) _ => m ||| 0) 0 = 0 := by
    induction ls with
    | nil => rfl
    | cons l ls ih => exact ih
  exact keeps (lanesOf act)

/-- In an acting lane, the search of a lane's result among those of all finds it. -/
theorem any_laneResults (c : Ctx) (r : Nat → Nat × Word) (p : Nat × Word → Bool) {l : Nat} (hl : l < 96) (acts : c.act.getLsbD l = true) :
    (laneResults c r).any (fun x => x.1 = l && p x.2) = p (r l) :=
  calc (laneResults c r).any (fun x => x.1 = l && p x.2)
    _ = (maskOf (fun i => (laneResults c r).any (fun x => x.1 = i && p x.2))).getLsbD l :=
        (isMask_maskOf (fun i => (laneResults c r).any (fun x => x.1 = i && p x.2)) l hl).symm
    _ = (c.act.getLsbD l && p (r l)) := isMask_any_lanes c.act r p l hl
    _ = p (r l) := by rw [acts, Bool.true_and]

section
variable {i : Instr} {h : Hints} {s : State} {k : Nat} {w : Wave} {body : Ctx → Act} {lag : Nat}

/-- R132, R138: a word whose acting lanes each leave one register and the bits that they raise. -/
theorem leaves_lanes {d : Opd} {r : Nat → Nat × Word} {nominal : Nat} (hx : exec i s = issued i h true (fun _ => none) body s)
    (hb : let c := ctx true h s k w
      body c = .ok { st := c.s, ws := writeLanes d (laneResults c r), fst := raised (laneResults c r), nominal := nominal })
    (hl : State.lagOf i nominal = lag) :
    let c := ctx true h s k w
    Leaves true i h s k w lag (toVector c.act d false (fun l => BitVec.ofNat 64 (r l).1)) (orAll c.act (fun l => (r l).2)) := by
  have leaves := leaves_of (k := k) (w := w) hx rfl hb
  rwa [hl, writeLanes_eq_toVector, raised_laneResults] at leaves

/-- R75, R76: a word that compares in the acting lanes. What its condition says of the other lanes does not count. -/
theorem leaves_pair {pr : PairF} {clr : Bool} {cond cond' : Nat → Bool} {fst : Word} (hx : exec i s = issued i h true (fun _ => none) body s)
    (hb : body (ctx true h s k w) = Act.writes (ctx true h s k w) (pairLanes (ctx true h s k w) pr clr cond') fst) (hl : State.lagOf i 1 = lag)
    (agree : ∀ l, l < 96 → (ctx true h s k w).act.getLsbD l = true → cond' l = cond l) :
    let c := ctx true h s k w
    let new := fun l => newPair pr.acc (cond l) (c.rdP 8 pr.pt.toNat l) (c.rdP 9 pr.pf.toNat l)
    ∃ mt mf, IsMask mt (fun l => c.act.getLsbD l && (new l).1) ∧ IsMask mf (fun l => c.act.getLsbD l && (new l).2)
      ∧ Leaves true i h s k w lag (pairP c.act pr clr mt mf) fst := by
  intro c new
  have leaves := leaves_of (k := k) (w := w) hx rfl hb
  rw [hl, pairLanes_eq_pairP] at leaves
  have same (l : Nat) (hl : l < 96) (part : Bool × Bool → Bool) :
      (c.act.getLsbD l && part (newPair pr.acc (cond' l) (c.rdP 8 pr.pt.toNat l) (c.rdP 9 pr.pf.toNat l))) = (c.act.getLsbD l && part (new l)) := by
    cases acts : c.act.getLsbD l with
    | false => rfl
    | true => rw [agree l hl acts]
  exact ⟨_, _, fun l hl => (isMask_maskOf _ l hl).trans (same l hl Prod.fst), fun l hl => (isMask_maskOf _ l hl).trans (same l hl Prod.snd), leaves⟩

/-- R135: such a word whose lanes also raise bits. -/
theorem leaves_compare {pr : PairF} {clr : Bool} {r : Nat → Bool × Word} (hx : exec i s = issued i h true (fun _ => none) body s)
    (hb : let c := ctx true h s k w
      let rs := laneResults c (fun l => ((r l).1.toNat, (r l).2))
      body c = Act.writes c (pairLanes c pr clr (fun l => rs.any (fun x => x.1 = l && x.2.1 = 1))) (raised rs)) (hl : State.lagOf i 1 = lag) :
    let c := ctx true h s k w
    let new := fun l => newPair pr.acc (r l).1 (c.rdP 8 pr.pt.toNat l) (c.rdP 9 pr.pf.toNat l)
    ∃ mt mf, IsMask mt (fun l => c.act.getLsbD l && (new l).1) ∧ IsMask mf (fun l => c.act.getLsbD l && (new l).2)
      ∧ Leaves true i h s k w lag (pairP c.act pr clr mt mf) (orAll c.act (fun l => (r l).2)) := by
  have leaves := leaves_pair (cond := fun l => (r l).1) hx hb hl (fun l hl acts => ?_)
  · rwa [raised_laneResults] at leaves
  · rw [any_laneResults _ _ (fun x => decide (x.1 = 1)) hl acts]
    cases (r l).1 <;> rfl

end

end Sys2Proof.Machine
end

section
/-! SUPPORT. Exact arithmetic (R133 to R135): its operands that are NaNs, infinities and finite numbers on a common scale. -/

namespace Sys2Proof.Machine

/-- (−1)^s · v · 2^f in units of 2^u. -/
def signedUnits (u : Int) (s : Bool) (v : Nat) (f : Int) : Int := (if s then -1 else 1) * (v * 2 ^ (f - u).toNat : Int)

theorem signedUnits_eq_inUnits (u : Int) (s : Bool) (v : Nat) (f : Int) : signedUnits u s v f = (if s then -1 else 1) * (inUnits u v f : Int) := by
  rw [signedUnits, inUnits, Int.natCast_mul, Int.natCast_pow, Int.cast_ofNat_Int]

@[simp] theorem signedUnits_zero (u : Int) (s : Bool) (f : Int) : signedUnits u s 0 f = 0 := by
  rw [signedUnits, Int.natCast_zero, Int.zero_mul, Int.mul_zero]

theorem signedUnits_of_le {u u' f : Int} (hu : u' ≤ u) (hf : u ≤ f) (s : Bool) (v : Nat) :
    signedUnits u' s v f = signedUnits u s v f * 2 ^ (u - u').toNat := by
  rw [signedUnits_eq_inUnits, signedUnits_eq_inUnits, inUnits_of_le hu hf, Int.natCast_mul, Int.natCast_pow, Int.cast_ofNat_Int, Int.mul_assoc]

/-- A whole number of units of 2^f as a sign and a magnitude. -/
theorem signedUnits_natAbs (f z : Int) : signedUnits f (decide (z < 0)) z.natAbs f = z := by
  rw [signedUnits, Int.sub_self, Int.toNat_zero, Int.pow_zero, Int.mul_one]
  by_cases neg : z < 0
  · rw [decide_eq_true neg, if_pos rfl]; omega
  · rw [decide_eq_false neg, if_neg Bool.false_ne_true]; omega

namespace Num

variable {p q : Bool} {x y : Nat} {i j : Int} {a b e : Num}

/-! NaNs (R133). -/

/-- What an operation with a NaN among its operands gives. -/
def quiet (xs : List Num) : Num × Word := (.nan false, if xs.any isSignalling then fstIV else 0)

theorem nanOf_of_nan {xs : List Num} (h : xs.any isNan = true) : nanOf xs = some (quiet xs) := if_pos h

theorem nanOf_of_numbers {xs : List Num} (h : xs.any isNan = false) : nanOf xs = none := if_neg (Bool.eq_false_iff.1 h)

theorem any_isNan_pair (a b : Num) : [a, b].any isNan = (a.isNan || b.isNan) := by
  rw [List.any_cons, List.any_cons, List.any_nil, Bool.or_false]

theorem raised_quiet_pair (a b : Num) : (quiet [a, b]).2 = if a.isSignalling || b.isSignalling then fstIV else 0 := by
  rw [quiet, List.any_cons, List.any_cons, List.any_nil, Bool.or_false]

theorem isSignalling_of_number (h : a.isNan = false) : a.isSignalling = false := by
  cases a with
  | nan => exact absurd h (by simp only [isNan, Bool.true_eq_false, not_false_eq_true])
  | _ => rfl

theorem add_of_nan (mode : Nat) (h : (a.isNan || b.isNan) = true) : add mode a b = quiet [a, b] := by
  rw [add, nanOf_of_nan ((any_isNan_pair a b).trans h), Option.getD_some]

theorem mul_of_nan (h : (a.isNan || b.isNan) = true) : mul a b = quiet [a, b] := by
  rw [mul, nanOf_of_nan ((any_isNan_pair a b).trans h), Option.getD_some]

theorem fma_of_nan (h : (a.isNan || b.isNan) = true) : fma a b e = quiet [a, b, e] := by
  have any : [a, b, e].any isNan = true := by
    rw [show [a, b, e] = [a, b] ++ [e] from rfl, List.any_append, any_isNan_pair, h, Bool.true_or]
  rw [fma, if_pos h, nanOf_of_nan any, Option.getD_some]

theorem pick_of_nan (max neg : Bool) (h : (a.isNan || b.isNan) = true) :
    pick max neg a b = (if neg = true ∨ (a.isNan = true ∧ b.isNan = true) then .nan false else if a.isNan then b else a, (quiet [a, b]).2) := by
  rw [raised_quiet_pair, pick]
  cases ha : a.isNan <;> cases hb : b.isNan
  case false.false => rw [ha, hb] at h; exact absurd h Bool.false_ne_true
  all_goals cases neg <;> rfl

theorem compare_of_nan (h : (a.isNan || b.isNan) = true) {cond : Nat} (hc : cond < 8) :
    compare cond a b = (decide (cond = 1 ∨ cond = 7), if 2 ≤ cond ∧ cond ≤ 5 then fstIV else (quiet [a, b]).2) := by
  rw [raised_quiet_pair]
  unfold compare
  rw [h]
  match cond, hc with
  | 0, _ | 1, _ | 2, _ | 3, _ | 4, _ | 5, _ | 6, _ | 7, _ => rfl

/-! Products and sums of numbers (R133). -/

theorem mul_of_numbers (h : (a.isNan || b.isNan) = false) : mul a b = orInvalid (mulCore a b) := by
  rw [mul, nanOf_of_numbers ((any_isNan_pair a b).trans h), Option.getD_none]

theorem orInvalid_ite {c : Prop} [Decidable c] (z : Num) : orInvalid (if c then none else some z) = if c then (.nan false, fstIV) else (z, 0) := by
  split <;> rfl

theorem mul_inf_fin : mul (.inf p) (.fin q y j) = if y = 0 then (.nan false, fstIV) else (.inf (p != q), 0) := orInvalid_ite _
theorem mul_fin_inf : mul (.fin p x i) (.inf q) = if x = 0 then (.nan false, fstIV) else (.inf (p != q), 0) := orInvalid_ite _

theorem add_inf_inf (mode : Nat) : add mode (.inf p) (.inf q) = if p = q then (.inf p, 0) else (.nan false, fstIV) := by
  cases p <;> cases q <;> rfl

/-- A product of numbers, where there is one, is a number. -/
theorem isNan_of_mulCore {z : Num} (h : (a.isNan || b.isNan) = false) (hz : mulCore a b = some z) : z.isNan = false := by
  cases a <;> cases b
  case fin.fin | inf.inf => cases hz; rfl
  case fin.inf | inf.fin =>
    obtain ⟨-, hz⟩ := Option.ite_none_left_eq_some.1 hz
    cases hz
    rfl
  all_goals cases h

/-- Without a NaN factor, a product that exists is added to the third operand. -/
theorem fma_of_mul {z : Num} (h : (a.isNan || b.isNan) = false) (hz : mul a b = (z, 0)) : fma a b e = if e.isNan then quiet [e] else add 0 z e := by
  rw [mul_of_numbers h] at hz
  rw [fma, if_neg (Bool.eq_false_iff.1 h)]
  cases core : mulCore a b with
  | none =>
    rw [core] at hz
    have raised : fstIV = 0 := congrArg Prod.snd hz
    exact absurd raised (by decide)
  | some z' =>
    rw [core] at hz
    cases hz
    have number := isNan_of_mulCore h core
    cases he : e.isNan with
    | false => rfl
    | true =>
      rw [if_pos rfl]
      show (nanOf [z, e]).getD _ = _
      rw [nanOf_of_nan (by rw [any_isNan_pair, he, Bool.or_true]), Option.getD_some, quiet, List.any_cons, isSignalling_of_number number, Bool.false_or]
      rfl

theorem fma_of_mul_invalid (h : (a.isNan || b.isNan) = false) (hz : mul a b = (.nan false, fstIV)) : fma a b e = (.nan false, fstIV) := by
  rw [mul_of_numbers h] at hz
  rw [fma, if_neg (Bool.eq_false_iff.1 h)]
  cases core : mulCore a b with
  | none => rfl
  | some z =>
    rw [core] at hz
    have raised : 0 = fstIV := congrArg Prod.snd hz
    exact absurd raised (by decide)

/-- R133: the exact sum, and the sign of a sum that is zero. -/
theorem addFin_spec (mode : Nat) (p : Bool) (x : Nat) (i : Int) (q : Bool) (y : Nat) (j : Int) :
    ∃ s v f, addFin mode p x i q y j = .fin s v f
      ∧ (∀ u, u ≤ i → u ≤ j → u ≤ f → signedUnits u s v f = signedUnits u p x i + signedUnits u q y j)
      ∧ (v = 0 → s = if x = 0 ∧ y = 0 ∧ p = q then p else decide (mode = 3)) := by
  have hi : min i j ≤ i := Int.min_le_left i j
  have hj : min i j ≤ j := Int.min_le_right i j
  obtain ⟨z, hz⟩ : ∃ z, z = signedUnits (min i j) p x i + signedUnits (min i j) q y j := ⟨_, rfl⟩
  have sum {u : Int} (hu : u ≤ min i j) : signedUnits u p x i + signedUnits u q y j = z * 2 ^ (min i j - u).toNat := by
    rw [signedUnits_of_le hu hi, signedUnits_of_le hu hj, ← Int.add_mul, hz]
  have core : addFin mode p x i q y j =
      if z = 0 then (if x = 0 && y = 0 && p = q then .fin p 0 0 else .fin (mode = 3) 0 0) else .fin (decide (z < 0)) z.natAbs (min i j) := by
    rw [hz, signedUnits_eq_inUnits, signedUnits_eq_inUnits]
    rfl
  by_cases zero : z = 0
  · refine ⟨if x = 0 ∧ y = 0 ∧ p = q then p else decide (mode = 3), 0, 0, ?_, fun u ui uj _ => ?_, fun _ => rfl⟩
    · rw [core, if_pos zero]
      simp only [Bool.and_eq_true, decide_eq_true_eq, and_assoc]
      split <;> rfl
    · rw [sum (Int.le_min.2 ⟨ui, uj⟩), zero, Int.zero_mul, signedUnits_zero]
  · refine ⟨decide (z < 0), z.natAbs, min i j, ?_, fun u ui uj uf => ?_, fun v0 => absurd (Int.natAbs_eq_zero.1 v0) zero⟩
    · rw [core, if_neg zero]
    · rw [sum uf, signedUnits_of_le uf (Int.le_refl _), signedUnits_natAbs]

/-! The order of numbers (R134, R135). -/

theorem less_fin (signed : Bool) {u : Int} (hi : u ≤ i) (hj : u ≤ j) :
    less signed (.fin p x i) (.fin q y j)
      = if x = 0 ∧ y = 0 then signed && p && !q else decide (signedUnits u p x i < signedUnits u q y j) := by
  have hu : u ≤ min i j := Int.le_min.2 ⟨hi, hj⟩
  have scale : signedUnits u p x i < signedUnits u q y j ↔ signedUnits (min i j) p x i < signedUnits (min i j) q y j := by
    rw [signedUnits_of_le hu (Int.min_le_left i j), signedUnits_of_le hu (Int.min_le_right i j), Int.mul_lt_mul_right (Int.pow_pos (by decide))]
  simp only [scale]
  simp only [signedUnits_eq_inUnits, less, Bool.and_eq_true, decide_eq_true_eq]
  rfl

theorem less_unsigned_fin {u : Int} (hi : u ≤ i) (hj : u ≤ j) :
    less false (.fin p x i) (.fin q y j) = decide (signedUnits u p x i < signedUnits u q y j) := by
  rw [less_fin false hi hj]
  split
  next zero => rw [zero.1, zero.2, signedUnits_zero, signedUnits_zero]; rfl
  next => rfl

theorem less_signed_fin {u : Int} (hi : u ≤ i) (hj : u ≤ j) :
    less true (.fin p x i) (.fin q y j) = decide (signedUnits u p x i < signedUnits u q y j ∨ x = 0 ∧ y = 0 ∧ p = true ∧ q = false) := by
  rw [less_fin true hi hj]
  split
  next zero =>
    obtain ⟨rfl, rfl⟩ := zero
    rw [signedUnits_zero, signedUnits_zero]
    cases p <;> cases q <;> rfl
  next nonzero => exact decide_eq_decide.2 (or_iff_left (fun zero => nonzero ⟨zero.1, zero.2.1⟩)).symm

theorem pick_of_numbers (max neg : Bool) (ha : a.isNan = false) (hb : b.isNan = false) : pick max neg a b = (if less true a b = max then b else a, 0) := by
  rw [pick, ha, hb]
  rfl

theorem pick_inf_fin (max neg p q : Bool) (y : Nat) (j : Int) : pick max neg (.inf p) (.fin q y j) = (if p = max then .fin q y j else .inf p, 0) := rfl

theorem pick_fin_inf (max neg p q : Bool) (x : Nat) (i : Int) : pick max neg (.fin p x i) (.inf q) = (if q = max then .fin p x i else .inf q, 0) := by
  rw [pick_of_numbers max neg rfl rfl]
  cases q <;> cases max <;> rfl

theorem pick_inf_inf (max neg p q : Bool) : pick max neg (.inf p) (.inf q) = (if p = q ∨ p ≠ max then .inf p else .inf q, 0) := by
  rw [pick_of_numbers max neg rfl rfl]
  cases p <;> cases q <;> cases max <;> rfl

/-- R134: the lesser and the greater of two finite numbers. -/
theorem pick_fin (max neg p q : Bool) (x y : Nat) {i j u : Int} (hi : u ≤ i) (hj : u ≤ j) :
    pick max neg (.fin p x i) (.fin q y j)
      = (if decide (signedUnits u p x i < signedUnits u q y j ∨ x = 0 ∧ y = 0 ∧ p = true ∧ q = false) = max then .fin q y j else .fin p x i, 0) := by
  rw [pick_of_numbers max neg rfl rfl, less_signed_fin hi hj]

/-- R135: a condition on two numbers, of which the one or the other may be less. -/
def orderHolds (cond : Nat) (lt gt : Bool) : Bool :=
  match cond with
  | 0 => !lt && !gt
  | 1 => lt || gt
  | 2 => lt
  | 3 => !gt
  | 4 => gt
  | 5 => !lt
  | 6 => true
  | _ => false

theorem compare_of_numbers (ha : a.isNan = false) (hb : b.isNan = false) {cond : Nat} (hc : cond < 8) :
    compare cond a b = (orderHolds cond (less false a b) (less false b a), 0) := by
  unfold compare
  rw [ha, hb, isSignalling_of_number ha, isSignalling_of_number hb]
  match cond, hc with
  | 0, _ | 1, _ | 2, _ | 3, _ | 4, _ | 5, _ | 6, _ | 7, _ => rfl

/-- R135: the conditions on two finite numbers. -/
theorem compare_fin {u : Int} (hi : u ≤ i) (hj : u ≤ j) :
    let s := signedUnits u p x i
    let t := signedUnits u q y j
    let m : Num := .fin p x i
    let n : Num := .fin q y j
    compare 0 m n = (decide (s = t), 0) ∧ compare 1 m n = (decide (s ≠ t), 0) ∧ compare 2 m n = (decide (s < t), 0)
      ∧ compare 3 m n = (decide (s ≤ t), 0) ∧ compare 4 m n = (decide (t < s), 0) ∧ compare 5 m n = (decide (t ≤ s), 0)
      ∧ compare 6 m n = (true, 0) ∧ compare 7 m n = (false, 0) := by
  intro s t m n
  have value {cond : Nat} (hc : cond < 8) : compare cond m n = (orderHolds cond (decide (s < t)) (decide (t < s)), 0) := by
    rw [compare_of_numbers rfl rfl hc, less_unsigned_fin hi hj, less_unsigned_fin hj hi]
  rw [value (cond := 0) (by decide), value (cond := 1) (by decide), value (cond := 2) (by decide), value (cond := 3) (by decide),
    value (cond := 4) (by decide), value (cond := 5) (by decide), value (cond := 6) (by decide), value (cond := 7) (by decide)]
  obtain below | same | above := Int.lt_trichotomy s t
  · rw [decide_eq_true below, decide_eq_false (show ¬ t < s by omega), decide_eq_false (show ¬ s = t by omega), decide_eq_true (show s ≠ t by omega),
      decide_eq_true (show s ≤ t by omega), decide_eq_false (show ¬ t ≤ s by omega)]
    exact ⟨rfl, rfl, rfl, rfl, rfl, rfl, rfl, rfl⟩
  · rw [decide_eq_true same, decide_eq_false (show ¬ s < t by omega), decide_eq_false (show ¬ t < s by omega), decide_eq_false (show ¬ s ≠ t by omega),
      decide_eq_true (show s ≤ t by omega), decide_eq_true (show t ≤ s by omega)]
    exact ⟨rfl, rfl, rfl, rfl, rfl, rfl, rfl, rfl⟩
  · rw [decide_eq_true above, decide_eq_false (show ¬ s < t by omega), decide_eq_false (show ¬ s = t by omega), decide_eq_true (show s ≠ t by omega),
      decide_eq_false (show ¬ s ≤ t by omega), decide_eq_true (show t ≤ s by omega)]
    exact ⟨rfl, rfl, rfl, rfl, rfl, rfl, rfl, rfl⟩

end Num

end Sys2Proof.Machine
end

section
/-! Floating arithmetic (R132 to R137). -/

namespace Sys2Proof.Machine

open Sys2Proof.Claims

/-- Settles O12. Sums and order come from the operands on a common scale; the words' writes and bits are read off their meaning, lane by lane. -/
theorem floatArithmetic : Obligations.FloatArithmetic := by
  refine ⟨fun mode neg p q x y i j a b e => ?numbers, fun h t clr flag f pr mask d a b e s k w => ?words⟩
  case numbers =>
    intro none_ quiet add mul fma pick m n at_ unordered
    have nan : unordered → (a.isNan || b.isNan) = true := Bool.or_eq_true_iff.2
    have number : ¬ unordered → (a.isNan || b.isNan) = false := fun ordered => Bool.eq_false_iff.2 (fun h => ordered (Bool.or_eq_true_iff.1 h))
    refine ⟨fun un => ⟨Num.add_of_nan mode (nan un), Num.mul_of_nan (nan un), Num.fma_of_nan (nan un)⟩, Num.add_inf_inf mode, rfl, rfl, rfl,
      Num.mul_inf_fin, Num.mul_fin_inf, rfl, ?sum, fun ordered => Num.fma_of_mul_invalid (number ordered), fun z ordered => Num.fma_of_mul (number ordered),
      fun max u hi hj => Num.pick_fin max neg p q x y hi hj,
      fun max => ⟨Num.pick_inf_fin max neg p q y j, Num.pick_fin_inf max neg p q x i, Num.pick_inf_inf max neg p q, fun un => Num.pick_of_nan max neg (nan un)⟩,
      fun u hi hj => Num.compare_fin hi hj, fun un cond hc => Num.compare_of_nan (nan un) hc⟩
    obtain ⟨s, v, f, sum, units, zero⟩ := Num.addFin_spec mode p x i q y j
    exact ⟨s, v, f, congrArg (·, 0) sum, units, zero⟩
  case words =>
    refine ⟨leaves_lanes rfl rfl rfl, leaves_lanes rfl rfl rfl, leaves_lanes rfl rfl rfl, leaves_lanes rfl rfl rfl, leaves_lanes rfl rfl rfl,
      leaves_lanes rfl rfl rfl, leaves_lanes rfl rfl rfl, leaves_compare rfl rfl rfl, ?classify⟩
    case classify =>
      simp only [show orAll (ctx true h s k w).act (fun _ => 0) = 0 from orAll_zero _]
      exact leaves_pair rfl rfl rfl (fun _ _ _ => rfl)

end Sys2Proof.Machine
end

section
/-! The special functions, division and square root (R138 to R140). -/

namespace Sys2Proof.Machine

open Sys2Proof.Claims

/-! The operands of the special functions whose results are listed (R139, R140), where more than a branch of the function says them. -/

theorem fRsq_neg {m : Nat} (hm : m ≠ 0) (e : Int) : fRsq (.fin true m e) = invalid := if_neg hm
theorem fSqrt_neg {m : Nat} (hm : m ≠ 0) (e : Int) : fSqrt (.fin true m e) = invalid := if_neg hm
theorem fLog2_neg (bits : Word) {m : Nat} (hm : m ≠ 0) (e : Int) : fLog2 bits (.fin true m e) = invalid := if_neg hm

theorem fSinpi_zero (bits : Word) (neg : Bool) (e : Int) : fSinpi bits (.fin neg 0 e) = (signBit .f32 neg, 0) := by
  have turn : 0 * pow2 e % (2 * pow2 (-e)) % pow2 (-e) = 0 := by rw [Nat.zero_mul, Nat.zero_mod, Nat.zero_mod]
  exact if_pos turn

/-- R139: a whole number of half turns. -/
theorem fSinpi_whole (bits : Word) (neg : Bool) (m : Nat) {e : Int} (he : 0 ≤ e) : fSinpi bits (.fin neg m e) = (signBit .f32 neg, 0) := by
  have unit : pow2 (-e) = 1 := by rw [pow2, Int.toNat_of_nonpos (by omega), Nat.pow_zero]
  have turn : m * pow2 e % (2 * pow2 (-e)) % pow2 (-e) = 0 := by rw [unit, Nat.mod_one]
  exact if_pos turn

theorem fCospi_of_turn (bits : Word) (neg : Bool) {m : Nat} {e : Int} (h : m * pow2 e % (2 * pow2 (-e)) = 0) : fCospi bits (.fin neg m e) = (0x3F800000, 0) := by
  have pos : 0 < pow2 (-e) := Nat.two_pow_pos _
  unfold fCospi
  simp only [h, Nat.not_lt_zero, if_false, Nat.mul_zero, Ne.symm (Nat.ne_of_gt pos), decide_false]
  rfl

theorem fCospi_zero (bits : Word) (neg : Bool) (e : Int) : fCospi bits (.fin neg 0 e) = (0x3F800000, 0) :=
  fCospi_of_turn bits neg (by rw [Nat.zero_mul, Nat.zero_mod])

/-- R139: an even number of half turns. -/
theorem fCospi_even (bits : Word) (neg : Bool) (m : Nat) {e : Int} (he : 1 ≤ e) : fCospi bits (.fin neg m e) = (0x3F800000, 0) := by
  have unit : pow2 (-e) = 1 := by rw [pow2, Int.toNat_of_nonpos (by omega), Nat.pow_zero]
  refine fCospi_of_turn bits neg ?_
  have double : pow2 e = 2 ^ (e.toNat - 1) * 2 := by rw [pow2, ← Nat.pow_succ, Nat.succ_eq_add_one, Nat.sub_add_cancel (by omega)]
  rw [unit, double, ← Nat.mul_assoc, Nat.mul_one, Nat.mul_mod_left]

/-- R139: an odd number of quarter turns. -/
theorem fCospi_half (bits : Word) (neg : Bool) (n : Nat) : fCospi bits (.fin neg (2 * n + 1) (-1)) = (0, 0) := by
  have quarter : (2 * n + 1) * pow2 (-1) % (2 * pow2 (- -1)) = 1 ∨ (2 * n + 1) * pow2 (-1) % (2 * pow2 (- -1)) = 3 := by
    show (2 * n + 1) * 1 % 4 = 1 ∨ (2 * n + 1) * 1 % 4 = 3
    omega
  unfold fCospi
  obtain one | three := quarter
  · simp only [one]; rfl
  · simp only [three]; rfl

/-! Division (R140). -/

/-- The sign of a quotient: that of operands whose signs differ. -/
theorem signBit_bne (p q : Bool) : signBit .f32 (p != q) = if p = q then 0 else 0x80000000 := by
  cases p <;> cases q <;> rfl

theorem f32Inf_bne (p q : Bool) : f32Inf (p != q) = 0x7F800000 + if p = q then 0 else 0x80000000 :=
  congrArg (0x7F800000 + ·) (signBit_bne p q)

theorem fDiv_by_zero (p q : Bool) {m : Nat} (hm : m ≠ 0) (e e' : Int) :
    fDiv (.fin p m e) (.fin q 0 e') = (0x7F800000 + if p = q then 0 else 0x80000000, fstDZ) := by
  rw [← f32Inf_bne]
  simp only [fDiv, hm, decide_false, Bool.false_and, Bool.false_eq_true, if_false, if_true]

theorem fDiv_zero_by (p q : Bool) {m : Nat} (hm : m ≠ 0) (e e' : Int) :
    fDiv (.fin p 0 e) (.fin q m e') = (if p = q then 0 else 0x80000000, 0) := by
  rw [← signBit_bne]
  simp only [fDiv, hm, decide_false, Bool.and_false, Bool.false_eq_true, if_false, if_true]

theorem fDiv_inf_fin (p q : Bool) (m : Nat) (e : Int) : fDiv (.inf p) (.fin q m e) = (0x7F800000 + if p = q then 0 else 0x80000000, 0) :=
  congrArg (·, 0) (f32Inf_bne p q)

theorem fDiv_fin_inf (p q : Bool) (m : Nat) (e : Int) : fDiv (.fin p m e) (.inf q) = (if p = q then 0 else 0x80000000, 0) :=
  congrArg (·, 0) (signBit_bne p q)

theorem isSignalling_nan (sig : Bool) : (Num.nan sig).isSignalling = sig := by cases sig <;> rfl

theorem fDiv_nan_left (sig : Bool) (z : Num) : fDiv (.nan sig) z = (canonicalNaN .f32, if sig || z.isSignalling then fstIV else 0) := by
  simp only [fDiv, isSignalling_nan]

theorem fDiv_nan_right (sig : Bool) (z : Num) : fDiv z (.nan sig) = (canonicalNaN .f32, if sig || z.isSignalling then fstIV else 0) := by
  rw [Bool.or_comm]
  cases z <;> simp only [fDiv, isSignalling_nan]

/-- Settles O13. The words are lane words whose functions the model names; each listed operand takes a branch of its function, and the angles that are whole,
even or halves are settled by their remainder modulo a turn. -/
theorem specialFunctionResults : Obligations.SpecialFunctionResults := by
  refine ⟨fun h f d a b s k w => ?words, fun neg sig bits m n e e' z hm => ?listed⟩
  case words =>
    exact ⟨leaves_lanes rfl rfl rfl, leaves_lanes rfl rfl rfl, leaves_lanes rfl rfl rfl, leaves_lanes rfl rfl rfl, leaves_lanes rfl rfl rfl,
      leaves_lanes rfl rfl rfl, leaves_lanes rfl rfl rfl, leaves_lanes rfl rfl rfl, leaves_lanes rfl rfl rfl, leaves_lanes rfl rfl rfl⟩
  case listed =>
    exact ⟨
      -- fRcp, fRsq, fSqrt
      rfl, rfl, rfl, rfl, fRsq_neg hm e, rfl, rfl, rfl, fSqrt_neg hm e, rfl,
      -- fExp2, fLog2
      rfl, rfl, rfl, rfl, fLog2_neg bits hm e, rfl,
      -- fSinpi, fCospi
      rfl, rfl, fSinpi_zero bits neg e, fCospi_zero bits neg e, fSinpi_whole bits neg m, fCospi_even bits neg m, fCospi_half bits neg n,
      -- fTanh, fLgt
      rfl, rfl, rfl, rfl,
      -- fDiv
      rfl, rfl, fDiv_by_zero neg sig hm e e', fDiv_zero_by neg sig hm e e', fDiv_inf_fin neg sig n e', fDiv_fin_inf neg sig n e,
      fDiv_nan_left sig z, fDiv_nan_right sig z,
      -- one NaN operand
      by
        simp only [List.forall_mem_cons]
        exact ⟨rfl, rfl, rfl, rfl, rfl, rfl, rfl, rfl, rfl, fun _ none => nomatch none⟩⟩

end Sys2Proof.Machine
end
